-- ==== Sys2Proof/Word.lean ====
section
/-! DEFINITION. The plain data types of the machine: register words and frames. A buffer address is a natural number: its width
`ADDR_W` is a parameter of the instance, `Params.addrW` (`00_scope.md` R7, log 7). -/

namespace Sys2Proof

/-- A register value: every register is one 32-bit word (`20_memory.md` R41). Also the width `FREQ_W` of a frequency
and `LEN_W` of a byte length (`00_scope.md` R7). -/
abbrev Word := BitVec 32

/-- A frame: one frame is one byte everywhere in the spec (`00_scope.md` R9). -/
abbrev Byte := BitVec 8

end Sys2Proof
end

