-- ==== Sys2Proof/Config.lean ====
section
/-! DEFINITION. What the spec fixes as parameters of the design (`00_scope.md` R6), and the free values: constants without a
body, of which nothing can be proved. -/

namespace Sys2Proof

/-- `FIFO_DEPTH`: capacity of each FIFO and cap of one burst (`00_scope.md` R6). -/
def Config.fifoDepth : Nat := 32

/-- `FILLER`: the byte sent for an absent TX buffer (`00_scope.md` R6). -/
def Config.filler : Byte := 0xAA#8

/-- `FRAME_BITS`: the frame size the engine programs (`00_scope.md` R6). -/
def Config.frameBits : Byte := 8#8

/-- `DIV1(G)`: the divisor the register block realises in clock mode 1 (`00_scope.md` R7, `40_clock.md` R102, decision D9).
A free value: the two places of the source disagree (`90_conflicts.md` C1) and no engine rule reads it. Log 8. -/
opaque Config.div1 : Nat → Nat

/-- The default of `ADDR_W`, the width in bits of a buffer address (`00_scope.md` R7). -/
def Config.addrW : Nat := 64

/-- What a buffer pointer holds after it is advanced past the highest address, by the width of an address. A free value: the
spec gives no wrap of an address (`10_state.md` R15, `42_fifo.md` R130, R131). Log 7. -/
opaque Config.addrPastTop : Nat → Nat

end Sys2Proof
end

