-- ==== Sys2Proof/Syntax.lean ====
section
/-! DEFINITION. The instructions of the machine, one constructor per row of `spec/opcode_table.json`, and the request record
in which an instruction reaches the engine. -/

namespace Sys2Proof

/-- The seven host commands, the interrupt event and the twelve micro-operations (`30_encoding.md` R84, R85). -/
inductive Instr where
  /-- `INIT` (`44_init_teardown.md` R150). -/
  | init
  /-- `SETUP cs, cs_high` (`45_host_operations.md` R160). -/
  | setup (cs : BitVec 3) (csHigh : Bool)
  /-- `PREPMSG mode`, the 2-bit SPI mode number (`45_host_operations.md` R161). -/
  | prepmsg (mode : BitVec 2)
  /-- `XFER len, hz, tx, rx`; an absent buffer is `none` (`45_host_operations.md` R162). -/
  | xfer (len hz : Word) (tx rx : Option Nat)
  /-- `SETCS cs, disable` (`41_config.md` R118). -/
  | setcs (cs : BitVec 3) (disable : Bool)
  /-- `FINACK` (`45_host_operations.md` R163). -/
  | finack
  /-- `TEARDOWN` (`44_init_teardown.md` R151). -/
  | teardown
  /-- `IRQ`, one interrupt service (`43_interrupt.md` R140). -/
  | irq
  /-- `CALC_CLK(target_hz, src_hz)` (`40_clock.md` R100). -/
  | calcClk (target src : Word)
  /-- `APPLY_CLK` (`40_clock.md` R103). -/
  | applyClk
  /-- `DISABLE` (`41_config.md` R110). -/
  | disable
  /-- `ENABLE` (`41_config.md` R111). -/
  | enable
  /-- `SET_FRAMESIZE(bits)` (`41_config.md` R113). -/
  | setFramesize (bits : Byte)
  /-- `SET_MODE(mode)` (`41_config.md` R114). -/
  | setMode (mode : BitVec 2)
  /-- `SET_XFER_LEN(len)` (`41_config.md` R115). -/
  | setXferLen (len : Word)
  /-- `ENABLE_INTS` (`41_config.md` R116). -/
  | enableInts
  /-- `DISABLE_INTS` (`41_config.md` R117). -/
  | disableInts
  /-- `FILL` (`42_fifo.md` R130). -/
  | fill
  /-- `DRAIN` (`42_fifo.md` R131). -/
  | drain
  /-- `ACK(bit)` (`43_interrupt.md` R141). -/
  | ack (bit : BitVec 2)
deriving DecidableEq, Repr

/-- Where a request comes from (`30_encoding.md` R84: the column "source"). -/
inductive Source where
  /-- The host's command port (`10_state.md` R30). -/
  | commandPort
  /-- The interrupt dispatcher (`10_state.md` R34). -/
  | dispatcher
  /-- The sequencer itself: a call of a micro-operation (`30_encoding.md` R85). Log 12. -/
  | sequencer
deriving DecidableEq, Repr

/-- One request: a word and the four operand registers of the command port (`30_encoding.md` R83). `TXA` and `RXA` have
`ADDR_W` bits, the engine takes that many of them (log 7). For a sequencer call the registers carry the arguments the calling
rule passes (log 12). -/
structure Request where
  source : Source
  word : Word
  len : Word
  hz : Word
  txa : Nat
  rxa : Nat
deriving DecidableEq, Repr

end Sys2Proof
end

