-- ==== Sys2Proof/Decode.lean ====
section
/-! DEFINITION. Decoding of a request into an instruction, total, rejecting by name; and the encoder, written from the same
tables (`30_encoding.md` R83 to R85, R92 to R94). -/

namespace Sys2Proof

/-- Why a request is no instruction (`30_encoding.md` R92). -/
inductive Reject where
  /-- `Z0`, bits 7:5 of a command word, is not 0. -/
  | z0NotZero
  /-- `Z1`, bits 31:16 of a command word, is not 0. -/
  | z1NotZero
  /-- A reserved opcode: 0x00, 0x09 to 0x0F, 0x1C to 0x1F. -/
  | reservedOpcode
  /-- `IRQ` (0x08) on the command port: it comes from the interrupt dispatcher only. -/
  | dispatcherOnly
  /-- A micro-operation (0x10 to 0x1B) on the command port: these are internal. -/
  | internalOnly
  /-- The dispatcher injected a code other than that of `IRQ`. -/
  | notAnEvent
  /-- The sequencer called a code other than that of a micro-operation. -/
  | notAMicroOperation
deriving DecidableEq, Repr

/-- The code field `OPC`, bits 4:0, common to all sources (R83, R84). -/
def opcOf (w : Word) : BitVec 5 := w.extractLsb' 0 5
/-- Field `Z0`, bits 7:5 (R83). -/
def z0Of (w : Word) : BitVec 3 := w.extractLsb' 5 3
/-- Field `CS`, bits 10:8 (R83). -/
def csOf (w : Word) : BitVec 3 := w.extractLsb' 8 3
/-- Field `F`, bit 11 (R83). -/
def flagOf (w : Word) : Bool := w.getLsbD 11
/-- Fields `CPOL` (bit 13) and `CPHA` (bit 12) together: the SPI mode number (R83, R87). -/
def modeOf (w : Word) : BitVec 2 := w.extractLsb' 12 2
/-- Field `TXP`, bit 14 (R83). -/
def txpOf (w : Word) : Bool := w.getLsbD 14
/-- Field `RXP`, bit 15 (R83). -/
def rxpOf (w : Word) : Bool := w.getLsbD 15
/-- Field `Z1`, bits 31:16 (R83). -/
def z1Of (w : Word) : BitVec 16 := w.extractLsb' 16 16

/-- A word of the command port (R84, R92). A field its opcode does not use is ignored (R83). -/
def decodeCommand (r : Request) : Except Reject Instr :=
  if z0Of r.word ≠ 0 then .error .z0NotZero
  else if z1Of r.word ≠ 0 then .error .z1NotZero
  else match (opcOf r.word).toNat with
    | 0x01 => .ok .init
    | 0x02 => .ok (.setup (csOf r.word) (flagOf r.word))
    | 0x03 => .ok (.prepmsg (modeOf r.word))
    | 0x04 => .ok (.xfer r.len r.hz (if txpOf r.word then some r.txa else none) (if rxpOf r.word then some r.rxa else none))
    | 0x05 => .ok (.setcs (csOf r.word) (flagOf r.word))
    | 0x06 => .ok .finack
    | 0x07 => .ok .teardown
    | 0x08 => .error .dispatcherOnly
    | n => if 0x10 ≤ n ∧ n ≤ 0x1B then .error .internalOnly else .error .reservedOpcode

/-- A dispatch code of the interrupt dispatcher: only `IRQ` (R84). -/
def decodeEvent (r : Request) : Except Reject Instr :=
  if (opcOf r.word).toNat = 0x08 then .ok .irq else .error .notAnEvent

/-- A call of the sequencer (R85). The arguments stand in the operand registers: `HZ` holds `target_hz`, `LEN` holds
`src_hz`, `len`, or, in its low bits, `bits`, `mode` or `bit`. DESIGN CHOICE, log 12. -/
def decodeMicro (r : Request) : Except Reject Instr :=
  match (opcOf r.word).toNat with
  | 0x10 => .ok (.calcClk r.hz r.len)
  | 0x11 => .ok .applyClk
  | 0x12 => .ok .disable
  | 0x13 => .ok .enable
  | 0x14 => .ok (.setFramesize (r.len.extractLsb' 0 8))
  | 0x15 => .ok (.setMode (r.len.extractLsb' 0 2))
  | 0x16 => .ok (.setXferLen r.len)
  | 0x17 => .ok .enableInts
  | 0x18 => .ok .disableInts
  | 0x19 => .ok .fill
  | 0x1A => .ok .drain
  | 0x1B => .ok (.ack (r.len.extractLsb' 0 2))
  | _ => .error .notAMicroOperation

/-- The decoder: one code space of 5 bits, read according to the source of the request (R84, R85, R92). -/
def decode (r : Request) : Except Reject Instr :=
  match r.source with
  | .commandPort => decodeCommand r
  | .dispatcher => decodeEvent r
  | .sequencer => decodeMicro r

/-- The code of an instruction in the one code space (R84, R85). -/
def Instr.code : Instr → Nat
  | .init => 0x01
  | .setup _ _ => 0x02
  | .prepmsg _ => 0x03
  | .xfer _ _ _ _ => 0x04
  | .setcs _ _ => 0x05
  | .finack => 0x06
  | .teardown => 0x07
  | .irq => 0x08
  | .calcClk _ _ => 0x10
  | .applyClk => 0x11
  | .disable => 0x12
  | .enable => 0x13
  | .setFramesize _ => 0x14
  | .setMode _ => 0x15
  | .setXferLen _ => 0x16
  | .enableInts => 0x17
  | .disableInts => 0x18
  | .fill => 0x19
  | .drain => 0x1A
  | .ack _ => 0x1B

/-- Who issues an instruction (R84, R85). -/
def Instr.source : Instr → Source
  | .init => .commandPort
  | .setup _ _ => .commandPort
  | .prepmsg _ => .commandPort
  | .xfer _ _ _ _ => .commandPort
  | .setcs _ _ => .commandPort
  | .finack => .commandPort
  | .teardown => .commandPort
  | .irq => .dispatcher
  | .calcClk _ _ => .sequencer
  | .applyClk => .sequencer
  | .disable => .sequencer
  | .enable => .sequencer
  | .setFramesize _ => .sequencer
  | .setMode _ => .sequencer
  | .setXferLen _ => .sequencer
  | .enableInts => .sequencer
  | .disableInts => .sequencer
  | .fill => .sequencer
  | .drain => .sequencer
  | .ack _ => .sequencer

/-- One bit as a word at bit position `n`. -/
def bitAt (b : Bool) (n : Nat) : Word := if b then 1#32 <<< n else 0#32

/-- A request with the given word and every operand register 0. -/
def bareRequest (src : Source) (w : Word) : Request :=
  { source := src, word := w, len := 0, hz := 0, txa := 0, rxa := 0 }

/-- The encoder: the request of an instruction, unused fields 0 (R83, R94; micro-operations: log 12). -/
def encode (i : Instr) : Request :=
  let w : Word := BitVec.ofNat 32 i.code
  let bare := bareRequest i.source w
  match i with
  | .setup cs csHigh => { bare with word := w ||| (cs.setWidth 32 <<< 8) ||| bitAt csHigh 11 }
  | .prepmsg mode => { bare with word := w ||| (mode.setWidth 32 <<< 12) }
  | .xfer len hz tx rx =>
      { bare with
        word := w ||| bitAt tx.isSome 14 ||| bitAt rx.isSome 15
        len := len, hz := hz, txa := tx.getD 0, rxa := rx.getD 0 }
  | .setcs cs disable => { bare with word := w ||| (cs.setWidth 32 <<< 8) ||| bitAt disable 11 }
  | .calcClk target src => { bare with hz := target, len := src }
  | .setFramesize bits => { bare with len := bits.setWidth 32 }
  | .setMode mode => { bare with len := mode.setWidth 32 }
  | .setXferLen len => { bare with len := len }
  | .ack bit => { bare with len := bit.setWidth 32 }
  | .init => bare
  | .finack => bare
  | .teardown => bare
  | .irq => bare
  | .applyClk => bare
  | .disable => bare
  | .enable => bare
  | .enableInts => bare
  | .disableInts => bare
  | .fill => bare
  | .drain => bare

/-- The source whose codes include the code of word `w`: one code space serves all three (R84, R85). A reserved code is
looked for on the command port, which refuses it. -/
def sourceOfWord (w : Word) : Source :=
  if (opcOf w).toNat = 0x08 then .dispatcher
  else if 0x10 ≤ (opcOf w).toNat ∧ (opcOf w).toNat ≤ 0x1B then .sequencer
  else .commandPort

/-- The bits of an opcode-table row as a request: bits 31:0 are the word, the bits above it the operand registers `LEN`,
`HZ`, `TXA`, `RXA` in that order, the addresses with the default `ADDR_W`; every bit from `nbits` on is 0. -/
def tableRequest (nbits w : Nat) : Request :=
  let b := w % 2 ^ nbits
  let word := BitVec.ofNat 32 b
  { source := sourceOfWord word
    word := word
    len := BitVec.ofNat 32 (b / 2 ^ 32)
    hz := BitVec.ofNat 32 (b / 2 ^ 64)
    txa := b / 2 ^ 96 % 2 ^ Config.addrW
    rxa := b / 2 ^ (96 + Config.addrW) % 2 ^ Config.addrW }

/-- The instruction the decoder reads from the bits of an opcode-table row, `none` where it rejects them. -/
def decodeTableWord (nbits w : Nat) : Option Instr :=
  match decode (tableRequest nbits w) with
  | .ok i => some i
  | .error _ => none

end Sys2Proof
end

