-- ==== Sys2Proof/Machine/Layout.lean ====
section
/-! DEFINITION. The registers (`20_memory.md` R42) and the layout record of their fields (`30_encoding.md` R70 to R82). -/

namespace Sys2Proof.Machine

/-- The ten registers of the block (`20_memory.md` R42). -/
inductive Reg where
  | control | frameSize | status | intClear | rxData | txData | clkGen | slaveSelect | mis | framesup
deriving DecidableEq, Repr

/-- Byte offset of a register from `REG_BASE` (R42). -/
def Reg.offset : Reg → Nat
  | .control => 0x00
  | .frameSize => 0x04
  | .status => 0x08
  | .intClear => 0x0C
  | .rxData => 0x10
  | .txData => 0x14
  | .clkGen => 0x18
  | .slaveSelect => 0x1C
  | .mis => 0x20
  | .framesup => 0x50

/-- All ten registers. -/
def Reg.all : List Reg :=
  [.control, .frameSize, .status, .intClear, .rxData, .txData, .clkGen, .slaveSelect, .mis, .framesup]

/-- The fields of `CONTROL` (`30_encoding.md` R72). -/
inductive CtlField where
  | enable | master | mode | intenRxrdy | intenTxdone | intenRxovf | intenTxunder | framecnt
  | spo | sph | sps | clkmode | bigfifo | reset
deriving DecidableEq, Repr

/-- All fields of `CONTROL`. -/
def CtlField.all : List CtlField :=
  [.enable, .master, .mode, .intenRxrdy, .intenTxdone, .intenRxovf, .intenTxunder, .framecnt,
   .spo, .sph, .sps, .clkmode, .bigfifo, .reset]

/-- Width of a `CONTROL` field: `MODE` has 2 bits, `FRAMECNT` 16, every other field one (R70 (b), (c), R72). -/
def CtlField.width : CtlField → Nat
  | .mode => 2
  | .framecnt => 16
  | .enable | .master | .intenRxrdy | .intenTxdone | .intenRxovf | .intenTxunder
  | .spo | .sph | .sps | .clkmode | .bigfifo | .reset => 1

/-- The one-bit flags of `STATUS` (`30_encoding.md` R74). -/
inductive StField where
  | rxOverflow | txUnderrun | rxfifoFull | rxfifoEmpty | txfifoFull | txfifoEmpty | active
deriving DecidableEq, Repr

/-- All flags of `STATUS`. -/
def StField.all : List StField :=
  [.rxOverflow, .txUnderrun, .rxfifoFull, .rxfifoEmpty, .txfifoFull, .txfifoEmpty, .active]

/-- The four interrupt sources (`30_encoding.md` R82). -/
inductive IntSrc where
  | txdone | rxrdy | rxovf | txunder
deriving DecidableEq, Repr

/-- All interrupt sources, in the order in which a service handles them (`43_interrupt.md` R140). -/
def IntSrc.all : List IntSrc := [.txdone, .rxrdy, .rxovf, .txunder]

/-- The enable field of an interrupt source in `CONTROL` (R82). -/
def IntSrc.inten : IntSrc → CtlField
  | .txdone => .intenTxdone
  | .rxrdy => .intenRxrdy
  | .rxovf => .intenRxovf
  | .txunder => .intenTxunder

/-- The fields of the register tables (`30_encoding.md` R72 to R82): what the layout record maps to bit ranges (R70). -/
inductive RegField where
  /-- A field of `CONTROL` (R72). -/
  | ctl (f : CtlField)
  /-- `FRAME_SIZE.SIZE` (R73). -/
  | size
  /-- A flag of `STATUS` (R74). -/
  | st (f : StField)
  /-- The bit of a source in `INT_CLEAR` (R75). -/
  | clear (k : IntSrc)
  /-- `RX_DATA.DATA` (R76). -/
  | rxData
  /-- `TX_DATA.DATA` (R77). -/
  | txData
  /-- `CLK_GEN.GEN` (R78). -/
  | gen
  /-- `SLAVE_SELECT.SSEL` (R79). -/
  | ssel
  /-- `SLAVE_SELECT.DIRECT` (R79). -/
  | direct
  /-- `SLAVE_SELECT.SSELOUT` (R79). -/
  | sselout
  /-- The bit of a source in `MIS` (R80). -/
  | mis (k : IntSrc)
  /-- `FRAMESUP.FRAMECNT_HI` (R81). -/
  | framecntHi
deriving DecidableEq, Repr

/-- The register a field belongs to (R72 to R81). -/
def RegField.reg : RegField → Reg
  | .ctl _ => .control
  | .size => .frameSize
  | .st _ => .status
  | .clear _ => .intClear
  | .rxData => .rxData
  | .txData => .txData
  | .gen => .clkGen
  | .ssel => .slaveSelect
  | .direct => .slaveSelect
  | .sselout => .slaveSelect
  | .mis _ => .mis
  | .framecntHi => .framesup

/-- The layout record `L` (R70): the lowest bit of every field whose place the spec leaves open, and the width where the spec
gives a least width only (R70 (h), (i)). `Layout.range` completes it with the ranges that rules of the spec fix. Log 9. -/
structure Layout where
  enable : Nat
  master : Nat
  mode : Nat
  intenRxrdy : Nat
  intenTxdone : Nat
  intenRxovf : Nat
  intenTxunder : Nat
  framecnt : Nat
  spo : Nat
  sph : Nat
  sps : Nat
  clkmode : Nat
  bigfifo : Nat
  reset : Nat
  stRxOverflow : Nat
  stTxUnderrun : Nat
  stRxfifoFull : Nat
  stRxfifoEmpty : Nat
  stTxfifoFull : Nat
  stTxfifoEmpty : Nat
  stActive : Nat
  size : Nat
  sizeWidth : Nat
  gen : Nat
  genWidth : Nat
  direct : Nat
  sselout : Nat
  intTxdone : Nat
  intRxrdy : Nat
  intRxovf : Nat
  intTxunder : Nat
deriving DecidableEq, Repr

/-- The default layout of the spec (R72 to R74, R78, R79, R82). The spec marks these positions as general knowledge (D5). -/
def defaultLayout : Layout :=
  { enable := 0, master := 1, mode := 2, intenRxrdy := 4, intenTxdone := 5, intenRxovf := 6, intenTxunder := 7,
    framecnt := 8, spo := 24, sph := 25, sps := 26, clkmode := 28, bigfifo := 29, reset := 31,
    stRxOverflow := 2, stTxUnderrun := 3, stRxfifoFull := 4, stRxfifoEmpty := 6, stTxfifoFull := 8,
    stTxfifoEmpty := 10, stActive := 14, size := 0, sizeWidth := 6, gen := 0, genWidth := 8, direct := 8, sselout := 9,
    intTxdone := 0, intRxrdy := 1, intRxovf := 2, intTxunder := 3 }

/-- Lowest bit of a `CONTROL` field. -/
def Layout.pos (L : Layout) : CtlField → Nat
  | .enable => L.enable
  | .master => L.master
  | .mode => L.mode
  | .intenRxrdy => L.intenRxrdy
  | .intenTxdone => L.intenTxdone
  | .intenRxovf => L.intenRxovf
  | .intenTxunder => L.intenTxunder
  | .framecnt => L.framecnt
  | .spo => L.spo
  | .sph => L.sph
  | .sps => L.sps
  | .clkmode => L.clkmode
  | .bigfifo => L.bigfifo
  | .reset => L.reset

/-- Bit of a `STATUS` flag. -/
def Layout.stPos (L : Layout) : StField → Nat
  | .rxOverflow => L.stRxOverflow
  | .txUnderrun => L.stTxUnderrun
  | .rxfifoFull => L.stRxfifoFull
  | .rxfifoEmpty => L.stRxfifoEmpty
  | .txfifoFull => L.stTxfifoFull
  | .txfifoEmpty => L.stTxfifoEmpty
  | .active => L.stActive

/-- Bit number of an interrupt source, common to `MIS`, `INT_CLEAR` and the raw latches (R70 (f), R82). -/
def Layout.intBit (L : Layout) : IntSrc → Nat
  | .txdone => L.intTxdone
  | .rxrdy => L.intRxrdy
  | .rxovf => L.intRxovf
  | .txunder => L.intTxunder

/-- The bit range of every field, as lowest bit and width (R70). Fixed by rules of the spec: `SSEL` 7:0 (R70 (d)), `FRAMECNT_HI`
31:16 (R70 (e)), and the data bytes 7:0 (R76, R77, R89). -/
def Layout.range (L : Layout) : RegField → Nat × Nat
  | .ctl f => (L.pos f, f.width)
  | .size => (L.size, L.sizeWidth)
  | .st f => (L.stPos f, 1)
  | .clear k => (L.intBit k, 1)
  | .rxData => (0, 8)
  | .txData => (0, 8)
  | .gen => (L.gen, L.genWidth)
  | .ssel => (0, 8)
  | .direct => (L.direct, 1)
  | .sselout => (L.sselout, 1)
  | .mis k => (L.intBit k, 1)
  | .framecntHi => (16, 16)

/-- Two `CONTROL` fields share no bit. -/
def Layout.apart (L : Layout) (f g : CtlField) : Bool :=
  decide (L.pos f + f.width ≤ L.pos g) || decide (L.pos g + g.width ≤ L.pos f)

/-- A legal layout (R70): fields lie within their register and do not overlap (a); the interrupt bits are four different bits
of 3:0 (f); `GEN` has at least 8 bits (h) and `SIZE` at least 4 (i); `DIRECT` and `SSELOUT` lie above `SSEL` and differ. The
points (b) to (e) and (g) of R70 hold by construction. -/
def Layout.legal (L : Layout) : Bool :=
  (CtlField.all.all fun f => decide (L.pos f + f.width ≤ 32)) &&
  (CtlField.all.all fun f => CtlField.all.all fun g => f == g || L.apart f g) &&
  (StField.all.all fun f => decide (L.stPos f < 32)) &&
  (StField.all.all fun f => StField.all.all fun g => f == g || L.stPos f != L.stPos g) &&
  (IntSrc.all.all fun k => decide (L.intBit k < 4)) &&
  (IntSrc.all.all fun k => IntSrc.all.all fun j => k == j || L.intBit k != L.intBit j) &&
  decide (4 ≤ L.sizeWidth) && decide (L.size + L.sizeWidth ≤ 32) &&
  decide (8 ≤ L.genWidth) && decide (L.gen + L.genWidth ≤ 32) &&
  decide (8 ≤ L.direct) && decide (L.direct < 32) && decide (8 ≤ L.sselout) && decide (L.sselout < 32) &&
  L.direct != L.sselout

end Sys2Proof.Machine
end

