-- ==== Sys2Proof/Machine/Bits.lean ====
section
/-! DEFINITION. Reading and writing the fields of a register word (`00_scope.md` R8: `v.F`, `v with F := x`). -/

namespace Sys2Proof.Machine

/-- A word whose low `n` bits are 1. -/
def fieldMask (n : Nat) : Word := BitVec.ofNat 32 (2 ^ n - 1)

/-- The field of width `n` at bit `p`, as an unsigned number (R8). -/
def getField (p n : Nat) (w : Word) : Word := (w >>> p) &&& fieldMask n

/-- The word with the field of width `n` at bit `p` replaced and every other bit kept (R8). -/
def setField (p n : Nat) (w v : Word) : Word :=
  (w &&& ~~~(fieldMask n <<< p)) ||| ((v &&& fieldMask n) <<< p)

/-- A bit as a word. -/
def bitWord (b : Bool) : Word := if b then 1#32 else 0#32

/-- `BIT(i)` (R8). -/
def bitMask (i : Nat) : Word := 1#32 <<< i

/-- A `CONTROL` field of a word. -/
def Layout.get (L : Layout) (f : CtlField) (w : Word) : Word := getField (L.pos f) f.width w

/-- A word with a `CONTROL` field replaced. -/
def Layout.set (L : Layout) (f : CtlField) (w v : Word) : Word := setField (L.pos f) f.width w v

/-- Whether the lowest bit of a `CONTROL` field is 1: the value of a one-bit field. -/
def Layout.test (L : Layout) (f : CtlField) (w : Word) : Bool := w.getLsbD (L.pos f)

/-- A word with a `STATUS` flag replaced. -/
def Layout.stSet (L : Layout) (f : StField) (w : Word) (b : Bool) : Word := setField (L.stPos f) 1 w (bitWord b)

/-- A `STATUS` flag of a word. -/
def Layout.stTest (L : Layout) (f : StField) (w : Word) : Bool := w.getLsbD (L.stPos f)

/-- The mask `INTEN`: the four interrupt-enable fields of `CONTROL` together (`30_encoding.md` R72). -/
def Layout.intenMask (L : Layout) : Word :=
  bitMask (L.pos .intenRxrdy) ||| bitMask (L.pos .intenTxdone) ||| bitMask (L.pos .intenRxovf) |||
    bitMask (L.pos .intenTxunder)

/-- The bits of `FRAME_SIZE.SIZE`; `0x3F` by the default layout (`30_encoding.md` R73). -/
def Layout.sizeMask (L : Layout) : Word := fieldMask L.sizeWidth <<< L.size

/-- The bits of `CLK_GEN.GEN`; `0xFF` by the default layout (`30_encoding.md` R78). -/
def Layout.genMask (L : Layout) : Word := fieldMask L.genWidth <<< L.gen

/-- The word `DIRECT | SSELOUT` (`30_encoding.md` R79). -/
def Layout.directWord (L : Layout) : Word := bitMask L.direct ||| bitMask L.sselout

/-- The named bits of `SLAVE_SELECT`: `SSEL`, `DIRECT`, `SSELOUT`; `0x3FF` by the default layout (R79). DEDUCED, log 9: the mask
`0x3FF` of `46_spi_core_agent.md` R171 and the bits 9:0 of R179 (E4) are read, for any other legal layout, as the named bits. -/
def Layout.sselMask (L : Layout) : Word := 0xFF#32 ||| L.directWord

end Sys2Proof.Machine
end

