-- ==== Sys2Proof/Machine/Memory.lean ====
section
/-! DEFINITION. The host's buffer memory (`20_memory.md` R40 (2), R53): the bytes the host has lent, by address. -/

namespace Sys2Proof.Machine

/-- Buffer memory as address and byte pairs, addresses strictly rising. A listed address is one the host has lent; an
unlisted address reads as no value (log 6), so no listed entry can equal it. -/
abbrev Memory := List Host.Cell

/-- The canonical form for addresses of `w` bits: strictly rising, and below `2 ^ w`. -/
def Memory.wf (w : Nat) : Memory → Bool
  | [] => true
  | [(a, _)] => decide (a < 2 ^ w)
  | (a, _) :: (a', b') :: m => decide (a < a') && Memory.wf w ((a', b') :: m)

/-- The byte at an address, `none` where the host has lent none. -/
def Memory.read : Memory → Nat → Option Byte
  | [], _ => none
  | (a, b) :: m, x => if x = a then some b else Memory.read m x

/-- The memory with a byte stored at an address, in canonical form. -/
def Memory.write : Memory → Nat → Byte → Memory
  | [], x, v => [(x, v)]
  | (a, b) :: m, x, v =>
    if x < a then (x, v) :: (a, b) :: m
    else if x = a then (x, v) :: m
    else (a, b) :: Memory.write m x v

/-- The memory without an address: the host takes the byte back. -/
def Memory.remove : Memory → Nat → Memory
  | [], _ => []
  | (a, b) :: m, x => if x = a then m else (a, b) :: Memory.remove m x

/-- A number as a buffer address of `w` bits: its low `w` bits (`00_scope.md` R7). Log 7. -/
def bufAddr (w : Nat) (a : Nat) : Nat := a % 2 ^ w

/-- The address of `w` bits after `a`. Past the highest address it is a free value (log 7). -/
def nextAddr (w : Nat) (a : Nat) : Nat := if a + 1 < 2 ^ w then a + 1 else bufAddr w (Config.addrPastTop w)

/-- The address of `w` bits that is `k` bytes on from `a`. -/
def advance (w : Nat) : Nat → Nat → Nat
  | 0, a => a
  | k + 1, a => advance w k (nextAddr w a)

end Sys2Proof.Machine
end

