-- ==== Sys2Proof/Machine/State.lean ====
section
/-! DEFINITION. The state of the machine as plain data (`10_state.md`, `46_spi_core_agent.md` R170), its reset, and the
reasons a step can stop. -/

namespace Sys2Proof.Machine

/-- No machine fault exists: the engine has no traps, and every error kind of the spec is an output of a next state
(`60_exceptions.md` R190). The type has no constructor, so no step ends in a fault. Log 19. -/
inductive Fault where
deriving DecidableEq, Repr

/-- Why the model refuses to go on. -/
inductive Refusal where
  /-- Raised by an arm of `exec` without a meaning, of which there is none. Safe: the model stops. -/
  | notModelled (mnemonic : String)
  /-- Raised by `bufRead`: the engine reads a buffer byte the host has not lent. `20_memory.md` R53, decision D30: what host
  memory does on a bad address is outside the spec and a model refuses it. Safe: the model stops. Log 6. -/
  | bufReadNotLent (a : Nat)
  /-- Raised by `bufWrite`: the engine stores to a buffer byte the host has not lent. R53, D30, as above. Safe. Log 6. -/
  | bufWriteNotLent (a : Nat)
deriving DecidableEq, Repr

/-- The state-machine variable `state` (`10_state.md` R16). -/
inductive Phase where
  | idle | transferring | completing
deriving DecidableEq, Repr

/-- The lifecycle `live` of the instance (`10_state.md` R17). -/
inductive Live where
  | created | ready | removed
deriving DecidableEq, Repr

/-- Result port codes (`30_encoding.md` R91), in the order of their numbers 0 to 3. -/
inductive ResultCode where
  | ok | inProgress | invalidFrequency | refused
deriving DecidableEq, Repr

/-- The one-bit interrupt result (`30_encoding.md` R91): 0 `NONE`, 1 `HANDLED`. -/
inductive IrqResult where
  | none | handled
deriving DecidableEq, Repr

/-- The two asynchronous faults of the register block: kinds of the error log (`10_state.md` R21) and of `CORE_FAULT`
(`46_spi_core_agent.md` R175). -/
inductive ErrKind where
  | rxOverflow | txUnderrun
deriving DecidableEq, Repr

/-- One entry of the device error log (`10_state.md` R21). -/
structure ErrEntry where
  kind : ErrKind
  rxLen : Nat
  txLen : Nat
deriving DecidableEq, Repr

/-- The engine's record (`10_state.md` R10 to R18, R21). -/
structure Engine where
  /-- `clk_gen` (R11). -/
  clkGen : Nat
  /-- `clk_mode`: true is mode 1 (R12). -/
  clkMode : Bool
  /-- `tx_len` (R13). -/
  txLen : Nat
  /-- `rx_len` (R13). -/
  rxLen : Nat
  /-- `pending`, signed, never clamped (R14). -/
  pending : Int
  /-- `tx_buf`, `none` for `ABSENT` (R15). -/
  txBuf : Option Nat
  /-- `rx_buf`, `none` for `ABSENT` (R15). -/
  rxBuf : Option Nat
  /-- `state` (R16). -/
  state : Phase
  /-- `live` (R17). -/
  live : Live
  /-- `max_speed_hz` (R18). -/
  maxSpeedHz : Word
  /-- `finished` (R21). -/
  finished : Nat
  /-- `errlog`, oldest first (R21). -/
  errlog : List ErrEntry
deriving DecidableEq, Repr

/-- The register block (`10_state.md` R22 to R24, `46_spi_core_agent.md` R170). -/
structure Block where
  control : Word
  frameSize : Word
  clkGen : Word
  /-- The stored word of `SLAVE_SELECT`. -/
  ssel : Word
  framesup : Word
  /-- TX FIFO, oldest frame first. -/
  txq : List Byte
  /-- RX FIFO, oldest frame first. -/
  rxq : List Byte
  /-- The raw interrupt latches `ris[3:0]`. -/
  ris : BitVec 4
  framesSent : Nat
  /-- The bytes shifted out so far, oldest first: an observation aid (R170). -/
  wire : List Byte
  /-- The MODEL's own field: what reads the spec leaves at "any value" answer (U3, U5, U6, U19); 0 in the reference core.
  Log 10. -/
  openWord : Word
deriving DecidableEq, Repr

/-- The clock service (`10_state.md` R36): the rate it answers now, and whether the clock resource is held. -/
structure Clock where
  hz : Word
  held : Bool
deriving DecidableEq, Repr

/-- The parameters of the instance, changed by no step (`00_scope.md` R7, `10_state.md` R18). Log 18. -/
structure Params where
  layout : Layout
  /-- `NUM_CS`. -/
  numCs : Nat
  /-- `REG_BASE`, a bus address. DESIGN CHOICE, log 18: the spec gives a bus address no width, and none is taken. -/
  regBase : Nat
  /-- `ADDR_W`, the width in bits of a buffer address. -/
  addrW : Nat
  /-- `ZERO_LEN_TXDONE`. -/
  zeroLenTxdone : Bool
deriving DecidableEq, Repr

/-- What the parameters must satisfy: a legal layout (`30_encoding.md` R70), `NUM_CS` in 1..8 (`00_scope.md` R7), `REG_BASE`
a multiple of 4 (`20_memory.md` R51). -/
def Params.legal (p : Params) : Bool :=
  p.layout.legal && decide (1 ≤ p.numCs) && decide (p.numCs ≤ 8) && decide (p.regBase % 4 = 0)

/-- One access or emission on a port of the engine (`10_state.md` R32, R33, R35, R36). -/
inductive PortEvent where
  /-- `RegRead` and the value answered. -/
  | regRead (r : Reg) (v : Word)
  /-- `RegWrite` and the value written. -/
  | regWrite (r : Reg) (v : Word)
  /-- `BufRead` and the byte read. -/
  | bufRead (a : Nat) (b : Byte)
  /-- `BufWrite` and the byte stored. -/
  | bufWrite (a : Nat) (b : Byte)
  /-- `ClockRate()` and its answer. -/
  | clockRate (hz : Word)
  /-- `ClockRelease()`. -/
  | clockRelease
  /-- `emit Finished`. -/
  | emitFinished
  /-- `emit Error`. -/
  | emitError (e : ErrEntry)
deriving DecidableEq, Repr

/-- A step of an agent other than the engine, which may come before any access of the engine and between its operations. -/
inductive EnvEvent where
  /-- `CORE_SHIFT(r)` (`46_spi_core_agent.md` R174). -/
  | shift (r : Byte)
  /-- `CORE_FAULT(k)` (R175). -/
  | fault (k : ErrKind)
  /-- An envelope step, not one of the reference core: any raw latch is set while the controller is enabled (R179 (E6)). -/
  | latch (k : IntSrc)
  /-- The value that "any value" reads answer changes (log 10). -/
  | openWord (w : Word)
  /-- The clock service's rate changes (`10_state.md` R25, R36). -/
  | clockHz (hz : Word)
  /-- The host lends a byte, or writes a lent byte (`20_memory.md` R53, R59). -/
  | hostWrite (a : Nat) (b : Byte)
  /-- The host takes a byte back. -/
  | hostFree (a : Nat)
  /-- Another device asserts or releases the shared interrupt line (`60_exceptions.md` R196). -/
  | otherIrq (b : Bool)
deriving DecidableEq, Repr

/-- What can happen next between two operations of the engine (log 1). -/
inductive Input where
  /-- A command, an interrupt start, or a call of a micro-operation. -/
  | request (r : Request)
  /-- A step of another agent. -/
  | env (e : EnvEvent)
  /-- The engine's reset event (`70_reset_and_hazards.md` R220), with the contents the register block has after it, which
  the spec leaves open (R27, R222). Log 17. -/
  | reset (b : Block)
deriving DecidableEq, Repr

/-- The whole machine. -/
structure State where
  params : Params
  eng : Engine
  blk : Block
  clock : Clock
  /-- The bytes the host has lent (`20_memory.md` R53). -/
  mem : Memory
  /-- The last result code given on the result port (`10_state.md` R31). -/
  result : Option ResultCode
  /-- The last interrupt result given to the dispatcher (`10_state.md` R34). -/
  irqResult : Option IrqResult
  /-- The MODEL's own field: the answer of the last micro-operation run on its own (log 12). -/
  callResult : Option ResultCode
  /-- Whether another device asserts the shared interrupt line. -/
  otherIrq : Bool
  /-- The MODEL's own field: every port access and emission so far, oldest first (log 15). -/
  ports : List PortEvent
  /-- The MODEL's own field: what happens next between operations, first entry first (log 1). -/
  inputs : List Input
  /-- The MODEL's own field: what other agents do before the coming accesses, one entry per access (log 2). -/
  env : List (List EnvEvent)
deriving DecidableEq, Repr

/-- The engine's record right after reset (`10_state.md` R26, `70_reset_and_hazards.md` R220). -/
def Engine.reset : Engine :=
  { clkGen := 0, clkMode := false, txLen := 0, rxLen := 0, pending := 0, txBuf := none, rxBuf := none,
    state := .idle, live := .created, maxSpeedHz := 0, finished := 0, errlog := [] }

/-- The register block at `State.reset`. The spec leaves every value open (R27, R222). DESIGN CHOICE, log 3. -/
def Block.reset : Block :=
  { control := 0x80000000#32, frameSize := 0, clkGen := 0, ssel := 0, framesup := 0, txq := [], rxq := [], ris := 0,
    framesSent := 0, wire := [], openWord := 0 }

/-- The parameters at `State.reset`: the spec's defaults (`00_scope.md` R7); `REG_BASE` has none, DESIGN CHOICE 0. Log 18. -/
def Params.default : Params :=
  { layout := defaultLayout, numCs := 8, regBase := 0, addrW := Config.addrW, zeroLenTxdone := false }

/-- The machine right after reset: the engine record of R26; the rest as the log names it (logs 3, 5, 6, 14, 16, 18). -/
def State.reset : State :=
  { params := Params.default, eng := Engine.reset, blk := Block.reset, clock := { hz := 0, held := true }, mem := [],
    result := none, irqResult := none, callResult := none, otherIrq := false, ports := [], inputs := [], env := [] }

end Sys2Proof.Machine
end

