-- ==== Sys2Proof/Machine/Flags.lean ====
section
/-! DEFINITION. Every flag and condition (`10_state.md` R20): the `STATUS` word, the masked interrupt status, the interrupt
line, the frame count, and the tests the engine makes. -/

namespace Sys2Proof.Machine

/-- Mask of an interrupt source among the four bits of `MIS`, `INT_CLEAR` and `ris` (`30_encoding.md` R82). -/
def intMask (L : Layout) (k : IntSrc) : BitVec 4 := 1#4 <<< L.intBit k

/-- The interrupt source of a fault kind (`46_spi_core_agent.md` R175). -/
def ErrKind.src : ErrKind → IntSrc
  | .rxOverflow => .rxovf
  | .txUnderrun => .txunder

/-- `CONTROL.ENABLE` of the block. -/
def Block.enabled (L : Layout) (b : Block) : Bool := L.test .enable b.control

/-- Whether one raw latch is set. -/
def Block.latched (L : Layout) (b : Block) (k : IntSrc) : Bool := b.ris.getLsbD (L.intBit k)

/-- The frame count a `CONTROL` word gives together with the stored `FRAMESUP` (`20_memory.md` R47, R174). -/
def frameCount (L : Layout) (b : Block) (control : Word) : Nat :=
  ((b.framesup &&& 0xFFFF0000#32) ||| L.get .framecnt control).toNat

/-- `STATUS.TXFIFO_FULL`: the TX FIFO holds 32 frames (R74, R172). -/
def Block.txFull (b : Block) : Bool := decide (b.txq.length = Config.fifoDepth)

/-- `STATUS.RXFIFO_EMPTY`: the RX FIFO holds none (R74, R172). -/
def Block.rxEmpty (b : Block) : Bool := decide (b.rxq.length = 0)

/-- The `STATUS` word (R172). The bits no field covers read as `openWord` does (U6); in the reference core that is 0. -/
def statusWord (L : Layout) (b : Block) : Word :=
  let w := b.openWord
  let w := L.stSet .txfifoFull w b.txFull
  let w := L.stSet .txfifoEmpty w (decide (b.txq.length = 0))
  let w := L.stSet .rxfifoFull w (decide (b.rxq.length = Config.fifoDepth))
  let w := L.stSet .rxfifoEmpty w b.rxEmpty
  let w := L.stSet .rxOverflow w (b.latched L .rxovf)
  let w := L.stSet .txUnderrun w (b.latched L .txunder)
  L.stSet .active w false

/-- `inten`: the four interrupt enables of `CONTROL`, by interrupt bit number (`46_spi_core_agent.md` R173). -/
def intenBits (L : Layout) (control : Word) : BitVec 4 :=
  (if L.test .intenTxdone control then intMask L .txdone else 0#4) |||
  (if L.test .intenRxrdy control then intMask L .rxrdy else 0#4) |||
  (if L.test .intenRxovf control then intMask L .rxovf else 0#4) |||
  (if L.test .intenTxunder control then intMask L .txunder else 0#4)

/-- The four relevant bits of `MIS`: `ris & inten` (R173). -/
def misBits (L : Layout) (b : Block) : BitVec 4 := b.ris &&& intenBits L b.control

/-- The word `MIS` reads. Bits 31:4 are not relevant (`30_encoding.md` R80) and read as `openWord` does (U6); in the reference
core that is 0. -/
def misWord (L : Layout) (b : Block) : Word := (b.openWord &&& 0xFFFFFFF0#32) ||| (misBits L b).setWidth 32

/-- The level the block drives on the interrupt line (R176). -/
def coreIrqLine (L : Layout) (b : Block) : Bool := misBits L b != 0#4

/-- The shared interrupt line: this block's level or another device's (`60_exceptions.md` R196). -/
def irqLine (s : State) : Bool := coreIrqLine s.params.layout s.blk || s.otherIrq

/-- One of the four bits of a masked interrupt status word (`43_interrupt.md` R140: `f[INT_...]`). -/
def irqBit (L : Layout) (f : Word) (k : IntSrc) : Bool := f.getLsbD (L.intBit k)

end Sys2Proof.Machine
end

