-- ==== Sys2Proof/Machine/Block.lean ====
section
/-! DEFINITION. The register block as an agent: the reference core (`46_spi_core_agent.md` R170 to R177), and the envelope's
spontaneous latch (R179 (E6)). Log 11. -/

namespace Sys2Proof.Machine

/-- The word `CONTROL` stores for a write of `v`: while `ENABLE` is 1 the locked fields `FRAMECNT`, `SPO`, `SPH` keep their
present values (`20_memory.md` R46, R171). -/
def lockedControl (L : Layout) (old v : Word) : Word :=
  if L.test .enable old then
    L.set .framecnt (L.set .spo (L.set .sph v (L.get .sph old)) (L.get .spo old)) (L.get .framecnt old)
  else v

/-- The block with a raw latch set. -/
def Block.setLatch (L : Layout) (b : Block) (k : IntSrc) : Block := { b with ris := b.ris ||| intMask L k }

/-- `CORE_WRITE` to `CONTROL` (R171, R177): a write that takes `ENABLE` from 0 to 1 restarts the frame counter and, by the
parameter `ZERO_LEN_TXDONE`, raises TX-done for a frame count of 0. -/
def writeControl (p : Params) (b : Block) (v : Word) : Block :=
  let v' := lockedControl p.layout b.control v
  let b' := { b with control := v' }
  if !b.enabled p.layout && p.layout.test .enable v' then
    let b' := { b' with framesSent := 0 }
    if p.zeroLenTxdone && decide (frameCount p.layout b v' = 0) then b'.setLatch p.layout .txdone else b'
  else b'

/-- `CORE_WRITE(off, v)` by register (R171). A write to a read-only register has no effect (`20_memory.md` R44). -/
def blockWrite (p : Params) (b : Block) (r : Reg) (v : Word) : Block :=
  match r with
  | .control => writeControl p b v
  | .frameSize => if b.enabled p.layout then b else { b with frameSize := v &&& p.layout.sizeMask }
  | .intClear => { b with ris := b.ris &&& ~~~(v.extractLsb' 0 4) }
  | .txData => if b.txq.length < Config.fifoDepth then { b with txq := b.txq ++ [v.extractLsb' 0 8] } else b
  | .clkGen => { b with clkGen := v &&& p.layout.genMask }
  | .slaveSelect => { b with ssel := v &&& p.layout.sselMask }
  | .framesup => if b.enabled p.layout then b else { b with framesup := v &&& 0xFFFF0000#32 }
  | .status => b
  | .mis => b
  | .rxData => b

/-- The word a read of a register answers (R172, R173). Where the spec says "any value" the answer is `openWord` or holds its
bits (U3, U5, U6, U19); in the reference core it is 0. Log 10. -/
def blockReadValue (p : Params) (b : Block) (r : Reg) : Word :=
  match r with
  | .control => b.control
  | .status => statusWord p.layout b
  | .rxData =>
    match b.rxq with
    | [] => b.openWord
    | x :: _ => (b.openWord &&& 0xFFFFFF00#32) ||| x.setWidth 32
  | .slaveSelect => (b.openWord &&& ~~~p.layout.sselMask) ||| b.ssel
  | .mis => misWord p.layout b
  | .frameSize => b.frameSize
  | .clkGen => b.clkGen
  | .intClear => b.openWord
  | .txData => b.openWord
  | .framesup => b.openWord

/-- What a read does in the block: a read of `RX_DATA` removes the oldest frame, no other read has an effect
(`20_memory.md` R43, R172). -/
def blockReadEffect (b : Block) (r : Reg) : Block :=
  match r with
  | .rxData => { b with rxq := b.rxq.tail }
  | .control | .status | .slaveSelect | .mis | .frameSize | .clkGen | .intClear | .txData | .framesup => b

/-- The guard of `CORE_SHIFT` (R174). -/
def canShift (L : Layout) (b : Block) : Bool :=
  b.enabled L && !L.test .reset b.control && !b.txq.isEmpty && decide (b.framesSent < frameCount L b b.control)

/-- The received byte `r` enters the RX FIFO, or is lost and raises RX-overflow when the FIFO is full (R174). -/
def receiveFrame (L : Layout) (b : Block) (r : Byte) : Block :=
  if b.rxq.length < Config.fifoDepth then { b with rxq := b.rxq ++ [r] } else b.setLatch L .rxovf

/-- `CORE_SHIFT(r)`: one frame is exchanged; without effect where its guard fails (R174, log 2). -/
def coreShift (L : Layout) (b : Block) (r : Byte) : Block :=
  if canShift L b then
    let b := { b with wire := b.wire ++ b.txq.take 1, txq := b.txq.tail }
    let b := receiveFrame L b r
    let b := b.setLatch L .rxrdy
    let b := { b with framesSent := b.framesSent + 1 }
    if b.framesSent = frameCount L b b.control then b.setLatch L .txdone else b
  else b

/-- A raw latch is raised while the controller is enabled; without effect otherwise. With a fault source this is
`CORE_FAULT(k)` (R175); with any source it is the envelope's step (R179 (E6)). -/
def raiseLatch (L : Layout) (b : Block) (k : IntSrc) : Block := if b.enabled L then b.setLatch L k else b

/-- The register at a byte offset of the window, `none` where none is listed (`20_memory.md` R42, R45). -/
def Reg.ofOffset (off : Nat) : Option Reg := Reg.all.find? fun r => r.offset == off

/-- The bus address of a register (`20_memory.md` R40 (1)). DESIGN CHOICE, log 18: the spec gives `REG_BASE` and a bus address
no width and says nothing of a window that reaches past a highest address, so a bus address is a natural number and the sum
of base and offset neither wraps nor overflows. -/
def Params.regAddr (p : Params) (r : Reg) : Nat := p.regBase + r.offset

/-- The register a bus address selects; `none` refuses a misaligned or unlisted address (`20_memory.md` R45, R51). -/
def busTarget (p : Params) (a : Nat) : Option Reg :=
  if p.regBase ≤ a ∧ a % 4 = 0 then Reg.ofOffset (a - p.regBase) else none

/-- `CORE_READ` at a bus address: the word answered and the block after it; `none` where the access is refused (R172). -/
def coreRead (p : Params) (b : Block) (a : Nat) : Option (Word × Block) :=
  match busTarget p a with
  | some r => some (blockReadValue p b r, blockReadEffect b r)
  | none => none

/-- `CORE_WRITE` at a bus address; `none` where the access is refused (R171). -/
def coreWrite (p : Params) (b : Block) (a : Nat) (v : Word) : Option Block :=
  match busTarget p a with
  | some r => some (blockWrite p b r v)
  | none => none

end Sys2Proof.Machine
end

