-- ==== Sys2Proof/Machine/Operands.lean ====
section
/-! DEFINITION. Operand assembly: the register words the engine builds from operands (`30_encoding.md` R86 to R90). -/

namespace Sys2Proof.Machine

/-- `zext_32(b)` (`00_scope.md` R8, R89): a data byte as a register word. -/
def zext32 (b : Byte) : Word := b.setWidth 32

/-- The data byte of a word read from `RX_DATA`: bits 7:0 (R89). -/
def dataByte (v : Word) : Byte := v.extractLsb' 0 8

/-- The low half of a transfer length, for `CONTROL.FRAMECNT` (R86). -/
def lenLow (len : Word) : Word := len &&& 0xFFFF#32

/-- The word written to `FRAMESUP` for a transfer length (R86). -/
def lenHigh (len : Word) : Word := len &&& 0xFFFF0000#32

/-- A `CONTROL` word with the SPI mode in it: `SPO` is CPOL, bit 1 of the mode number, `SPH` is CPHA, bit 0 (R87). -/
def withMode (L : Layout) (c : Word) (mode : BitVec 2) : Word :=
  L.set .sph (L.set .spo c (bitWord (mode.getLsbD 1))) (bitWord (mode.getLsbD 0))

/-- The single bit of `SLAVE_SELECT.SSEL` of a chip-select index (R88). -/
def csMask (cs : BitVec 3) : Word := bitMask cs.toNat

/-- The `SLAVE_SELECT` word of `SETCS`: the bit becomes the complement of `disable`, every other bit stays
(`41_config.md` R118). -/
def withCs (w : Word) (cs : BitVec 3) (disable : Bool) : Word :=
  (w &&& ~~~csMask cs) ||| (if disable then 0#32 else csMask cs)

/-- The word written to `CLK_GEN` (R90). -/
def clkGenWord (g : Nat) : Word := BitVec.ofNat 32 g

end Sys2Proof.Machine
end

