-- ==== Sys2Proof/Machine/Ops.lean ====
section
/-! DEFINITION. The shared operations over registers, buffer memory and ports: the steps of the other agents, one bus access,
one buffer access, the clock service, and what an interrupt service emits. -/

namespace Sys2Proof.Machine

/-- The outcome of a stage of an operation that answers a value. -/
abbrev Answer (α : Type) := Host.Outcome (α × State) Fault Refusal

/-- The outcome of an operation. -/
abbrev Result := Host.Outcome State Fault Refusal

/-- Goes on with the next stage where the first has answered, and stops where it has stopped. -/
def andThen {α β : Type} (o : Host.Outcome α Fault Refusal) (k : α → Host.Outcome β Fault Refusal) :
    Host.Outcome β Fault Refusal :=
  match o with
  | .next a => k a
  | .fault r => .fault r
  | .refused r => .refused r

/-! ### The other agents -/

/-- One step of an agent other than the engine. A core step whose guard fails has no effect (log 2). -/
def applyEnv (s : State) (e : EnvEvent) : State :=
  match e with
  | .shift r => { s with blk := coreShift s.params.layout s.blk r }
  | .fault k => { s with blk := raiseLatch s.params.layout s.blk k.src }
  | .latch k => { s with blk := raiseLatch s.params.layout s.blk k }
  | .openWord w => { s with blk := { s.blk with openWord := w } }
  | .clockHz hz => { s with clock := { s.clock with hz := hz } }
  | .hostWrite a b => { s with mem := s.mem.write (bufAddr s.params.addrW a) b }
  | .hostFree a => { s with mem := s.mem.remove (bufAddr s.params.addrW a) }
  | .otherIrq b => { s with otherIrq := b }

/-- What the other agents do just before one access of the engine (`20_memory.md` R56, `46_spi_core_agent.md` R170). -/
def tick (s : State) : State :=
  match s.env with
  | [] => s
  | es :: rest => es.foldl applyEnv { s with env := rest }

/-- The state with one more entry in the record of port accesses. -/
def State.record (s : State) (e : PortEvent) : State := { s with ports := s.ports ++ [e] }

/-! ### The register bus -/

/-- The word `RegRead(r)` answers (`00_scope.md` R8). -/
def readWord (r : Reg) (s : State) : Word := blockReadValue (tick s).params (tick s).blk r

/-- The state after `RegRead(r)` (`00_scope.md` R8, `10_state.md` R32). -/
def afterRead (r : Reg) (s : State) : State :=
  let t := tick s
  { t with blk := blockReadEffect t.blk r }.record (.regRead r (readWord r s))

/-- `RegWrite(r, v)` (`00_scope.md` R8, `10_state.md` R32). -/
def regWrite (r : Reg) (v : Word) (s : State) : State :=
  let t := tick s
  { t with blk := blockWrite t.params t.blk r v }.record (.regWrite r v)

/-- A read-modify-write of a register: two accesses (`20_memory.md` R52). -/
def rmw (r : Reg) (f : Word → Word) (s : State) : State := regWrite r (f (readWord r s)) (afterRead r s)

/-! ### The buffer port -/

/-- `BufRead(a)`: the byte at a buffer address (`00_scope.md` R8, `10_state.md` R33). An address the host has not lent is
refused (`20_memory.md` R53). -/
def bufRead (a : Nat) (s : State) : Answer Byte :=
  let t := tick s
  match t.mem.read a with
  | some b => .next (b, t.record (.bufRead a b))
  | none => .refused (.bufReadNotLent a)

/-- `BufWrite(a, b)`: stores a byte at a buffer address (R8, R33, R53). -/
def bufWrite (a : Nat) (b : Byte) (s : State) : Result :=
  let t := tick s
  match t.mem.read a with
  | some _ => .next ({ t with mem := t.mem.write a b }.record (.bufWrite a b))
  | none => .refused (.bufWriteNotLent a)

/-! ### The clock service -/

/-- The rate `ClockRate()` answers (`10_state.md` R36). -/
def clockAnswer (s : State) : Word := (tick s).clock.hz

/-- The state after `ClockRate()`. -/
def afterClockRate (s : State) : State := (tick s).record (.clockRate (clockAnswer s))

/-- `ClockRelease()` (R36). -/
def clockRelease (s : State) : State :=
  let t := tick s
  { t with clock := { t.clock with held := false } }.record .clockRelease

/-! ### Results and emissions -/

/-- Gives a result code on the result port (`10_state.md` R31). -/
def respond (c : ResultCode) (s : State) : State := { s with result := some c }

/-- Gives an interrupt result to the dispatcher (`10_state.md` R34). -/
def respondIrq (c : IrqResult) (s : State) : State := { s with irqResult := some c }

/-- Answers a call of a micro-operation (log 12). -/
def respondCall (c : ResultCode) (s : State) : State := { s with callResult := some c }

/-- `emit Error(kind, rx_len, tx_len)` (`00_scope.md` R8, `10_state.md` R21). -/
def emitError (k : ErrKind) (s : State) : State :=
  let e : ErrEntry := { kind := k, rxLen := s.eng.rxLen, txLen := s.eng.txLen }
  { s with eng := { s.eng with errlog := s.eng.errlog ++ [e] } }.record (.emitError e)

/-- The end of a service that finalises: `state` becomes `COMPLETING`, both buffer pointers are dropped, `emit Finished`
(`43_interrupt.md` R140). The one shared completion, clean or forced. -/
def finalise (s : State) : State :=
  { s with eng := { s.eng with
      state := .completing, txBuf := none, rxBuf := none, finished := s.eng.finished + 1 } }.record .emitFinished

end Sys2Proof.Machine
end

