-- ==== Sys2Proof/Machine/Configuration.lean ====
section
/-! DEFINITION. The configuration operations (`41_config.md`): `DISABLE`, `ENABLE`, `SET_FRAMESIZE`, `SET_MODE`,
`SET_XFER_LEN`, `ENABLE_INTS`, `DISABLE_INTS`, and the host command `SETCS`. -/

namespace Sys2Proof.Machine

/-- `DISABLE` (`41_config.md` R110). -/
def disableCtl (s : State) : State := rmw .control (fun c => s.params.layout.set .enable c 0#32) s

/-- `ENABLE` (`41_config.md` R111). -/
def enableCtl (s : State) : State := rmw .control (fun c => s.params.layout.set .enable c 1#32) s

/-- `SET_FRAMESIZE(bits)` for an admitted operand (`41_config.md` R113). -/
def setFrameSize (bits : Byte) (s : State) : State := enableCtl (regWrite .frameSize (zext32 bits) (disableCtl s))

/-- `SET_MODE(mode)` (`41_config.md` R114). -/
def setSpiMode (mode : BitVec 2) (s : State) : State :=
  enableCtl (rmw .control (fun c => withMode s.params.layout c mode) (disableCtl s))

/-- `SET_XFER_LEN(len)` (`41_config.md` R115, `30_encoding.md` R86). -/
def setTransferLen (len : Word) (s : State) : State :=
  let s := disableCtl s
  let s := rmw .control (fun c => s.params.layout.set .framecnt c (lenLow len)) s
  let s := regWrite .framesup (lenHigh len) s
  enableCtl s

/-- `ENABLE_INTS` (`41_config.md` R116). -/
def enableInterrupts (s : State) : State :=
  enableCtl (rmw .control (fun c => c ||| s.params.layout.intenMask) (disableCtl s))

/-- `DISABLE_INTS` (`41_config.md` R117). -/
def disableInterrupts (s : State) : State :=
  enableCtl (rmw .control (fun c => c &&& ~~~s.params.layout.intenMask) (disableCtl s))

/-- Whether a chip-select index is below `NUM_CS` (`30_encoding.md` R88, R92). -/
def csAdmitted (cs : BitVec 3) (s : State) : Bool := decide (cs.toNat < s.params.numCs)

/-- `DISABLE` called on its own (`41_config.md` R110). -/
def execDisable (s : State) : Result := .next (respondCall .ok (disableCtl s))

/-- `ENABLE` called on its own (`41_config.md` R111). -/
def execEnable (s : State) : Result := .next (respondCall .ok (enableCtl s))

/-- `SET_FRAMESIZE` called on its own: 8 bits only, any other operand is refused with no access (`41_config.md` R113,
decision D15, log 13). -/
def execSetFramesize (bits : Byte) (s : State) : Result :=
  if bits = Config.frameBits then .next (respondCall .ok (setFrameSize bits s)) else .next (respondCall .refused s)

/-- `SET_MODE` called on its own (`41_config.md` R114). -/
def execSetMode (mode : BitVec 2) (s : State) : Result := .next (respondCall .ok (setSpiMode mode s))

/-- `SET_XFER_LEN` called on its own (`41_config.md` R115). -/
def execSetXferLen (len : Word) (s : State) : Result := .next (respondCall .ok (setTransferLen len s))

/-- `ENABLE_INTS` called on its own (`41_config.md` R116). -/
def execEnableInts (s : State) : Result := .next (respondCall .ok (enableInterrupts s))

/-- `DISABLE_INTS` called on its own (`41_config.md` R117). -/
def execDisableInts (s : State) : Result := .next (respondCall .ok (disableInterrupts s))

/-- `SETCS cs, disable` (`41_config.md` R118): refused unless `live = READY` and the index is below `NUM_CS` (R92, R164). -/
def execSetcs (cs : BitVec 3) (disable : Bool) (s : State) : Result :=
  if s.eng.live = .ready ∧ csAdmitted cs s = true then
    .next (respond .ok (rmw .slaveSelect (fun w => withCs w cs disable) s))
  else .next (respond .refused s)

end Sys2Proof.Machine
end

