-- ==== Sys2Proof/Machine/Clock.lean ====
section
/-! DEFINITION. The clock-divider calculator and apply-clock: `CALC_CLK`, `APPLY_CLK` (`40_clock.md`). -/

namespace Sys2Proof.Machine

/-- `ceil_div(a, b)` on naturals, for `b > 0` (`00_scope.md` R8). -/
def ceilDiv (a b : Nat) : Nat := (a + b - 1) / b

/-- `floor_log2(q)` for `q ≥ 1` (`00_scope.md` R8). -/
def floorLog2 (q : Nat) : Nat := Nat.log2 q

/-- The calculator of `CALC_CLK` (`40_clock.md` R100): the mode and the divider value, `none` for `InvalidFrequency`.
Arithmetic on naturals, nothing wraps. -/
def calcDivider (target src : Nat) : Option (Bool × Nat) :=
  if src = 0 then none
  else
    let t := min target src
    if t = 0 then none
    else
      let g1 := ceilDiv src (2 * t) - 1
      if 1 ≤ g1 ∧ g1 ≤ 255 then some (true, g1)
      else
        let g0 := floorLog2 (ceilDiv src t)
        if g0 > 15 then none else some (false, g0)

/-- The divisor the register block realises for a mode and a divider value (`40_clock.md` R102). -/
def divisor (mode : Bool) (g : Nat) : Nat := if mode then Config.div1 g else 2 ^ (g + 1)

/-- The pending clock configuration of the engine is replaced (R100: "state written"). -/
def setClock (m : Bool) (g : Nat) (s : State) : State := { s with eng := { s.eng with clkMode := m, clkGen := g } }

/-- `APPLY_CLK` (`40_clock.md` R103). -/
def applyClk (s : State) : State :=
  let s := disableCtl s
  let s := regWrite .clkGen (clkGenWord s.eng.clkGen) s
  let s := rmw .control (fun c => s.params.layout.set .clkmode c (bitWord s.eng.clkMode)) s
  enableCtl s

/-- `CALC_CLK` called on its own (`40_clock.md` R100). -/
def execCalcClk (target src : Word) (s : State) : Result :=
  match calcDivider target.toNat src.toNat with
  | some (m, g) => .next (respondCall .ok (setClock m g s))
  | none => .next (respondCall .invalidFrequency s)

/-- `APPLY_CLK` called on its own (`40_clock.md` R103). -/
def execApplyClk (s : State) : Result := .next (respondCall .ok (applyClk s))

end Sys2Proof.Machine
end

