-- ==== Sys2Proof/Machine/Fifo.lean ====
section
/-! DEFINITION. The FIFO bursts `FILL` and `DRAIN` (`42_fifo.md`). -/

namespace Sys2Proof.Machine

/-- The size of a burst: `min(cursor, 32)` (`42_fifo.md` R130, R131). -/
def burst (cursor : Nat) : Nat := min cursor Config.fifoDepth

/-- The next byte to send: read from the TX buffer, or the filler when it is absent; the pointer moves on (R130). -/
def nextTxByte (s : State) : Answer Byte :=
  match s.eng.txBuf with
  | none => .next (Config.filler, s)
  | some a =>
    andThen (bufRead a s) fun r =>
      .next (r.1, { r.2 with eng := { r.2.eng with txBuf := some (nextAddr s.params.addrW a) } })

/-- The loop of `FILL` (R130) with `k` slots left and `i` frames written: the count is tested first, then `TXFIFO_FULL`.
Answers the number of frames written. -/
def fillLoop : Nat → Nat → State → Answer Nat
  | 0, i, s => .next (i, s)
  | k + 1, i, s =>
    if s.params.layout.stTest .txfifoFull (readWord .status s) then .next (i, afterRead .status s)
    else
      andThen (nextTxByte (afterRead .status s)) fun r =>
        fillLoop k (i + 1) (regWrite .txData (zext32 r.1) r.2)

/-- The cursors after `i` frames were written (R130). -/
def advanceTx (i : Nat) (s : State) : State :=
  { s with eng := { s.eng with txLen := s.eng.txLen - i, pending := s.eng.pending + i } }

/-- `FILL` (`42_fifo.md` R130). -/
def fillBurst (s : State) : Result :=
  let n := burst s.eng.txLen
  andThen (fillLoop n 0 (setTransferLen (BitVec.ofNat 32 n) s)) fun r => .next (advanceTx r.1 r.2)

/-- A received byte goes to the sink, or is dropped when the sink is absent; the pointer moves on (R131). -/
def storeRxByte (b : Byte) (s : State) : Result :=
  match s.eng.rxBuf with
  | none => .next s
  | some a =>
    andThen (bufWrite a b s) fun t => .next { t with eng := { t.eng with rxBuf := some (nextAddr s.params.addrW a) } }

/-- The loop of `DRAIN` (R131) with `k` slots left and `i` frames read. Answers the number of frames read. -/
def drainLoop : Nat → Nat → State → Answer Nat
  | 0, i, s => .next (i, s)
  | k + 1, i, s =>
    if s.params.layout.stTest .rxfifoEmpty (readWord .status s) then .next (i, afterRead .status s)
    else
      let t := afterRead .status s
      andThen (storeRxByte (dataByte (readWord .rxData t)) (afterRead .rxData t)) fun u => drainLoop k (i + 1) u

/-- The cursors after `i` frames were read (R131). -/
def advanceRx (i : Nat) (s : State) : State :=
  { s with eng := { s.eng with rxLen := s.eng.rxLen - i, pending := s.eng.pending - i } }

/-- `DRAIN` (`42_fifo.md` R131). -/
def drainBurst (s : State) : Result :=
  andThen (drainLoop (burst s.eng.rxLen) 0 s) fun r => .next (advanceRx r.1 r.2)

/-- `FILL` called on its own (`42_fifo.md` R130). -/
def execFill (s : State) : Result := andThen (fillBurst s) fun t => .next (respondCall .ok t)

/-- `DRAIN` called on its own (`42_fifo.md` R131). -/
def execDrain (s : State) : Result := andThen (drainBurst s) fun t => .next (respondCall .ok t)

end Sys2Proof.Machine
end

