-- ==== Sys2Proof/Machine/HostCommands.lean ====
section
/-! DEFINITION. The host commands `SETUP`, `PREPMSG`, `XFER`, `FINACK` (`45_host_operations.md`). -/

namespace Sys2Proof.Machine

/-- Whether `PREPMSG` and `XFER` are admitted: `live = READY` and no transfer in flight (`45_host_operations.md` R164). -/
def startAdmitted (s : State) : Bool := s.eng.live == .ready && s.eng.state != .transferring

/-- `COMPLETING` is left: the "finished" signal is accepted (`45_host_operations.md` R162, R163). -/
def acceptFinished (s : State) : State :=
  if s.eng.state = .completing then { s with eng := { s.eng with state := .idle } } else s

/-- `SETUP cs, cs_high` (`45_host_operations.md` R160). -/
def execSetup (cs : BitVec 3) (csHigh : Bool) (s : State) : Result :=
  if s.eng.live = .ready ∧ csAdmitted cs s = true then
    .next (respond .ok (if csHigh then rmw .slaveSelect (fun w => w ||| csMask cs) s else s))
  else .next (respond .refused s)

/-- `PREPMSG mode` (`45_host_operations.md` R161). -/
def execPrepmsg (mode : BitVec 2) (s : State) : Result :=
  if startAdmitted s then .next (respond .ok (setSpiMode mode (setFrameSize Config.frameBits s)))
  else .next (respond .refused s)

/-- The cursors and buffer pointers a transfer starts with (R162), each pointer an address of the instance (log 7). -/
def loadTransfer (len : Word) (tx rx : Option Nat) (s : State) : State :=
  { s with eng := { s.eng with
      txBuf := tx.map (bufAddr s.params.addrW), rxBuf := rx.map (bufAddr s.params.addrW),
      txLen := len.toNat, rxLen := len.toNat, pending := 0 } }

/-- The end of a successful `XFER` (R162). -/
def beginTransfer (s : State) : State := { s with eng := { s.eng with state := .transferring } }

/-- `XFER len, hz, tx, rx` (`45_host_operations.md` R162). -/
def execXfer (len hz : Word) (tx rx : Option Nat) (s : State) : Result :=
  if startAdmitted s then
    let s := acceptFinished s
    let src := clockAnswer s
    let s := afterClockRate s
    match calcDivider hz.toNat src.toNat with
    | none => .next (respond .invalidFrequency s)
    | some (m, g) =>
      andThen (fillBurst (loadTransfer len tx rx (applyClk (setClock m g s)))) fun s =>
        .next (respond .inProgress (beginTransfer s))
  else .next (respond .refused s)

/-- `FINACK` (`45_host_operations.md` R163). -/
def execFinack (s : State) : Result :=
  if s.eng.live = .ready then .next (respond .ok (acceptFinished s)) else .next (respond .refused s)

end Sys2Proof.Machine
end

