-- ==== Sys2Proof/Machine/Interrupt.lean ====
section
/-! DEFINITION. The interrupt service `IRQ` and the acknowledgement `ACK` (`43_interrupt.md`). -/

namespace Sys2Proof.Machine

/-- `ACK(bit)` by bit number: one write of `BIT(bit)` to `INT_CLEAR` (`43_interrupt.md` R141). -/
def ackBit (n : Nat) (s : State) : State := regWrite .intClear (bitMask n) s

/-- `ACK` of an interrupt source, by the layout's numbering (`30_encoding.md` R82). -/
def ackSource (k : IntSrc) (s : State) : State := ackBit (s.params.layout.intBit k) s

/-- `DRAIN` if bytes remain to be received (R140). -/
def drainIfAny (s : State) : Result := if s.eng.rxLen > 0 then drainBurst s else .next s

/-- `FILL` if bytes remain to be sent (R140). -/
def fillIfAny (s : State) : Result := if s.eng.txLen > 0 then fillBurst s else .next s

/-- The TX-done part of a service: acknowledge, drain, refill, and finalise if nothing remains to be received (R140). -/
def serveTxDone (f : Word) (s : State) : Answer Bool :=
  if irqBit s.params.layout f .txdone then
    andThen (drainIfAny (ackSource .txdone s)) fun s =>
      andThen (fillIfAny s) fun s => .next (decide (s.eng.rxLen = 0), s)
  else .next (false, s)

/-- The RX-ready part: acknowledge only (R140). -/
def serveRxReady (f : Word) (s : State) : State :=
  if irqBit s.params.layout f .rxrdy then ackSource .rxrdy s else s

/-- A fault part: acknowledge and log (R140, `60_exceptions.md` R192, R193). -/
def serveFault (k : ErrKind) (f : Word) (s : State) : State :=
  if irqBit s.params.layout f k.src then emitError k (ackSource k.src s) else s

/-- A service whose masked status `f` is not 0: the four parts in their fixed order, then completion (R140). -/
def serviceBits (f : Word) (s : State) : Result :=
  let L := s.params.layout
  andThen (serveTxDone f s) fun r =>
    let t := serveFault .txUnderrun f (serveFault .rxOverflow f (serveRxReady f r.2))
    let final := r.1 || irqBit L f .rxovf || irqBit L f .txunder
    .next (respondIrq .handled (if final then finalise t else t))

/-- `f`, the masked interrupt status read at the entry of a service (R140). -/
def irqStatus (s : State) : Word := readWord .mis s &&& 0xF#32

/-- `IRQ` (`43_interrupt.md` R140). With `live` other than `READY` the service is not started and the dispatcher gets `NONE`
(`45_host_operations.md` R164). -/
def execIrq (s : State) : Result :=
  if s.eng.live = .ready then
    let f := irqStatus s
    let t := afterRead .mis s
    if f = 0#32 then .next (respondIrq .none t) else serviceBits f t
  else .next (respondIrq .none s)

/-- `ACK(bit)` called on its own (`43_interrupt.md` R141). -/
def execAck (bit : BitVec 2) (s : State) : Result := .next (respondCall .ok (ackBit bit.toNat s))

end Sys2Proof.Machine
end

