-- ==== Sys2Proof/Machine/Lifecycle.lean ====
section
/-! DEFINITION. Initialisation and teardown: `INIT`, `TEARDOWN` (`44_init_teardown.md`). -/

namespace Sys2Proof.Machine

/-- Step 1 of `INIT`: `MODE := 0` ("motorola"), `MASTER := 1` (R150). -/
def initFraming (s : State) : State :=
  rmw .control (fun c => s.params.layout.set .master (s.params.layout.set .mode c 0#32) 1#32) s

/-- Step 3 of `INIT`: the reported maximum speed is the source-clock rate (R150, `10_state.md` R18). -/
def initMaxSpeed (s : State) : State :=
  let t := afterClockRate s
  { t with eng := { t.eng with maxSpeedHz := clockAnswer s } }

/-- Step 4 of `INIT`: `SPS := 1`, `BIGFIFO := 1` (R150). -/
def initBehaviour (s : State) : State :=
  rmw .control (fun c => s.params.layout.set .bigfifo (s.params.layout.set .sps c 1#32) 1#32) s

/-- Step 6 of `INIT`: the whole word `DIRECT | SSELOUT` (R150). -/
def initSelect (s : State) : State := regWrite .slaveSelect s.params.layout.directWord s

/-- Step 7 of `INIT`: `RESET := 0`, `ENABLE := 1` (R150). -/
def initRelease (s : State) : State :=
  rmw .control (fun c => s.params.layout.set .enable (s.params.layout.set .reset c 0#32) 1#32) s

/-- The engine record at the end of `INIT` (R150). -/
def initRecord (s : State) : State :=
  { s with eng := { s.eng with
      state := .idle, live := .ready, txLen := 0, rxLen := 0, pending := 0, txBuf := none, rxBuf := none } }

/-- The seven steps of `INIT` and its record (`44_init_teardown.md` R150). -/
def initialise (s : State) : State :=
  initRecord (initRelease (initSelect (enableInterrupts (initBehaviour (initMaxSpeed
    (setFrameSize Config.frameBits (initFraming s)))))))

/-- `INIT` (`44_init_teardown.md` R150): refused unless `live = CREATED` (`45_host_operations.md` R164). -/
def execInit (s : State) : Result :=
  if s.eng.live = .created then .next (respond .ok (initialise s)) else .next (respond .refused s)

/-- The engine record at the end of `TEARDOWN` (R151). -/
def teardownRecord (s : State) : State :=
  { s with eng := { s.eng with state := .idle, live := .removed, txBuf := none, rxBuf := none } }

/-- `TEARDOWN` (`44_init_teardown.md` R151): interrupts silenced, then the clock released, then the controller disabled.
Refused unless `live = READY` (R164). -/
def execTeardown (s : State) : Result :=
  if s.eng.live = .ready then
    .next (respond .ok (teardownRecord (disableCtl (clockRelease (disableInterrupts s)))))
  else .next (respond .refused s)

end Sys2Proof.Machine
end

