-- ==== Sys2Proof/Machine/Dispatch.lean ====
section
/-! DEFINITION. The dispatch of an instruction to its meaning. -/

namespace Sys2Proof.Machine

def exec (i : Instr) (s : State) : Host.Outcome State Fault Refusal :=
  match i with
  | .init => Sys2Proof.Machine.execInit s
  | .setup cs csHigh => Sys2Proof.Machine.execSetup cs csHigh s
  | .prepmsg mode => Sys2Proof.Machine.execPrepmsg mode s
  | .xfer len hz tx rx => Sys2Proof.Machine.execXfer len hz tx rx s
  | .setcs cs disable => Sys2Proof.Machine.execSetcs cs disable s
  | .finack => Sys2Proof.Machine.execFinack s
  | .teardown => Sys2Proof.Machine.execTeardown s
  | .irq => Sys2Proof.Machine.execIrq s
  | .calcClk target src => Sys2Proof.Machine.execCalcClk target src s
  | .applyClk => Sys2Proof.Machine.execApplyClk s
  | .disable => Sys2Proof.Machine.execDisable s
  | .enable => Sys2Proof.Machine.execEnable s
  | .setFramesize bits => Sys2Proof.Machine.execSetFramesize bits s
  | .setMode mode => Sys2Proof.Machine.execSetMode mode s
  | .setXferLen len => Sys2Proof.Machine.execSetXferLen len s
  | .enableInts => Sys2Proof.Machine.execEnableInts s
  | .disableInts => Sys2Proof.Machine.execDisableInts s
  | .fill => Sys2Proof.Machine.execFill s
  | .drain => Sys2Proof.Machine.execDrain s
  | .ack bit => Sys2Proof.Machine.execAck bit s

end Sys2Proof.Machine
end

