-- ==== Sys2Proof/Machine/Fetch.lean ====
section
/-! DEFINITION. What stands around one operation: taking a request, the hardware reset, the interrupt dispatcher's own start,
and the placing of a request for the next step. -/

namespace Sys2Proof.Machine

/-- A request that is turned away changes nothing but the answer to whoever made it: `REFUSED` on the command port
(`30_encoding.md` R92). DESIGN CHOICE, log 20: R92 speaks of command words only, and R194 of services started by `IRQ`; that a
dispatcher code other than 0x08 answers `NONE` with no `MIS` read, and a sequencer code that is no micro-operation a refused
call, is the model's. -/
def rejectRequest (src : Source) (s : State) : State :=
  match src with
  | .commandPort => respond .refused s
  | .dispatcher => respondIrq .none s
  | .sequencer => respondCall .refused s

/-- Whether a micro-operation may not run on its own now: during a transfer the interrupt handler is the sole writer of the
progress counters and owns the register block (`10_state.md` R29), and after `TEARDOWN` nothing is accepted but a hardware
reset (`44_init_teardown.md` R151). Log 12. -/
def callBarred (src : Source) (s : State) : Bool :=
  src == .sequencer && (s.eng.state == .transferring || s.eng.live == .removed)

/-- A request is taken and run to its end (`20_memory.md` R56); one that no instruction answers to, or that `10_state.md` R29
or `44_init_teardown.md` R151 keeps from running now, is turned away. DESIGN CHOICE, log 1: a request for `IRQ` that the
dispatcher makes is run whether or not the shared line is asserted; R196 speaks of starts while it is asserted only. -/
def runRequest (r : Request) (s : State) : Result :=
  match decode r with
  | .ok i => if callBarred r.source s then .next (rejectRequest r.source s) else exec i s
  | .error _ => .next (rejectRequest r.source s)

/-- The FIFOs of a register block hold at most 32 frames, and its stored words hold named bits only
(`46_spi_core_agent.md` R170, R171): what the contents supplied with a reset are cut to. -/
def Block.normalise (p : Params) (b : Block) : Block :=
  { b with
    frameSize := b.frameSize &&& p.layout.sizeMask
    clkGen := b.clkGen &&& p.layout.genMask
    ssel := b.ssel &&& p.layout.sselMask
    framesup := b.framesup &&& 0xFFFF0000#32
    txq := b.txq.take Config.fifoDepth
    rxq := b.rxq.take Config.fifoDepth }

/-- The reset event: the engine record takes its reset values, with no bus access (`70_reset_and_hazards.md` R220). The
register block holds what the event supplies, its reset values being open (R222); the platform holds the clock again
(R223 (3)). Log 17. -/
def resetEngine (b : Block) (s : State) : State :=
  { s with eng := Engine.reset, blk := b.normalise s.params, clock := { s.clock with held := true } }

/-- With nothing else to do the engine is idle, but the interrupt dispatcher turns to it while the line is asserted: with
`live = READY` a service is started (`60_exceptions.md` R196), with another `live` none is, and the dispatcher gets `NONE`
(`45_host_operations.md` R164). -/
def idleStep (s : State) : Result := if irqLine s then exec .irq s else .next s

/-- What one entry of `inputs` does (log 1). -/
def takeInput (x : Input) (s : State) : Result :=
  match x with
  | .request r => runRequest r s
  | .env e => .next (applyEnv s e)
  | .reset b => .next (resetEngine b s)

/-- The state with a request placed to be taken next. -/
def placeRequest (r : Request) (s : State) : State := { s with inputs := .request r :: s.inputs }

end Sys2Proof.Machine
end

