-- ==== Sys2Proof/Machine/Step.lean ====
section
/-! DEFINITION. One step of the machine: one operation of the engine, or one event between operations. -/

namespace Sys2Proof.Machine

/-- One step: the first entry of `inputs` is taken; with none left, `idleStep`. -/
def step (s : State) : Host.Outcome State Fault Refusal :=
  match s.inputs with
  | [] => idleStep s
  | x :: rest => takeInput x { s with inputs := rest }

/-- The state with the instruction whose opcode-table bits are `w` placed as the next request (log 16). -/
def State.withFetchWord (s : State) (nbits w : Nat) : State := placeRequest (tableRequest nbits w) s

end Sys2Proof.Machine
end

