-- ==== Sys2Proof/WellFormed.lean ====
section
/-! DEFINITION. Which instruction terms are well formed. The types already keep every operand within its field; the one check
left is the operand of `SET_FRAMESIZE`. -/

namespace Sys2Proof

/-- `SET_FRAMESIZE` is admitted with 8 bits only (`41_config.md` R113, decision D15). Every other operand value the types
allow is admitted. -/
def Instr.wf : Instr → Bool
  | .init => true
  | .setup _ _ => true
  | .prepmsg _ => true
  | .xfer _ _ _ _ => true
  | .setcs _ _ => true
  | .finack => true
  | .teardown => true
  | .irq => true
  | .calcClk _ _ => true
  | .applyClk => true
  | .disable => true
  | .enable => true
  | .setFramesize bits => bits == Config.frameBits
  | .setMode _ => true
  | .setXferLen _ => true
  | .enableInts => true
  | .disableInts => true
  | .fill => true
  | .drain => true
  | .ack _ => true

end Sys2Proof
end

