-- ==== Sys2Proof/Safety.lean ====
section
/-! DEFINITION. What holds of every state a run reaches, and the words in which statements say what an operation leaves
alone. -/

namespace Sys2Proof.Machine

/-! ### The invariant of the machine -/

/-- The register block is in form: stored words hold named bits only, and each FIFO holds at most 32 frames
(`46_spi_core_agent.md` R170, R171, R179 (E5)). -/
abbrev Block.Wf (p : Params) (b : Block) : Prop :=
  b.frameSize &&& p.layout.sizeMask = b.frameSize ∧ b.clkGen &&& p.layout.genMask = b.clkGen ∧
  b.ssel &&& p.layout.sselMask = b.ssel ∧ b.framesup &&& 0xFFFF0000#32 = b.framesup ∧ b.txq.length ≤ 32 ∧ b.rxq.length ≤ 32

/-- The clock pair is one a calculation can give, or the reset pair (`10_state.md` R11). -/
abbrev Engine.ClockWf (e : Engine) : Prop :=
  (e.clkMode = true → 1 ≤ e.clkGen ∧ e.clkGen ≤ 255) ∧ (e.clkMode = false → e.clkGen ≤ 15)

/-- The cursors fit in 32 bits (`10_state.md` R13) and `pending = rx_len - tx_len` (`42_fifo.md` R132 (c)). -/
abbrev Engine.CursorWf (e : Engine) : Prop :=
  e.txLen < 2 ^ 32 ∧ e.rxLen < 2 ^ 32 ∧ e.pending = (e.rxLen : Int) - (e.txLen : Int)

/-- Buffer pointers are held during a transfer only (`10_state.md` R15), and a transfer exists only in a live instance
(`10_state.md` R16, R17). -/
abbrev Engine.PhaseWf (e : Engine) : Prop :=
  (e.state ≠ .transferring → e.txBuf = none ∧ e.rxBuf = none) ∧ (e.live ≠ .ready → e.state = .idle)

/-- Buffer pointers are addresses of the instance: they have `ADDR_W` bits (`00_scope.md` R7, `10_state.md` R15). -/
abbrev Engine.PointerWf (w : Nat) (e : Engine) : Prop :=
  e.txBuf.all (fun a => decide (a < 2 ^ w)) = true ∧ e.rxBuf.all (fun a => decide (a < 2 ^ w)) = true

/-- What every step of the machine keeps. -/
abbrev State.Inv (s : State) : Prop :=
  s.mem.wf s.params.addrW = true ∧ s.blk.Wf s.params ∧ s.eng.ClockWf ∧ s.eng.CursorWf ∧ s.eng.PhaseWf ∧
  s.eng.PointerWf s.params.addrW

/-! ### What an operation leaves alone -/

/-- What the other agents make of a state by themselves before `n` accesses of the engine. -/
def ticks : Nat → State → State
  | 0, s => s
  | n + 1, s => ticks n (tick s)

/-- Outside the register block, the record of accesses and the result ports, `t` is `s` as the other agents alone change it
before `n` accesses: the engine's record and the parameters are the same, and buffer memory, clock and shared line are what
those agents make of them. -/
def State.keepsOutsideBlock (s : State) (n : Nat) (t : State) : Prop :=
  t.params = s.params ∧ t.eng = s.eng ∧ t.inputs = s.inputs ∧ t.clock = (ticks n s).clock ∧ t.mem = (ticks n s).mem ∧
  t.otherIrq = (ticks n s).otherIrq ∧ t.env = (ticks n s).env

/-- As `keepsOutsideBlock`, for an operation that may change the engine's record and buffer memory. -/
def State.keepsPlatform (s : State) (n : Nat) (t : State) : Prop :=
  t.params = s.params ∧ t.inputs = s.inputs ∧ t.clock = (ticks n s).clock ∧ t.otherIrq = (ticks n s).otherIrq ∧
  t.env = (ticks n s).env

/-- The three result ports are the same. -/
def State.keepsResults (s t : State) : Prop :=
  t.result = s.result ∧ t.irqResult = s.irqResult ∧ t.callResult = s.callResult

/-- With no other agent acting, every byte of buffer memory reads as before, the clock service and the shared line are as
before, and so is the part of the block that only frames and the data registers move. -/
def State.keepsQuietly (s t : State) : Prop :=
  s.env = [] → (∀ a, t.mem.read a = s.mem.read a) ∧ t.clock = s.clock ∧ t.otherIrq = s.otherIrq ∧ t.env = [] ∧
    t.blk.txq = s.blk.txq ∧ t.blk.rxq = s.blk.rxq ∧ t.blk.wire = s.blk.wire ∧ t.blk.openWord = s.blk.openWord

/-- The register words of the block other than `CONTROL` are the same. -/
def Block.sameWordsButControl (b c : Block) : Prop :=
  c.frameSize = b.frameSize ∧ c.clkGen = b.clkGen ∧ c.ssel = b.ssel ∧ c.framesup = b.framesup

/-- All stored register words of the block are the same. -/
def Block.sameWords (b c : Block) : Prop := c.control = b.control ∧ b.sameWordsButControl c

/-- The raw latches `r` after the write that takes `ENABLE` from 0 to 1 and leaves the block as `b`: with `ZERO_LEN_TXDONE`
and a frame count of 0 TX-done is raised (`46_spi_core_agent.md` R171). -/
def Block.risAtEnable (p : Params) (b : Block) (r : BitVec 4) : BitVec 4 :=
  if p.zeroLenTxdone = true ∧ frameCount p.layout b b.control = 0 then r ||| intMask p.layout .txdone else r

/-- What a disable/write/enable operation of `n` accesses leaves alone, beside the words it writes: everything outside the
block, and, with no other agent acting, the FIFOs and the latches but for the restart of the frame counter (R177). -/
def State.keepsAroundProtocol (s : State) (n : Nat) (t : State) : Prop :=
  s.keepsOutsideBlock n t ∧ t.result = s.result ∧ t.irqResult = s.irqResult ∧ s.keepsQuietly t ∧ t.blk.framesSent = 0 ∧
  (s.env = [] → t.blk.ris = t.blk.risAtEnable s.params s.blk.ris)

/-! ### The host's duties (`20_memory.md` R53) -/

/-- The host takes a byte back. -/
def EnvEvent.frees : EnvEvent → Bool
  | .hostFree _ => true
  | .shift _ => false
  | .fault _ => false
  | .latch _ => false
  | .openWord _ => false
  | .clockHz _ => false
  | .hostWrite _ _ => false
  | .otherIrq _ => false

/-- The host takes no byte back in what is scheduled. -/
def State.hostHolds (s : State) : Prop := ∀ es ∈ s.env, ∀ e ∈ es, e.frees = false

/-- The step reaches buffer memory. -/
def EnvEvent.reachesMemory : EnvEvent → Bool
  | .hostFree _ => true
  | .hostWrite _ _ => true
  | .shift _ => false
  | .fault _ => false
  | .latch _ => false
  | .openWord _ => false
  | .clockHz _ => false
  | .otherIrq _ => false

/-- The host neither writes, lends nor takes back a byte in what is scheduled. -/
def State.hostStill (s : State) : Prop := ∀ es ∈ s.env, ∀ e ∈ es, e.reachesMemory = false

/-- The `n` bytes from a present buffer's address on, addresses having `w` bits, are lent. -/
def Memory.lends (m : Memory) (w : Nat) (buf : Option Nat) (n : Nat) : Prop :=
  ∀ a, buf = some a → ∀ k, k < n → (m.read (advance w k a)).isSome = true

/-! ### The accesses of an operation, in order -/

/-- The accesses of `SET_XFER_LEN` where `CONTROL` holds `c` (`41_config.md` R115). -/
def xferLenPorts (L : Layout) (c len : Word) : List PortEvent :=
  let c1 := L.set .enable c 0#32
  let c2 := L.set .framecnt c1 (len &&& 0xFFFF#32)
  let c3 := L.set .enable c2 1#32
  [.regRead .control c, .regWrite .control c1, .regRead .control c1, .regWrite .control c2,
    .regWrite .framesup (len &&& 0xFFFF0000#32), .regRead .control c2, .regWrite .control c3]

/-- The accesses of `SET_FRAMESIZE(8)` where `CONTROL` holds `c` (R113). -/
def frameSizePorts (L : Layout) (c : Word) : List PortEvent :=
  let c1 := L.set .enable c 0#32
  [.regRead .control c, .regWrite .control c1, .regWrite .frameSize 8#32, .regRead .control c1,
    .regWrite .control (L.set .enable c1 1#32)]

/-- The accesses of `SET_MODE` where `CONTROL` holds `c` (R114). -/
def modePorts (L : Layout) (c : Word) (mode : BitVec 2) : List PortEvent :=
  let c1 := L.set .enable c 0#32
  let c2 := L.set .sph (L.set .spo c1 (bitWord (mode.getLsbD 1))) (bitWord (mode.getLsbD 0))
  [.regRead .control c, .regWrite .control c1, .regRead .control c1, .regWrite .control c2, .regRead .control c2,
    .regWrite .control (L.set .enable c2 1#32)]

/-- The accesses of `APPLY_CLK` where `CONTROL` holds `c`, for a clock pair (`40_clock.md` R103). -/
def applyClkPorts (L : Layout) (c : Word) (m : Bool) (g : Nat) : List PortEvent :=
  let c1 := L.set .enable c 0#32
  let c2 := L.set .clkmode c1 (bitWord m)
  [.regRead .control c, .regWrite .control c1, .regWrite .clkGen (BitVec.ofNat 32 g), .regRead .control c1,
    .regWrite .control c2, .regRead .control c2, .regWrite .control (L.set .enable c2 1#32)]

/-- What step 1 of `INIT` writes to `CONTROL` where it read `c` (`44_init_teardown.md` R150). -/
def initWord1 (L : Layout) (c : Word) : Word := L.set .master (L.set .mode c 0#32) 1#32

/-- What step 4 writes where it read a word that is `c` with `ENABLE` set. -/
def initWord2 (L : Layout) (c : Word) : Word := L.set .bigfifo (L.set .sps (L.set .enable c 1#32) 1#32) 1#32

/-- What step 5 leaves in `CONTROL` where it read `c`. -/
def initWord3 (L : Layout) (c : Word) : Word := L.set .enable (L.set .enable c 0#32 ||| L.intenMask) 1#32

/-- What step 7 writes where it read `c`. -/
def initWord4 (L : Layout) (c : Word) : Word := L.set .enable (L.set .reset c 0#32) 1#32

/-- The accesses of `INIT` where `CONTROL` holds `c` (R150), the clock query answering `hz`. -/
def initPorts (L : Layout) (c hz : Word) : List PortEvent :=
  let c1 := initWord1 L c
  let c2 := L.set .enable c1 1#32
  let c3 := initWord2 L c1
  let c4 := initWord3 L c3
  [.regRead .control c, .regWrite .control c1,
   .regRead .control c1, .regWrite .control (L.set .enable c1 0#32), .regWrite .frameSize 8#32,
   .regRead .control (L.set .enable c1 0#32), .regWrite .control c2,
   .clockRate hz,
   .regRead .control c2, .regWrite .control c3,
   .regRead .control c3, .regWrite .control (L.set .enable c3 0#32), .regRead .control (L.set .enable c3 0#32),
   .regWrite .control (L.set .enable c3 0#32 ||| L.intenMask),
   .regRead .control (L.set .enable c3 0#32 ||| L.intenMask), .regWrite .control c4,
   .regWrite .slaveSelect L.directWord,
   .regRead .control c4, .regWrite .control (initWord4 L c4)]

/-- The accesses of `TEARDOWN` where `CONTROL` holds `c` (R151). -/
def teardownPorts (L : Layout) (c : Word) : List PortEvent :=
  let c1 := L.set .enable c 0#32
  let c2 := c1 &&& ~~~L.intenMask
  let c3 := L.set .enable c2 1#32
  [.regRead .control c, .regWrite .control c1, .regRead .control c1, .regWrite .control c2,
   .regRead .control c2, .regWrite .control c3, .clockRelease,
   .regRead .control c3, .regWrite .control (L.set .enable c3 0#32)]

/-- The accesses of the loop of `FILL` from a source pointer, for the `STATUS` words read and the bytes sent
(`42_fifo.md` R130); addresses have `w` bits. -/
def fillPorts (w : Nat) : Option Nat → List (Word × Byte) → List PortEvent
  | _, [] => []
  | none, x :: xs => .regRead .status x.1 :: .regWrite .txData (x.2.setWidth 32) :: fillPorts w none xs
  | some a, x :: xs =>
    .regRead .status x.1 :: .bufRead a x.2 :: .regWrite .txData (x.2.setWidth 32) ::
      fillPorts w (some (nextAddr w a)) xs

/-- The accesses of the loop of `DRAIN` to a sink pointer, for the `STATUS` and `RX_DATA` words read (R131); addresses
have `w` bits. -/
def drainPorts (w : Nat) : Option Nat → List (Word × Word) → List PortEvent
  | _, [] => []
  | none, x :: xs => .regRead .status x.1 :: .regRead .rxData x.2 :: drainPorts w none xs
  | some a, x :: xs =>
    .regRead .status x.1 :: .regRead .rxData x.2 :: .bufWrite a (x.2.extractLsb' 0 8) ::
      drainPorts w (some (nextAddr w a)) xs

/-- How a loop of at most `n` iterations ends after `i`: by the count, with no further access, or by the flag, shown by one
more `STATUS` word (R130, R131). -/
def loopEnd (L : Layout) (flag : StField) (n i : Nat) (last : List PortEvent) : Prop :=
  (i = n ∧ last = []) ∨ (i < n ∧ ∃ w, last = [.regRead .status w] ∧ L.stTest flag w = true)

/-- `ev` is a burst of `FILL` that sent the bytes `bs`, from a cursor and a source pointer (R130). -/
def isFill (p : Params) (c : Word) (txLen : Nat) (txBuf : Option Nat) (bs : List Byte) (ev : List PortEvent) : Prop :=
  ∃ (xs : List (Word × Byte)) (last : List PortEvent),
    ev = xferLenPorts p.layout c (BitVec.ofNat 32 (min txLen 32)) ++ fillPorts p.addrW txBuf xs ++ last ∧
    bs = xs.map Prod.snd ∧ (∀ x ∈ xs, p.layout.stTest .txfifoFull x.1 = false ∧ (txBuf = none → x.2 = 0xAA#8)) ∧
    loopEnd p.layout .txfifoFull (min txLen 32) bs.length last

/-- `ev` is a burst of `DRAIN` that received the bytes `bs`, from a cursor and a sink pointer (R131). -/
def isDrain (p : Params) (rxLen : Nat) (rxBuf : Option Nat) (bs : List Byte) (ev : List PortEvent) : Prop :=
  ∃ (xs : List (Word × Word)) (last : List PortEvent),
    ev = drainPorts p.addrW rxBuf xs ++ last ∧ bs = xs.map (fun x => x.2.extractLsb' 0 8) ∧
    (∀ x ∈ xs, p.layout.stTest .rxfifoEmpty x.1 = false) ∧ loopEnd p.layout .rxfifoEmpty (min rxLen 32) bs.length last

/-- The events of a service that read the word `w` from `MIS`, with the accesses of its drain and its fill, the cursors after
them, and whether it finalises (`43_interrupt.md` R140). -/
def irqPorts (L : Layout) (w : Word) (evD evF : List PortEvent) (rxLen txLen : Nat) (final : Bool) : List PortEvent :=
  let seen := fun k => w.getLsbD (L.intBit k)
  let ack := fun k => PortEvent.regWrite .intClear (bitMask (L.intBit k))
  .regRead .mis w ::
    ((if seen .txdone = true then ack .txdone :: (evD ++ evF) else []) ++
     (if seen .rxrdy = true then [ack .rxrdy] else []) ++
     (if seen .rxovf = true then [ack .rxovf, .emitError (ErrEntry.mk .rxOverflow rxLen txLen)] else []) ++
     (if seen .txunder = true then [ack .txunder, .emitError (ErrEntry.mk .txUnderrun rxLen txLen)] else []) ++
     (if final = true then [.emitFinished] else []))

/-- The event is a read of `RX_DATA`: one frame received. -/
def isRxRead : PortEvent → Bool
  | .regRead r _ => r == .rxData
  | .regWrite _ _ => false
  | .bufRead _ _ => false
  | .bufWrite _ _ => false
  | .clockRate _ => false
  | .clockRelease => false
  | .emitFinished => false
  | .emitError _ => false

/-- The event is a write to `TX_DATA`: one frame handed over to be sent. -/
def isTxWrite : PortEvent → Bool
  | .regWrite r _ => r == .txData
  | .regRead _ _ => false
  | .bufRead _ _ => false
  | .bufWrite _ _ => false
  | .clockRate _ => false
  | .clockRelease => false
  | .emitFinished => false
  | .emitError _ => false

/-- The event is an access of a port, not an emission. -/
def isAccess : PortEvent → Bool
  | .emitFinished => false
  | .emitError _ => false
  | .regRead _ _ => true
  | .regWrite _ _ => true
  | .bufRead _ _ => true
  | .bufWrite _ _ => true
  | .clockRate _ => true
  | .clockRelease => true

/-- How many accesses of ports, the emissions apart, a record holds. -/
def portAccesses (ev : List PortEvent) : Nat := ev.countP isAccess

/-- The event is a write to `INT_CLEAR`. -/
def isIntClear : PortEvent → Bool
  | .regWrite r _ => r == .intClear
  | .regRead _ _ => false
  | .bufRead _ _ => false
  | .bufWrite _ _ => false
  | .clockRate _ => false
  | .clockRelease => false
  | .emitFinished => false
  | .emitError _ => false

/-! ### Fields of `CONTROL` -/

/-- The bit `i` belongs to a field. -/
def Layout.covers (L : Layout) (f : CtlField) (i : Nat) : Prop := L.pos f ≤ i ∧ i < L.pos f + f.width

/-- Outside the fields listed, two words have the same bits. -/
def Layout.sameOutside (L : Layout) (fs : List CtlField) (c d : Word) : Prop :=
  ∀ i, (∀ f ∈ fs, ¬ L.covers f i) → d.getLsbD i = c.getLsbD i

end Sys2Proof.Machine

namespace Sys2Proof

open Machine

/-! ### The tables of the spec -/

/-- The table of admissibility (`45_host_operations.md` R164), and what the command port never admits (R92). -/
def Instr.admitted (i : Instr) (live : Live) (state : Phase) : Bool :=
  match i with
  | .init => live == .created
  | .setup _ _ => live == .ready
  | .prepmsg _ => live == .ready && state != .transferring
  | .xfer _ _ _ _ => live == .ready && state != .transferring
  | .setcs _ _ => live == .ready
  | .finack => live == .ready
  | .teardown => live == .ready
  | .irq => live == .ready
  | .calcClk _ _ => true
  | .applyClk => true
  | .disable => true
  | .enable => true
  | .setFramesize _ => true
  | .setMode _ => true
  | .setXferLen _ => true
  | .enableInts => true
  | .disableInts => true
  | .fill => true
  | .drain => true
  | .ack _ => true

/-- The registers an operation may read (`20_memory.md` R61). -/
def Instr.mayRead : Instr → List Reg
  | .calcClk _ _ => []
  | .applyClk => [.control]
  | .disable => [.control]
  | .enable => [.control]
  | .setFramesize _ => [.control]
  | .setMode _ => [.control]
  | .setXferLen _ => [.control]
  | .enableInts => [.control]
  | .disableInts => [.control]
  | .setcs _ _ => [.slaveSelect]
  | .fill => [.control, .status]
  | .drain => [.status, .rxData]
  | .ack _ => []
  | .irq => [.control, .status, .rxData, .mis]
  | .init => [.control]
  | .teardown => [.control]
  | .setup _ _ => [.slaveSelect]
  | .prepmsg _ => [.control]
  | .xfer _ _ _ _ => [.control, .status]
  | .finack => []

/-- The registers an operation may write (R61). -/
def Instr.mayWrite : Instr → List Reg
  | .calcClk _ _ => []
  | .applyClk => [.control, .clkGen]
  | .disable => [.control]
  | .enable => [.control]
  | .setFramesize _ => [.control, .frameSize]
  | .setMode _ => [.control]
  | .setXferLen _ => [.control, .framesup]
  | .enableInts => [.control]
  | .disableInts => [.control]
  | .setcs _ _ => [.slaveSelect]
  | .fill => [.control, .txData, .framesup]
  | .drain => []
  | .ack _ => [.intClear]
  | .irq => [.control, .intClear, .txData, .framesup]
  | .init => [.control, .frameSize, .slaveSelect]
  | .teardown => [.control]
  | .setup _ _ => [.slaveSelect]
  | .prepmsg _ => [.control, .frameSize]
  | .xfer _ _ _ _ => [.control, .txData, .clkGen, .framesup]
  | .finack => []

/-- How many register accesses an operation makes at most (`70_reset_and_hazards.md` R235). -/
def Instr.maxAccesses : Instr → Nat
  | .disable => 2
  | .enable => 2
  | .setFramesize _ => 5
  | .setMode _ => 6
  | .setXferLen _ => 7
  | .enableInts => 6
  | .disableInts => 6
  | .applyClk => 7
  | .setcs _ _ => 2
  | .setup _ _ => 2
  | .prepmsg _ => 11
  | .init => 18
  | .teardown => 8
  | .fill => 71
  | .drain => 64
  | .xfer _ _ _ _ => 78
  | .irq => 140
  | .finack => 0
  | .calcClk _ _ => 0
  | .ack _ => 1

end Sys2Proof

namespace Sys2Proof.Machine

/-- An event of a record is no register access outside the lists given. -/
def withinReach (reads writes : List Reg) : PortEvent → Prop
  | .regRead r _ => r ∈ reads
  | .regWrite r _ => r ∈ writes
  | .bufRead _ _ => True
  | .bufWrite _ _ => True
  | .clockRate _ => True
  | .clockRelease => True
  | .emitFinished => True
  | .emitError _ => True

/-! ### Counting accesses -/

/-- The accesses to registers in a record of port accesses. -/
def isRegAccess : PortEvent → Bool
  | .regRead _ _ => true
  | .regWrite _ _ => true
  | .bufRead _ _ => false
  | .bufWrite _ _ => false
  | .clockRate _ => false
  | .clockRelease => false
  | .emitFinished => false
  | .emitError _ => false

/-- The port accesses and emissions by which `t`'s record goes beyond `s`'s. -/
def State.newPorts (s t : State) : List PortEvent := t.ports.drop s.ports.length

/-- How many register accesses `t`'s record holds beyond `s`'s. -/
def State.accesses (s t : State) : Nat := (s.newPorts t).countP isRegAccess

end Sys2Proof.Machine
end

