-- ==== Sys2Proof/Certificates/Slice0/Obligations.lean ====
section
/-! DEFINITION. The statements for the provers, in the order of `OBLIGATIONS.json`. -/

open Sys2Proof Sys2Proof.Machine

/-! ### Reset, requests and the start of an operation -/

/-- `70_reset_and_hazards.md` R220 (with the values of `10_state.md` R26): the reset event gives the record its reset values
and makes no bus access, and it is the only way out of `REMOVED`. That the result port, the interrupt result, buffer memory and
the waiting entries stay as they are across a reset is the model's choice (log 17). -/
def Obligations.ResetEventSetsTheRecord : Prop :=
  (∀ (s : State) (b : Block) (rest : List Input), s.inputs = .reset b :: rest →
    ∃ t, step s = .next t ∧
      t.eng.state = .idle ∧ t.eng.live = .created ∧ t.eng.clkGen = 0 ∧ t.eng.clkMode = false ∧ t.eng.txLen = 0 ∧
      t.eng.rxLen = 0 ∧ t.eng.pending = 0 ∧ t.eng.txBuf = none ∧ t.eng.rxBuf = none ∧ t.eng.maxSpeedHz = 0 ∧
      t.eng.finished = 0 ∧ t.eng.errlog = [] ∧
      t.ports = s.ports ∧ (∀ a, t.mem.read a = s.mem.read a) ∧ t.params = s.params ∧ t.result = s.result ∧
      t.irqResult = s.irqResult ∧ t.inputs = rest) ∧
  (∀ s t : State, s.eng.live = .removed → step s = .next t → t.eng.live ≠ .removed →
    ∃ b rest, s.inputs = .reset b :: rest)

/-- The machine right after reset. The engine's record is `10_state.md` R26; everything else here is the model's choice
(logs 3, 5, 6, 14, 18). -/
def Obligations.ResetStateIsAsLogged : Prop :=
  State.reset.eng.state = .idle ∧ State.reset.eng.live = .created ∧ State.reset.eng.clkGen = 0 ∧
  State.reset.eng.clkMode = false ∧ State.reset.eng.txLen = 0 ∧ State.reset.eng.rxLen = 0 ∧
  State.reset.eng.pending = 0 ∧ State.reset.eng.txBuf = none ∧ State.reset.eng.rxBuf = none ∧
  State.reset.eng.maxSpeedHz = 0 ∧ State.reset.eng.finished = 0 ∧ State.reset.eng.errlog = [] ∧
  State.reset.blk.control = 0x80000000#32 ∧ State.reset.blk.txq = [] ∧ State.reset.blk.rxq = [] ∧
  State.reset.blk.ris = 0#4 ∧ State.reset.mem = [] ∧ State.reset.params.numCs = 8 ∧
  State.reset.params.layout.legal = true

/-- The state right after reset meets the invariant of the machine. -/
def Obligations.ResetMeetsTheInvariant : Prop := State.reset.Inv ∧ State.reset.params.legal = true

/-- A waiting request whose word decodes is taken whole: the step is the meaning of the instruction, on the state without
the request (`20_memory.md` R56; the waiting line `inputs` is the model's own, log 1). A micro-operation on its own is taken
so outside a transfer and before `TEARDOWN` only (log 12). -/
def Obligations.StepRunsTheDecodedRequest : Prop :=
  ∀ (s : State) (r : Request) (rest : List Input) (i : Instr),
    s.inputs = .request r :: rest → decode r = .ok i → i.wf = true →
    (r.source = .sequencer → s.eng.state ≠ .transferring ∧ s.eng.live ≠ .removed) →
    step s = exec i { s with inputs := rest }

/-- The instruction placed by `withFetchWord` is the next to run, and nothing else of the state is changed by placing it
(log 16). -/
def Obligations.PlacedWordRunsNext : Prop :=
  ∀ (s : State) (nbits w : Nat) (i : Instr), decodeTableWord nbits w = some i →
    (i.source = .sequencer → s.eng.state ≠ .transferring ∧ s.eng.live ≠ .removed) →
    step (s.withFetchWord nbits w) = exec i s ∧ { s.withFetchWord nbits w with inputs := s.inputs } = s

/-- Words written out from the encoding tables of `30_encoding.md` decode to the instructions they stand for. -/
def Obligations.WrittenWordsDecode : Prop :=
  decode (bareRequest .commandPort 0x00000001#32) = .ok .init ∧
  decode (bareRequest .commandPort 0x00000A02#32) = .ok (.setup 2#3 true) ∧
  decode (bareRequest .commandPort 0x00003003#32) = .ok (.prepmsg 3#2) ∧
  decode { source := .commandPort, word := 0x00004004#32, len := 3#32, hz := 1000000#32, txa := 0x1000, rxa := 0x2000 } =
    .ok (.xfer 3#32 1000000#32 (some 0x1000) none) ∧
  decode (bareRequest .commandPort 0x00000B05#32) = .ok (.setcs 3#3 true) ∧
  decode (bareRequest .commandPort 0x00000006#32) = .ok .finack ∧
  decode (bareRequest .commandPort 0x00000007#32) = .ok .teardown ∧
  decode (bareRequest .dispatcher 0x00000008#32) = .ok .irq ∧
  decode (bareRequest .commandPort 0x00000008#32) = .error .dispatcherOnly ∧
  decode (bareRequest .commandPort 0x00000019#32) = .error .internalOnly ∧
  decode (bareRequest .commandPort 0x00000020#32) = .error .z0NotZero ∧
  decode (bareRequest .commandPort 0x00010001#32) = .error .z1NotZero ∧
  decode (bareRequest .commandPort 0x00000000#32) = .error .reservedOpcode

/-- `30_encoding.md` R92, `60_exceptions.md` R207: which words of the command port are refused, and that a refusal changes
nothing but the result given. -/
def Obligations.RefusedWordsChangeNothing : Prop :=
  ∀ (s : State) (r : Request) (rest : List Input),
    s.inputs = .request r :: rest → r.source = .commandPort →
    (r.word.extractLsb' 5 3 ≠ 0#3 ∨ r.word.extractLsb' 16 16 ≠ 0#16 ∨
      (r.word.extractLsb' 0 5).toNat = 0x00 ∨
      (0x09 ≤ (r.word.extractLsb' 0 5).toNat ∧ (r.word.extractLsb' 0 5).toNat ≤ 0x0F) ∨
      0x1C ≤ (r.word.extractLsb' 0 5).toNat ∨
      (r.word.extractLsb' 0 5).toNat = 0x08 ∨
      (0x10 ≤ (r.word.extractLsb' 0 5).toNat ∧ (r.word.extractLsb' 0 5).toNat ≤ 0x1B) ∨
      (((r.word.extractLsb' 0 5).toNat = 0x02 ∨ (r.word.extractLsb' 0 5).toNat = 0x05) ∧
        s.params.numCs ≤ (r.word.extractLsb' 8 3).toNat) ∨
      (∃ i, decode r = .ok i ∧ i.admitted s.eng.live s.eng.state = false)) →
    step s = .next { s with inputs := rest, result := some .refused }

/-- `45_host_operations.md` R164: a command that the table does not admit is refused and changes nothing; one that it admits
is not refused; `IRQ` is serviced in `READY` and not started outside it. -/
def Obligations.AdmissibilityTable : Prop :=
  (∀ (s t : State) (i : Instr), i.source = .commandPort → exec i s = .next t →
    (i.admitted s.eng.live s.eng.state = false → t = { s with result := some .refused }) ∧
    (i.admitted s.eng.live s.eng.state = true →
      (∀ cs f, i = .setup cs f ∨ i = .setcs cs f → cs.toNat < s.params.numCs) → t.result ≠ some .refused ∧ t.result ≠ none)) ∧
  (∀ (s : State) (i : Instr), i.source = .commandPort → i.admitted s.eng.live s.eng.state = false →
    ∃ t, exec i s = .next t) ∧
  (∀ s : State, s.eng.live ≠ .ready → exec .irq s = .next { s with irqResult := some .none }) ∧
  (∀ s t : State, s.params.layout.legal = true → s.eng.live = .ready → exec .irq s = .next t →
    ∃ w rest, t.ports = s.ports ++ .regRead .mis w :: rest) ∧
  (∀ s : State, s.eng.live = .ready → s.eng.state ≠ .completing →
    exec .finack s = .next { s with result := some .ok })

/-- With no request waiting, while the line is asserted: in a live instance the engine is started, in another it is not and the
dispatcher gets `NONE`; while it is not asserted nothing happens. The line is asserted by an enabled, pending source or by
another device (`60_exceptions.md` R196, `45_host_operations.md` R164, `46_spi_core_agent.md` R176). That the dispatcher comes
after the waiting requests is the model's choice (log 1). -/
def Obligations.LineStartsTheIdleEngine : Prop :=
  ∀ s : State, s.params.layout.legal = true → s.inputs = [] →
    ((s.otherIrq = true ∨
        ∃ k : IntSrc, s.blk.ris.getLsbD (s.params.layout.intBit k) = true ∧
          s.blk.control.getLsbD (s.params.layout.pos k.inten) = true) →
      (s.eng.live = .ready → step s = exec .irq s) ∧
      (s.eng.live ≠ .ready → step s = .next { s with irqResult := some .none })) ∧
    (¬ (s.otherIrq = true ∨
        ∃ k : IntSrc, s.blk.ris.getLsbD (s.params.layout.intBit k) = true ∧
          s.blk.control.getLsbD (s.params.layout.pos k.inten) = true) →
      step s = .next s)

/-- What a micro-operation called on its own answers: the model's own convention (logs 12, 13). It leaves the result port and
the interrupt result alone. -/
def Obligations.MicroOperationsAnswerTheCall : Prop :=
  ∀ (s t : State) (i : Instr), i.source = .sequencer → exec i s = .next t →
    t.result = s.result ∧ t.irqResult = s.irqResult ∧
    (∀ target src, i = .calcClk target src →
      t.callResult = some (if (calcDivider target.toNat src.toNat).isSome = true then .ok else .invalidFrequency)) ∧
    (∀ bits, i = .setFramesize bits → t.callResult = some (if bits = 8#8 then .ok else .refused)) ∧
    ((∀ target src, i ≠ .calcClk target src) → (∀ bits, i ≠ .setFramesize bits) → t.callResult = some .ok)

/-! ### Configuration -/

/-- `41_config.md` R110. -/
def Obligations.DisableClearsEnable : Prop :=
  ∀ s : State, s.params.layout.legal = true →
    ∃ t, exec .disable s = .next t ∧
      t.ports = s.ports ++ [.regRead .control s.blk.control, .regWrite .control t.blk.control] ∧
      t.blk.control.getLsbD s.params.layout.enable = false ∧
      s.params.layout.sameOutside [.enable] s.blk.control t.blk.control ∧ s.blk.sameWordsButControl t.blk ∧
      s.keepsOutsideBlock 2 t ∧ t.result = s.result ∧ t.irqResult = s.irqResult ∧ s.keepsQuietly t ∧
      (s.env = [] → t.blk.ris = s.blk.ris ∧ t.blk.framesSent = s.blk.framesSent)

/-- `41_config.md` R111. -/
def Obligations.EnableSetsEnable : Prop :=
  ∀ s : State, s.params.layout.legal = true →
    ∃ t, exec .enable s = .next t ∧
      t.ports = s.ports ++ [.regRead .control s.blk.control, .regWrite .control t.blk.control] ∧
      t.blk.control.getLsbD s.params.layout.enable = true ∧
      s.params.layout.sameOutside [.enable] s.blk.control t.blk.control ∧ s.blk.sameWordsButControl t.blk ∧
      s.keepsOutsideBlock 2 t ∧ t.result = s.result ∧ t.irqResult = s.irqResult ∧ s.keepsQuietly t ∧
      (s.blk.control.getLsbD s.params.layout.enable = true → s.env = [] → t.blk = s.blk) ∧
      (s.blk.control.getLsbD s.params.layout.enable = false → t.blk.framesSent = 0 ∧
        (s.env = [] → t.blk.ris = t.blk.risAtEnable s.params s.blk.ris))

/-- `41_config.md` R113: with 8 bits the frame size is programmed by the protocol, the word 8 in the bits of the field `SIZE`;
any other operand is refused and has no effect on the machine. That the refusal is the answer of the call is the model's
choice (log 13); what a field `SIZE` that does not begin at bit 0 then holds is its reading (log 9). -/
def Obligations.SetFramesizeProgramsEightBits : Prop :=
  (∀ s : State, s.params.layout.legal = true →
    ∃ t, exec (.setFramesize 8#8) s = .next t ∧
      t.ports = s.ports ++ frameSizePorts s.params.layout s.blk.control ∧
      t.blk.control.getLsbD s.params.layout.enable = true ∧
      s.params.layout.sameOutside [.enable] s.blk.control t.blk.control ∧
      t.blk.frameSize = 8#32 &&& s.params.layout.sizeMask ∧ (s.params.layout.size = 0 → t.blk.frameSize = 8#32) ∧
      t.blk.clkGen = s.blk.clkGen ∧ t.blk.ssel = s.blk.ssel ∧ t.blk.framesup = s.blk.framesup ∧
      s.keepsAroundProtocol 5 t) ∧
  (∀ (s : State) (bits : Byte), bits ≠ 8#8 →
    ∃ t, exec (.setFramesize bits) s = .next t ∧ t.callResult = some .refused ∧ { t with callResult := s.callResult } = s)

/-- `41_config.md` R114 with `30_encoding.md` R87: polarity and phase are replaced, whatever they held. -/
def Obligations.SetModeProgramsPolarityAndPhase : Prop :=
  ∀ (s : State) (mode : BitVec 2), s.params.layout.legal = true →
    ∃ t, exec (.setMode mode) s = .next t ∧
      t.ports = s.ports ++ modePorts s.params.layout s.blk.control mode ∧
      t.blk.control.getLsbD s.params.layout.spo = mode.getLsbD 1 ∧
      t.blk.control.getLsbD s.params.layout.sph = mode.getLsbD 0 ∧
      t.blk.control.getLsbD s.params.layout.enable = true ∧
      s.params.layout.sameOutside [.enable, .spo, .sph] s.blk.control t.blk.control ∧
      s.blk.sameWordsButControl t.blk ∧ s.keepsAroundProtocol 6 t

/-- `41_config.md` R115: both halves of the frame count are programmed. -/
def Obligations.SetXferLenProgramsTheFrameCount : Prop :=
  ∀ (s : State) (len : Word), s.params.layout.legal = true →
    ∃ t, exec (.setXferLen len) s = .next t ∧
      t.ports = s.ports ++ xferLenPorts s.params.layout s.blk.control len ∧
      s.params.layout.get .framecnt t.blk.control = len &&& 0xFFFF#32 ∧ t.blk.framesup = len &&& 0xFFFF0000#32 ∧
      frameCount s.params.layout t.blk t.blk.control = len.toNat ∧
      t.blk.control.getLsbD s.params.layout.enable = true ∧
      s.params.layout.sameOutside [.enable, .framecnt] s.blk.control t.blk.control ∧
      t.blk.frameSize = s.blk.frameSize ∧ t.blk.clkGen = s.blk.clkGen ∧ t.blk.ssel = s.blk.ssel ∧
      s.keepsAroundProtocol 7 t

/-- `41_config.md` R116: the four interrupt enables are set. -/
def Obligations.EnableIntsSetsTheFourEnables : Prop :=
  ∀ s : State, s.params.layout.legal = true →
    ∃ t, exec .enableInts s = .next t ∧
      t.ports = s.ports ++
        [.regRead .control s.blk.control, .regWrite .control (s.params.layout.set .enable s.blk.control 0#32),
         .regRead .control (s.params.layout.set .enable s.blk.control 0#32),
         .regWrite .control (s.params.layout.set .enable t.blk.control 0#32),
         .regRead .control (s.params.layout.set .enable t.blk.control 0#32), .regWrite .control t.blk.control] ∧
      (∀ k : IntSrc, t.blk.control.getLsbD (s.params.layout.pos k.inten) = true) ∧
      t.blk.control.getLsbD s.params.layout.enable = true ∧
      s.params.layout.sameOutside [.enable, .intenRxrdy, .intenTxdone, .intenRxovf, .intenTxunder]
        s.blk.control t.blk.control ∧
      s.blk.sameWordsButControl t.blk ∧ s.keepsAroundProtocol 6 t

/-- `41_config.md` R117: the four interrupt enables are cleared; afterwards `MIS` reads 0 in its four bits whatever the raw
latches hold, so the block does not assert the line. -/
def Obligations.DisableIntsClearsTheFourEnables : Prop :=
  ∀ s : State, s.params.layout.legal = true →
    ∃ t, exec .disableInts s = .next t ∧
      t.ports = s.ports ++
        [.regRead .control s.blk.control, .regWrite .control (s.params.layout.set .enable s.blk.control 0#32),
         .regRead .control (s.params.layout.set .enable s.blk.control 0#32),
         .regWrite .control (s.params.layout.set .enable t.blk.control 0#32),
         .regRead .control (s.params.layout.set .enable t.blk.control 0#32), .regWrite .control t.blk.control] ∧
      (∀ k : IntSrc, t.blk.control.getLsbD (s.params.layout.pos k.inten) = false) ∧
      t.blk.control.getLsbD s.params.layout.enable = true ∧
      s.params.layout.sameOutside [.enable, .intenRxrdy, .intenTxdone, .intenRxovf, .intenTxunder]
        s.blk.control t.blk.control ∧
      s.blk.sameWordsButControl t.blk ∧ s.keepsAroundProtocol 6 t ∧
      (∀ r : BitVec 4, misWord s.params.layout { t.blk with ris := r } &&& 0xF#32 = 0#32 ∧
        coreIrqLine s.params.layout { t.blk with ris := r } = false)

/-- `41_config.md` R118: exactly the bit of the index takes the complement of `disable`; refused unless the instance is live
and the index admitted. The word read is the stored one in the named bits of the layout (log 9). -/
def Obligations.SetCsWritesOneBit : Prop :=
  (∀ (s : State) (cs : BitVec 3) (disable : Bool),
    s.eng.live = .ready → cs.toNat < s.params.numCs → s.blk.ssel &&& s.params.layout.sselMask = s.blk.ssel →
    ∃ t w, exec (.setcs cs disable) s = .next t ∧ t.result = some .ok ∧
      w &&& s.params.layout.sselMask = s.blk.ssel ∧
      t.ports = s.ports ++ [.regRead .slaveSelect w, .regWrite .slaveSelect
        ((w &&& ~~~(1#32 <<< cs.toNat)) ||| ((if disable = true then 0#32 else 1#32) <<< cs.toNat))] ∧
      (∀ i, t.blk.ssel.getLsbD i = if i = cs.toNat then !disable else s.blk.ssel.getLsbD i) ∧
      t.blk.control = s.blk.control ∧ t.blk.frameSize = s.blk.frameSize ∧ t.blk.clkGen = s.blk.clkGen ∧
      t.blk.framesup = s.blk.framesup ∧ s.keepsOutsideBlock 2 t ∧ t.irqResult = s.irqResult ∧ s.keepsQuietly t ∧
      (s.env = [] → t.blk.ris = s.blk.ris ∧ t.blk.framesSent = s.blk.framesSent)) ∧
  (∀ (s : State) (cs : BitVec 3) (disable : Bool), s.params.numCs ≤ cs.toNat ∨ s.eng.live ≠ .ready →
    exec (.setcs cs disable) s = .next { s with result := some .refused })

/-- `45_host_operations.md` R160: for an active-high device the bit is set; for another nothing is accessed. The word
read is the stored one in the named bits of the layout (log 9). -/
def Obligations.SetupSetsTheSelectBit : Prop :=
  (∀ (s : State) (cs : BitVec 3),
    s.eng.live = .ready → cs.toNat < s.params.numCs → s.blk.ssel &&& s.params.layout.sselMask = s.blk.ssel →
    ∃ t w, exec (.setup cs true) s = .next t ∧ t.result = some .ok ∧
      w &&& s.params.layout.sselMask = s.blk.ssel ∧
      t.ports = s.ports ++ [.regRead .slaveSelect w, .regWrite .slaveSelect (w ||| 1#32 <<< cs.toNat)] ∧
      (∀ i, t.blk.ssel.getLsbD i = if i = cs.toNat then true else s.blk.ssel.getLsbD i) ∧
      t.blk.control = s.blk.control ∧ t.blk.frameSize = s.blk.frameSize ∧ t.blk.clkGen = s.blk.clkGen ∧
      t.blk.framesup = s.blk.framesup ∧ s.keepsOutsideBlock 2 t ∧ t.irqResult = s.irqResult ∧ s.keepsQuietly t ∧
      (s.env = [] → t.blk.ris = s.blk.ris ∧ t.blk.framesSent = s.blk.framesSent)) ∧
  (∀ (s : State) (cs : BitVec 3), s.eng.live = .ready → cs.toNat < s.params.numCs →
    exec (.setup cs false) s = .next { s with result := some .ok }) ∧
  (∀ (s : State) (cs : BitVec 3) (csHigh : Bool), s.params.numCs ≤ cs.toNat ∨ s.eng.live ≠ .ready →
    exec (.setup cs csHigh) s = .next { s with result := some .refused })

/-! ### Clock -/

/-- `40_clock.md` R100: the clock pair by the ratio of source and clamped target, with the formulas of the divider value, and
the failures; no access is made and nothing else changes. That the answer of the call stands in `callResult` is the model's
choice (log 12). -/
def Obligations.CalcClkFollowsTheFormulas : Prop :=
  ∀ (s : State) (target src : Word) (t : Nat), t = min target.toNat src.toNat →
    (src = 0#32 ∨ t = 0 ∨ 65535 * t < src.toNat →
      exec (.calcClk target src) s = .next { s with callResult := some .invalidFrequency }) ∧
    (2 * t < src.toNat ∧ src.toNat ≤ 512 * t →
      ∃ g, exec (.calcClk target src) s =
          .next { s with eng := { s.eng with clkMode := true, clkGen := g }, callResult := some .ok } ∧
        1 ≤ g ∧ g ≤ 255 ∧ g * (2 * t) < src.toNat ∧ src.toNat ≤ (g + 1) * (2 * t)) ∧
    (0 < src.toNat ∧ 0 < t ∧ src.toNat ≤ 2 * t →
      ∃ g, exec (.calcClk target src) s =
          .next { s with eng := { s.eng with clkMode := false, clkGen := g }, callResult := some .ok } ∧
        (src.toNat = t → g = 0) ∧ (t < src.toNat → g = 1)) ∧
    (0 < t ∧ 512 * t < src.toNat ∧ src.toNat ≤ 65535 * t →
      ∃ g q, exec (.calcClk target src) s =
          .next { s with eng := { s.eng with clkMode := false, clkGen := g }, callResult := some .ok } ∧
        9 ≤ g ∧ g ≤ 15 ∧ (q - 1) * t < src.toNat ∧ src.toNat ≤ q * t ∧ 2 ^ g ≤ q ∧ q < 2 ^ (g + 1))

/-- `40_clock.md` R101, (a) to (f). -/
def Obligations.CalculatorProperties : Prop :=
  (∀ src t : Nat, 0 < src → 0 < t →
    ((1 ≤ ceilDiv src (2 * t) - 1 ∧ ceilDiv src (2 * t) - 1 ≤ 255) ↔ (2 * t < src ∧ src ≤ 512 * t)) ∧
    (floorLog2 (ceilDiv src t) ≤ 15 ↔ ceilDiv src t ≤ 65535) ∧ (ceilDiv src t ≤ 65535 ↔ src ≤ 65535 * t)) ∧
  (∀ target src : Nat,
    (calcDivider target src).isSome = true ↔
      (1 ≤ src ∧ 1 ≤ min target src ∧ src ≤ 65535 * min target src)) ∧
  (∀ target src g : Nat, calcDivider target src = some (false, g) →
    ceilDiv src (min target src) < 2 ^ (g + 1) ∧ src ≤ ceilDiv src (min target src) * min target src ∧
    src < min target src * 2 ^ (g + 1) ∧ min target src * 2 ^ (g + 1) < 4 * src) ∧
  (∀ target src g : Nat, calcDivider target src = some (true, g) → src ≤ 2 * (g + 1) * min target src) ∧
  (∃ g, calcDivider 10000000 100000000 = some (true, g) ∧ (2 * g + 1) * 10000000 < 100000000) ∧
  (∀ (target src : Word) (s₁ s₂ t₁ t₂ : State), (calcDivider target.toNat src.toNat).isSome = true →
    exec (.calcClk target src) s₁ = .next t₁ → exec (.calcClk target src) s₂ = .next t₂ →
    t₁.eng.clkMode = t₂.eng.clkMode ∧ t₁.eng.clkGen = t₂.eng.clkGen)

/-- `40_clock.md` R102: the realised frequency `src / DIV` does not exceed the clamped target: in mode 0 always, in mode 1
for a divisor of at least `2*(G+1)`; with `2*G+1` it is bounded by `t*(2*G+2)/(2*G+1)`, at most four thirds. -/
def Obligations.RealisedFrequencyIsBounded : Prop :=
  ∀ (target src g : Nat) (m : Bool), calcDivider target src = some (m, g) →
    (m = false → divisor m g = 2 ^ (g + 1) ∧ src ≤ min target src * divisor m g) ∧
    (m = true → divisor m g = Config.div1 g) ∧
    (m = true → 2 * (g + 1) ≤ Config.div1 g → src ≤ min target src * divisor m g) ∧
    (m = true → Config.div1 g = 2 * g + 1 →
      src ≤ min target src * (2 * g + 2) ∧ 3 * src ≤ 4 * (min target src * divisor m g))

/-- `40_clock.md` R103: the pending clock pair goes into `CLK_GEN` and `CLKMODE`, by the protocol. What a field `GEN` that does
not begin at bit 0 then holds is the model's reading (log 9). -/
def Obligations.ApplyClkProgramsThePair : Prop :=
  ∀ s : State, s.params.layout.legal = true → s.eng.clkGen ≤ 255 →
    ∃ t, exec .applyClk s = .next t ∧
      t.ports = s.ports ++ applyClkPorts s.params.layout s.blk.control s.eng.clkMode s.eng.clkGen ∧
      t.blk.clkGen = BitVec.ofNat 32 s.eng.clkGen &&& s.params.layout.genMask ∧
      (s.params.layout.gen = 0 → t.blk.clkGen.toNat = s.eng.clkGen) ∧
      t.blk.control.getLsbD s.params.layout.clkmode = s.eng.clkMode ∧
      t.blk.control.getLsbD s.params.layout.enable = true ∧
      s.params.layout.sameOutside [.enable, .clkmode] s.blk.control t.blk.control ∧
      t.blk.frameSize = s.blk.frameSize ∧ t.blk.ssel = s.blk.ssel ∧ t.blk.framesup = s.blk.framesup ∧
      s.keepsAroundProtocol 7 t

/-! ### FIFO bursts -/

/-- `42_fifo.md` R130: whatever the other agents do, a `FILL` that answers has made exactly the accesses of a burst, moved
the cursors by the bytes it wrote, and changed nothing else of its own; with no other agent acting the bytes written stand
at the end of the TX FIFO, read from the source or the filler. -/
def Obligations.FillIsOneBurst : Prop :=
  ∀ s t : State, s.params.layout.legal = true → exec .fill s = .next t →
    ∃ (b : List Byte) (ev : List PortEvent),
      isFill s.params s.blk.control s.eng.txLen s.eng.txBuf b ev ∧ t.ports = s.ports ++ ev ∧
      t.eng = { s.eng with
        txLen := s.eng.txLen - b.length, pending := s.eng.pending + b.length,
        txBuf := s.eng.txBuf.map (advance s.params.addrW b.length) } ∧
      frameCount s.params.layout t.blk t.blk.control = min s.eng.txLen 32 ∧
      t.blk.control.getLsbD s.params.layout.enable = true ∧
      s.params.layout.sameOutside [.enable, .framecnt] s.blk.control t.blk.control ∧
      t.blk.frameSize = s.blk.frameSize ∧ t.blk.clkGen = s.blk.clkGen ∧ t.blk.ssel = s.blk.ssel ∧
      t.result = s.result ∧ t.irqResult = s.irqResult ∧ s.keepsPlatform ev.length t ∧
      t.mem = (ticks ev.length s).mem ∧ (s.hostStill → ∀ a, t.mem.read a = s.mem.read a) ∧
      (s.env = [] → s.blk.txq.length ≤ 32 →
        t.blk.txq = s.blk.txq ++ b ∧ t.blk.rxq = s.blk.rxq ∧ t.blk.wire = s.blk.wire ∧
        t.blk.openWord = s.blk.openWord ∧ t.blk.framesSent = 0 ∧
        t.blk.ris = t.blk.risAtEnable s.params s.blk.ris ∧
        (∀ a, s.eng.txBuf = some a → ∀ j (hj : j < b.length), s.mem.read (advance s.params.addrW j a) = some b[j]) ∧
        (s.eng.txBuf = none → ∀ x ∈ b, x = 0xAA#8))

/-- A `FILL` answers when the source is absent or the host keeps its duty of `20_memory.md` R53 for the burst; with no other
agent acting it writes as many bytes as the cursor, the burst and the room in the FIFO allow. -/
def Obligations.FillCompletesUnderTheHostsDuty : Prop :=
  ∀ s : State, s.hostHolds → s.mem.lends s.params.addrW s.eng.txBuf (min s.eng.txLen 32) →
    ∃ t, exec .fill s = .next t ∧
      (s.params.layout.legal = true → s.env = [] → s.blk.txq.length ≤ 32 →
        t.eng.txLen = s.eng.txLen - min (min s.eng.txLen 32) (32 - s.blk.txq.length) ∧
        t.blk.txq.length = s.blk.txq.length + min (min s.eng.txLen 32) (32 - s.blk.txq.length))

/-- `42_fifo.md` R131: whatever the other agents do, a `DRAIN` that answers has made exactly the accesses of a burst, moved
the cursors by the bytes it read, and changed nothing else of its own; bytes outside the sink addresses stay, and below the
top of the address space the sink holds the bytes received. -/
def Obligations.DrainIsOneBurst : Prop :=
  ∀ s t : State, s.params.layout.legal = true → exec .drain s = .next t →
    ∃ (d : List Byte) (ev : List PortEvent),
      isDrain s.params s.eng.rxLen s.eng.rxBuf d ev ∧ t.ports = s.ports ++ ev ∧
      t.eng = { s.eng with
        rxLen := s.eng.rxLen - d.length, pending := s.eng.pending - d.length,
        rxBuf := s.eng.rxBuf.map (advance s.params.addrW d.length) } ∧
      s.blk.sameWords t.blk ∧ t.result = s.result ∧ t.irqResult = s.irqResult ∧ s.keepsPlatform ev.length t ∧
      (s.eng.rxBuf = none → t.mem = (ticks ev.length s).mem) ∧
      (s.hostStill → ∀ x, (∀ a, s.eng.rxBuf = some a → ∀ k, k < d.length → x ≠ advance s.params.addrW k a) →
        t.mem.read x = s.mem.read x) ∧
      (s.hostStill → ∀ a, s.eng.rxBuf = some a → a + d.length ≤ 2 ^ s.params.addrW →
        ∀ k (hk : k < d.length), t.mem.read (a + k) = some d[k]) ∧
      (s.env = [] → t.blk = { s.blk with rxq := s.blk.rxq.drop d.length } ∧
        d = s.blk.rxq.take (min s.eng.rxLen 32))

/-- A `DRAIN` answers when the sink is absent or the host keeps its duty of `20_memory.md` R53 for the burst; with no other
agent acting it reads as many bytes as the cursor, the burst and the FIFO allow. -/
def Obligations.DrainCompletesUnderTheHostsDuty : Prop :=
  ∀ s : State, s.hostHolds → s.mem.lends s.params.addrW s.eng.rxBuf (min s.eng.rxLen 32) →
    ∃ t, exec .drain s = .next t ∧
      (s.params.layout.legal = true → s.env = [] →
        t.eng.rxLen = s.eng.rxLen - min (min s.eng.rxLen 32) s.blk.rxq.length ∧
        t.blk.rxq = s.blk.rxq.drop (min s.eng.rxLen 32))

/-- An access to a buffer byte the host has not lent stops the model by name (`20_memory.md` R53, decision D30; log 6): every
buffer access, at any address and whatever the other agents have done by then; so also a burst, at the first byte it reaches
that is not lent. Nothing else stops an instruction, and only `FILL`, `DRAIN`, `XFER` and `IRQ` can be stopped. -/
def Obligations.UnlentBufferByteIsRefused : Prop :=
  (∀ (s : State) (a : Nat) (b : Byte), (tick s).mem.read a = none →
    bufRead a s = .refused (.bufReadNotLent a) ∧ bufWrite a b s = .refused (.bufWriteNotLent a)) ∧
  (∀ (s : State) (a : Nat) (k : Nat), s.params.layout.legal = true → s.env = [] → s.eng.txBuf = some a →
    k < min s.eng.txLen 32 → s.blk.txq.length + k < 32 → s.mem.lends s.params.addrW (some a) k →
    s.mem.read (advance s.params.addrW k a) = none →
    exec .fill s = .refused (.bufReadNotLent (advance s.params.addrW k a))) ∧
  (∀ (s : State) (a : Nat) (k : Nat), s.params.layout.legal = true → s.env = [] → s.eng.rxBuf = some a →
    k < min s.eng.rxLen 32 → k < s.blk.rxq.length → s.mem.lends s.params.addrW (some a) k →
    s.mem.read (advance s.params.addrW k a) = none →
    exec .drain s = .refused (.bufWriteNotLent (advance s.params.addrW k a))) ∧
  (∀ (s : State) (i : Instr),
    (∃ t, exec i s = .next t) ∨
    ((i = .fill ∨ i = .drain ∨ i = .irq ∨ ∃ len hz tx rx, i = .xfer len hz tx rx) ∧
      ∃ a, exec i s = .refused (.bufReadNotLent a) ∨ exec i s = .refused (.bufWriteNotLent a)))

/-! ### Interrupts -/

/-- `43_interrupt.md` R141: one write of the bit to `INT_CLEAR`; that latch is clear, the others as the other agents left
them. -/
def Obligations.AckClearsOneLatch : Prop :=
  ∀ (s : State) (bit : BitVec 2),
    ∃ t, exec (.ack bit) s = .next t ∧ t.ports = s.ports ++ [.regWrite .intClear (1#32 <<< bit.toNat)] ∧
      (∀ i, t.blk.ris.getLsbD i = ((tick s).blk.ris.getLsbD i && decide (i ≠ bit.toNat))) ∧
      (misBits s.params.layout t.blk).getLsbD bit.toNat = false ∧ s.blk.sameWords t.blk ∧ s.keepsOutsideBlock 1 t ∧
      t.result = s.result ∧ t.irqResult = s.irqResult ∧ s.keepsQuietly t ∧
      (s.env = [] → t.blk.framesSent = s.blk.framesSent)

/-- `60_exceptions.md` R194: a service that finds no enabled source pending reads `MIS`, answers `NONE` and changes nothing. -/
def Obligations.ForeignInterruptIsReported : Prop :=
  ∀ s : State, s.params.layout.legal = true → s.eng.live = .ready →
    (∀ k : IntSrc, ¬ ((tick s).blk.ris.getLsbD (s.params.layout.intBit k) = true ∧
      s.blk.control.getLsbD (s.params.layout.pos k.inten) = true)) →
    ∃ t w, exec .irq s = .next t ∧ w &&& 0xF#32 = 0#32 ∧ t.irqResult = some .none ∧
      t.ports = s.ports ++ [.regRead .mis w] ∧ t.blk = (tick s).blk ∧ s.keepsOutsideBlock 1 t ∧
      t.result = s.result ∧ t.callResult = s.callResult

/-- `43_interrupt.md` R140: whatever the other agents do, a service that answers has made exactly the accesses and emissions
the rule gives for the word `w` it read from `MIS`, in their order, and left the engine's record as the rule says. -/
def Obligations.ServiceFollowsTheStatusRead : Prop :=
  ∀ s t : State, s.params.layout.legal = true → s.eng.live = .ready → exec .irq s = .next t →
    ∃ (w : Word) (d b : List Byte) (evD evF : List PortEvent) (final : Bool),
      let seen := fun k => w.getLsbD (s.params.layout.intBit k)
      let rx := s.eng.rxLen - d.length
      let tx := s.eng.txLen - b.length
      t.ports = s.ports ++ irqPorts s.params.layout w evD evF rx tx final ∧
      (if seen .txdone = true then isDrain s.params s.eng.rxLen s.eng.rxBuf d evD else d = [] ∧ evD = []) ∧
      (if seen .txdone = true ∧ 0 < s.eng.txLen then
        isFill s.params s.blk.control s.eng.txLen s.eng.txBuf b evF else b = [] ∧ evF = []) ∧
      (final = true ↔ (seen .txdone = true ∧ rx = 0) ∨ seen .rxovf = true ∨ seen .txunder = true) ∧
      t.eng = { s.eng with
        rxLen := rx, txLen := tx, pending := s.eng.pending - d.length + b.length,
        rxBuf := if final = true then none else s.eng.rxBuf.map (advance s.params.addrW d.length),
        txBuf := if final = true then none else s.eng.txBuf.map (advance s.params.addrW b.length),
        state := if final = true then .completing else s.eng.state,
        finished := s.eng.finished + (if final = true then 1 else 0),
        errlog := s.eng.errlog ++
          (if seen .rxovf = true then [ErrEntry.mk .rxOverflow rx tx] else []) ++
          (if seen .txunder = true then [ErrEntry.mk .txUnderrun rx tx] else []) } ∧
      t.irqResult = some (if w &&& 0xF#32 = 0#32 then .none else .handled) ∧
      t.result = s.result ∧ t.callResult = s.callResult ∧
      s.keepsPlatform (portAccesses (irqPorts s.params.layout w evD evF rx tx final)) t ∧
      (if seen .txdone = true ∧ 0 < s.eng.txLen then
        frameCount s.params.layout t.blk t.blk.control = min s.eng.txLen 32 ∧
        t.blk.control.getLsbD s.params.layout.enable = true ∧
        s.params.layout.sameOutside [.enable, .framecnt] s.blk.control t.blk.control ∧
        t.blk.frameSize = s.blk.frameSize ∧ t.blk.clkGen = s.blk.clkGen ∧ t.blk.ssel = s.blk.ssel
      else s.blk.sameWords t.blk) ∧
      (s.hostStill → ∀ x, (∀ a, s.eng.rxBuf = some a → ∀ k, k < d.length → x ≠ advance s.params.addrW k a) →
        t.mem.read x = s.mem.read x) ∧
      (s.env = [] → s.blk.txq.length ≤ 32 →
        (∀ k : IntSrc, seen k =
          (s.blk.ris.getLsbD (s.params.layout.intBit k) && s.blk.control.getLsbD (s.params.layout.pos k.inten))) ∧
        t.blk.txq = s.blk.txq ++ b ∧ t.blk.rxq = s.blk.rxq.drop d.length ∧ t.blk.wire = s.blk.wire ∧
        t.blk.ris = s.blk.ris &&& ~~~(w.extractLsb' 0 4))

/-- A service answers, `HANDLED` or `NONE`, when buffers are absent or the host keeps its duty of `20_memory.md` R53 for one
burst each way (`43_interrupt.md` R140). -/
def Obligations.ServiceCompletesUnderTheHostsDuty : Prop :=
  ∀ s : State, s.params.layout.legal = true → s.eng.live = .ready → s.hostHolds →
    s.mem.lends s.params.addrW s.eng.rxBuf (min s.eng.rxLen 32) →
    s.mem.lends s.params.addrW s.eng.txBuf (min s.eng.txLen 32) →
    ∃ t, exec .irq s = .next t ∧
      ((∀ k : IntSrc, ¬ ((tick s).blk.ris.getLsbD (s.params.layout.intBit k) = true ∧
        s.blk.control.getLsbD (s.params.layout.pos k.inten) = true)) → t.irqResult = some .none) ∧
      ((∃ k : IntSrc, (tick s).blk.ris.getLsbD (s.params.layout.intBit k) = true ∧
        s.blk.control.getLsbD (s.params.layout.pos k.inten) = true) → t.irqResult = some .handled)

/-- `60_exceptions.md` R192, R193: with a fault and no TX-done in `MIS` the service answers in every environment, buffers
lent or not: each fault is acknowledged and logged, the cursors keep their values, and the transfer is completed by force. -/
def Obligations.FaultForcesCompletion : Prop :=
  ∀ s : State, s.params.layout.legal = true → s.eng.live = .ready →
    (let seen := fun k : IntSrc => (tick s).blk.ris.getLsbD (s.params.layout.intBit k) &&
      s.blk.control.getLsbD (s.params.layout.pos k.inten)
    seen .txdone = false → (seen .rxovf = true ∨ seen .txunder = true) →
    ∃ t w, exec .irq s = .next t ∧ (∀ k : IntSrc, w.getLsbD (s.params.layout.intBit k) = seen k) ∧
      t.ports = s.ports ++ irqPorts s.params.layout w [] [] s.eng.rxLen s.eng.txLen true ∧
      t.eng = { s.eng with
        rxBuf := none, txBuf := none, state := .completing, finished := s.eng.finished + 1,
        errlog := s.eng.errlog ++
          (if seen .rxovf = true then [ErrEntry.mk .rxOverflow s.eng.rxLen s.eng.txLen] else []) ++
          (if seen .txunder = true then [ErrEntry.mk .txUnderrun s.eng.rxLen s.eng.txLen] else []) } ∧
      t.irqResult = some .handled ∧ s.blk.sameWords t.blk ∧ t.result = s.result ∧
      (s.hostStill → ∀ a, t.mem.read a = s.mem.read a))

/-- `43_interrupt.md` R143, (a) to (e), of a service that answers, with the word `w` it read from `MIS`. The values the cursors
reached, which a service that finalises keeps too, are those after the frames it read and wrote. -/
def Obligations.ServiceProperties : Prop :=
  ∀ s t : State, s.params.layout.legal = true → s.eng.live = .ready → exec .irq s = .next t →
    ∃ (w : Word) (rest : List PortEvent), t.ports = s.ports ++ .regRead .mis w :: rest ∧
      (let seen := fun k => w.getLsbD (s.params.layout.intBit k)
      rest.filter isIntClear =
        (IntSrc.all.filter seen).map (fun k => .regWrite .intClear (1#32 <<< s.params.layout.intBit k)) ∧
      (t.irqResult = some .none → rest = [] ∧ t.eng = s.eng ∧ t.blk = (tick s).blk ∧ s.keepsOutsideBlock 1 t) ∧
      (t.irqResult = some .none ∨ t.irqResult = some .handled) ∧
      t.eng.finished ≤ s.eng.finished + 1 ∧ t.eng.errlog.length ≤ s.eng.errlog.length + 2 ∧
      (t.eng.finished = s.eng.finished + 1 ↔
        seen .rxovf = true ∨ seen .txunder = true ∨ (seen .txdone = true ∧ t.eng.rxLen = 0)) ∧
      (t.eng.finished = s.eng.finished + 1 →
        t.eng.state = .completing ∧ t.eng.txBuf = none ∧ t.eng.rxBuf = none) ∧
      t.eng.rxLen = s.eng.rxLen - rest.countP isRxRead ∧ t.eng.txLen = s.eng.txLen - rest.countP isTxWrite ∧
      t.eng.pending = s.eng.pending - rest.countP isRxRead + rest.countP isTxWrite)

/-! ### Initialisation and teardown -/

/-- `44_init_teardown.md` R150, `70_reset_and_hazards.md` R221: the accesses of `INIT` in their order, and what holds when
it returns; refused in an instance that is not just created. For `SIZE` not at bit 0 see log 9. -/
def Obligations.InitEstablishesTheReadyState : Prop :=
  (∀ s : State, s.params.layout.legal = true → s.eng.live = .created →
    ∃ t, exec .init s = .next t ∧ t.result = some .ok ∧
      t.ports = s.ports ++ initPorts s.params.layout s.blk.control (ticks 8 s).clock.hz ∧
      t.eng = { s.eng with
        maxSpeedHz := (ticks 8 s).clock.hz, state := .idle, live := .ready, txLen := 0, rxLen := 0, pending := 0,
        txBuf := none, rxBuf := none } ∧
      t.blk.control.getLsbD s.params.layout.enable = true ∧ t.blk.control.getLsbD s.params.layout.master = true ∧
      s.params.layout.get .mode t.blk.control = 0#32 ∧
      (∀ k : IntSrc, t.blk.control.getLsbD (s.params.layout.pos k.inten) = true) ∧
      t.blk.control.getLsbD s.params.layout.sps = true ∧ t.blk.control.getLsbD s.params.layout.bigfifo = true ∧
      t.blk.control.getLsbD s.params.layout.reset = false ∧
      s.params.layout.sameOutside [.enable, .master, .mode, .intenRxrdy, .intenTxdone, .intenRxovf, .intenTxunder,
        .sps, .bigfifo, .reset] s.blk.control t.blk.control ∧
      t.blk.frameSize = 8#32 &&& s.params.layout.sizeMask ∧ (s.params.layout.size = 0 → t.blk.frameSize = 8#32) ∧
      t.blk.ssel = 1#32 <<< s.params.layout.direct ||| 1#32 <<< s.params.layout.sselout ∧
      t.blk.clkGen = s.blk.clkGen ∧ t.blk.framesup = s.blk.framesup ∧
      s.keepsPlatform 19 t ∧ t.mem = (ticks 19 s).mem ∧ t.irqResult = s.irqResult ∧ t.callResult = s.callResult ∧
      s.keepsQuietly t ∧ (s.env = [] → s.params.zeroLenTxdone = false → t.blk.ris = s.blk.ris)) ∧
  (∀ s : State, s.eng.live ≠ .created → exec .init s = .next { s with result := some .refused })

/-- `44_init_teardown.md` R151: interrupts are silenced, then the clock is released, then the controller is disabled; the
record ends removed, the cursors keep their values, no completion is signalled; refused unless the instance is live.
Afterwards no request is accepted: whatever it is, nothing but an answer changes. That the block still answers once the clock is
released, so that the last read shows `CONTROL` and `ENABLE` ends 0, is the model's choice (log 11). -/
def Obligations.TeardownSilencesReleasesDisables : Prop :=
  (∀ s : State, s.params.layout.legal = true → s.eng.live = .ready →
    ∃ t, exec .teardown s = .next t ∧ t.result = some .ok ∧
      t.ports = s.ports ++ teardownPorts s.params.layout s.blk.control ∧
      t.eng = { s.eng with state := .idle, live := .removed, txBuf := none, rxBuf := none } ∧
      t.blk.control.getLsbD s.params.layout.enable = false ∧
      (∀ k : IntSrc, t.blk.control.getLsbD (s.params.layout.pos k.inten) = false) ∧
      s.params.layout.sameOutside [.enable, .intenRxrdy, .intenTxdone, .intenRxovf, .intenTxunder]
        s.blk.control t.blk.control ∧
      s.blk.sameWordsButControl t.blk ∧ t.clock.held = false ∧ t.clock.hz = (ticks 9 s).clock.hz ∧
      t.params = s.params ∧ t.inputs = s.inputs ∧ t.mem = (ticks 9 s).mem ∧ t.otherIrq = (ticks 9 s).otherIrq ∧
      t.env = (ticks 9 s).env ∧ t.irqResult = s.irqResult ∧ t.callResult = s.callResult ∧
      (s.env = [] → (∀ a, t.mem.read a = s.mem.read a) ∧ t.blk.txq = s.blk.txq ∧ t.blk.rxq = s.blk.rxq ∧
        t.blk.wire = s.blk.wire)) ∧
  (∀ s : State, s.eng.live ≠ .ready → exec .teardown s = .next { s with result := some .refused }) ∧
  (∀ (s : State) (r : Request) (rest : List Input), s.eng.live = .removed → s.inputs = .request r :: rest →
    ∃ t, step s = .next t ∧ (r.source = .commandPort → t.result = some .refused) ∧
      { t with result := s.result, irqResult := s.irqResult, callResult := s.callResult } = { s with inputs := rest })

/-! ### Host commands -/

/-- `45_host_operations.md` R161: frame size, then mode, in eleven accesses; refused unless the instance is live, and during a
transfer. For `SIZE` not at bit 0 see log 9. -/
def Obligations.PrepmsgProgramsFramingAndMode : Prop :=
  (∀ (s : State) (mode : BitVec 2), s.params.layout.legal = true → s.eng.live = .ready → s.eng.state ≠ .transferring →
    ∃ t, exec (.prepmsg mode) s = .next t ∧ t.result = some .ok ∧
      t.ports = s.ports ++ (frameSizePorts s.params.layout s.blk.control ++
        modePorts s.params.layout (s.params.layout.set .enable s.blk.control 1#32) mode) ∧
      s.accesses t = 11 ∧
      t.blk.frameSize = 8#32 &&& s.params.layout.sizeMask ∧ (s.params.layout.size = 0 → t.blk.frameSize = 8#32) ∧
      t.blk.control.getLsbD s.params.layout.spo = mode.getLsbD 1 ∧
      t.blk.control.getLsbD s.params.layout.sph = mode.getLsbD 0 ∧
      t.blk.control.getLsbD s.params.layout.enable = true ∧
      s.params.layout.sameOutside [.enable, .spo, .sph] s.blk.control t.blk.control ∧
      t.blk.clkGen = s.blk.clkGen ∧ t.blk.ssel = s.blk.ssel ∧ t.blk.framesup = s.blk.framesup ∧
      s.keepsOutsideBlock 11 t ∧ t.irqResult = s.irqResult ∧ t.callResult = s.callResult ∧ s.keepsQuietly t) ∧
  (∀ (s : State) (mode : BitVec 2), s.eng.live ≠ .ready ∨ s.eng.state = .transferring →
    exec (.prepmsg mode) s = .next { s with result := some .refused })

/-- `45_host_operations.md` R163: `COMPLETING` becomes `IDLE`; in every other state nothing changes; no access. -/
def Obligations.FinackAcceptsTheFinishedSignal : Prop :=
  ∀ s : State,
    (s.eng.live = .ready → exec .finack s = .next { s with
      eng := { s.eng with state := if s.eng.state = .completing then .idle else s.eng.state }, result := some .ok }) ∧
    (s.eng.live ≠ .ready → exec .finack s = .next { s with result := some .refused })

/-- `60_exceptions.md` R191: the three causes of `InvalidFrequency`, and that the transfer never starts. -/
def Obligations.UnachievableClockStopsXfer : Prop :=
  ∀ (s : State) (len hz : Word) (tx rx : Option Nat), s.eng.live = .ready → s.eng.state ≠ .transferring →
    ((tick s).clock.hz = 0#32 ∨ hz = 0#32 ∨
      65535 * min hz.toNat (tick s).clock.hz.toNat < (tick s).clock.hz.toNat) →
    ∃ t, exec (.xfer len hz tx rx) s = .next t ∧ t.result = some .invalidFrequency ∧
      t.ports = s.ports ++ [.clockRate (tick s).clock.hz] ∧ t.eng = { s.eng with state := .idle } ∧
      t.blk = (tick s).blk ∧ s.blk.sameWords t.blk ∧ s.keepsPlatform 1 t ∧ t.mem = (tick s).mem ∧
      t.irqResult = s.irqResult ∧ t.callResult = s.callResult

/-- `45_host_operations.md` R162: an `XFER` whose clock is achievable and that answers has queried the clock, applied the
pair, loaded the cursors and pointers and made the first burst, in that order, and the transfer is in flight; with a clock
that is not, it fails before any register is accessed; in a state that does not admit it, it is refused whole. That an address
operand has its low `ADDR_W` bits is the model's choice (log 7); for `GEN` not at bit 0 see log 9. -/
def Obligations.XferStartsTheTransfer : Prop :=
  (∀ (s t : State) (len hz : Word) (tx rx : Option Nat) (m : Bool) (g : Nat),
    s.params.layout.legal = true → s.eng.live = .ready → s.eng.state ≠ .transferring →
    calcDivider hz.toNat (tick s).clock.hz.toNat = some (m, g) → exec (.xfer len hz tx rx) s = .next t →
    ∃ (b : List Byte) (ev : List PortEvent),
      isFill s.params
        (s.params.layout.set .enable (s.params.layout.set .clkmode (s.params.layout.set .enable s.blk.control 0#32)
          (bitWord m)) 1#32) len.toNat (tx.map (bufAddr s.params.addrW)) b ev ∧
      t.result = some .inProgress ∧
      t.ports = s.ports ++ (.clockRate (tick s).clock.hz :: applyClkPorts s.params.layout s.blk.control m g ++ ev) ∧
      t.eng = { s.eng with
        clkMode := m, clkGen := g, state := .transferring, txLen := len.toNat - b.length, rxLen := len.toNat,
        pending := b.length,
        txBuf := (tx.map (bufAddr s.params.addrW)).map (advance s.params.addrW b.length),
        rxBuf := rx.map (bufAddr s.params.addrW) } ∧
      t.blk.clkGen = BitVec.ofNat 32 g &&& s.params.layout.genMask ∧
      (s.params.layout.gen = 0 → t.blk.clkGen.toNat = g) ∧ t.blk.control.getLsbD s.params.layout.clkmode = m ∧
      t.blk.control.getLsbD s.params.layout.enable = true ∧
      frameCount s.params.layout t.blk t.blk.control = min len.toNat 32 ∧
      s.params.layout.sameOutside [.enable, .clkmode, .framecnt] s.blk.control t.blk.control ∧
      t.blk.frameSize = s.blk.frameSize ∧ t.blk.ssel = s.blk.ssel ∧
      s.keepsPlatform (8 + ev.length) t ∧ t.mem = (ticks (8 + ev.length) s).mem ∧
      (s.hostStill → ∀ a, t.mem.read a = s.mem.read a) ∧ t.irqResult = s.irqResult ∧ t.callResult = s.callResult ∧
      (s.env = [] → s.blk.txq.length ≤ 32 →
        t.blk.txq = s.blk.txq ++ b ∧ t.blk.rxq = s.blk.rxq ∧ t.blk.wire = s.blk.wire ∧
        b.length = min (min len.toNat 32) (32 - s.blk.txq.length))) ∧
  (∀ (s : State) (len hz : Word) (tx rx : Option Nat), s.eng.live = .ready → s.eng.state ≠ .transferring →
    calcDivider hz.toNat (tick s).clock.hz.toNat = none →
    ∃ t, exec (.xfer len hz tx rx) s = .next t ∧ t.result = some .invalidFrequency ∧
      t.ports = s.ports ++ [.clockRate (tick s).clock.hz] ∧ t.eng = { s.eng with state := .idle } ∧
      t.blk = (tick s).blk) ∧
  (∀ (s : State) (len hz : Word) (tx rx : Option Nat), s.eng.live ≠ .ready ∨ s.eng.state = .transferring →
    exec (.xfer len hz tx rx) s = .next { s with result := some .refused })

/-- An `XFER` with an achievable clock starts the transfer when its source is absent or the host keeps its duty of
`20_memory.md` R53 for the first burst; with no other agent acting that burst is as long as the length, the burst size and the
room in the FIFO allow. That an address operand has its low `ADDR_W` bits is the model's choice (log 7). -/
def Obligations.XferCompletesUnderTheHostsDuty : Prop :=
  ∀ (s : State) (len hz : Word) (tx rx : Option Nat), s.params.layout.legal = true → s.eng.live = .ready →
    s.eng.state ≠ .transferring → (calcDivider hz.toNat (tick s).clock.hz.toNat).isSome = true →
    s.hostHolds → s.mem.lends s.params.addrW (tx.map (bufAddr s.params.addrW)) (min len.toNat 32) →
    ∃ t, exec (.xfer len hz tx rx) s = .next t ∧ t.result = some .inProgress ∧ t.eng.state = .transferring ∧
      t.eng.rxLen = len.toNat ∧ t.eng.rxBuf = rx.map (bufAddr s.params.addrW) ∧
      (s.env = [] → s.blk.txq.length ≤ 32 →
        t.eng.txLen = len.toNat - min (min len.toNat 32) (32 - s.blk.txq.length))

/-- `43_interrupt.md` R142: the table of transitions of `state`, for every instruction of a live instance; and that a
transfer in flight ends only by a service that finalises or by `TEARDOWN`. -/
def Obligations.TransitionTable : Prop :=
  ∀ (s t : State) (i : Instr), s.params.layout.legal = true → s.eng.live = .ready → exec i s = .next t →
    (∀ len hz tx rx, i = .xfer len hz tx rx → s.eng.state ≠ .transferring →
      ((calcDivider hz.toNat (tick s).clock.hz.toNat).isSome = true →
        t.eng.state = .transferring ∧ t.result = some .inProgress) ∧
      ((calcDivider hz.toNat (tick s).clock.hz.toNat).isSome = false →
        t.eng.state = .idle ∧ t.result = some .invalidFrequency)) ∧
    (∀ len hz tx rx, i = .xfer len hz tx rx → s.eng.state = .transferring → t = { s with result := some .refused }) ∧
    (i = .finack → s.eng.state = .completing → t.eng.state = .idle ∧ t.result = some .ok) ∧
    (i = .finack → s.eng.state ≠ .completing → t = { s with result := some .ok }) ∧
    (i = .irq → ∃ (w : Word) (rest : List PortEvent), t.ports = s.ports ++ .regRead .mis w :: rest ∧
      (let seen := fun k => w.getLsbD (s.params.layout.intBit k)
      let final := (seen .txdone = true ∧ t.eng.rxLen = 0) ∨ seen .rxovf = true ∨ seen .txunder = true
      (w &&& 0xF#32 = 0#32 → t.eng.state = s.eng.state ∧ t.irqResult = some .none) ∧
      (w &&& 0xF#32 ≠ 0#32 → t.irqResult = some .handled) ∧
      (¬ final → t.eng.state = s.eng.state ∧ t.eng.finished = s.eng.finished ∧ PortEvent.emitFinished ∉ rest) ∧
      (final → t.eng.state = .completing ∧ t.eng.finished = s.eng.finished + 1 ∧
        PortEvent.emitFinished ∈ rest))) ∧
    (∀ cs f, i = .setcs cs f ∨ i = .setup cs f → t.eng.state = s.eng.state ∧
      (cs.toNat < s.params.numCs → t.result = some .ok)) ∧
    (∀ mode, i = .prepmsg mode → t.eng.state = s.eng.state ∧
      (s.eng.state ≠ .transferring → t.result = some .ok) ∧
      (s.eng.state = .transferring → t = { s with result := some .refused })) ∧
    (i = .teardown → t.eng.state = .idle ∧ t.eng.live = .removed ∧ t.result = some .ok) ∧
    (s.eng.state = .transferring → t.eng.state ≠ .transferring →
      i = .teardown ∨ (i = .irq ∧ t.eng.finished = s.eng.finished + 1))

/-- `10_state.md` R29: during a transfer only a service moves the progress counters, `TEARDOWN` apart only a service moves the
buffer pointers, and nothing but the reset event moves the clock pair. That a micro-operation called on its own meanwhile is
turned away with a refusal is the model's choice (log 12). -/
def Obligations.OnlyTheHandlerAdvancesATransfer : Prop :=
  (∀ s t : State, s.eng.live = .ready → s.eng.state = .transferring → step s = .next t →
    (∀ b rest, s.inputs ≠ .reset b :: rest) →
    t.eng.clkGen = s.eng.clkGen ∧ t.eng.clkMode = s.eng.clkMode ∧
    (s.inputs ≠ [] → (∀ r rest, s.inputs = .request r :: rest → decode r ≠ .ok .irq) →
      t.eng.txLen = s.eng.txLen ∧ t.eng.rxLen = s.eng.rxLen ∧ t.eng.pending = s.eng.pending ∧
      ((∀ r rest, s.inputs = .request r :: rest → decode r ≠ .ok .teardown) →
        t.eng.txBuf = s.eng.txBuf ∧ t.eng.rxBuf = s.eng.rxBuf ∧ t.eng.state = .transferring))) ∧
  (∀ (s : State) (r : Request) (rest : List Input), s.inputs = .request r :: rest → r.source = .sequencer →
    s.eng.state = .transferring → step s = .next { s with inputs := rest, callResult := some .refused })

/-! ### The register block -/

/-- `20_memory.md` R46: while `ENABLE` is set a write leaves the locked fields and takes everything else; with `ENABLE` clear
it takes the locked fields too, the word that sets `ENABLE` among them. That a stored word is cut to the bits of its field is
`46_spi_core_agent.md` R171, read for any legal layout (log 9). -/
def Obligations.LockedFieldsKeepTheirValues : Prop :=
  ∀ (p : Params) (b : Block) (v : Word), p.layout.legal = true →
    (b.control.getLsbD p.layout.enable = true →
      (∀ f, f = CtlField.spo ∨ f = .sph ∨ f = .framecnt → ∀ i, p.layout.covers f i →
        (blockWrite p b .control v).control.getLsbD i = b.control.getLsbD i) ∧
      p.layout.sameOutside [.spo, .sph, .framecnt] v (blockWrite p b .control v).control ∧
      blockWrite p b .frameSize v = b ∧ blockWrite p b .framesup v = b) ∧
    (b.control.getLsbD p.layout.enable = false →
      (blockWrite p b .control v).control = v ∧
      blockWrite p b .frameSize v = { b with frameSize := v &&& p.layout.sizeMask } ∧
      blockWrite p b .framesup v = { b with framesup := v &&& 0xFFFF0000#32 }) ∧
    blockWrite p b .clkGen v = { b with clkGen := v &&& p.layout.genMask }

/-- `20_memory.md` R47: the frame count is split, the low half of a `FRAMESUP` write is ignored, and only a `CONTROL` write
reaches the low half of the count. -/
def Obligations.FrameCountIsSplit : Prop :=
  ∀ (p : Params) (b : Block) (v : Word), p.layout.legal = true →
    frameCount p.layout b b.control =
      (b.framesup.extractLsb' 16 16).toNat * 65536 + (b.control.extractLsb' p.layout.framecnt 16).toNat ∧
    blockWrite p b .framesup v = blockWrite p b .framesup (v &&& 0xFFFF0000#32) ∧
    (b.control.getLsbD p.layout.enable = false →
      (blockWrite p b .framesup v).framesup.extractLsb' 16 16 = v.extractLsb' 16 16 ∧
      (blockWrite p b .framesup v).framesup.extractLsb' 0 16 = 0#16) ∧
    (∀ r, r ≠ Reg.control → (blockWrite p b r v).control = b.control)

/-- A `SLAVE_SELECT` write takes effect whatever `ENABLE` is and reaches nothing else; what was written is read back in the
named bits (`20_memory.md` R48, `46_spi_core_agent.md` R179 (E4)), which the model reads as those of the layout (log 9). -/
def Obligations.SlaveSelectIsAlwaysWritable : Prop :=
  ∀ (p : Params) (b : Block) (v : Word),
    blockWrite p b .slaveSelect v = { b with ssel := v &&& p.layout.sselMask } ∧
    blockReadValue p (blockWrite p b .slaveSelect v) .slaveSelect &&& p.layout.sselMask = v &&& p.layout.sselMask

/-- `20_memory.md` R42, R45, R51: the ten registers answer at their offsets from the base and nowhere else; every other
address, listed nowhere or misaligned, is refused. That a bus address is a number without a width is the model's choice
(log 18). -/
def Obligations.OnlyListedOffsetsAnswer : Prop :=
  ∀ (p : Params) (b : Block) (a : Nat) (v : Word), p.regBase % 4 = 0 →
    (∀ r : Reg, a = p.regBase + r.offset →
      coreRead p b a = some (blockReadValue p b r, blockReadEffect b r) ∧
      coreWrite p b a v = some (blockWrite p b r v)) ∧
    ((∀ r : Reg, a ≠ p.regBase + r.offset) → coreRead p b a = none ∧ coreWrite p b a v = none) ∧
    Reg.all.map Reg.offset = [0x00, 0x04, 0x08, 0x0C, 0x10, 0x14, 0x18, 0x1C, 0x20, 0x50]

/-- The seven flags of `STATUS`, whatever the open bits read, which are 0 where the model's field `openWord` is (log 10;
`46_spi_core_agent.md` R172, R179 (E5)). -/
def Obligations.StatusShowsTheFifos : Prop :=
  ∀ (p : Params) (b : Block), p.layout.legal = true →
    (let w := blockReadValue p b .status
    w.getLsbD p.layout.stTxfifoFull = decide (b.txq.length = 32) ∧
    w.getLsbD p.layout.stTxfifoEmpty = decide (b.txq = []) ∧
    w.getLsbD p.layout.stRxfifoFull = decide (b.rxq.length = 32) ∧
    w.getLsbD p.layout.stRxfifoEmpty = decide (b.rxq = []) ∧
    w.getLsbD p.layout.stRxOverflow = b.ris.getLsbD p.layout.intRxovf ∧
    w.getLsbD p.layout.stTxUnderrun = b.ris.getLsbD p.layout.intTxunder ∧
    w.getLsbD p.layout.stActive = false ∧
    (b.openWord = 0#32 → ∀ i, (∀ f : StField, i ≠ p.layout.stPos f) → w.getLsbD i = false) ∧
    blockReadEffect b .status = b)

/-- `MIS` shows the pending sources that are enabled, whatever its open bits read, which are 0 where the model's field `openWord`
is (log 10), and the block drives its line exactly while one is shown (`46_spi_core_agent.md` R173, R176). -/
def Obligations.MisShowsEnabledLatches : Prop :=
  ∀ (p : Params) (b : Block), p.layout.legal = true →
    (∀ k : IntSrc, (blockReadValue p b .mis).getLsbD (p.layout.intBit k) =
      (b.ris.getLsbD (p.layout.intBit k) && b.control.getLsbD (p.layout.pos k.inten))) ∧
    (b.openWord = 0#32 → ∀ i, 4 ≤ i → (blockReadValue p b .mis).getLsbD i = false) ∧
    (coreIrqLine p.layout b = true ↔ blockReadValue p b .mis &&& 0xF#32 ≠ 0#32) ∧
    (coreIrqLine p.layout b = true ↔
      ∃ k : IntSrc, b.ris.getLsbD (p.layout.intBit k) = true ∧ b.control.getLsbD (p.layout.pos k.inten) = true)

/-- `46_spi_core_agent.md` R174: one frame on the serial side, where its guard holds; the received byte is any (R178). -/
def Obligations.ShiftExchangesOneFrame : Prop :=
  ∀ (s : State) (r x : Byte) (q : List Byte), s.params.layout.legal = true →
    (let L := s.params.layout
    let count := frameCount L s.blk s.blk.control
    let t := applyEnv s (.shift r)
    s.blk.control.getLsbD L.enable = true → s.blk.control.getLsbD L.reset = false → s.blk.txq = x :: q →
      s.blk.framesSent < count →
      t.blk.txq = q ∧ t.blk.wire = s.blk.wire ++ [x] ∧
      t.blk.rxq = (if s.blk.rxq.length < 32 then s.blk.rxq ++ [r] else s.blk.rxq) ∧
      t.blk.framesSent = s.blk.framesSent + 1 ∧
      t.blk.ris.getLsbD L.intRxrdy = true ∧
      t.blk.ris.getLsbD L.intRxovf = (s.blk.ris.getLsbD L.intRxovf || decide (32 ≤ s.blk.rxq.length)) ∧
      t.blk.ris.getLsbD L.intTxdone = (s.blk.ris.getLsbD L.intTxdone || decide (s.blk.framesSent + 1 = count)) ∧
      t.blk.ris.getLsbD L.intTxunder = s.blk.ris.getLsbD L.intTxunder ∧
      s.blk.sameWords t.blk ∧ t.blk.openWord = s.blk.openWord ∧ { t with blk := s.blk } = s)

/-- `46_spi_core_agent.md` R175 (with R179 (E6)): while the controller is enabled a fault, or by the envelope any latch, is
raised, and only that latch changes. -/
def Obligations.FaultsRaiseOneLatch : Prop :=
  ∀ (s : State) (k : IntSrc), s.params.layout.legal = true → s.blk.control.getLsbD s.params.layout.enable = true →
    ((applyEnv s (.latch k)).blk.ris.getLsbD (s.params.layout.intBit k) = true ∧
      (∀ i, i ≠ s.params.layout.intBit k → (applyEnv s (.latch k)).blk.ris.getLsbD i = s.blk.ris.getLsbD i) ∧
      { applyEnv s (.latch k) with blk := { (applyEnv s (.latch k)).blk with ris := s.blk.ris } } = s) ∧
    applyEnv s (.fault .rxOverflow) = applyEnv s (.latch .rxovf) ∧
    applyEnv s (.fault .txUnderrun) = applyEnv s (.latch .txunder)

/-- A step of the core whose guard (`46_spi_core_agent.md` R174, R175) does not hold has no effect: the model's choice
(log 2). -/
def Obligations.StepsWithoutTheirGuardDoNothing : Prop :=
  ∀ (s : State), s.params.layout.legal = true →
    (∀ r : Byte, (s.blk.control.getLsbD s.params.layout.enable = false ∨
        s.blk.control.getLsbD s.params.layout.reset = true ∨ s.blk.txq = [] ∨
        frameCount s.params.layout s.blk s.blk.control ≤ s.blk.framesSent) →
      applyEnv s (.shift r) = s) ∧
    (s.blk.control.getLsbD s.params.layout.enable = false →
      (∀ k, applyEnv s (.latch k) = s) ∧ ∀ k, applyEnv s (.fault k) = s)

/-- `46_spi_core_agent.md` R177: what a `CONTROL` write that clears or sets `ENABLE` retains, and that setting it restarts the
frame counter. -/
def Obligations.EnableTransitionsKeepTheFifos : Prop :=
  ∀ (p : Params) (b : Block) (v : Word), p.layout.legal = true →
    (let b' := blockWrite p b .control v
    b'.txq = b.txq ∧ b'.rxq = b.rxq ∧ b'.wire = b.wire ∧ b.sameWordsButControl b' ∧
    (b.control.getLsbD p.layout.enable = true → v.getLsbD p.layout.enable = false →
      b'.ris = b.ris ∧ b'.framesSent = b.framesSent ∧ ∀ r, coreShift p.layout b' r = b') ∧
    (b.control.getLsbD p.layout.enable = false → v.getLsbD p.layout.enable = true →
      b'.framesSent = 0 ∧ (p.zeroLenTxdone = false → b'.ris = b.ris) ∧
      (p.zeroLenTxdone = true → frameCount p.layout b v ≠ 0 → b'.ris = b.ris) ∧
      (p.zeroLenTxdone = true → frameCount p.layout b v = 0 → b'.ris = b.ris ||| 1#4 <<< p.layout.intTxdone)) ∧
    (b.control.getLsbD p.layout.enable = v.getLsbD p.layout.enable →
      b'.ris = b.ris ∧ b'.framesSent = b.framesSent))

/-- The data ports and the acknowledgement (`20_memory.md` R43, `46_spi_core_agent.md` R179 (E5), (E6)); what a write to a
full TX FIFO does is the reference core's choice (log 11). -/
def Obligations.DataPortsMoveOneFrame : Prop :=
  ∀ (p : Params) (b : Block) (v : Word),
    (∀ (x : Byte) (q : List Byte), b.rxq = x :: q →
      (blockReadValue p b .rxData).extractLsb' 0 8 = x ∧ blockReadEffect b .rxData = { b with rxq := q }) ∧
    (∀ r, r ≠ Reg.rxData → blockReadEffect b r = b) ∧
    (b.txq.length < 32 → blockWrite p b .txData v = { b with txq := b.txq ++ [v.extractLsb' 0 8] }) ∧
    (32 ≤ b.txq.length → blockWrite p b .txData v = b) ∧
    (∀ i, (blockWrite p b .intClear v).ris.getLsbD i = (b.ris.getLsbD i && !v.getLsbD i)) ∧
    { blockWrite p b .intClear v with ris := b.ris } = b ∧
    blockWrite p b .status v = b ∧ blockWrite p b .mis v = b ∧ blockWrite p b .rxData v = b

/-- The other agents write no register word, and change neither the engine's record nor what it has put out
(`46_spi_core_agent.md` R179 (E8), `10_state.md` R29). -/
def Obligations.OtherAgentsWriteNoRegister : Prop :=
  ∀ (n : Nat) (s : State),
    s.blk.sameWords (ticks n s).blk ∧ (ticks n s).eng = s.eng ∧ (ticks n s).params = s.params ∧
    (ticks n s).ports = s.ports ∧ s.keepsResults (ticks n s) ∧ (ticks n s).clock.held = s.clock.held ∧
    (s.blk.txq.length ≤ 32 → (ticks n s).blk.txq.length ≤ s.blk.txq.length) ∧
    (s.blk.rxq.length ≤ 32 → (ticks n s).blk.rxq.length ≤ 32)

/-! ### The whole machine -/

/-- No operation accesses a register in a way the table of `20_memory.md` R61 does not give it. -/
def Obligations.OperationsReachOnlyTheirRegisters : Prop :=
  ∀ (s t : State) (i : Instr), s.params.layout.legal = true → exec i s = .next t →
    ∃ ev, t.ports = s.ports ++ ev ∧ ∀ e ∈ ev, withinReach i.mayRead i.mayWrite e

/-- Every operation that answers makes a bounded number of register accesses, whatever the register block answers
(`70_reset_and_hazards.md` R231, R235, `46_spi_core_agent.md` R179). -/
def Obligations.AccessesAreBounded : Prop :=
  ∀ (s t : State) (i : Instr), s.params.layout.legal = true → exec i s = .next t → s.accesses t ≤ i.maxAccesses

/-- The outputs are append-only and the parameters fixed, step by step, but for the reset event, which clears the outputs
(`10_state.md` R21, R18, R26). -/
def Obligations.OutputsOnlyGrow : Prop :=
  ∀ s t : State, step s = .next t →
    t.params = s.params ∧ s.ports <+: t.ports ∧
    ((∀ b rest, s.inputs ≠ .reset b :: rest) → s.eng.finished ≤ t.eng.finished ∧ s.eng.errlog <+: t.eng.errlog)

/-- Decoding the encoding of a well-formed instruction gives it back, every operand at every value. -/
def Obligations.DecodeEncodeAgree : Prop := ∀ i : Instr, i.wf = true → decode (encode i) = .ok i

/-- Every step keeps the invariant of the machine: memory and register block in form, the clock pair in range, the cursors
below `2^32` with `pending` their difference (`42_fifo.md` R132 (c)), and pointers held during a transfer of a live instance
only (`10_state.md` R15 to R17). -/
def Obligations.StepKeepsTheInvariant : Prop :=
  ∀ s t : State, s.Inv → step s = .next t → t.Inv
end

