-- ==== Sys2Proof/Laws/Bits.lean ====
section
/-! SUPPORT. The algebra of register fields: what a field write leaves, by bit, and what every other field then reads. -/

namespace Sys2Proof.Machine

theorem getLsbD_fieldMask (n i : Nat) : (fieldMask n).getLsbD i = (decide (i < 32) && decide (i < n)) := by
  simp [fieldMask, BitVec.getLsbD_ofNat, Nat.testBit_two_pow_sub_one]

/-- A field write replaces the bits of the field and keeps every other bit. -/
theorem getLsbD_setField (p n i : Nat) (w v : Word) :
    (setField p n w v).getLsbD i =
      if p ≤ i ∧ i < p + n ∧ i < 32 then v.getLsbD (i - p) else w.getLsbD i := by
  by_cases h32 : i < 32
  · simp only [setField, BitVec.getLsbD_or, BitVec.getLsbD_and, BitVec.getLsbD_not, BitVec.getLsbD_shiftLeft,
      getLsbD_fieldMask, h32, decide_true, Bool.true_and]
    by_cases hp : p ≤ i
    · by_cases hn : i < p + n
      · have h1 : ¬ i < p := by omega
        have h2 : i - p < n := by omega
        have h3 : i - p < 32 := by omega
        simp [hp, hn, h1, h2, h3]
      · have h1 : ¬ i < p := by omega
        have h2 : ¬ i - p < n := by omega
        simp [hp, hn, h1, h2]
    · have h1 : i < p := by omega
      simp [hp, h1]
  · have hw : ∀ x : Word, x.getLsbD i = false := fun x => BitVec.getLsbD_of_ge x i (by omega)
    simp [hw, h32]

/-- A field reads bit by bit. -/
theorem getLsbD_getField (p n i : Nat) (w : Word) :
    (getField p n w).getLsbD i = (decide (i < 32) && decide (i < n) && w.getLsbD (p + i)) := by
  simp only [getField, BitVec.getLsbD_and, BitVec.getLsbD_ushiftRight, getLsbD_fieldMask]
  cases w.getLsbD (p + i) <;> simp

/-- A field reads what was written to it. -/
theorem getField_setField_same (p n : Nat) (w v : Word) (h : p + n ≤ 32) :
    getField p n (setField p n w v) = v &&& fieldMask n := by
  apply BitVec.eq_of_getLsbD_eq
  intro i hi
  simp only [getLsbD_getField, getLsbD_setField, BitVec.getLsbD_and, getLsbD_fieldMask, hi, decide_true, Bool.true_and]
  by_cases hn : i < n
  · have h1 : p ≤ p + i ∧ p + i < p + n ∧ p + i < 32 := by omega
    simp [hn, h1]
  · simp [hn]

/-- A field reads as before where another field that shares no bit with it was written. -/
theorem getField_setField_apart (p n q m : Nat) (w v : Word) (h : p + n ≤ q ∨ q + m ≤ p) :
    getField p n (setField q m w v) = getField p n w := by
  apply BitVec.eq_of_getLsbD_eq
  intro i hi
  simp only [getLsbD_getField, getLsbD_setField]
  by_cases hn : i < n
  · have h1 : ¬ (q ≤ p + i ∧ p + i < q + m ∧ p + i < 32) := by omega
    simp [h1]
  · simp [hn]

/-- Writing to a field what it reads changes nothing. -/
theorem setField_getField (p n : Nat) (w : Word) : setField p n w (getField p n w) = w := by
  apply BitVec.eq_of_getLsbD_eq
  intro i hi
  rw [getLsbD_setField]
  split
  · rename_i h
    have h1 : p + (i - p) = i := by omega
    have h2 : i - p < 32 := by omega
    have h3 : i - p < n := by omega
    rw [getLsbD_getField, h1]; simp only [h2, h3, decide_true, Bool.true_and]
  · rfl

/-- The later of two writes to one field stands. -/
theorem setField_setField_same (p n : Nat) (w u v : Word) : setField p n (setField p n w u) v = setField p n w v := by
  apply BitVec.eq_of_getLsbD_eq
  intro i _
  simp only [getLsbD_setField]
  split <;> rfl

/-- Writes to two fields that share no bit can be exchanged. -/
theorem setField_comm (p n q m : Nat) (w u v : Word) (h : p + n ≤ q ∨ q + m ≤ p) :
    setField p n (setField q m w u) v = setField q m (setField p n w v) u := by
  apply BitVec.eq_of_getLsbD_eq
  intro i _
  simp only [getLsbD_setField]
  by_cases h1 : p ≤ i ∧ i < p + n ∧ i < 32
  · have h2 : ¬ (q ≤ i ∧ i < q + m ∧ i < 32) := by omega
    rw [if_pos h1, if_neg h2, if_pos h1]
  · rw [if_neg h1]
    split <;> rfl

@[simp] theorem getLsbD_bitWord_zero (b : Bool) : (bitWord b).getLsbD 0 = b := by cases b <;> rfl

theorem getLsbD_bitMask (n i : Nat) : (bitMask n).getLsbD i = (decide (i < 32) && decide (i = n)) := by
  simp only [bitMask, BitVec.getLsbD_shiftLeft, BitVec.getLsbD_one]
  by_cases h : i = n
  · subst h; by_cases h32 : i < 32 <;> simp [h32]
  · by_cases hlt : i < n
    · simp [h, hlt]
    · have : ¬ i - n = 0 := by omega
      simp [h, this]

/-! ### Legal layouts -/

theorem CtlField.mem_all (f : CtlField) : f ∈ CtlField.all := by cases f <;> decide
theorem StField.mem_all (f : StField) : f ∈ StField.all := by cases f <;> decide
theorem IntSrc.mem_all (k : IntSrc) : k ∈ IntSrc.all := by cases k <;> decide

theorem CtlField.width_pos (f : CtlField) : 0 < f.width := by cases f <;> decide

section
variable {L : Layout} (h : L.legal = true)
include h

/-- A field of `CONTROL` lies within the word. -/
theorem Layout.pos_add_width_le (f : CtlField) : L.pos f + f.width ≤ 32 := by
  simp only [Layout.legal, Bool.and_eq_true, List.all_eq_true, decide_eq_true_eq] at h
  exact h.1.1.1.1.1.1.1.1.1.1.1.1.1.1 f f.mem_all

theorem Layout.pos_lt (f : CtlField) : L.pos f < 32 := by
  have := L.pos_add_width_le h f
  have := f.width_pos
  omega

/-- Two different fields of `CONTROL` share no bit. -/
theorem Layout.fields_apart {f g : CtlField} (hfg : f ≠ g) :
    L.pos f + f.width ≤ L.pos g ∨ L.pos g + g.width ≤ L.pos f := by
  simp only [Layout.legal, Bool.and_eq_true, List.all_eq_true, Bool.or_eq_true, beq_iff_eq] at h
  have := h.1.1.1.1.1.1.1.1.1.1.1.1.1.2 f f.mem_all g g.mem_all
  simpa [hfg, Layout.apart] using this

theorem Layout.stPos_lt (f : StField) : L.stPos f < 32 := by
  simp only [Layout.legal, Bool.and_eq_true, List.all_eq_true, decide_eq_true_eq] at h
  exact h.1.1.1.1.1.1.1.1.1.1.1.1.2 f f.mem_all

theorem Layout.stPos_ne {f g : StField} (hfg : f ≠ g) : L.stPos f ≠ L.stPos g := by
  simp only [Layout.legal, Bool.and_eq_true, List.all_eq_true, Bool.or_eq_true, beq_iff_eq] at h
  have := h.1.1.1.1.1.1.1.1.1.1.1.2 f f.mem_all g g.mem_all
  simpa [hfg] using this

theorem Layout.intBit_lt (k : IntSrc) : L.intBit k < 4 := by
  simp only [Layout.legal, Bool.and_eq_true, List.all_eq_true, decide_eq_true_eq] at h
  exact h.1.1.1.1.1.1.1.1.1.1.2 k k.mem_all

theorem Layout.intBit_ne {k j : IntSrc} (hkj : k ≠ j) : L.intBit k ≠ L.intBit j := by
  simp only [Layout.legal, Bool.and_eq_true, List.all_eq_true, Bool.or_eq_true, beq_iff_eq] at h
  have := h.1.1.1.1.1.1.1.1.1.2 k k.mem_all j j.mem_all
  simpa [hkj] using this

theorem Layout.direct_bounds : 8 ≤ L.direct ∧ L.direct < 32 ∧ 8 ≤ L.sselout ∧ L.sselout < 32 ∧ L.direct ≠ L.sselout := by
  simp only [Layout.legal, Bool.and_eq_true, decide_eq_true_eq, bne_iff_ne] at h
  exact ⟨h.1.1.1.1.2, h.1.1.1.2, h.1.1.2, h.1.2, h.2⟩

theorem Layout.size_bounds : 4 ≤ L.sizeWidth ∧ L.size + L.sizeWidth ≤ 32 := by
  simp only [Layout.legal, Bool.and_eq_true, decide_eq_true_eq] at h
  exact ⟨h.1.1.1.1.1.1.1.1.2, h.1.1.1.1.1.1.1.2⟩

theorem Layout.gen_bounds : 8 ≤ L.genWidth ∧ L.gen + L.genWidth ≤ 32 := by
  simp only [Layout.legal, Bool.and_eq_true, decide_eq_true_eq] at h
  exact ⟨h.1.1.1.1.1.1.2, h.1.1.1.1.1.2⟩

/-! ### The layout record as one map (R70) -/

/-- Every field lies within its register. -/
theorem Layout.range_le (f : RegField) : (L.range f).1 + (L.range f).2 ≤ 32 := by
  have hd := L.direct_bounds h
  cases f with
  | ctl f => exact L.pos_add_width_le h f
  | size => exact (L.size_bounds h).2
  | st f => exact L.stPos_lt h f
  | clear k => have := L.intBit_lt h k; simp only [Layout.range]; omega
  | rxData => simp only [Layout.range]; omega
  | txData => simp only [Layout.range]; omega
  | gen => exact (L.gen_bounds h).2
  | ssel => simp only [Layout.range]; omega
  | direct => simp only [Layout.range]; omega
  | sselout => simp only [Layout.range]; omega
  | mis k => have := L.intBit_lt h k; simp only [Layout.range]; omega
  | framecntHi => simp only [Layout.range]; omega

/-- Two fields of one register share no bit (R70 (a)). -/
theorem Layout.range_apart {f g : RegField} (hfg : f ≠ g) (hr : f.reg = g.reg) :
    (L.range f).1 + (L.range f).2 ≤ (L.range g).1 ∨ (L.range g).1 + (L.range g).2 ≤ (L.range f).1 := by
  have hd := L.direct_bounds h
  cases f <;> cases g <;> first
    | exact absurd rfl hfg
    | (cases hr; done)
    | (rename_i f g; exact L.fields_apart h fun e => hfg (e ▸ rfl))
    | (rename_i f g; have := L.stPos_ne h (f := f) (g := g) fun e => hfg (e ▸ rfl); simp only [Layout.range]; omega)
    | (rename_i f g; have := L.intBit_ne h (k := f) (j := g) fun e => hfg (e ▸ rfl); simp only [Layout.range]; omega)
    | (simp only [Layout.range]; omega)

/-- Where `SIZE` starts at bit 0 it holds the frame size the engine programs (R70 (i), R73). -/
theorem Layout.frameBits_and_sizeMask (h0 : L.size = 0) : 8#32 &&& L.sizeMask = 8#32 := by
  have hs := (L.size_bounds h).1
  apply BitVec.eq_of_getLsbD_eq
  intro i hi
  simp only [Layout.sizeMask, h0, BitVec.shiftLeft_zero, BitVec.getLsbD_and, getLsbD_fieldMask, hi, decide_true,
    Bool.true_and]
  by_cases h4 : i < L.sizeWidth
  · simp [h4]
  · have : ∀ k : Fin 32, 4 ≤ k.val → (8#32).getLsbD k.val = false := by decide
    simp [h4, this ⟨i, hi⟩ (by simp only; omega)]

/-- Where `GEN` starts at bit 0 it holds every divider value (R70 (h), R78, R90). -/
theorem Layout.divider_and_genMask (h0 : L.gen = 0) {g : Nat} (hg : g ≤ 255) :
    (BitVec.ofNat 32 g &&& L.genMask).toNat = g := by
  have hw := L.gen_bounds h
  have hm : L.genMask.toNat = 2 ^ L.genWidth - 1 := by
    have : 2 ^ L.genWidth ≤ 2 ^ 32 := Nat.pow_le_pow_right (by decide) (by omega)
    have := Nat.two_pow_pos L.genWidth
    rw [Layout.genMask, h0, BitVec.shiftLeft_zero, fieldMask, BitVec.toNat_ofNat, Nat.mod_eq_of_lt (by omega)]
  have h8 : 2 ^ 8 ≤ 2 ^ L.genWidth := Nat.pow_le_pow_right (by decide) hw.1
  rw [BitVec.toNat_and, hm, BitVec.toNat_ofNat, Nat.and_two_pow_sub_one_eq_mod, Nat.mod_eq_of_lt (show g < 2 ^ 32 by omega),
    Nat.mod_eq_of_lt (by omega)]

/-! ### Fields of `CONTROL` under a legal layout -/

/-- A field of `CONTROL` reads what was last written to it. -/
theorem Layout.get_set_same (f : CtlField) (w v : Word) : L.get f (L.set f w v) = v &&& fieldMask f.width :=
  getField_setField_same _ _ _ _ (L.pos_add_width_le h f)

/-- A field of `CONTROL` reads as before where another field was written. -/
theorem Layout.get_set_ne {f g : CtlField} (hfg : f ≠ g) (w v : Word) : L.get f (L.set g w v) = L.get f w :=
  getField_setField_apart _ _ _ _ _ _ (L.fields_apart h hfg)

/-- The lowest bit of a field after a write to that field. -/
theorem Layout.test_set_same (f : CtlField) (w v : Word) : L.test f (L.set f w v) = v.getLsbD 0 := by
  have h1 := L.pos_lt h f
  have h2 := f.width_pos
  have h3 : L.pos f ≤ L.pos f ∧ L.pos f < L.pos f + f.width ∧ L.pos f < 32 := by omega
  rw [Layout.test, Layout.set, getLsbD_setField, if_pos h3, Nat.sub_self]

/-- The lowest bit of a field after a write to another field. -/
theorem Layout.test_set_ne {f g : CtlField} (hfg : f ≠ g) (w v : Word) : L.test f (L.set g w v) = L.test f w := by
  have h1 := L.fields_apart h hfg
  have h2 := f.width_pos
  have h3 : ¬ (L.pos g ≤ L.pos f ∧ L.pos f < L.pos g + g.width ∧ L.pos f < 32) := by omega
  rw [Layout.test, Layout.set, getLsbD_setField, if_neg h3, Layout.test]

/-- A `STATUS` flag reads what was last written to it. -/
theorem Layout.stTest_stSet_same (f : StField) (w : Word) (b : Bool) : L.stTest f (L.stSet f w b) = b := by
  have h1 := L.stPos_lt h f
  have h3 : L.stPos f ≤ L.stPos f ∧ L.stPos f < L.stPos f + 1 ∧ L.stPos f < 32 := by omega
  rw [Layout.stTest, Layout.stSet, getLsbD_setField, if_pos h3, Nat.sub_self, getLsbD_bitWord_zero]

/-- A `STATUS` flag reads as before where another flag was written. -/
theorem Layout.stTest_stSet_ne {f g : StField} (hfg : f ≠ g) (w : Word) (b : Bool) :
    L.stTest f (L.stSet g w b) = L.stTest f w := by
  have h1 := L.stPos_ne h hfg
  have h3 : ¬ (L.stPos g ≤ L.stPos f ∧ L.stPos f < L.stPos g + 1 ∧ L.stPos f < 32) := by omega
  rw [Layout.stTest, Layout.stSet, getLsbD_setField, if_neg h3, Layout.stTest]

end

/-- The later of two writes to one field of `CONTROL` stands. -/
theorem Layout.set_set_same (L : Layout) (f : CtlField) (w u v : Word) : L.set f (L.set f w u) v = L.set f w v :=
  setField_setField_same _ _ _ _ _

/-- Writes to two different fields of `CONTROL` can be exchanged. -/
theorem Layout.set_comm {L : Layout} (h : L.legal = true) {f g : CtlField} (hfg : f ≠ g) (w u v : Word) :
    L.set f (L.set g w u) v = L.set g (L.set f w v) u := setField_comm _ _ _ _ _ _ _ (L.fields_apart h hfg)

/-- Writing to a field of `CONTROL` what it reads changes nothing. -/
theorem Layout.set_get (L : Layout) (f : CtlField) (w : Word) : L.set f w (L.get f w) = w := setField_getField _ _ _

/-- A one-bit field, read as a word, is 1 exactly when its bit is set. -/
theorem Layout.get_eq_bitWord (L : Layout) {f : CtlField} (hf : f.width = 1) (w : Word) :
    L.get f w = bitWord (L.test f w) := by
  apply BitVec.eq_of_getLsbD_eq
  intro i hi
  simp only [Layout.get, getLsbD_getField, Layout.test, hf]
  by_cases h0 : i = 0
  · subst h0; rw [getLsbD_bitWord_zero]; simp
  · have : ¬ i < 1 := by omega
    cases w.getLsbD (L.pos f) <;> simp [bitWord, this, h0]

/-- The spec's default layout is legal. -/
theorem defaultLayout_legal : defaultLayout.legal = true := by decide

end Sys2Proof.Machine
end

