-- ==== Sys2Proof/Laws/Block.lean ====
section
/-! SUPPORT. The register block: what each of its steps can change, and that its form is kept. -/

namespace Sys2Proof.Machine

/-! ### Addresses -/

@[simp] theorem Reg.ofOffset_offset (r : Reg) : Reg.ofOffset r.offset = some r := by cases r <;> decide

/-- The bus address of a register selects that register, whatever the aligned base (`20_memory.md` R51). -/
theorem busTarget_regAddr (p : Params) (r : Reg) (h : p.regBase % 4 = 0) : busTarget p (p.regAddr r) = some r := by
  have hr : r.offset % 4 = 0 := by cases r <;> rfl
  rw [busTarget, Params.regAddr, if_pos ⟨by omega, by omega⟩, Nat.add_sub_cancel_left, Reg.ofOffset_offset]

/-- An address that selects a register is the bus address of that register. -/
theorem regAddr_of_busTarget {p : Params} {a : Nat} {r : Reg} (h : busTarget p a = some r) : a = p.regAddr r := by
  unfold busTarget at h
  split at h
  · rename_i hb
    have := List.find?_some h
    simp only [beq_iff_eq] at this
    rw [Params.regAddr, this]
    omega
  · cases h

/-! ### Latches and frames -/

section
variable (L : Layout) (b : Block) (k : IntSrc) (r : Byte)

@[simp] theorem setLatch_control : (b.setLatch L k).control = b.control := rfl
@[simp] theorem setLatch_frameSize : (b.setLatch L k).frameSize = b.frameSize := rfl
@[simp] theorem setLatch_clkGen : (b.setLatch L k).clkGen = b.clkGen := rfl
@[simp] theorem setLatch_ssel : (b.setLatch L k).ssel = b.ssel := rfl
@[simp] theorem setLatch_framesup : (b.setLatch L k).framesup = b.framesup := rfl
@[simp] theorem setLatch_txq : (b.setLatch L k).txq = b.txq := rfl
@[simp] theorem setLatch_rxq : (b.setLatch L k).rxq = b.rxq := rfl
@[simp] theorem setLatch_ris : (b.setLatch L k).ris = b.ris ||| intMask L k := rfl
@[simp] theorem setLatch_framesSent : (b.setLatch L k).framesSent = b.framesSent := rfl
@[simp] theorem setLatch_wire : (b.setLatch L k).wire = b.wire := rfl
@[simp] theorem setLatch_openWord : (b.setLatch L k).openWord = b.openWord := rfl

/-- A received frame reaches only the RX FIFO and the latches. -/
theorem receiveFrame_keeps :
    b.sameWords (receiveFrame L b r) ∧ (receiveFrame L b r).txq = b.txq ∧ (receiveFrame L b r).wire = b.wire ∧
    (receiveFrame L b r).framesSent = b.framesSent ∧ (receiveFrame L b r).openWord = b.openWord := by
  unfold receiveFrame Block.sameWords Block.sameWordsButControl
  split <;> simp

theorem receiveFrame_rxq_length (h : b.rxq.length ≤ 32) : (receiveFrame L b r).rxq.length ≤ 32 := by
  unfold receiveFrame
  split
  · rename_i hlt
    have : b.rxq.length < 32 := hlt
    simp; omega
  · simpa using h

/-- A frame exchange leaves every stored register word (`46_spi_core_agent.md` R179 (E8)). -/
theorem coreShift_sameWords : b.sameWords (coreShift L b r) := by
  unfold coreShift
  split
  · have h := receiveFrame_keeps L { b with wire := b.wire ++ b.txq.take 1, txq := b.txq.tail } r
    simp only [Block.sameWords, Block.sameWordsButControl] at h ⊢
    split <;> simpa using h.1
  · simp [Block.sameWords, Block.sameWordsButControl]

theorem raiseLatch_sameWords : b.sameWords (raiseLatch L b k) := by
  unfold raiseLatch Block.sameWords Block.sameWordsButControl
  split <;> simp

theorem raiseLatch_keeps :
    (raiseLatch L b k).txq = b.txq ∧ (raiseLatch L b k).rxq = b.rxq ∧ (raiseLatch L b k).wire = b.wire ∧
    (raiseLatch L b k).framesSent = b.framesSent ∧ (raiseLatch L b k).openWord = b.openWord := by
  unfold raiseLatch
  split <;> simp

/-- A frame exchange takes at most one frame from the TX FIFO and puts at most one into the RX FIFO. -/
theorem coreShift_lengths (h : b.rxq.length ≤ 32) :
    (coreShift L b r).txq.length ≤ b.txq.length ∧ (coreShift L b r).rxq.length ≤ 32 := by
  unfold coreShift
  split
  · have hk := receiveFrame_keeps L { b with wire := b.wire ++ b.txq.take 1, txq := b.txq.tail } r
    have hl := receiveFrame_rxq_length L { b with wire := b.wire ++ b.txq.take 1, txq := b.txq.tail } r h
    have ht : b.txq.tail.length ≤ b.txq.length := by simp
    simp only at hk hl ⊢
    split
    · simp only [setLatch_txq, setLatch_rxq]
      exact ⟨by rw [hk.2.1]; exact ht, hl⟩
    · simp only [setLatch_txq, setLatch_rxq]
      exact ⟨by rw [hk.2.1]; exact ht, hl⟩
  · exact ⟨Nat.le_refl _, h⟩

end

/-- The form of the block depends on its stored words and the lengths of its FIFOs only. -/
theorem Block.Wf.of_sameWords {p : Params} {b c : Block} (h : b.Wf p) (hw : b.sameWords c)
    (ht : c.txq.length ≤ 32) (hr : c.rxq.length ≤ 32) : c.Wf p := by
  obtain ⟨h1, h2, h3, h4, -, -⟩ := h
  obtain ⟨-, w1, w2, w3, w4⟩ := hw
  refine ⟨?_, ?_, ?_, ?_, ht, hr⟩
  · rw [w1]; exact h1
  · rw [w2]; exact h2
  · rw [w3]; exact h3
  · rw [w4]; exact h4

/-- A frame exchange keeps the block in form. -/
theorem coreShift_wf {p : Params} (L : Layout) (b : Block) (r : Byte) (h : b.Wf p) : (coreShift L b r).Wf p :=
  h.of_sameWords (coreShift_sameWords L b r)
    (Nat.le_trans (coreShift_lengths L b r h.2.2.2.2.2).1 h.2.2.2.2.1) (coreShift_lengths L b r h.2.2.2.2.2).2

/-- Raising a latch keeps the block in form. -/
theorem raiseLatch_wf {p : Params} (L : Layout) (b : Block) (k : IntSrc) (h : b.Wf p) : (raiseLatch L b k).Wf p := by
  obtain ⟨h1, h2, -⟩ := raiseLatch_keeps L b k
  exact h.of_sameWords (raiseLatch_sameWords L b k) (by rw [h1]; exact h.2.2.2.2.1) (by rw [h2]; exact h.2.2.2.2.2)

/-! ### Reads -/

theorem blockReadEffect_sameWords (b : Block) (r : Reg) : b.sameWords (blockReadEffect b r) := by
  cases r <;> simp [blockReadEffect, Block.sameWords, Block.sameWordsButControl]

/-- Only a read of `RX_DATA` has an effect (`20_memory.md` R43). -/
theorem blockReadEffect_of_ne (b : Block) {r : Reg} (h : r ≠ .rxData) : blockReadEffect b r = b := by
  cases r <;> first | rfl | exact absurd rfl h

theorem blockReadEffect_wf {p : Params} {b : Block} (r : Reg) (h : b.Wf p) : (blockReadEffect b r).Wf p := by
  refine h.of_sameWords (blockReadEffect_sameWords b r) ?_ ?_
  · cases r <;> exact h.2.2.2.2.1
  · have hr := h.2.2.2.2.2
    cases r <;> first
      | exact hr
      | (simp only [blockReadEffect, List.length_tail]; omega)

/-! ### Writes -/

section
variable {L : Layout}

/-- With `ENABLE` clear a `CONTROL` write stores the whole word (`20_memory.md` R46). -/
theorem lockedControl_disabled {old : Word} (v : Word) (h : L.test .enable old = false) : lockedControl L old v = v := by
  simp [lockedControl, h]

/-- A `CONTROL` write that carries the present values of the locked fields stores the whole word. -/
theorem lockedControl_carried {old v : Word} (h1 : L.get .framecnt v = L.get .framecnt old)
    (h2 : L.get .spo v = L.get .spo old) (h3 : L.get .sph v = L.get .sph old) : lockedControl L old v = v := by
  unfold lockedControl
  split
  · rw [← h3, Layout.set_get, ← h2, Layout.set_get, ← h1, Layout.set_get]
  · rfl

/-- A field that is not locked takes the written value (`20_memory.md` R46). -/
theorem get_lockedControl_free (hL : L.legal = true) {f : CtlField} (h1 : f ≠ .framecnt) (h2 : f ≠ .spo) (h3 : f ≠ .sph)
    (old v : Word) : L.get f (lockedControl L old v) = L.get f v := by
  unfold lockedControl
  split
  · rw [L.get_set_ne hL h1, L.get_set_ne hL h2, L.get_set_ne hL h3]
  · rfl

theorem test_lockedControl_free (hL : L.legal = true) {f : CtlField} (h1 : f ≠ .framecnt) (h2 : f ≠ .spo) (h3 : f ≠ .sph)
    (old v : Word) : L.test f (lockedControl L old v) = L.test f v := by
  unfold lockedControl
  split
  · rw [L.test_set_ne hL h1, L.test_set_ne hL h2, L.test_set_ne hL h3]
  · rfl

end

/-- A `CONTROL` write changes the control word, the frame counter and the latches only. -/
theorem writeControl_keeps (p : Params) (b : Block) (v : Word) :
    (writeControl p b v).control = lockedControl p.layout b.control v ∧ b.sameWordsButControl (writeControl p b v) ∧
    (writeControl p b v).txq = b.txq ∧ (writeControl p b v).rxq = b.rxq ∧ (writeControl p b v).wire = b.wire ∧
    (writeControl p b v).openWord = b.openWord := by
  unfold writeControl Block.sameWordsButControl
  simp only
  split
  · split <;> simp
  · simp

/-- A `CONTROL` write that does not take `ENABLE` from 0 to 1 changes the control word only. -/
theorem writeControl_of_not_rising (p : Params) (b : Block) (v : Word)
    (h : b.enabled p.layout = true ∨ p.layout.test .enable (lockedControl p.layout b.control v) = false) :
    writeControl p b v = { b with control := lockedControl p.layout b.control v } := by
  unfold writeControl
  simp only
  rcases h with h | h <;> simp [h]

/-- Only a write to `TX_DATA` reaches a FIFO. -/
theorem blockWrite_queues (p : Params) (b : Block) {r : Reg} (v : Word) (hr : r ≠ .txData) :
    (blockWrite p b r v).txq = b.txq ∧ (blockWrite p b r v).rxq = b.rxq ∧ (blockWrite p b r v).wire = b.wire ∧
    (blockWrite p b r v).openWord = b.openWord := by
  cases r with
  | control =>
    obtain ⟨-, -, h1, h2, h3, h4⟩ := writeControl_keeps p b v
    exact ⟨h1, h2, h3, h4⟩
  | txData => exact absurd rfl hr
  | frameSize => simp only [blockWrite]; split <;> simp
  | framesup => simp only [blockWrite]; split <;> simp
  | intClear => simp [blockWrite]
  | clkGen => simp [blockWrite]
  | slaveSelect => simp [blockWrite]
  | status => simp [blockWrite]
  | mis => simp [blockWrite]
  | rxData => simp [blockWrite]

/-- A `CONTROL` write that takes `ENABLE` from 0 to 1 restarts the frame counter (`46_spi_core_agent.md` R177). -/
theorem writeControl_rising_framesSent (p : Params) (b : Block) (v : Word) (h1 : p.layout.test .enable b.control = false)
    (h2 : p.layout.test .enable v = true) : (writeControl p b v).framesSent = 0 := by
  have hl : lockedControl p.layout b.control v = v := lockedControl_disabled v h1
  unfold writeControl
  simp only [Block.enabled, h1, hl, h2]
  simp only [Bool.not_false, Bool.true_and, if_true]
  split <;> simp

/-- With `ZERO_LEN_TXDONE` false a `CONTROL` write raises no latch. -/
theorem writeControl_ris (p : Params) (b : Block) (v : Word) (h : p.zeroLenTxdone = false) :
    (writeControl p b v).ris = b.ris := by
  unfold writeControl
  simp only [h]
  split <;> simp

/-- With `ENABLE` clear a write of the locked whole-word registers stores the word (`20_memory.md` R46). -/
theorem blockWrite_frameSize_disabled {p : Params} {b : Block} (v : Word) (h : p.layout.test .enable b.control = false) :
    blockWrite p b .frameSize v = { b with frameSize := v &&& p.layout.sizeMask } := by
  simp [blockWrite, Block.enabled, h]

theorem blockWrite_framesup_disabled {p : Params} {b : Block} (v : Word) (h : p.layout.test .enable b.control = false) :
    blockWrite p b .framesup v = { b with framesup := v &&& 0xFFFF0000#32 } := by
  simp [blockWrite, Block.enabled, h]

theorem and_and_mask (v m : Word) : v &&& m &&& m = v &&& m := by
  rw [BitVec.and_assoc, BitVec.and_self]

/-- A register write keeps the block in form. -/
theorem blockWrite_wf {p : Params} {b : Block} (r : Reg) (v : Word) (h : b.Wf p) : (blockWrite p b r v).Wf p := by
  obtain ⟨h1, h2, h3, h4, h5, h6⟩ := h
  cases r with
  | control =>
    obtain ⟨-, ⟨w1, w2, w3, w4⟩, wt, wr, -⟩ := writeControl_keeps p b v
    simp only [blockWrite, Block.Wf, w1, w2, w3, w4, wt, wr]
    exact ⟨h1, h2, h3, h4, h5, h6⟩
  | frameSize =>
    simp only [blockWrite]; split
    · exact ⟨h1, h2, h3, h4, h5, h6⟩
    · exact ⟨and_and_mask _ _, h2, h3, h4, h5, h6⟩
  | framesup =>
    simp only [blockWrite]; split
    · exact ⟨h1, h2, h3, h4, h5, h6⟩
    · exact ⟨h1, h2, h3, and_and_mask _ _, h5, h6⟩
  | txData =>
    simp only [blockWrite]; split
    · rename_i hlt
      have : b.txq.length < 32 := hlt
      exact ⟨h1, h2, h3, h4, by simp; omega, h6⟩
    · exact ⟨h1, h2, h3, h4, h5, h6⟩
  | clkGen => exact ⟨h1, and_and_mask _ _, h3, h4, h5, h6⟩
  | slaveSelect => exact ⟨h1, h2, and_and_mask _ _, h4, h5, h6⟩
  | intClear => exact ⟨h1, h2, h3, h4, h5, h6⟩
  | status => exact ⟨h1, h2, h3, h4, h5, h6⟩
  | mis => exact ⟨h1, h2, h3, h4, h5, h6⟩
  | rxData => exact ⟨h1, h2, h3, h4, h5, h6⟩

/-- Contents supplied with a reset are cut to form. -/
theorem normalise_wf (p : Params) (b : Block) : (b.normalise p).Wf p := by
  refine ⟨and_and_mask _ _, and_and_mask _ _, and_and_mask _ _, and_and_mask _ _, ?_, ?_⟩
  · simp [Block.normalise, Config.fifoDepth]
  · simp [Block.normalise, Config.fifoDepth]

/-! ### Flags -/

section
variable {L : Layout} (hL : L.legal = true)
include hL

/-- The flag `FILL` tests says that the TX FIFO holds 32 frames (R172, R179 (E5)). -/
theorem stTest_statusWord_txfifoFull (b : Block) : L.stTest .txfifoFull (statusWord L b) = b.txFull := by
  simp only [statusWord]
  rw [L.stTest_stSet_ne hL (by decide), L.stTest_stSet_ne hL (by decide), L.stTest_stSet_ne hL (by decide),
    L.stTest_stSet_ne hL (by decide), L.stTest_stSet_ne hL (by decide), L.stTest_stSet_ne hL (by decide),
    L.stTest_stSet_same hL]

/-- The flag `DRAIN` tests says that the RX FIFO is empty (R172, R179 (E5)). -/
theorem stTest_statusWord_rxfifoEmpty (b : Block) : L.stTest .rxfifoEmpty (statusWord L b) = b.rxEmpty := by
  simp only [statusWord]
  rw [L.stTest_stSet_ne hL (by decide), L.stTest_stSet_ne hL (by decide), L.stTest_stSet_ne hL (by decide),
    L.stTest_stSet_same hL]

end

end Sys2Proof.Machine
end

