-- ==== Sys2Proof/Laws/Memory.lean ====
section
/-! SUPPORT. Buffer memory: what is read after a store or a removal, and that the canonical form is kept. -/

namespace Sys2Proof.Machine

variable {w : Nat}

@[simp] theorem Memory.read_nil (x : Nat) : Memory.read [] x = none := rfl

/-- A byte just stored is read back. -/
theorem Memory.read_write_same (m : Memory) (x : Nat) (v : Byte) : (m.write x v).read x = some v := by
  induction m with
  | nil => simp [Memory.write, Memory.read]
  | cons c m ih =>
    obtain ⟨a, b⟩ := c
    simp only [Memory.write]
    split
    · simp [Memory.read]
    · split
      · simp [Memory.read]
      · rename_i h1 h2
        simp [Memory.read, h2, ih]

/-- A store leaves every other address as it was. -/
theorem Memory.read_write_other (m : Memory) {x y : Nat} (v : Byte) (h : y ≠ x) : (m.write x v).read y = m.read y := by
  induction m with
  | nil => simp [Memory.write, Memory.read, h]
  | cons c m ih =>
    obtain ⟨a, b⟩ := c
    simp only [Memory.write]
    split
    · simp [Memory.read, h]
    · split
      · rename_i h1 h2
        simp [Memory.read, h, ← h2]
      · simp only [Memory.read, ih]

/-- The head of a stored memory is the stored address or the old head. -/
theorem Memory.wf_write_aux (m : Memory) (x : Nat) (v : Byte) (hx : x < 2 ^ w) :
    m.wf w = true → (m.write x v).wf w = true ∧
      ∀ a b, a < x → a < 2 ^ w → Memory.wf w ((a, b) :: m) = true → Memory.wf w ((a, b) :: m.write x v) = true := by
  induction m with
  | nil =>
    intro _
    refine ⟨by simpa [Memory.write, Memory.wf] using hx, ?_⟩
    intro a b hax ha _
    simp only [Memory.write, Memory.wf, Bool.and_eq_true, decide_eq_true_eq]
    exact ⟨hax, hx⟩
  | cons c m ih =>
    obtain ⟨p, q⟩ := c
    intro hwf
    have htail : Memory.wf w m = true := by
      cases m with
      | nil => rfl
      | cons d m => simp only [Memory.wf, Bool.and_eq_true] at hwf; exact hwf.2
    have hp : p < 2 ^ w := by
      cases m with
      | nil => simpa [Memory.wf] using hwf
      | cons d m =>
        have aux : ∀ (l : Memory) (c : Host.Cell), Memory.wf w (c :: l) = true → c.1 < 2 ^ w := by
          intro l
          induction l with
          | nil => intro c hc; simpa [Memory.wf] using hc
          | cons d l ihl =>
            intro c hc
            simp only [Memory.wf, Bool.and_eq_true, decide_eq_true_eq] at hc
            exact Nat.lt_trans hc.1 (ihl _ hc.2)
        exact aux _ _ hwf
    obtain ⟨ih1, ih2⟩ := ih htail
    simp only [Memory.write]
    split
    · rename_i hlt
      have h0 : Memory.wf w ((x, v) :: (p, q) :: m) = true := by
        simp only [Memory.wf, Bool.and_eq_true, decide_eq_true_eq]; exact ⟨hlt, hwf⟩
      refine ⟨h0, fun a b hax ha _ => ?_⟩
      simp only [Memory.wf, Bool.and_eq_true, decide_eq_true_eq] at h0 ⊢
      exact ⟨hax, h0⟩
    · split
      · rename_i hnl heq
        subst heq
        have h0 : Memory.wf w ((x, v) :: m) = true := by
          cases m with
          | nil => simpa [Memory.wf] using hx
          | cons d m => simpa [Memory.wf] using hwf
        refine ⟨h0, fun a b hax ha _ => ?_⟩
        simp only [Memory.wf, Bool.and_eq_true, decide_eq_true_eq]
        exact ⟨hax, h0⟩
      · rename_i hnl hne
        have hpx : p < x := by omega
        have h0 := ih2 p q hpx hp hwf
        refine ⟨h0, fun a b hax ha hab => ?_⟩
        simp only [Memory.wf, Bool.and_eq_true, decide_eq_true_eq] at hab ⊢
        exact ⟨hab.1, h0⟩

/-- A store keeps the canonical form. -/
theorem Memory.wf_write (m : Memory) (x : Nat) (v : Byte) (hx : x < 2 ^ w) (h : m.wf w = true) :
    (m.write x v).wf w = true := (Memory.wf_write_aux m x v hx h).1

/-- The tail of a canonical memory is canonical, and so is the memory without its second entry. -/
theorem Memory.wf_tail {c : Host.Cell} {m : Memory} (h : Memory.wf w (c :: m) = true) : m.wf w = true := by
  cases m with
  | nil => rfl
  | cons d m => obtain ⟨a, b⟩ := c; obtain ⟨a', b'⟩ := d; simp only [Memory.wf, Bool.and_eq_true] at h; exact h.2

theorem Memory.head_lt {c : Host.Cell} {m : Memory} (h : Memory.wf w (c :: m) = true) : c.1 < 2 ^ w := by
  induction m generalizing c with
  | nil => simpa [Memory.wf] using h
  | cons d m ih =>
    obtain ⟨a, b⟩ := c; obtain ⟨a', b'⟩ := d
    simp only [Memory.wf, Bool.and_eq_true, decide_eq_true_eq] at h
    exact Nat.lt_trans h.1 (ih h.2)

theorem Memory.wf_skip {c d : Host.Cell} {m : Memory} (h : Memory.wf w (c :: d :: m) = true) :
    Memory.wf w (c :: m) = true := by
  obtain ⟨a, b⟩ := c; obtain ⟨a', b'⟩ := d
  have hc := Memory.head_lt h
  cases m with
  | nil => simpa [Memory.wf] using hc
  | cons e m =>
    obtain ⟨a'', b''⟩ := e
    simp only [Memory.wf, Bool.and_eq_true, decide_eq_true_eq] at h ⊢
    exact ⟨Nat.lt_trans h.1 h.2.1, h.2.2⟩

theorem Memory.wf_remove_aux (m : Memory) (x : Nat) :
    ∀ c : Host.Cell, Memory.wf w (c :: m) = true → Memory.wf w (c :: m.remove x) = true := by
  induction m with
  | nil => intro c h; exact h
  | cons d m ih =>
    intro c h
    obtain ⟨a', b'⟩ := d
    simp only [Memory.remove]
    split
    · exact Memory.wf_skip h
    · obtain ⟨a, b⟩ := c
      have h2 := ih (a', b') (Memory.wf_tail h)
      simp only [Memory.wf, Bool.and_eq_true, decide_eq_true_eq] at h ⊢
      exact ⟨h.1, h2⟩

/-- A removal keeps the canonical form. -/
theorem Memory.wf_remove (m : Memory) (x : Nat) (h : m.wf w = true) : (m.remove x).wf w = true := by
  cases m with
  | nil => exact h
  | cons d m =>
    obtain ⟨a, b⟩ := d
    simp only [Memory.remove]
    split
    · exact Memory.wf_tail h
    · exact Memory.wf_remove_aux m x (a, b) h

/-- A removal leaves every other address as it was. -/
theorem Memory.read_remove_other (m : Memory) {x y : Nat} (h : y ≠ x) : (m.remove x).read y = m.read y := by
  induction m with
  | nil => rfl
  | cons d m ih =>
    obtain ⟨a, b⟩ := d
    simp only [Memory.remove]
    split
    · rename_i hx
      have : y ≠ a := fun e => h (e.trans hx.symm)
      simp [Memory.read, this]
    · simp only [Memory.read, ih]

/-- Below an entry of a canonical memory nothing smaller or equal is listed after it. -/
theorem Memory.read_of_le_head {c : Host.Cell} {m : Memory} (h : Memory.wf w (c :: m) = true) {x : Nat} (hx : x ≤ c.1) :
    m.read x = none := by
  induction m generalizing c with
  | nil => rfl
  | cons d m ih =>
    obtain ⟨a, b⟩ := c; obtain ⟨a', b'⟩ := d
    have h' := h
    simp only [Memory.wf, Bool.and_eq_true, decide_eq_true_eq] at h
    have hxa : x < a' := Nat.lt_of_le_of_lt hx h.1
    have : x ≠ a' := by omega
    simp only [Memory.read, this, if_false]
    exact ih h.2 (Nat.le_of_lt hxa)

/-- A removed address reads as no value. -/
theorem Memory.read_remove_same (m : Memory) (x : Nat) (h : m.wf w = true) : (m.remove x).read x = none := by
  induction m with
  | nil => rfl
  | cons d m ih =>
    obtain ⟨a, b⟩ := d
    simp only [Memory.remove]
    split
    · rename_i hx
      exact Memory.read_of_le_head h (Nat.le_of_eq hx)
    · rename_i hx
      simp only [Memory.read, hx, if_false]
      exact ih (Memory.wf_tail h)

/-- A listed address has `w` bits. -/
theorem Memory.read_lt {m : Memory} {x : Nat} (h : m.wf w = true) (hx : (m.read x).isSome = true) : x < 2 ^ w := by
  induction m with
  | nil => cases hx
  | cons c m ih =>
    obtain ⟨a, b⟩ := c
    simp only [Memory.read] at hx
    split at hx
    · rename_i he
      rw [he]; exact Memory.head_lt h
    · exact ih (Memory.wf_tail h) hx

/-! ### Buffer addresses -/

/-- A number as a buffer address has `w` bits. -/
theorem bufAddr_lt (w : Nat) (a : Nat) : bufAddr w a < 2 ^ w := Nat.mod_lt _ (Nat.two_pow_pos w)

/-- A number of `w` bits is itself as an address. -/
theorem bufAddr_of_lt {a : Nat} (h : a < 2 ^ w) : bufAddr w a = a := Nat.mod_eq_of_lt h

@[simp] theorem advance_zero (w : Nat) (a : Nat) : advance w 0 a = a := rfl

theorem advance_succ (w k : Nat) (a : Nat) : advance w (k + 1) a = advance w k (nextAddr w a) := rfl

/-- The address after an address of `w` bits has `w` bits. -/
theorem nextAddr_lt (w : Nat) (a : Nat) : nextAddr w a < 2 ^ w := by
  unfold nextAddr
  split
  · assumption
  · exact bufAddr_lt _ _

/-- An address of `w` bits moved on has `w` bits. -/
theorem advance_lt (k : Nat) {a : Nat} (h : a < 2 ^ w) : advance w k a < 2 ^ w := by
  induction k generalizing a with
  | zero => exact h
  | succ k ih => exact ih (nextAddr_lt w a)

/-- Below the top of the address space the next address is one higher. -/
theorem nextAddr_eq {a : Nat} (h : a + 1 < 2 ^ w) : nextAddr w a = a + 1 := if_pos h

/-- Below the top of the address space the address `k` bytes on is `k` higher. -/
theorem advance_eq (k : Nat) (a : Nat) (h : a + k < 2 ^ w) : advance w k a = a + k := by
  induction k generalizing a with
  | zero => rfl
  | succ k ih =>
    rw [advance_succ, nextAddr_eq (by omega), ih _ (by omega)]
    omega

/-- One more byte on. -/
theorem advance_succ' (w k : Nat) (a : Nat) : advance w (k + 1) a = nextAddr w (advance w k a) := by
  induction k generalizing a with
  | zero => rfl
  | succ k ih => rw [advance_succ, ih, advance_succ]

end Sys2Proof.Machine
end

