-- ==== Sys2Proof/Laws/State.lean ====
section
/-! SUPPORT. One lemma per field per update of State, so that no later proof unfolds a record update. -/

namespace Sys2Proof.Machine

/-! ### `State.record` -/

section
variable (s : State) (e : PortEvent)

@[simp] theorem State.record_params : (s.record e).params = s.params := rfl
@[simp] theorem State.record_eng : (s.record e).eng = s.eng := rfl
@[simp] theorem State.record_blk : (s.record e).blk = s.blk := rfl
@[simp] theorem State.record_clock : (s.record e).clock = s.clock := rfl
@[simp] theorem State.record_mem : (s.record e).mem = s.mem := rfl
@[simp] theorem State.record_result : (s.record e).result = s.result := rfl
@[simp] theorem State.record_irqResult : (s.record e).irqResult = s.irqResult := rfl
@[simp] theorem State.record_callResult : (s.record e).callResult = s.callResult := rfl
@[simp] theorem State.record_otherIrq : (s.record e).otherIrq = s.otherIrq := rfl
@[simp] theorem State.record_ports : (s.record e).ports = s.ports ++ [e] := rfl
@[simp] theorem State.record_inputs : (s.record e).inputs = s.inputs := rfl
@[simp] theorem State.record_env : (s.record e).env = s.env := rfl

end

/-! ### `respond` -/

section
variable (c : ResultCode) (s : State)

@[simp] theorem respond_params : (respond c s).params = s.params := rfl
@[simp] theorem respond_eng : (respond c s).eng = s.eng := rfl
@[simp] theorem respond_blk : (respond c s).blk = s.blk := rfl
@[simp] theorem respond_clock : (respond c s).clock = s.clock := rfl
@[simp] theorem respond_mem : (respond c s).mem = s.mem := rfl
@[simp] theorem respond_result : (respond c s).result = some c := rfl
@[simp] theorem respond_irqResult : (respond c s).irqResult = s.irqResult := rfl
@[simp] theorem respond_callResult : (respond c s).callResult = s.callResult := rfl
@[simp] theorem respond_otherIrq : (respond c s).otherIrq = s.otherIrq := rfl
@[simp] theorem respond_ports : (respond c s).ports = s.ports := rfl
@[simp] theorem respond_inputs : (respond c s).inputs = s.inputs := rfl
@[simp] theorem respond_env : (respond c s).env = s.env := rfl

end

/-! ### `respondIrq` -/

section
variable (c : IrqResult) (s : State)

@[simp] theorem respondIrq_params : (respondIrq c s).params = s.params := rfl
@[simp] theorem respondIrq_eng : (respondIrq c s).eng = s.eng := rfl
@[simp] theorem respondIrq_blk : (respondIrq c s).blk = s.blk := rfl
@[simp] theorem respondIrq_clock : (respondIrq c s).clock = s.clock := rfl
@[simp] theorem respondIrq_mem : (respondIrq c s).mem = s.mem := rfl
@[simp] theorem respondIrq_result : (respondIrq c s).result = s.result := rfl
@[simp] theorem respondIrq_irqResult : (respondIrq c s).irqResult = some c := rfl
@[simp] theorem respondIrq_callResult : (respondIrq c s).callResult = s.callResult := rfl
@[simp] theorem respondIrq_otherIrq : (respondIrq c s).otherIrq = s.otherIrq := rfl
@[simp] theorem respondIrq_ports : (respondIrq c s).ports = s.ports := rfl
@[simp] theorem respondIrq_inputs : (respondIrq c s).inputs = s.inputs := rfl
@[simp] theorem respondIrq_env : (respondIrq c s).env = s.env := rfl

end

/-! ### `respondCall` -/

section
variable (c : ResultCode) (s : State)

@[simp] theorem respondCall_params : (respondCall c s).params = s.params := rfl
@[simp] theorem respondCall_eng : (respondCall c s).eng = s.eng := rfl
@[simp] theorem respondCall_blk : (respondCall c s).blk = s.blk := rfl
@[simp] theorem respondCall_clock : (respondCall c s).clock = s.clock := rfl
@[simp] theorem respondCall_mem : (respondCall c s).mem = s.mem := rfl
@[simp] theorem respondCall_result : (respondCall c s).result = s.result := rfl
@[simp] theorem respondCall_irqResult : (respondCall c s).irqResult = s.irqResult := rfl
@[simp] theorem respondCall_callResult : (respondCall c s).callResult = some c := rfl
@[simp] theorem respondCall_otherIrq : (respondCall c s).otherIrq = s.otherIrq := rfl
@[simp] theorem respondCall_ports : (respondCall c s).ports = s.ports := rfl
@[simp] theorem respondCall_inputs : (respondCall c s).inputs = s.inputs := rfl
@[simp] theorem respondCall_env : (respondCall c s).env = s.env := rfl

end

/-! ### `finalise` -/

section
variable (s : State)

@[simp] theorem finalise_params : (finalise s).params = s.params := rfl
@[simp] theorem finalise_eng : (finalise s).eng = { s.eng with state := .completing, txBuf := none, rxBuf := none, finished := s.eng.finished + 1 } := rfl
@[simp] theorem finalise_blk : (finalise s).blk = s.blk := rfl
@[simp] theorem finalise_clock : (finalise s).clock = s.clock := rfl
@[simp] theorem finalise_mem : (finalise s).mem = s.mem := rfl
@[simp] theorem finalise_result : (finalise s).result = s.result := rfl
@[simp] theorem finalise_irqResult : (finalise s).irqResult = s.irqResult := rfl
@[simp] theorem finalise_callResult : (finalise s).callResult = s.callResult := rfl
@[simp] theorem finalise_otherIrq : (finalise s).otherIrq = s.otherIrq := rfl
@[simp] theorem finalise_ports : (finalise s).ports = s.ports ++ [.emitFinished] := rfl
@[simp] theorem finalise_inputs : (finalise s).inputs = s.inputs := rfl
@[simp] theorem finalise_env : (finalise s).env = s.env := rfl

end

/-! ### `emitError` -/

section
variable (k : ErrKind) (s : State)

@[simp] theorem emitError_params : (emitError k s).params = s.params := rfl
@[simp] theorem emitError_eng : (emitError k s).eng = { s.eng with errlog := s.eng.errlog ++ [{ kind := k, rxLen := s.eng.rxLen, txLen := s.eng.txLen }] } := rfl
@[simp] theorem emitError_blk : (emitError k s).blk = s.blk := rfl
@[simp] theorem emitError_clock : (emitError k s).clock = s.clock := rfl
@[simp] theorem emitError_mem : (emitError k s).mem = s.mem := rfl
@[simp] theorem emitError_result : (emitError k s).result = s.result := rfl
@[simp] theorem emitError_irqResult : (emitError k s).irqResult = s.irqResult := rfl
@[simp] theorem emitError_callResult : (emitError k s).callResult = s.callResult := rfl
@[simp] theorem emitError_otherIrq : (emitError k s).otherIrq = s.otherIrq := rfl
@[simp] theorem emitError_ports : (emitError k s).ports = s.ports ++ [.emitError { kind := k, rxLen := s.eng.rxLen, txLen := s.eng.txLen }] := rfl
@[simp] theorem emitError_inputs : (emitError k s).inputs = s.inputs := rfl
@[simp] theorem emitError_env : (emitError k s).env = s.env := rfl

end

/-! ### `setClock` -/

section
variable (m : Bool) (g : Nat) (s : State)

@[simp] theorem setClock_params : (setClock m g s).params = s.params := rfl
@[simp] theorem setClock_eng : (setClock m g s).eng = { s.eng with clkMode := m, clkGen := g } := rfl
@[simp] theorem setClock_blk : (setClock m g s).blk = s.blk := rfl
@[simp] theorem setClock_clock : (setClock m g s).clock = s.clock := rfl
@[simp] theorem setClock_mem : (setClock m g s).mem = s.mem := rfl
@[simp] theorem setClock_result : (setClock m g s).result = s.result := rfl
@[simp] theorem setClock_irqResult : (setClock m g s).irqResult = s.irqResult := rfl
@[simp] theorem setClock_callResult : (setClock m g s).callResult = s.callResult := rfl
@[simp] theorem setClock_otherIrq : (setClock m g s).otherIrq = s.otherIrq := rfl
@[simp] theorem setClock_ports : (setClock m g s).ports = s.ports := rfl
@[simp] theorem setClock_inputs : (setClock m g s).inputs = s.inputs := rfl
@[simp] theorem setClock_env : (setClock m g s).env = s.env := rfl

end

/-! ### `advanceTx` -/

section
variable (i : Nat) (s : State)

@[simp] theorem advanceTx_params : (advanceTx i s).params = s.params := rfl
@[simp] theorem advanceTx_eng : (advanceTx i s).eng = { s.eng with txLen := s.eng.txLen - i, pending := s.eng.pending + i } := rfl
@[simp] theorem advanceTx_blk : (advanceTx i s).blk = s.blk := rfl
@[simp] theorem advanceTx_clock : (advanceTx i s).clock = s.clock := rfl
@[simp] theorem advanceTx_mem : (advanceTx i s).mem = s.mem := rfl
@[simp] theorem advanceTx_result : (advanceTx i s).result = s.result := rfl
@[simp] theorem advanceTx_irqResult : (advanceTx i s).irqResult = s.irqResult := rfl
@[simp] theorem advanceTx_callResult : (advanceTx i s).callResult = s.callResult := rfl
@[simp] theorem advanceTx_otherIrq : (advanceTx i s).otherIrq = s.otherIrq := rfl
@[simp] theorem advanceTx_ports : (advanceTx i s).ports = s.ports := rfl
@[simp] theorem advanceTx_inputs : (advanceTx i s).inputs = s.inputs := rfl
@[simp] theorem advanceTx_env : (advanceTx i s).env = s.env := rfl

end

/-! ### `advanceRx` -/

section
variable (i : Nat) (s : State)

@[simp] theorem advanceRx_params : (advanceRx i s).params = s.params := rfl
@[simp] theorem advanceRx_eng : (advanceRx i s).eng = { s.eng with rxLen := s.eng.rxLen - i, pending := s.eng.pending - i } := rfl
@[simp] theorem advanceRx_blk : (advanceRx i s).blk = s.blk := rfl
@[simp] theorem advanceRx_clock : (advanceRx i s).clock = s.clock := rfl
@[simp] theorem advanceRx_mem : (advanceRx i s).mem = s.mem := rfl
@[simp] theorem advanceRx_result : (advanceRx i s).result = s.result := rfl
@[simp] theorem advanceRx_irqResult : (advanceRx i s).irqResult = s.irqResult := rfl
@[simp] theorem advanceRx_callResult : (advanceRx i s).callResult = s.callResult := rfl
@[simp] theorem advanceRx_otherIrq : (advanceRx i s).otherIrq = s.otherIrq := rfl
@[simp] theorem advanceRx_ports : (advanceRx i s).ports = s.ports := rfl
@[simp] theorem advanceRx_inputs : (advanceRx i s).inputs = s.inputs := rfl
@[simp] theorem advanceRx_env : (advanceRx i s).env = s.env := rfl

end

/-! ### `loadTransfer` -/

section
variable (len : Word) (tx rx : Option Nat) (s : State)

@[simp] theorem loadTransfer_params : (loadTransfer len tx rx s).params = s.params := rfl
@[simp] theorem loadTransfer_eng : (loadTransfer len tx rx s).eng = { s.eng with txBuf := tx.map (bufAddr s.params.addrW), rxBuf := rx.map (bufAddr s.params.addrW), txLen := len.toNat, rxLen := len.toNat, pending := 0 } := rfl
@[simp] theorem loadTransfer_blk : (loadTransfer len tx rx s).blk = s.blk := rfl
@[simp] theorem loadTransfer_clock : (loadTransfer len tx rx s).clock = s.clock := rfl
@[simp] theorem loadTransfer_mem : (loadTransfer len tx rx s).mem = s.mem := rfl
@[simp] theorem loadTransfer_result : (loadTransfer len tx rx s).result = s.result := rfl
@[simp] theorem loadTransfer_irqResult : (loadTransfer len tx rx s).irqResult = s.irqResult := rfl
@[simp] theorem loadTransfer_callResult : (loadTransfer len tx rx s).callResult = s.callResult := rfl
@[simp] theorem loadTransfer_otherIrq : (loadTransfer len tx rx s).otherIrq = s.otherIrq := rfl
@[simp] theorem loadTransfer_ports : (loadTransfer len tx rx s).ports = s.ports := rfl
@[simp] theorem loadTransfer_inputs : (loadTransfer len tx rx s).inputs = s.inputs := rfl
@[simp] theorem loadTransfer_env : (loadTransfer len tx rx s).env = s.env := rfl

end

/-! ### `beginTransfer` -/

section
variable (s : State)

@[simp] theorem beginTransfer_params : (beginTransfer s).params = s.params := rfl
@[simp] theorem beginTransfer_eng : (beginTransfer s).eng = { s.eng with state := .transferring } := rfl
@[simp] theorem beginTransfer_blk : (beginTransfer s).blk = s.blk := rfl
@[simp] theorem beginTransfer_clock : (beginTransfer s).clock = s.clock := rfl
@[simp] theorem beginTransfer_mem : (beginTransfer s).mem = s.mem := rfl
@[simp] theorem beginTransfer_result : (beginTransfer s).result = s.result := rfl
@[simp] theorem beginTransfer_irqResult : (beginTransfer s).irqResult = s.irqResult := rfl
@[simp] theorem beginTransfer_callResult : (beginTransfer s).callResult = s.callResult := rfl
@[simp] theorem beginTransfer_otherIrq : (beginTransfer s).otherIrq = s.otherIrq := rfl
@[simp] theorem beginTransfer_ports : (beginTransfer s).ports = s.ports := rfl
@[simp] theorem beginTransfer_inputs : (beginTransfer s).inputs = s.inputs := rfl
@[simp] theorem beginTransfer_env : (beginTransfer s).env = s.env := rfl

end

/-! ### `initRecord` -/

section
variable (s : State)

@[simp] theorem initRecord_params : (initRecord s).params = s.params := rfl
@[simp] theorem initRecord_eng : (initRecord s).eng = { s.eng with state := .idle, live := .ready, txLen := 0, rxLen := 0, pending := 0, txBuf := none, rxBuf := none } := rfl
@[simp] theorem initRecord_blk : (initRecord s).blk = s.blk := rfl
@[simp] theorem initRecord_clock : (initRecord s).clock = s.clock := rfl
@[simp] theorem initRecord_mem : (initRecord s).mem = s.mem := rfl
@[simp] theorem initRecord_result : (initRecord s).result = s.result := rfl
@[simp] theorem initRecord_irqResult : (initRecord s).irqResult = s.irqResult := rfl
@[simp] theorem initRecord_callResult : (initRecord s).callResult = s.callResult := rfl
@[simp] theorem initRecord_otherIrq : (initRecord s).otherIrq = s.otherIrq := rfl
@[simp] theorem initRecord_ports : (initRecord s).ports = s.ports := rfl
@[simp] theorem initRecord_inputs : (initRecord s).inputs = s.inputs := rfl
@[simp] theorem initRecord_env : (initRecord s).env = s.env := rfl

end

/-! ### `teardownRecord` -/

section
variable (s : State)

@[simp] theorem teardownRecord_params : (teardownRecord s).params = s.params := rfl
@[simp] theorem teardownRecord_eng : (teardownRecord s).eng = { s.eng with state := .idle, live := .removed, txBuf := none, rxBuf := none } := rfl
@[simp] theorem teardownRecord_blk : (teardownRecord s).blk = s.blk := rfl
@[simp] theorem teardownRecord_clock : (teardownRecord s).clock = s.clock := rfl
@[simp] theorem teardownRecord_mem : (teardownRecord s).mem = s.mem := rfl
@[simp] theorem teardownRecord_result : (teardownRecord s).result = s.result := rfl
@[simp] theorem teardownRecord_irqResult : (teardownRecord s).irqResult = s.irqResult := rfl
@[simp] theorem teardownRecord_callResult : (teardownRecord s).callResult = s.callResult := rfl
@[simp] theorem teardownRecord_otherIrq : (teardownRecord s).otherIrq = s.otherIrq := rfl
@[simp] theorem teardownRecord_ports : (teardownRecord s).ports = s.ports := rfl
@[simp] theorem teardownRecord_inputs : (teardownRecord s).inputs = s.inputs := rfl
@[simp] theorem teardownRecord_env : (teardownRecord s).env = s.env := rfl

end

/-! ### `placeRequest` -/

section
variable (r : Request) (s : State)

@[simp] theorem placeRequest_params : (placeRequest r s).params = s.params := rfl
@[simp] theorem placeRequest_eng : (placeRequest r s).eng = s.eng := rfl
@[simp] theorem placeRequest_blk : (placeRequest r s).blk = s.blk := rfl
@[simp] theorem placeRequest_clock : (placeRequest r s).clock = s.clock := rfl
@[simp] theorem placeRequest_mem : (placeRequest r s).mem = s.mem := rfl
@[simp] theorem placeRequest_result : (placeRequest r s).result = s.result := rfl
@[simp] theorem placeRequest_irqResult : (placeRequest r s).irqResult = s.irqResult := rfl
@[simp] theorem placeRequest_callResult : (placeRequest r s).callResult = s.callResult := rfl
@[simp] theorem placeRequest_otherIrq : (placeRequest r s).otherIrq = s.otherIrq := rfl
@[simp] theorem placeRequest_ports : (placeRequest r s).ports = s.ports := rfl
@[simp] theorem placeRequest_inputs : (placeRequest r s).inputs = .request r :: s.inputs := rfl
@[simp] theorem placeRequest_env : (placeRequest r s).env = s.env := rfl

end

/-! ### `resetEngine` -/

section
variable (b : Block) (s : State)

@[simp] theorem resetEngine_params : (resetEngine b s).params = s.params := rfl
@[simp] theorem resetEngine_eng : (resetEngine b s).eng = Engine.reset := rfl
@[simp] theorem resetEngine_blk : (resetEngine b s).blk = b.normalise s.params := rfl
@[simp] theorem resetEngine_clock : (resetEngine b s).clock = { s.clock with held := true } := rfl
@[simp] theorem resetEngine_mem : (resetEngine b s).mem = s.mem := rfl
@[simp] theorem resetEngine_result : (resetEngine b s).result = s.result := rfl
@[simp] theorem resetEngine_irqResult : (resetEngine b s).irqResult = s.irqResult := rfl
@[simp] theorem resetEngine_callResult : (resetEngine b s).callResult = s.callResult := rfl
@[simp] theorem resetEngine_otherIrq : (resetEngine b s).otherIrq = s.otherIrq := rfl
@[simp] theorem resetEngine_ports : (resetEngine b s).ports = s.ports := rfl
@[simp] theorem resetEngine_inputs : (resetEngine b s).inputs = s.inputs := rfl
@[simp] theorem resetEngine_env : (resetEngine b s).env = s.env := rfl

end

end Sys2Proof.Machine
end

