-- ==== Sys2Proof/Laws/Env.lean ====
section
/-! SUPPORT. What the other agents can change before an access, and what they cannot. -/

namespace Sys2Proof.Machine

/-! ### One step of another agent -/

section
variable (s : State) (e : EnvEvent)

@[simp] theorem applyEnv_params : (applyEnv s e).params = s.params := by cases e <;> rfl
@[simp] theorem applyEnv_eng : (applyEnv s e).eng = s.eng := by cases e <;> rfl
@[simp] theorem applyEnv_result : (applyEnv s e).result = s.result := by cases e <;> rfl
@[simp] theorem applyEnv_irqResult : (applyEnv s e).irqResult = s.irqResult := by cases e <;> rfl
@[simp] theorem applyEnv_callResult : (applyEnv s e).callResult = s.callResult := by cases e <;> rfl
@[simp] theorem applyEnv_ports : (applyEnv s e).ports = s.ports := by cases e <;> rfl
@[simp] theorem applyEnv_inputs : (applyEnv s e).inputs = s.inputs := by cases e <;> rfl
@[simp] theorem applyEnv_env : (applyEnv s e).env = s.env := by cases e <;> rfl

/-- No step of another agent writes a register word of the block (`46_spi_core_agent.md` R179 (E8)). -/
theorem applyEnv_sameWords : s.blk.sameWords (applyEnv s e).blk := by
  cases e with
  | shift r => exact coreShift_sameWords _ _ _
  | fault k => exact raiseLatch_sameWords _ _ _
  | latch k => exact raiseLatch_sameWords _ _ _
  | openWord w => simp [applyEnv, Block.sameWords, Block.sameWordsButControl]
  | clockHz hz => simp [applyEnv, Block.sameWords, Block.sameWordsButControl]
  | hostWrite a b => simp [applyEnv, Block.sameWords, Block.sameWordsButControl]
  | hostFree a => simp [applyEnv, Block.sameWords, Block.sameWordsButControl]
  | otherIrq b => simp [applyEnv, Block.sameWords, Block.sameWordsButControl]

/-- A step of another agent keeps memory and block in form. -/
theorem applyEnv_wf (hm : s.mem.wf s.params.addrW = true) (hb : s.blk.Wf s.params) :
    (applyEnv s e).mem.wf s.params.addrW = true ∧ (applyEnv s e).blk.Wf s.params := by
  cases e with
  | shift r => exact ⟨hm, coreShift_wf _ _ _ hb⟩
  | fault k => exact ⟨hm, raiseLatch_wf _ _ _ hb⟩
  | latch k => exact ⟨hm, raiseLatch_wf _ _ _ hb⟩
  | openWord w => exact ⟨hm, hb⟩
  | clockHz hz => exact ⟨hm, hb⟩
  | hostWrite a b => exact ⟨Memory.wf_write _ _ _ (bufAddr_lt _ _) hm, hb⟩
  | hostFree a => exact ⟨Memory.wf_remove _ _ hm, hb⟩
  | otherIrq b => exact ⟨hm, hb⟩

/-- The clock resource is neither taken nor released by another agent. -/
theorem applyEnv_clock_held : (applyEnv s e).clock.held = s.clock.held := by cases e <;> rfl

end

/-- What another agent makes of buffer memory, clock and shared line does not depend on the rest of the state. -/
theorem applyEnv_outside_congr {s t : State} (e : EnvEvent) (hp : s.params = t.params) (hc : s.clock = t.clock) (hm : s.mem = t.mem)
    (ho : s.otherIrq = t.otherIrq) :
    (applyEnv s e).clock = (applyEnv t e).clock ∧ (applyEnv s e).mem = (applyEnv t e).mem ∧
    (applyEnv s e).otherIrq = (applyEnv t e).otherIrq := by
  cases e <;> simp [applyEnv, hp, hc, hm, ho]

/-! ### A run of such steps -/

/-- A property that every step of another agent keeps is kept by a run of them. -/
theorem foldl_applyEnv_induct (P : State → Prop) (h : ∀ s e, P s → P (applyEnv s e)) (es : List EnvEvent) (s : State)
    (hs : P s) : P (es.foldl applyEnv s) := by
  induction es generalizing s with
  | nil => exact hs
  | cons e es ih => exact ih _ (h s e hs)

theorem foldl_applyEnv_outside_congr (es : List EnvEvent) {s t : State} (hp : s.params = t.params) (hc : s.clock = t.clock) (hm : s.mem = t.mem)
    (ho : s.otherIrq = t.otherIrq) :
    (es.foldl applyEnv s).clock = (es.foldl applyEnv t).clock ∧ (es.foldl applyEnv s).mem = (es.foldl applyEnv t).mem ∧
    (es.foldl applyEnv s).otherIrq = (es.foldl applyEnv t).otherIrq := by
  induction es generalizing s t with
  | nil => exact ⟨hc, hm, ho⟩
  | cons e es ih =>
    obtain ⟨h1, h2, h3⟩ := applyEnv_outside_congr e hp hc hm ho
    exact ih (by simpa using hp) h1 h2 h3

/-- A property that popping the schedule and every step of another agent keep is kept before an access. -/
theorem tick_induct (P : State → Prop) (h0 : ∀ s rest, P s → P { s with env := rest })
    (h : ∀ s e, P s → P (applyEnv s e)) (s : State) (hs : P s) : P (tick s) := by
  unfold tick
  split
  · exact hs
  · exact foldl_applyEnv_induct P h _ _ (h0 _ _ hs)

section
variable (s : State)

@[simp] theorem tick_params : (tick s).params = s.params :=
  tick_induct (fun t => t.params = s.params) (fun _ _ h => h) (fun _ _ h => by simpa using h) s rfl
@[simp] theorem tick_eng : (tick s).eng = s.eng :=
  tick_induct (fun t => t.eng = s.eng) (fun _ _ h => h) (fun _ _ h => by simpa using h) s rfl
@[simp] theorem tick_result : (tick s).result = s.result :=
  tick_induct (fun t => t.result = s.result) (fun _ _ h => h) (fun _ _ h => by simpa using h) s rfl
@[simp] theorem tick_irqResult : (tick s).irqResult = s.irqResult :=
  tick_induct (fun t => t.irqResult = s.irqResult) (fun _ _ h => h) (fun _ _ h => by simpa using h) s rfl
@[simp] theorem tick_callResult : (tick s).callResult = s.callResult :=
  tick_induct (fun t => t.callResult = s.callResult) (fun _ _ h => h) (fun _ _ h => by simpa using h) s rfl
@[simp] theorem tick_ports : (tick s).ports = s.ports :=
  tick_induct (fun t => t.ports = s.ports) (fun _ _ h => h) (fun _ _ h => by simpa using h) s rfl
@[simp] theorem tick_inputs : (tick s).inputs = s.inputs :=
  tick_induct (fun t => t.inputs = s.inputs) (fun _ _ h => h) (fun _ _ h => by simpa using h) s rfl

/-- Before an access no other agent writes a register word of the block (R179 (E8)). -/
theorem tick_sameWords : s.blk.sameWords (tick s).blk :=
  tick_induct (fun t => s.blk.sameWords t.blk) (fun _ _ h => h)
    (fun t e h => by
      have h' := applyEnv_sameWords t e
      simp only [Block.sameWords, Block.sameWordsButControl] at h h' ⊢
      obtain ⟨a0, a1, a2, a3, a4⟩ := h
      obtain ⟨b0, b1, b2, b3, b4⟩ := h'
      exact ⟨b0.trans a0, b1.trans a1, b2.trans a2, b3.trans a3, b4.trans a4⟩)
    s ⟨rfl, rfl, rfl, rfl, rfl⟩

@[simp] theorem tick_control : (tick s).blk.control = s.blk.control := (tick_sameWords s).1
@[simp] theorem tick_frameSize : (tick s).blk.frameSize = s.blk.frameSize := (tick_sameWords s).2.1
@[simp] theorem tick_clkGen : (tick s).blk.clkGen = s.blk.clkGen := (tick_sameWords s).2.2.1
@[simp] theorem tick_ssel : (tick s).blk.ssel = s.blk.ssel := (tick_sameWords s).2.2.2.1
@[simp] theorem tick_framesup : (tick s).blk.framesup = s.blk.framesup := (tick_sameWords s).2.2.2.2

@[simp] theorem tick_clock_held : (tick s).clock.held = s.clock.held :=
  tick_induct (fun t => t.clock.held = s.clock.held) (fun _ _ h => h)
    (fun t e h => (applyEnv_clock_held t e).trans h) s rfl

/-- Memory and block stay in form before an access. -/
theorem tick_wf (hm : s.mem.wf s.params.addrW = true) (hb : s.blk.Wf s.params) :
    (tick s).mem.wf s.params.addrW = true ∧ (tick s).blk.Wf s.params := by
  have h := tick_induct (fun t => t.params = s.params ∧ t.mem.wf s.params.addrW = true ∧ t.blk.Wf s.params) (fun _ _ h => h)
    (fun t e h => by
      obtain ⟨hp, h1, h2⟩ := h
      have h' := applyEnv_wf t e (by rw [hp]; exact h1) (by rw [hp]; exact h2)
      rw [hp] at h'
      exact ⟨(applyEnv_params t e).trans hp, h'⟩)
    s ⟨rfl, hm, hb⟩
  exact h.2

end

/-- With no other agent acting, nothing happens before an access. -/
theorem tick_of_quiet {s : State} (h : s.env = []) : tick s = s := by simp [tick, h]

@[simp] theorem tick_env (s : State) : (tick s).env = s.env.tail := by
  unfold tick
  split
  · rename_i h; simp [h]
  · rename_i es rest h
    have := foldl_applyEnv_induct (fun t => t.env = rest) (fun t e ht => (applyEnv_env t e).trans ht) es
      { s with env := rest } rfl
    rw [this, h]; rfl

theorem tick_outside_congr {s t : State} (hp : s.params = t.params) (hc : s.clock = t.clock) (hm : s.mem = t.mem) (ho : s.otherIrq = t.otherIrq)
    (he : s.env = t.env) :
    (tick s).clock = (tick t).clock ∧ (tick s).mem = (tick t).mem ∧ (tick s).otherIrq = (tick t).otherIrq := by
  unfold tick
  rw [he]
  split
  · exact ⟨hc, hm, ho⟩
  · exact foldl_applyEnv_outside_congr _ hp hc hm ho

/-! ### Several accesses -/

@[simp] theorem ticks_zero (s : State) : ticks 0 s = s := rfl

theorem ticks_succ (n : Nat) (s : State) : ticks (n + 1) s = ticks n (tick s) := rfl

theorem ticks_add (n m : Nat) (s : State) : ticks (n + m) s = ticks m (ticks n s) := by
  induction n generalizing s with
  | zero => simp
  | succ n ih => rw [Nat.add_right_comm, ticks_succ, ticks_succ, ih]

@[simp] theorem ticks_params (n : Nat) (s : State) : (ticks n s).params = s.params := by
  induction n generalizing s with
  | zero => rfl
  | succ n ih => rw [ticks_succ, ih, tick_params]

theorem ticks_of_quiet (n : Nat) {s : State} (h : s.env = []) : ticks n s = s := by
  induction n with
  | zero => rfl
  | succ n ih => rw [ticks_succ, tick_of_quiet h, ih]

theorem ticks_outside_congr (n : Nat) {s t : State} (hp : s.params = t.params) (hc : s.clock = t.clock) (hm : s.mem = t.mem)
    (ho : s.otherIrq = t.otherIrq) (he : s.env = t.env) :
    (ticks n s).clock = (ticks n t).clock ∧ (ticks n s).mem = (ticks n t).mem ∧
    (ticks n s).otherIrq = (ticks n t).otherIrq ∧ (ticks n s).env = (ticks n t).env := by
  induction n generalizing s t with
  | zero => exact ⟨hc, hm, ho, he⟩
  | succ n ih =>
    obtain ⟨h1, h2, h3⟩ := tick_outside_congr hp hc hm ho he
    exact ih (by simpa using hp) h1 h2 h3 (by simp [he])

theorem ticks_env (n : Nat) (s : State) : (ticks n s).env = s.env.drop n := by
  induction n generalizing s with
  | zero => simp
  | succ n ih => rw [ticks_succ, ih, tick_env, List.drop_tail]

/-! ### What an operation leaves alone -/

theorem State.keepsOutsideBlock.rfl' (s : State) : s.keepsOutsideBlock 0 s := ⟨rfl, rfl, rfl, rfl, rfl, rfl, rfl⟩

/-- Two operations in a row, of `n` and `m` accesses. -/
theorem State.keepsOutsideBlock.trans {s t u : State} {n m : Nat} (h : s.keepsOutsideBlock n t)
    (k : t.keepsOutsideBlock m u) : s.keepsOutsideBlock (n + m) u := by
  obtain ⟨h1, h2, h3, h4, h5, h6, h7⟩ := h
  obtain ⟨k1, k2, k3, k4, k5, k6, k7⟩ := k
  obtain ⟨c1, c2, c3, c4⟩ := ticks_outside_congr m (h1.trans (ticks_params n s).symm) h4 h5 h6 h7
  rw [← ticks_add] at c1 c2 c3 c4
  exact ⟨k1.trans h1, k2.trans h2, k3.trans h3, k4.trans c1, k5.trans c2, k6.trans c3, k7.trans c4⟩

/-- With no other agent acting, what lies outside the block is as before. -/
theorem State.keepsOutsideBlock.quiet {s t : State} {n : Nat} (h : s.keepsOutsideBlock n t) (hq : s.env = []) :
    t.mem = s.mem ∧ t.clock = s.clock ∧ t.otherIrq = s.otherIrq ∧ t.env = [] := by
  obtain ⟨-, -, -, h4, h5, h6, h7⟩ := h
  rw [ticks_of_quiet n hq] at h4 h5 h6 h7
  exact ⟨h5, h4, h6, h7.trans hq⟩

theorem State.keepsResults.rfl' (s : State) : s.keepsResults s := ⟨rfl, rfl, rfl⟩

theorem State.keepsResults.trans {s t u : State} (h : s.keepsResults t) (k : t.keepsResults u) : s.keepsResults u :=
  ⟨k.1.trans h.1, k.2.1.trans h.2.1, k.2.2.trans h.2.2⟩

end Sys2Proof.Machine
end

