-- ==== Sys2Proof/Laws/Ops.lean ====
section
/-! SUPPORT. The register bus, the buffer port and the clock service: what one access can do. -/

namespace Sys2Proof.Machine

/-! ### Stages -/

@[simp] theorem andThen_next {α β : Type} (a : α) (k : α → Host.Outcome β Fault Refusal) : andThen (.next a) k = k a := rfl
@[simp] theorem andThen_refused {α β : Type} (r : Refusal) (k : α → Host.Outcome β Fault Refusal) :
    andThen (.refused r) k = .refused r := rfl

/-- A chain of stages that answers has answered at every stage. -/
theorem andThen_eq_next {α β : Type} {o : Host.Outcome α Fault Refusal} {k : α → Host.Outcome β Fault Refusal} {b : β}
    (h : andThen o k = .next b) : ∃ a, o = .next a ∧ k a = .next b := by
  cases o with
  | next a => exact ⟨a, rfl, h⟩
  | fault r => cases h
  | refused r => cases h

/-! ### Register reads -/

section
variable (r : Reg) (s : State)

@[simp] theorem afterRead_params : (afterRead r s).params = s.params := by simp [afterRead]
@[simp] theorem afterRead_eng : (afterRead r s).eng = s.eng := by simp [afterRead]
@[simp] theorem afterRead_ports : (afterRead r s).ports = s.ports ++ [.regRead r (readWord r s)] := by simp [afterRead]

@[simp] theorem readWord_control : readWord .control s = s.blk.control := by simp [readWord, blockReadValue]

/-- A register read leaves everything outside the block to the other agents. -/
theorem afterRead_keepsOutside : s.keepsOutsideBlock 1 (afterRead r s) := by
  simp [State.keepsOutsideBlock, afterRead, ticks]

theorem afterRead_keepsResults : s.keepsResults (afterRead r s) := by simp [State.keepsResults, afterRead]

theorem afterRead_sameWords : s.blk.sameWords (afterRead r s).blk := by
  have h1 := tick_sameWords s
  have h2 := blockReadEffect_sameWords (tick s).blk r
  simp only [Block.sameWords, Block.sameWordsButControl, afterRead, State.record_blk] at h1 h2 ⊢
  obtain ⟨a0, a1, a2, a3, a4⟩ := h1
  obtain ⟨b0, b1, b2, b3, b4⟩ := h2
  exact ⟨b0.trans a0, b1.trans a1, b2.trans a2, b3.trans a3, b4.trans a4⟩

@[simp] theorem afterRead_control : (afterRead r s).blk.control = s.blk.control := (afterRead_sameWords r s).1
@[simp] theorem afterRead_frameSize : (afterRead r s).blk.frameSize = s.blk.frameSize := (afterRead_sameWords r s).2.1
@[simp] theorem afterRead_clkGen : (afterRead r s).blk.clkGen = s.blk.clkGen := (afterRead_sameWords r s).2.2.1
@[simp] theorem afterRead_ssel : (afterRead r s).blk.ssel = s.blk.ssel := (afterRead_sameWords r s).2.2.2.1
@[simp] theorem afterRead_framesup : (afterRead r s).blk.framesup = s.blk.framesup := (afterRead_sameWords r s).2.2.2.2

theorem afterRead_wf (hm : s.mem.wf s.params.addrW = true) (hb : s.blk.Wf s.params) :
    (afterRead r s).mem.wf s.params.addrW = true ∧ (afterRead r s).blk.Wf s.params := by
  obtain ⟨h1, h2⟩ := tick_wf s hm hb
  exact ⟨h1, blockReadEffect_wf r h2⟩

/-- With no other agent acting, a read other than of `RX_DATA` only adds to the record of accesses. -/
theorem afterRead_of_quiet (hq : s.env = []) (hr : r ≠ .rxData) :
    afterRead r s = s.record (.regRead r (blockReadValue s.params s.blk r)) := by
  simp only [afterRead, readWord, tick_of_quiet hq, blockReadEffect_of_ne s.blk hr]

end

/-! ### Register writes -/

section
variable (r : Reg) (v : Word) (s : State)

@[simp] theorem regWrite_params : (regWrite r v s).params = s.params := by simp [regWrite]
@[simp] theorem regWrite_eng : (regWrite r v s).eng = s.eng := by simp [regWrite]
@[simp] theorem regWrite_ports : (regWrite r v s).ports = s.ports ++ [.regWrite r v] := by simp [regWrite]
@[simp] theorem regWrite_blk : (regWrite r v s).blk = blockWrite s.params (tick s).blk r v := by simp [regWrite]

/-- A register write leaves everything outside the block to the other agents. -/
theorem regWrite_keepsOutside : s.keepsOutsideBlock 1 (regWrite r v s) := by
  simp [State.keepsOutsideBlock, regWrite, ticks]

theorem regWrite_keepsResults : s.keepsResults (regWrite r v s) := by simp [State.keepsResults, regWrite]

theorem regWrite_wf (hm : s.mem.wf s.params.addrW = true) (hb : s.blk.Wf s.params) :
    (regWrite r v s).mem.wf s.params.addrW = true ∧ (regWrite r v s).blk.Wf s.params := by
  obtain ⟨h1, h2⟩ := tick_wf s hm hb
  refine ⟨h1, ?_⟩
  rw [regWrite_blk]
  exact blockWrite_wf r v h2

/-- A `CONTROL` write stores the word but for the locked fields (`20_memory.md` R46) and no other register word. -/
theorem regWrite_control_words :
    (regWrite .control v s).blk.control = lockedControl s.params.layout s.blk.control v ∧
    s.blk.sameWordsButControl (regWrite .control v s).blk := by
  obtain ⟨h1, ⟨w1, w2, w3, w4⟩, -⟩ := writeControl_keeps s.params (tick s).blk v
  rw [regWrite_blk]
  simp only [blockWrite, Block.sameWordsButControl]
  exact ⟨by rw [h1, tick_control], by rw [w1, tick_frameSize], by rw [w2, tick_clkGen], by rw [w3, tick_ssel],
    by rw [w4, tick_framesup]⟩

end

/-! ### Read-modify-write -/

section
variable (r : Reg) (f : Word → Word) (s : State)

@[simp] theorem rmw_params : (rmw r f s).params = s.params := by simp [rmw]
@[simp] theorem rmw_eng : (rmw r f s).eng = s.eng := by simp [rmw]
@[simp] theorem rmw_ports :
    (rmw r f s).ports = s.ports ++ [.regRead r (readWord r s), .regWrite r (f (readWord r s))] := by
  simp [rmw]

theorem rmw_keepsOutside : s.keepsOutsideBlock 2 (rmw r f s) :=
  (afterRead_keepsOutside r s).trans (regWrite_keepsOutside r _ _)

theorem rmw_keepsResults : s.keepsResults (rmw r f s) :=
  (afterRead_keepsResults r s).trans (regWrite_keepsResults r _ _)

theorem rmw_wf (hm : s.mem.wf s.params.addrW = true) (hb : s.blk.Wf s.params) :
    (rmw r f s).mem.wf s.params.addrW = true ∧ (rmw r f s).blk.Wf s.params := by
  obtain ⟨h1, h2⟩ := afterRead_wf r s hm hb
  have h := regWrite_wf r (f (readWord r s)) (afterRead r s) (by simpa using h1) (by simpa using h2)
  simpa [rmw] using h

/-- A read-modify-write of `CONTROL` stores the modified word but for the locked fields, and no other register word. -/
theorem rmw_control_words :
    (rmw .control f s).blk.control = lockedControl s.params.layout s.blk.control (f s.blk.control) ∧
    s.blk.sameWordsButControl (rmw .control f s).blk := by
  have h := regWrite_control_words (f (readWord .control s)) (afterRead .control s)
  simpa [rmw, Block.sameWordsButControl] using h

end

/-! ### With no other agent acting -/

/-- With no other agent acting, a read other than of `RX_DATA` leaves memory, queues and ports of the environment. -/
theorem afterRead_keepsQuietly {r : Reg} (s : State) (hr : r ≠ .rxData) : s.keepsQuietly (afterRead r s) := by
  intro hq
  rw [afterRead_of_quiet r s hq hr]
  simp [hq]

/-- With no other agent acting, a write other than to `TX_DATA` leaves memory, queues and ports of the environment. -/
theorem regWrite_keepsQuietly {r : Reg} (v : Word) (s : State) (hr : r ≠ .txData) : s.keepsQuietly (regWrite r v s) := by
  intro hq
  obtain ⟨h1, h2, h3, h4⟩ := (regWrite_keepsOutside r v s).quiet hq
  obtain ⟨k1, k2, k3, k4⟩ := blockWrite_queues s.params s.blk v hr
  rw [regWrite_blk, tick_of_quiet hq, h1]
  exact ⟨fun _ => rfl, h2, h3, h4, k1, k2, k3, k4⟩

theorem State.keepsQuietly.trans {s t u : State} (h : s.keepsQuietly t) (k : t.keepsQuietly u) : s.keepsQuietly u := by
  intro hq
  obtain ⟨h1, h2, h3, h4, h5, h6, h7, h8⟩ := h hq
  obtain ⟨k1, k2, k3, k4, k5, k6, k7, k8⟩ := k h4
  exact ⟨fun a => (k1 a).trans (h1 a), k2.trans h2, k3.trans h3, k4, k5.trans h5, k6.trans h6, k7.trans h7, k8.trans h8⟩

theorem rmw_keepsQuietly {r : Reg} (f : Word → Word) (s : State) (h1 : r ≠ .rxData) (h2 : r ≠ .txData) :
    s.keepsQuietly (rmw r f s) :=
  (afterRead_keepsQuietly s h1).trans (regWrite_keepsQuietly _ _ h2)

/-! ### Buffer port -/

/-- A buffer read that answers gives the byte the host has lent at that address at that moment (`20_memory.md` R53). -/
theorem bufRead_eq_next {a : Nat} {s : State} {r : Byte × State} (h : bufRead a s = .next r) :
    (tick s).mem.read a = some r.1 ∧ r.2 = (tick s).record (.bufRead a r.1) := by
  unfold bufRead at h
  simp only at h
  split at h
  · rename_i b hb
    cases h
    exact ⟨hb, rfl⟩
  · cases h

/-- A buffer write that answers stored the byte at an address the host has lent. -/
theorem bufWrite_eq_next {a : Nat} {b : Byte} {s t : State} (h : bufWrite a b s = .next t) :
    ((tick s).mem.read a).isSome ∧
    t = { tick s with mem := (tick s).mem.write a b }.record (.bufWrite a b) := by
  unfold bufWrite at h
  simp only at h
  split at h
  · rename_i c hc
    cases h
    exact ⟨by simp [hc], rfl⟩
  · cases h

/-! ### Clock service -/

section
variable (s : State)

@[simp] theorem afterClockRate_params : (afterClockRate s).params = s.params := by simp [afterClockRate]
@[simp] theorem afterClockRate_eng : (afterClockRate s).eng = s.eng := by simp [afterClockRate]
@[simp] theorem afterClockRate_ports :
    (afterClockRate s).ports = s.ports ++ [.clockRate (clockAnswer s)] := by simp [afterClockRate]

theorem afterClockRate_keepsOutside : s.keepsOutsideBlock 1 (afterClockRate s) := by
  simp [State.keepsOutsideBlock, afterClockRate, ticks]

theorem afterClockRate_keepsResults : s.keepsResults (afterClockRate s) := by simp [State.keepsResults, afterClockRate]

theorem afterClockRate_sameWords : s.blk.sameWords (afterClockRate s).blk := tick_sameWords s

@[simp] theorem afterClockRate_control : (afterClockRate s).blk.control = s.blk.control := tick_control s

theorem afterClockRate_wf (hm : s.mem.wf s.params.addrW = true) (hb : s.blk.Wf s.params) :
    (afterClockRate s).mem.wf s.params.addrW = true ∧ (afterClockRate s).blk.Wf s.params := tick_wf s hm hb

@[simp] theorem clockRelease_params : (clockRelease s).params = s.params := by simp [clockRelease]
@[simp] theorem clockRelease_eng : (clockRelease s).eng = s.eng := by simp [clockRelease]
@[simp] theorem clockRelease_ports : (clockRelease s).ports = s.ports ++ [.clockRelease] := by simp [clockRelease]
@[simp] theorem clockRelease_control : (clockRelease s).blk.control = s.blk.control := tick_control s

theorem clockRelease_keepsResults : s.keepsResults (clockRelease s) := by simp [State.keepsResults, clockRelease]

theorem clockRelease_sameWords : s.blk.sameWords (clockRelease s).blk := tick_sameWords s

theorem clockRelease_wf (hm : s.mem.wf s.params.addrW = true) (hb : s.blk.Wf s.params) :
    (clockRelease s).mem.wf s.params.addrW = true ∧ (clockRelease s).blk.Wf s.params := tick_wf s hm hb

end

end Sys2Proof.Machine
end

