-- ==== Sys2Proof/Laws/Configuration.lean ====
section
/-! SUPPORT. The configuration operations: what each can do, once. -/

namespace Sys2Proof.Machine

/-- What every configuration operation of `n` accesses leaves alone: the engine's record and everything outside the block,
the result ports, the form of memory and block, and, with no other agent acting, the queues. -/
structure ConfigStep (s : State) (n : Nat) (t : State) : Prop where
  outside : s.keepsOutsideBlock n t
  results : s.keepsResults t
  quiet : s.keepsQuietly t
  wf : s.mem.wf s.params.addrW = true → s.blk.Wf s.params → t.mem.wf s.params.addrW = true ∧ t.blk.Wf s.params

theorem ConfigStep.params {s t : State} {n : Nat} (h : ConfigStep s n t) : t.params = s.params := h.outside.1
theorem ConfigStep.eng {s t : State} {n : Nat} (h : ConfigStep s n t) : t.eng = s.eng := h.outside.2.1

theorem ConfigStep.trans {s t u : State} {n m : Nat} (h : ConfigStep s n t) (k : ConfigStep t m u) :
    ConfigStep s (n + m) u where
  outside := h.outside.trans k.outside
  results := h.results.trans k.results
  quiet := h.quiet.trans k.quiet
  wf := fun hm hb => by
    obtain ⟨h1, h2⟩ := h.wf hm hb
    have := k.wf (by rw [h.params]; exact h1) (by rw [h.params]; exact h2)
    rw [h.params] at this
    exact this

theorem regWrite_configStep {r : Reg} (v : Word) (s : State) (hr : r ≠ .txData) : ConfigStep s 1 (regWrite r v s) :=
  ⟨regWrite_keepsOutside r v s, regWrite_keepsResults r v s, regWrite_keepsQuietly v s hr, regWrite_wf r v s⟩

theorem rmw_configStep {r : Reg} (f : Word → Word) (s : State) (h1 : r ≠ .rxData) (h2 : r ≠ .txData) :
    ConfigStep s 2 (rmw r f s) :=
  ⟨rmw_keepsOutside r f s, rmw_keepsResults r f s, rmw_keepsQuietly f s h1 h2, rmw_wf r f s⟩

theorem disableCtl_configStep (s : State) : ConfigStep s 2 (disableCtl s) := rmw_configStep _ s (by decide) (by decide)
theorem enableCtl_configStep (s : State) : ConfigStep s 2 (enableCtl s) := rmw_configStep _ s (by decide) (by decide)

theorem setFrameSize_configStep (bits : Byte) (s : State) : ConfigStep s 5 (setFrameSize bits s) :=
  ((disableCtl_configStep s).trans (regWrite_configStep _ _ (by decide))).trans (enableCtl_configStep _)

theorem setSpiMode_configStep (mode : BitVec 2) (s : State) : ConfigStep s 6 (setSpiMode mode s) :=
  ((disableCtl_configStep s).trans (rmw_configStep _ _ (by decide) (by decide))).trans (enableCtl_configStep _)

theorem setTransferLen_configStep (len : Word) (s : State) : ConfigStep s 7 (setTransferLen len s) :=
  (((disableCtl_configStep s).trans (rmw_configStep _ _ (by decide) (by decide))).trans
    (regWrite_configStep _ _ (by decide))).trans (enableCtl_configStep _)

theorem enableInterrupts_configStep (s : State) : ConfigStep s 6 (enableInterrupts s) :=
  ((disableCtl_configStep s).trans (rmw_configStep _ _ (by decide) (by decide))).trans (enableCtl_configStep _)

theorem disableInterrupts_configStep (s : State) : ConfigStep s 6 (disableInterrupts s) :=
  ((disableCtl_configStep s).trans (rmw_configStep _ _ (by decide) (by decide))).trans (enableCtl_configStep _)

theorem ackBit_configStep (n : Nat) (s : State) : ConfigStep s 1 (ackBit n s) := regWrite_configStep _ s (by decide)

section
variable (s : State)

@[simp] theorem disableCtl_params : (disableCtl s).params = s.params := (disableCtl_configStep s).params
@[simp] theorem disableCtl_eng : (disableCtl s).eng = s.eng := (disableCtl_configStep s).eng
@[simp] theorem enableCtl_params : (enableCtl s).params = s.params := (enableCtl_configStep s).params
@[simp] theorem enableCtl_eng : (enableCtl s).eng = s.eng := (enableCtl_configStep s).eng
@[simp] theorem setFrameSize_params (bits : Byte) : (setFrameSize bits s).params = s.params :=
  (setFrameSize_configStep bits s).params
@[simp] theorem setFrameSize_eng (bits : Byte) : (setFrameSize bits s).eng = s.eng := (setFrameSize_configStep bits s).eng
@[simp] theorem setSpiMode_params (mode : BitVec 2) : (setSpiMode mode s).params = s.params :=
  (setSpiMode_configStep mode s).params
@[simp] theorem setSpiMode_eng (mode : BitVec 2) : (setSpiMode mode s).eng = s.eng := (setSpiMode_configStep mode s).eng
@[simp] theorem setTransferLen_params (len : Word) : (setTransferLen len s).params = s.params :=
  (setTransferLen_configStep len s).params
@[simp] theorem setTransferLen_eng (len : Word) : (setTransferLen len s).eng = s.eng := (setTransferLen_configStep len s).eng
@[simp] theorem enableInterrupts_params : (enableInterrupts s).params = s.params := (enableInterrupts_configStep s).params
@[simp] theorem enableInterrupts_eng : (enableInterrupts s).eng = s.eng := (enableInterrupts_configStep s).eng
@[simp] theorem disableInterrupts_params : (disableInterrupts s).params = s.params :=
  (disableInterrupts_configStep s).params
@[simp] theorem disableInterrupts_eng : (disableInterrupts s).eng = s.eng := (disableInterrupts_configStep s).eng
@[simp] theorem ackBit_params (n : Nat) : (ackBit n s).params = s.params := (ackBit_configStep n s).params
@[simp] theorem ackBit_eng (n : Nat) : (ackBit n s).eng = s.eng := (ackBit_configStep n s).eng

end

/-! ### The controller's words -/

section
variable {s : State} (hL : s.params.layout.legal = true)
include hL

/-- `DISABLE` clears `ENABLE` and writes every other bit back as read (`41_config.md` R110). -/
theorem disableCtl_control : (disableCtl s).blk.control = s.params.layout.set .enable s.blk.control 0#32 := by
  rw [disableCtl, (rmw_control_words _ s).1]
  exact lockedControl_carried (Layout.get_set_ne hL (by decide) _ _) (Layout.get_set_ne hL (by decide) _ _)
    (Layout.get_set_ne hL (by decide) _ _)

/-- `ENABLE` sets `ENABLE` and writes every other bit back as read (`41_config.md` R111). -/
theorem enableCtl_control : (enableCtl s).blk.control = s.params.layout.set .enable s.blk.control 1#32 := by
  rw [enableCtl, (rmw_control_words _ s).1]
  exact lockedControl_carried (Layout.get_set_ne hL (by decide) _ _) (Layout.get_set_ne hL (by decide) _ _)
    (Layout.get_set_ne hL (by decide) _ _)

theorem disableCtl_disabled : s.params.layout.test .enable (disableCtl s).blk.control = false := by
  rw [disableCtl_control hL, Layout.test_set_same hL]; decide

theorem enableCtl_enabled : s.params.layout.test .enable (enableCtl s).blk.control = true := by
  rw [enableCtl_control hL, Layout.test_set_same hL]; decide

end

/-- With the controller disabled a read-modify-write of `CONTROL` stores the modified word whole. -/
theorem rmw_control_of_disabled {s : State} (f : Word → Word) (h : s.params.layout.test .enable s.blk.control = false) :
    (rmw .control f s).blk.control = f s.blk.control := by
  rw [(rmw_control_words f s).1, lockedControl_disabled _ h]

theorem disableCtl_words (s : State) : s.blk.sameWordsButControl (disableCtl s).blk := (rmw_control_words _ s).2
theorem enableCtl_words (s : State) : s.blk.sameWordsButControl (enableCtl s).blk := (rmw_control_words _ s).2

theorem disableCtl_ports (s : State) :
    (disableCtl s).ports = s.ports ++
      [.regRead .control s.blk.control, .regWrite .control (s.params.layout.set .enable s.blk.control 0#32)] := by
  simp [disableCtl]

theorem enableCtl_ports (s : State) :
    (enableCtl s).ports = s.ports ++
      [.regRead .control s.blk.control, .regWrite .control (s.params.layout.set .enable s.blk.control 1#32)] := by
  simp [enableCtl]

/-- `ENABLE` from the disabled state restarts the frame counter (`46_spi_core_agent.md` R177). -/
theorem enableCtl_framesSent {s : State} (hL : s.params.layout.legal = true)
    (h : s.params.layout.test .enable s.blk.control = false) : (enableCtl s).blk.framesSent = 0 := by
  rw [enableCtl, rmw, regWrite_blk]
  refine writeControl_rising_framesSent _ _ _ ?_ ?_
  · simpa using h
  · simp only [afterRead_params, readWord_control]
    rw [Layout.test_set_same hL]; decide

/-- Before an access with no other agent acting the block is as it was. -/
theorem regWrite_blk_of_quiet (r : Reg) (v : Word) {s : State} (hq : s.env = []) :
    (regWrite r v s).blk = blockWrite s.params s.blk r v := by rw [regWrite_blk, tick_of_quiet hq]

theorem rmw_control_blk_of_quiet (f : Word → Word) {s : State} (hq : s.env = []) :
    (rmw .control f s).blk = writeControl s.params s.blk (f s.blk.control) := by
  have h1 := afterRead_of_quiet .control s hq (by decide)
  rw [rmw, regWrite_blk_of_quiet _ _ (by rw [h1]; exact hq), h1, readWord_control]
  rfl

/-- `ENABLE` from the disabled state: the latches, with no other agent acting (R171). -/
theorem enableCtl_ris {s : State} (hL : s.params.layout.legal = true)
    (h : s.params.layout.test .enable s.blk.control = false) (hq : s.env = []) :
    (enableCtl s).blk.ris = (enableCtl s).blk.risAtEnable s.params s.blk.ris := by
  have hc := enableCtl_control hL
  have hw := (enableCtl_words s).2.2.2
  have ht : s.params.layout.test .enable (s.params.layout.set .enable s.blk.control 1#32) = true := by
    rw [Layout.test_set_same hL]; decide
  have hr : frameCount s.params.layout (enableCtl s).blk (enableCtl s).blk.control =
      frameCount s.params.layout s.blk (s.params.layout.set .enable s.blk.control 1#32) := by
    simp only [frameCount, hw, hc]
  rw [Block.risAtEnable, hr]
  rw [enableCtl, rmw_control_blk_of_quiet _ hq]
  have hl := lockedControl_disabled (L := s.params.layout) (s.params.layout.set .enable s.blk.control 1#32) h
  simp only [writeControl, hl, Block.enabled, h, ht]
  simp only [Bool.not_false, Bool.true_and, if_true, frameCount, Bool.and_eq_true]
  split
  · rename_i h1
    exact (if_pos ⟨h1.1, of_decide_eq_true h1.2⟩).symm
  · rename_i h1
    exact (if_neg fun k => h1 ⟨k.1, decide_eq_true k.2⟩).symm

theorem disableCtl_ris {s : State} (hL : s.params.layout.legal = true) (hq : s.env = []) :
    (disableCtl s).blk.ris = s.blk.ris ∧ (disableCtl s).blk.framesSent = s.blk.framesSent := by
  have ht : s.params.layout.test .enable (s.params.layout.set .enable s.blk.control 0#32) = false := by
    rw [Layout.test_set_same hL]; decide
  have hl : lockedControl s.params.layout s.blk.control (s.params.layout.set .enable s.blk.control 0#32) =
      s.params.layout.set .enable s.blk.control 0#32 :=
    lockedControl_carried (Layout.get_set_ne hL (by decide) _ _) (Layout.get_set_ne hL (by decide) _ _)
      (Layout.get_set_ne hL (by decide) _ _)
  rw [disableCtl, rmw_control_blk_of_quiet _ hq, writeControl_of_not_rising _ _ _ (Or.inr (by rw [hl]; exact ht))]
  exact ⟨rfl, rfl⟩

/-! ### The disable/write/enable protocol (`41_config.md` R112) -/

/-- A stage between the disable and the enable: the controller stays disabled, and with no other agent acting no latch
moves. -/
structure MidStep (s : State) (n : Nat) (t : State) : Prop where
  step : ConfigStep s n t
  disabled : s.params.layout.test .enable t.blk.control = false
  ris : s.env = [] → t.blk.ris = s.blk.ris

theorem MidStep.trans {s t u : State} {n m : Nat} (h : MidStep s n t) (k : MidStep t m u) : MidStep s (n + m) u where
  step := h.step.trans k.step
  disabled := by rw [← h.step.params]; exact k.disabled
  ris := fun hq => (k.ris (h.step.outside.quiet hq).2.2.2).trans (h.ris hq)

theorem disableCtl_midStep {s : State} (hL : s.params.layout.legal = true) : MidStep s 2 (disableCtl s) :=
  ⟨disableCtl_configStep s, disableCtl_disabled hL, fun hq => (disableCtl_ris hL hq).1⟩

/-- A read-modify-write of `CONTROL` that leaves `ENABLE` clear. -/
theorem rmw_midStep {s : State} (f : Word → Word) (h : s.params.layout.test .enable s.blk.control = false)
    (hf : s.params.layout.test .enable (f s.blk.control) = false) : MidStep s 2 (rmw .control f s) where
  step := rmw_configStep f s (by decide) (by decide)
  disabled := by rw [rmw_control_of_disabled f h]; exact hf
  ris := fun hq => by
    rw [rmw_control_blk_of_quiet f hq, writeControl_of_not_rising _ _ _
      (Or.inr (by rw [lockedControl_disabled _ h]; exact hf))]

/-- A whole-word write of another register. -/
theorem regWrite_midStep {s : State} {r : Reg} (v : Word) (h : s.params.layout.test .enable s.blk.control = false)
    (hr : r = .frameSize ∨ r = .clkGen ∨ r = .framesup) : MidStep s 1 (regWrite r v s) where
  step := regWrite_configStep v s (by rcases hr with rfl | rfl | rfl <;> decide)
  disabled := by
    rw [regWrite_blk, ← h, ← tick_control s]
    rcases hr with rfl | rfl | rfl
    · simp only [blockWrite]; split <;> rfl
    · rfl
    · simp only [blockWrite]; split <;> rfl
  ris := fun hq => by
    rw [regWrite_blk_of_quiet _ _ hq]
    rcases hr with rfl | rfl | rfl
    · simp only [blockWrite]; split <;> rfl
    · rfl
    · simp only [blockWrite]; split <;> rfl

/-- The protocol whole: what a stage followed by the enable leaves alone. -/
theorem MidStep.enable {s t : State} {n : Nat} (hL : s.params.layout.legal = true) (h : MidStep s n t) :
    s.keepsAroundProtocol (n + 2) (enableCtl t) := by
  have hp := h.step.params
  have hL' : t.params.layout.legal = true := by rw [hp]; exact hL
  have hd : t.params.layout.test .enable t.blk.control = false := by rw [hp]; exact h.disabled
  have he := h.step.trans (enableCtl_configStep t)
  refine ⟨he.outside, he.results.1, he.results.2.1, he.quiet, enableCtl_framesSent hL' hd, fun hq => ?_⟩
  have := enableCtl_ris hL' hd (h.step.outside.quiet hq).2.2.2
  rw [h.ris hq, hp] at this
  exact this

section
variable {s : State} (hL : s.params.layout.legal = true)
include hL

theorem disableCtl_clear : (disableCtl s).params.layout.test .enable (disableCtl s).blk.control = false := by
  rw [disableCtl_params]; exact disableCtl_disabled hL

theorem setFrameSize_around (bits : Byte) : s.keepsAroundProtocol 5 (setFrameSize bits s) :=
  ((disableCtl_midStep hL).trans (regWrite_midStep (zext32 bits) (disableCtl_clear hL) (.inl rfl))).enable hL

theorem mode_keeps_enable (c : Word) (mode : BitVec 2) :
    s.params.layout.test .enable (withMode s.params.layout c mode) = s.params.layout.test .enable c := by
  rw [withMode, Layout.test_set_ne hL (by decide), Layout.test_set_ne hL (by decide)]

theorem setSpiMode_mid (mode : BitVec 2) :
    MidStep s 4 (rmw .control (fun c => withMode s.params.layout c mode) (disableCtl s)) :=
  (disableCtl_midStep hL).trans (rmw_midStep _ (disableCtl_clear hL) (by
    have := disableCtl_disabled hL
    rw [← mode_keeps_enable hL _ mode] at this
    simpa using this))

theorem setSpiMode_around (mode : BitVec 2) : s.keepsAroundProtocol 6 (setSpiMode mode s) :=
  (setSpiMode_mid hL mode).enable hL

theorem setTransferLen_mid1 (len : Word) :
    MidStep s 4 (rmw .control (fun c => s.params.layout.set .framecnt c (lenLow len)) (disableCtl s)) :=
  (disableCtl_midStep hL).trans (rmw_midStep _ (disableCtl_clear hL) (by
    rw [disableCtl_params, Layout.test_set_ne hL (by decide)]; exact disableCtl_disabled hL))

theorem setTransferLen_around (len : Word) : s.keepsAroundProtocol 7 (setTransferLen len s) := by
  have h := setTransferLen_mid1 hL len
  have := (h.trans (regWrite_midStep (r := .framesup) (lenHigh len) (by rw [h.step.params]; exact h.disabled)
    (.inr (.inr rfl)))).enable hL
  simpa [setTransferLen] using this

theorem intenMask_enable : s.params.layout.intenMask.getLsbD (s.params.layout.pos .enable) = false := by
  have h1 := s.params.layout.fields_apart hL (f := .enable) (g := .intenRxrdy) (by decide)
  have h2 := s.params.layout.fields_apart hL (f := .enable) (g := .intenTxdone) (by decide)
  have h3 := s.params.layout.fields_apart hL (f := .enable) (g := .intenRxovf) (by decide)
  have h4 := s.params.layout.fields_apart hL (f := .enable) (g := .intenTxunder) (by decide)
  simp only [CtlField.width] at h1 h2 h3 h4
  simp only [Layout.intenMask, BitVec.getLsbD_or, getLsbD_bitMask]
  simp only [Bool.or_eq_false_iff, Bool.and_eq_false_iff, decide_eq_false_iff_not]
  exact ⟨⟨⟨.inr (by omega), .inr (by omega)⟩, .inr (by omega)⟩, .inr (by omega)⟩

theorem enableInterrupts_around : s.keepsAroundProtocol 6 (enableInterrupts s) :=
  ((disableCtl_midStep hL).trans (rmw_midStep _ (disableCtl_clear hL) (by
    have h1 := disableCtl_disabled hL
    have h2 := intenMask_enable hL
    simp only [Layout.test] at h1 ⊢
    simp [h1, h2]))).enable hL

theorem disableInterrupts_around : s.keepsAroundProtocol 6 (disableInterrupts s) :=
  ((disableCtl_midStep hL).trans (rmw_midStep _ (disableCtl_clear hL) (by
    have h1 := disableCtl_disabled hL
    simp only [Layout.test] at h1 ⊢
    simp [h1]))).enable hL

/-! ### The words each operation leaves, and its accesses -/

theorem setFrameSize_words (bits : Byte) :
    (setFrameSize bits s).blk.control = s.params.layout.set .enable s.blk.control 1#32 ∧
    (setFrameSize bits s).blk.frameSize = zext32 bits &&& s.params.layout.sizeMask ∧
    (setFrameSize bits s).blk.clkGen = s.blk.clkGen ∧ (setFrameSize bits s).blk.ssel = s.blk.ssel ∧
    (setFrameSize bits s).blk.framesup = s.blk.framesup := by
  have hd := disableCtl_words s
  have hw : (regWrite .frameSize (zext32 bits) (disableCtl s)).blk =
      { (tick (disableCtl s)).blk with frameSize := zext32 bits &&& s.params.layout.sizeMask } := by
    have := disableCtl_disabled hL
    rw [← tick_control] at this
    rw [regWrite_blk]
    rw [blockWrite_frameSize_disabled _ (by rw [disableCtl_params]; exact this), disableCtl_params]
  have hp : (regWrite .frameSize (zext32 bits) (disableCtl s)).params = s.params := by simp
  have he := enableCtl_words (regWrite .frameSize (zext32 bits) (disableCtl s))
  have hc := enableCtl_control (s := regWrite .frameSize (zext32 bits) (disableCtl s)) (by rw [hp]; exact hL)
  obtain ⟨e1, e2, e3, e4⟩ := he
  obtain ⟨d1, d2, d3, d4⟩ := hd
  simp only [setFrameSize]
  rw [hc, e1, e2, e3, e4, hw, hp]
  simp only [tick_control, tick_clkGen, tick_ssel, tick_framesup, d2, d3, d4, and_self, and_true]
  rw [disableCtl_control hL, Layout.set_set_same]

theorem setFrameSize_ports (bits : Byte) :
    (setFrameSize bits s).ports = s.ports ++
      [.regRead .control s.blk.control, .regWrite .control (s.params.layout.set .enable s.blk.control 0#32),
       .regWrite .frameSize (zext32 bits),
       .regRead .control (s.params.layout.set .enable s.blk.control 0#32),
       .regWrite .control (s.params.layout.set .enable s.blk.control 1#32)] := by
  have hw : (regWrite .frameSize (zext32 bits) (disableCtl s)).blk.control =
      s.params.layout.set .enable s.blk.control 0#32 := by
    rw [← disableCtl_control hL, regWrite_blk]
    simp only [blockWrite]; split <;> simp
  simp only [setFrameSize, enableCtl_ports, hw, regWrite_ports, disableCtl_ports, regWrite_params, disableCtl_params,
    Layout.set_set_same, List.append_assoc, List.cons_append, List.nil_append]

theorem setSpiMode_words (mode : BitVec 2) :
    (setSpiMode mode s).blk.control =
      s.params.layout.set .enable (withMode s.params.layout (s.params.layout.set .enable s.blk.control 0#32) mode) 1#32 ∧
    s.blk.sameWordsButControl (setSpiMode mode s).blk := by
  have hd := disableCtl_words s
  have hm := (rmw_control_words (fun c => withMode s.params.layout c mode) (disableCtl s)).2
  have hmc := rmw_control_of_disabled (fun c => withMode s.params.layout c mode) (disableCtl_clear hL)
  have he := enableCtl_words (rmw .control (fun c => withMode s.params.layout c mode) (disableCtl s))
  have hc := enableCtl_control (s := rmw .control (fun c => withMode s.params.layout c mode) (disableCtl s))
    (by simpa using hL)
  obtain ⟨e1, e2, e3, e4⟩ := he
  obtain ⟨m1, m2, m3, m4⟩ := hm
  obtain ⟨d1, d2, d3, d4⟩ := hd
  refine ⟨?_, ?_⟩
  · simp only [setSpiMode]
    rw [hc, hmc, disableCtl_control hL]; simp
  · exact ⟨e1.trans (m1.trans d1), e2.trans (m2.trans d2), e3.trans (m3.trans d3), e4.trans (m4.trans d4)⟩

theorem setSpiMode_ports (mode : BitVec 2) :
    (setSpiMode mode s).ports = s.ports ++
      [.regRead .control s.blk.control, .regWrite .control (s.params.layout.set .enable s.blk.control 0#32),
       .regRead .control (s.params.layout.set .enable s.blk.control 0#32),
       .regWrite .control (withMode s.params.layout (s.params.layout.set .enable s.blk.control 0#32) mode),
       .regRead .control (withMode s.params.layout (s.params.layout.set .enable s.blk.control 0#32) mode),
       .regWrite .control (s.params.layout.set .enable
        (withMode s.params.layout (s.params.layout.set .enable s.blk.control 0#32) mode) 1#32)] := by
  have hmc := rmw_control_of_disabled (fun c => withMode s.params.layout c mode) (disableCtl_clear hL)
  simp only [setSpiMode, enableCtl_ports, hmc, rmw_ports, readWord_control, disableCtl_ports, rmw_params, disableCtl_params,
    disableCtl_control hL, List.append_assoc, List.cons_append, List.nil_append]

theorem setTransferLen_words (len : Word) :
    (setTransferLen len s).blk.control =
      s.params.layout.set .enable (s.params.layout.set .framecnt (s.params.layout.set .enable s.blk.control 0#32)
        (lenLow len)) 1#32 ∧
    (setTransferLen len s).blk.framesup = lenHigh len &&& 0xFFFF0000#32 ∧
    (setTransferLen len s).blk.frameSize = s.blk.frameSize ∧ (setTransferLen len s).blk.clkGen = s.blk.clkGen ∧
    (setTransferLen len s).blk.ssel = s.blk.ssel := by
  have hd := disableCtl_words s
  have hm := (rmw_control_words (fun c => s.params.layout.set .framecnt c (lenLow len)) (disableCtl s)).2
  have hmc := rmw_control_of_disabled (fun c => s.params.layout.set .framecnt c (lenLow len)) (disableCtl_clear hL)
  have hmid := (setTransferLen_mid1 hL len).disabled
  generalize hu : rmw .control (fun c => s.params.layout.set .framecnt c (lenLow len)) (disableCtl s) = u at hm hmc hmid
  have hup : u.params = s.params := by rw [← hu]; simp
  have hw : (regWrite .framesup (lenHigh len) u).blk = { (tick u).blk with framesup := lenHigh len &&& 0xFFFF0000#32 } := by
    rw [← tick_control] at hmid
    rw [regWrite_blk, hup]
    exact blockWrite_framesup_disabled _ hmid
  have hp : (regWrite .framesup (lenHigh len) u).params = s.params := by simp [hup]
  have he := enableCtl_words (regWrite .framesup (lenHigh len) u)
  have hc := enableCtl_control (s := regWrite .framesup (lenHigh len) u) (by rw [hp]; exact hL)
  obtain ⟨e1, e2, e3, e4⟩ := he
  obtain ⟨m1, m2, m3, m4⟩ := hm
  obtain ⟨d1, d2, d3, d4⟩ := hd
  simp only [setTransferLen, disableCtl_params, hu]
  rw [hc, e1, e2, e3, e4, hw, hp]
  simp only [tick_control, tick_clkGen, tick_ssel, tick_frameSize]
  rw [hmc, disableCtl_control hL]
  exact ⟨rfl, trivial, m1.trans d1, m2.trans d2, m3.trans d3⟩

theorem setTransferLen_ports (len : Word) :
    (setTransferLen len s).ports = s.ports ++ xferLenPorts s.params.layout s.blk.control len := by
  have hmc := rmw_control_of_disabled (fun c => s.params.layout.set .framecnt c (lenLow len)) (disableCtl_clear hL)
  have hw : ∀ u : State, (regWrite .framesup (lenHigh len) u).blk.control = u.blk.control := by
    intro u
    rw [regWrite_blk, ← tick_control u]
    simp only [blockWrite]; split <;> rfl
  simp only [setTransferLen, enableCtl_ports, hw, hmc, regWrite_ports, rmw_ports, readWord_control, disableCtl_ports,
    regWrite_params, rmw_params, disableCtl_params, disableCtl_control hL, List.append_assoc, List.cons_append,
    List.nil_append, xferLenPorts]
  rfl

theorem enableInterrupts_words :
    (enableInterrupts s).blk.control =
      s.params.layout.set .enable (s.params.layout.set .enable s.blk.control 0#32 ||| s.params.layout.intenMask) 1#32 ∧
    s.blk.sameWordsButControl (enableInterrupts s).blk := by
  have hd := disableCtl_words s
  have hm := (rmw_control_words (fun c => c ||| (disableCtl s).params.layout.intenMask) (disableCtl s)).2
  have hmc := rmw_control_of_disabled (fun c => c ||| (disableCtl s).params.layout.intenMask) (disableCtl_clear hL)
  have he := enableCtl_words (rmw .control (fun c => c ||| (disableCtl s).params.layout.intenMask) (disableCtl s))
  have hc := enableCtl_control (s := rmw .control (fun c => c ||| (disableCtl s).params.layout.intenMask) (disableCtl s))
    (by simpa using hL)
  simp only [disableCtl_params] at hm hmc he hc
  obtain ⟨e1, e2, e3, e4⟩ := he
  obtain ⟨m1, m2, m3, m4⟩ := hm
  obtain ⟨d1, d2, d3, d4⟩ := hd
  refine ⟨?_, ?_⟩
  · simp only [enableInterrupts]
    rw [hc, hmc, disableCtl_control hL]; simp
  · exact ⟨e1.trans (m1.trans d1), e2.trans (m2.trans d2), e3.trans (m3.trans d3), e4.trans (m4.trans d4)⟩

theorem enableInterrupts_ports :
    (enableInterrupts s).ports = s.ports ++
      [.regRead .control s.blk.control, .regWrite .control (s.params.layout.set .enable s.blk.control 0#32),
       .regRead .control (s.params.layout.set .enable s.blk.control 0#32),
       .regWrite .control (s.params.layout.set .enable s.blk.control 0#32 ||| s.params.layout.intenMask),
       .regRead .control (s.params.layout.set .enable s.blk.control 0#32 ||| s.params.layout.intenMask),
       .regWrite .control (s.params.layout.set .enable
        (s.params.layout.set .enable s.blk.control 0#32 ||| s.params.layout.intenMask) 1#32)] := by
  have hmc := rmw_control_of_disabled (fun c => c ||| s.params.layout.intenMask) (disableCtl_clear hL)
  simp only [enableInterrupts, enableCtl_ports, hmc, rmw_ports, readWord_control, disableCtl_ports, rmw_params,
    disableCtl_params, disableCtl_control hL, List.append_assoc, List.cons_append, List.nil_append]

theorem disableInterrupts_words :
    (disableInterrupts s).blk.control =
      s.params.layout.set .enable (s.params.layout.set .enable s.blk.control 0#32 &&& ~~~s.params.layout.intenMask) 1#32 ∧
    s.blk.sameWordsButControl (disableInterrupts s).blk := by
  have hd := disableCtl_words s
  have hm := (rmw_control_words (fun c => c &&& ~~~(disableCtl s).params.layout.intenMask) (disableCtl s)).2
  have hmc := rmw_control_of_disabled (fun c => c &&& ~~~(disableCtl s).params.layout.intenMask) (disableCtl_clear hL)
  have he := enableCtl_words (rmw .control (fun c => c &&& ~~~(disableCtl s).params.layout.intenMask) (disableCtl s))
  have hc := enableCtl_control (s := rmw .control (fun c => c &&& ~~~(disableCtl s).params.layout.intenMask) (disableCtl s))
    (by simpa using hL)
  simp only [disableCtl_params] at hm hmc he hc
  obtain ⟨e1, e2, e3, e4⟩ := he
  obtain ⟨m1, m2, m3, m4⟩ := hm
  obtain ⟨d1, d2, d3, d4⟩ := hd
  refine ⟨?_, ?_⟩
  · simp only [disableInterrupts]
    rw [hc, hmc, disableCtl_control hL]; simp
  · exact ⟨e1.trans (m1.trans d1), e2.trans (m2.trans d2), e3.trans (m3.trans d3), e4.trans (m4.trans d4)⟩

theorem disableInterrupts_ports :
    (disableInterrupts s).ports = s.ports ++
      [.regRead .control s.blk.control, .regWrite .control (s.params.layout.set .enable s.blk.control 0#32),
       .regRead .control (s.params.layout.set .enable s.blk.control 0#32),
       .regWrite .control (s.params.layout.set .enable s.blk.control 0#32 &&& ~~~s.params.layout.intenMask),
       .regRead .control (s.params.layout.set .enable s.blk.control 0#32 &&& ~~~s.params.layout.intenMask),
       .regWrite .control (s.params.layout.set .enable
        (s.params.layout.set .enable s.blk.control 0#32 &&& ~~~s.params.layout.intenMask) 1#32)] := by
  have hmc := rmw_control_of_disabled (fun c => c &&& ~~~s.params.layout.intenMask) (disableCtl_clear hL)
  simp only [disableInterrupts, enableCtl_ports, hmc, rmw_ports, readWord_control, disableCtl_ports, rmw_params,
    disableCtl_params, disableCtl_control hL, List.append_assoc, List.cons_append, List.nil_append]

end

end Sys2Proof.Machine
end

