-- ==== Sys2Proof/Laws/Fifo.lean ====
section
/-! SUPPORT. The bursts `FILL` and `DRAIN`: everything a loop that ends can have done, when a burst ends, and what it does with
no other agent acting. -/

namespace Sys2Proof.Machine

/-! ### The platform during an operation -/

theorem State.keepsPlatform.rfl' (s : State) : s.keepsPlatform 0 s := ⟨rfl, rfl, rfl, rfl, rfl⟩

theorem applyEnv_platform_congr {s t : State} (e : EnvEvent) (hc : s.clock = t.clock) (ho : s.otherIrq = t.otherIrq) :
    (applyEnv s e).clock = (applyEnv t e).clock ∧ (applyEnv s e).otherIrq = (applyEnv t e).otherIrq := by
  cases e <;> simp [applyEnv, hc, ho]

theorem foldl_applyEnv_platform_congr (es : List EnvEvent) {s t : State} (hc : s.clock = t.clock)
    (ho : s.otherIrq = t.otherIrq) :
    (es.foldl applyEnv s).clock = (es.foldl applyEnv t).clock ∧
    (es.foldl applyEnv s).otherIrq = (es.foldl applyEnv t).otherIrq := by
  induction es generalizing s t with
  | nil => exact ⟨hc, ho⟩
  | cons e es ih =>
    obtain ⟨h1, h2⟩ := applyEnv_platform_congr e hc ho
    exact ih h1 h2

theorem tick_platform_congr {s t : State} (hc : s.clock = t.clock) (ho : s.otherIrq = t.otherIrq) (he : s.env = t.env) :
    (tick s).clock = (tick t).clock ∧ (tick s).otherIrq = (tick t).otherIrq := by
  unfold tick
  rw [he]
  split
  · exact ⟨hc, ho⟩
  · exact foldl_applyEnv_platform_congr _ hc ho

theorem ticks_platform_congr (n : Nat) {s t : State} (hc : s.clock = t.clock) (ho : s.otherIrq = t.otherIrq)
    (he : s.env = t.env) :
    (ticks n s).clock = (ticks n t).clock ∧ (ticks n s).otherIrq = (ticks n t).otherIrq ∧
    (ticks n s).env = (ticks n t).env := by
  induction n generalizing s t with
  | zero => exact ⟨hc, ho, he⟩
  | succ n ih =>
    obtain ⟨h1, h2⟩ := tick_platform_congr hc ho he
    exact ih h1 h2 (by simp [he])

theorem State.keepsPlatform.trans {s t u : State} {n m : Nat} (h : s.keepsPlatform n t) (k : t.keepsPlatform m u) :
    s.keepsPlatform (n + m) u := by
  obtain ⟨h1, h2, h3, h4, h5⟩ := h
  obtain ⟨k1, k2, k3, k4, k5⟩ := k
  obtain ⟨c1, c2, c3⟩ := ticks_platform_congr m h3 h4 h5
  rw [← ticks_add] at c1 c2 c3
  exact ⟨k1.trans h1, k2.trans h2, k3.trans c1, k4.trans c2, k5.trans c3⟩

theorem State.keepsOutsideBlock.platform {s t : State} {n : Nat} (h : s.keepsOutsideBlock n t) : s.keepsPlatform n t :=
  ⟨h.1, h.2.2.1, h.2.2.2.1, h.2.2.2.2.2.1, h.2.2.2.2.2.2⟩

/-- What the other agents make of memory before `n` accesses is a matter of memory and schedule alone. -/
theorem applyEnv_mem_congr {s t : State} (e : EnvEvent) (hp : s.params = t.params) (hm : s.mem = t.mem) : (applyEnv s e).mem = (applyEnv t e).mem := by
  cases e <;> simp [applyEnv, hp, hm]

theorem foldl_applyEnv_mem_congr (es : List EnvEvent) {s t : State} (hp : s.params = t.params) (hm : s.mem = t.mem) :
    (es.foldl applyEnv s).mem = (es.foldl applyEnv t).mem := by
  induction es generalizing s t with
  | nil => exact hm
  | cons e es ih => exact ih (by simpa using hp) (applyEnv_mem_congr e hp hm)

theorem tick_mem_congr {s t : State} (hp : s.params = t.params) (hm : s.mem = t.mem) (he : s.env = t.env) : (tick s).mem = (tick t).mem := by
  unfold tick
  rw [he]
  split
  · exact hm
  · exact foldl_applyEnv_mem_congr _ hp hm

theorem ticks_mem_congr (n : Nat) {s t : State} (hp : s.params = t.params) (hm : s.mem = t.mem) (he : s.env = t.env) :
    (ticks n s).mem = (ticks n t).mem := by
  induction n generalizing s t with
  | zero => exact hm
  | succ n ih => exact ih (by simpa using hp) (tick_mem_congr hp hm he) (by simp [he])

/-- Memory through two stages that leave it to the other agents. -/
theorem mem_ticks_trans {s t u : State} {n m : Nat} (hk : s.keepsPlatform n t) (hm : t.mem = (ticks n s).mem)
    (hu : u.mem = (ticks m t).mem) : u.mem = (ticks (n + m) s).mem := by
  rw [hu, ticks_add]; exact ticks_mem_congr m (hk.1.trans (ticks_params n s).symm) hm hk.2.2.2.2

/-! ### The host's duties are kept along an operation -/

theorem applyEnv_reads_isSome {s : State} {e : EnvEvent} (he : e.frees = false) (x : Nat)
    (h : (s.mem.read x).isSome = true) : ((applyEnv s e).mem.read x).isSome = true := by
  cases e with
  | hostFree a => cases he
  | hostWrite a b =>
    simp only [applyEnv]
    by_cases hx : x = bufAddr s.params.addrW a
    · subst hx; rw [Memory.read_write_same]; rfl
    · rw [Memory.read_write_other _ _ hx]; exact h
  | shift r => exact h
  | fault k => exact h
  | latch k => exact h
  | openWord w => exact h
  | clockHz hz => exact h
  | otherIrq b => exact h

theorem foldl_applyEnv_reads_isSome (es : List EnvEvent) {s : State} (he : ∀ e ∈ es, e.frees = false) (x : Nat)
    (h : (s.mem.read x).isSome = true) : ((es.foldl applyEnv s).mem.read x).isSome = true := by
  induction es generalizing s with
  | nil => exact h
  | cons e es ih =>
    exact ih (fun e' h' => he e' (List.mem_cons_of_mem _ h')) (applyEnv_reads_isSome (he e (List.mem_cons_self ..)) x h)

theorem tick_reads_isSome {s : State} (hh : s.hostHolds) (x : Nat) (h : (s.mem.read x).isSome = true) :
    ((tick s).mem.read x).isSome = true := by
  unfold tick
  split
  · exact h
  · rename_i es rest he
    exact foldl_applyEnv_reads_isSome es (hh es (by rw [he]; exact List.mem_cons_self ..)) x h

theorem hostHolds_of_env {s t : State} (hh : s.hostHolds) (he : t.env = s.env.tail) : t.hostHolds :=
  fun es hes => hh es (List.mem_of_mem_tail (he ▸ hes))

theorem tick_hostHolds {s : State} (hh : s.hostHolds) : (tick s).hostHolds := hostHolds_of_env hh (tick_env s)

theorem ticks_hostHolds (n : Nat) {s : State} (hh : s.hostHolds) : (ticks n s).hostHolds := by
  induction n generalizing s with
  | zero => exact hh
  | succ n ih => exact ih (tick_hostHolds hh)

theorem Memory.lends.tick {s : State} {w : Nat} {buf : Option Nat} {n : Nat} (hh : s.hostHolds) (h : s.mem.lends w buf n) :
    (Machine.tick s).mem.lends w buf n := fun a ha k hk => tick_reads_isSome hh _ (h a ha k hk)

theorem Memory.lends.ticks (m : Nat) {s : State} {w : Nat} {buf : Option Nat} {n : Nat} (hh : s.hostHolds) (h : s.mem.lends w buf n) :
    (Machine.ticks m s).mem.lends w buf n := by
  induction m generalizing s with
  | zero => exact h
  | succ m ih => exact ih (tick_hostHolds hh) (h.tick hh)

theorem Memory.lends.next {m : Memory} {w a n : Nat} (h : m.lends w (some a) (n + 1)) :
    m.lends w (some (nextAddr w a)) n := by
  intro b hb k hk
  cases hb
  have := h a rfl (k + 1) (by omega)
  rwa [advance_succ] at this

theorem Memory.lends.mono {m : Memory} {w : Nat} {buf : Option Nat} {n k : Nat} (h : m.lends w buf n) (hk : k ≤ n) : m.lends w buf k :=
  fun a ha j hj => h a ha j (by omega)

theorem Memory.lends.write {m : Memory} {w : Nat} {buf : Option Nat} {n : Nat} (x : Nat) (b : Byte) (h : m.lends w buf n) :
    (m.write x b).lends w buf n := by
  intro a ha k hk
  by_cases hx : (advance w k a) = x
  · rw [hx, Memory.read_write_same]; rfl
  · rw [Memory.read_write_other _ _ hx]; exact h a ha k hk

theorem applyEnv_mem_of_still {s : State} {e : EnvEvent} (he : e.reachesMemory = false) : (applyEnv s e).mem = s.mem := by
  cases e <;> first | rfl | cases he

theorem foldl_applyEnv_mem_of_still (es : List EnvEvent) {s : State} (he : ∀ e ∈ es, e.reachesMemory = false) :
    (es.foldl applyEnv s).mem = s.mem := by
  induction es generalizing s with
  | nil => rfl
  | cons e es ih =>
    exact (ih fun e' h' => he e' (List.mem_cons_of_mem _ h')).trans
      (applyEnv_mem_of_still (he e (List.mem_cons_self ..)))

theorem tick_mem_of_still {s : State} (hh : s.hostStill) : (tick s).mem = s.mem := by
  unfold tick
  split
  · rfl
  · rename_i es rest he
    exact foldl_applyEnv_mem_of_still es (hh es (by rw [he]; exact List.mem_cons_self ..))

theorem hostStill_of_env {s t : State} (hh : s.hostStill) (he : t.env = s.env.tail) : t.hostStill :=
  fun es hes => hh es (List.mem_of_mem_tail (he ▸ hes))

theorem tick_hostStill {s : State} (hh : s.hostStill) : (tick s).hostStill := hostStill_of_env hh (tick_env s)

theorem ticks_hostStill (n : Nat) {s : State} (hh : s.hostStill) : (ticks n s).hostStill := by
  induction n generalizing s with
  | zero => exact hh
  | succ n ih => exact ih (tick_hostStill hh)

theorem ticks_mem_of_still (n : Nat) {s : State} (hh : s.hostStill) : (ticks n s).mem = s.mem := by
  induction n generalizing s with
  | zero => rfl
  | succ n ih => exact (ih (tick_hostStill hh)).trans (tick_mem_of_still hh)

theorem hostStill_of_quiet {s : State} (hq : s.env = []) : s.hostStill := fun es hes => by rw [hq] at hes; cases hes

theorem hostHolds_of_still {s : State} (h : s.hostStill) : s.hostHolds := by
  intro es hes e he
  have := h es hes e he
  cases e <;> first | rfl | cases this

theorem Engine.with_txBuf (e : Engine) {b : Option Nat} (h : b = e.txBuf) : e = { e with txBuf := b } := by
  subst h; rfl

theorem Engine.with_rxBuf (e : Engine) {b : Option Nat} (h : b = e.rxBuf) : e = { e with rxBuf := b } := by
  subst h; rfl

theorem map_advance_zero (w : Nat) (buf : Option Nat) : buf.map (advance w 0) = buf := by cases buf <;> rfl

/-! ### One iteration of `FILL` -/

/-- The byte of one iteration of `FILL` and the state after its `TX_DATA` write. -/
structure FillStep (s : State) (w : Word) (b : Byte) (v : State) : Prop where
  word : w = readWord .status s
  clear : s.params.layout.stTest .txfifoFull w = false
  filler : s.eng.txBuf = none → b = Config.filler
  ports : v.ports = s.ports ++ fillPorts s.params.addrW s.eng.txBuf [(w, b)]
  eng : v.eng = { s.eng with txBuf := s.eng.txBuf.map (nextAddr s.params.addrW) }
  platform : s.keepsPlatform (fillPorts s.params.addrW s.eng.txBuf [(w, b)]).length v
  mem : v.mem = (ticks (fillPorts s.params.addrW s.eng.txBuf [(w, b)]).length s).mem
  results : s.keepsResults v
  words : s.blk.sameWords v.blk
  wf : s.mem.wf s.params.addrW = true → s.blk.Wf s.params → v.mem.wf s.params.addrW = true ∧ v.blk.Wf s.params
  quiet : s.env = [] → v.blk = blockWrite s.params s.blk .txData (zext32 b) ∧
    ∀ a, s.eng.txBuf = some a → s.mem.read a = some b

theorem Block.sameWords.trans {b c d : Block} (h : b.sameWords c) (k : c.sameWords d) : b.sameWords d := by
  obtain ⟨a0, a1, a2, a3, a4⟩ := h
  obtain ⟨b0, b1, b2, b3, b4⟩ := k
  exact ⟨b0.trans a0, b1.trans a1, b2.trans a2, b3.trans a3, b4.trans a4⟩

theorem Block.sameWords.rfl' (b : Block) : b.sameWords b := ⟨rfl, rfl, rfl, rfl, rfl⟩

theorem regWrite_txData_sameWords (v : Word) (s : State) : s.blk.sameWords (regWrite .txData v s).blk := by
  have h := tick_sameWords s
  rw [regWrite_blk]
  simp only [blockWrite]
  split <;> exact h

/-- What a loop iteration that goes on has done. -/
theorem fillStep_of_next {s : State} (hs : s.params.layout.stTest .txfifoFull (readWord .status s) = false)
    {r : Byte × State} (h : nextTxByte (afterRead .status s) = .next r) :
    FillStep s (readWord .status s) r.1 (regWrite .txData (zext32 r.1) r.2) := by
  have hro := afterRead_keepsOutside .status s
  have hrr := afterRead_keepsResults .status s
  have hrw := afterRead_sameWords .status s
  have hrp := afterRead_ports .status s
  have hre := afterRead_eng .status s
  have hrpar := afterRead_params .status s
  have hrwf := afterRead_wf .status s
  have hrq : s.env = [] → (afterRead .status s).blk = s.blk ∧ (afterRead .status s).mem = s.mem ∧
      (afterRead .status s).env = [] := by
    intro hq
    rw [afterRead_of_quiet .status s hq (by decide)]
    exact ⟨rfl, rfl, hq⟩
  generalize afterRead .status s = u at h hro hrr hrw hrp hre hrpar hrwf hrq
  unfold nextTxByte at h
  rw [hre, hrpar] at h
  cases hb : s.eng.txBuf with
  | none =>
    rw [hb] at h
    cases h
    have hko := hro.trans (regWrite_keepsOutside .txData (zext32 Config.filler) u)
    refine ⟨rfl, hs, fun _ => rfl, ?_, ?_, ?_, ?_, ?_, ?_, ?_, ?_⟩
    · rw [hb]; simp [hrp, fillPorts, zext32]
    · rw [regWrite_eng, hre]; exact Engine.with_txBuf _ (by rw [hb]; rfl)
    · rw [hb]; exact hko.platform
    · rw [hb]; exact hko.2.2.2.2.1
    · exact hrr.trans (regWrite_keepsResults _ _ _)
    · exact hrw.trans (regWrite_txData_sameWords _ _)
    · intro hm hbw
      obtain ⟨h1, h2⟩ := hrwf hm hbw
      have := regWrite_wf .txData (zext32 Config.filler) u (by rw [hrpar]; exact h1) (by rw [hrpar]; exact h2)
      rwa [hrpar] at this
    · intro hq
      obtain ⟨q1, q2, q3⟩ := hrq hq
      refine ⟨?_, fun a ha => by rw [hb] at ha; cases ha⟩
      rw [regWrite_blk_of_quiet _ _ q3, q1, hrpar]
  | some a =>
    rw [hb] at h
    obtain ⟨r0, hr0, hr⟩ := andThen_eq_next h
    obtain ⟨hread, hst⟩ := bufRead_eq_next hr0
    cases hr
    simp only
    have hto : u.keepsPlatform 1 r0.2 ∧ r0.2.mem = (ticks 1 u).mem ∧ u.keepsResults r0.2 ∧ u.blk.sameWords r0.2.blk ∧
        r0.2.eng = u.eng ∧ r0.2.ports = u.ports ++ [.bufRead a r0.1] := by
      rw [hst]
      refine ⟨⟨by simp, by simp, rfl, rfl, rfl⟩, rfl, ⟨by simp, by simp, by simp⟩, tick_sameWords u, by simp, by simp⟩
    obtain ⟨t1, t2, t3, t4, t5, t6⟩ := hto
    generalize hx : ({ r0.2 with eng := { r0.2.eng with txBuf := some (nextAddr s.params.addrW a) } } : State) = x
    have hxp : r0.2.keepsPlatform 0 x := by rw [← hx]; exact ⟨rfl, rfl, rfl, rfl, rfl⟩
    have hxm : x.mem = r0.2.mem := by rw [← hx]
    have hxb : x.blk = r0.2.blk := by rw [← hx]
    have hxports : x.ports = r0.2.ports := by rw [← hx]
    have hxpar : x.params = s.params := hxp.1.trans (t1.1.trans hrpar)
    have hxe : x.eng = { s.eng with txBuf := some (nextAddr s.params.addrW a) } := by rw [← hx]; simp [t5, hre]
    have hxr : r0.2.keepsResults x := by rw [← hx]; exact ⟨rfl, rfl, rfl⟩
    have hp2 := (hro.platform.trans t1).trans hxp
    have hm2 : x.mem = (ticks (1 + 1) s).mem :=
      mem_ticks_trans hro.platform hro.2.2.2.2.1 (hxm.trans t2)
    have hw := regWrite_keepsOutside .txData (zext32 r0.1) x
    refine ⟨rfl, hs, fun hn => (by rw [hb] at hn; cases hn), ?_, ?_, ?_, ?_, ?_, ?_, ?_, ?_⟩
    · rw [hb]; simp [hxports, t6, hrp, fillPorts, zext32]
    · rw [regWrite_eng, hxe, hb]; rfl
    · rw [hb]; exact hp2.trans hw.platform
    · rw [hb]; exact mem_ticks_trans hp2 hm2 hw.2.2.2.2.1
    · exact ((hrr.trans t3).trans hxr).trans (regWrite_keepsResults _ _ _)
    · exact ((hrw.trans t4).trans (by rw [hxb]; exact Block.sameWords.rfl' _)).trans (regWrite_txData_sameWords _ _)
    · intro hm hbw
      obtain ⟨h1, h2⟩ := hrwf hm hbw
      obtain ⟨h3, h4⟩ := tick_wf u (by rw [hrpar]; exact h1) (by rw [hrpar]; exact h2)
      have := regWrite_wf .txData (zext32 r0.1) x (by rw [hxm, t2, hxpar, ← hrpar]; exact h3) (by rw [hxb, hst, hxpar, ← hrpar]; exact h4)
      rwa [hxpar] at this
    · intro hq
      obtain ⟨q1, q2, q3⟩ := hrq hq
      have hr2 : r0.2 = u.record (.bufRead a r0.1) := by rw [hst, tick_of_quiet q3]
      have hxq : x.env = [] := by rw [← hx, hr2]; exact q3
      refine ⟨?_, fun a' ha => ?_⟩
      · rw [regWrite_blk_of_quiet _ _ hxq, hxb, hxpar, hr2, State.record_blk, q1]
      · rw [hb] at ha; cases ha
        rw [tick_of_quiet q3, q2] at hread
        exact hread

/-! ### The loop of `FILL` -/

/-- What a loop of `FILL` of at most `n` iterations has done when it ends in `v`, for the `STATUS` words and bytes `xs` and
the accesses `last` that ended it. -/
structure FillRun (s : State) (n : Nat) (xs : List (Word × Byte)) (last : List PortEvent) (v : State) : Prop where
  ports : v.ports = s.ports ++ (fillPorts s.params.addrW s.eng.txBuf xs ++ last)
  clear : ∀ x ∈ xs, s.params.layout.stTest .txfifoFull x.1 = false ∧ (s.eng.txBuf = none → x.2 = Config.filler)
  ends : loopEnd s.params.layout .txfifoFull n xs.length last
  eng : v.eng = { s.eng with txBuf := s.eng.txBuf.map (advance s.params.addrW xs.length) }
  platform : s.keepsPlatform (fillPorts s.params.addrW s.eng.txBuf xs ++ last).length v
  mem : v.mem = (ticks (fillPorts s.params.addrW s.eng.txBuf xs ++ last).length s).mem
  results : s.keepsResults v
  words : s.blk.sameWords v.blk
  wf : s.mem.wf s.params.addrW = true → s.blk.Wf s.params → v.mem.wf s.params.addrW = true ∧ v.blk.Wf s.params
  quiet : s.env = [] → s.params.layout.legal = true → s.blk.txq.length ≤ 32 →
    v.blk = { s.blk with txq := s.blk.txq ++ xs.map Prod.snd } ∧ xs.length = min n (32 - s.blk.txq.length) ∧
    ∀ a, s.eng.txBuf = some a → ∀ j (hj : j < xs.length), s.mem.read (advance s.params.addrW j a) = some (xs[j]).2

theorem fillPorts_cons (w : Nat) (buf : Option Nat) (x : Word × Byte) (xs : List (Word × Byte)) :
    fillPorts w buf (x :: xs) = fillPorts w buf [x] ++ fillPorts w (buf.map (nextAddr w)) xs := by
  cases buf <;> simp [fillPorts]

theorem loopEnd_succ {L : Layout} {f : StField} {n i : Nat} {last : List PortEvent} (h : loopEnd L f n i last) :
    loopEnd L f (n + 1) (i + 1) last := by
  rcases h with ⟨h1, h2⟩ | ⟨h1, h2⟩
  · exact .inl ⟨by omega, h2⟩
  · exact .inr ⟨by omega, h2⟩

theorem map_advance_succ (w : Nat) (buf : Option Nat) (n : Nat) :
    (buf.map (nextAddr w)).map (advance w n) = buf.map (advance w (n + 1)) := by
  cases buf <;> simp [advance_succ]

theorem readWord_status_of_quiet {s : State} (hq : s.env = []) (hL : s.params.layout.legal = true) :
    s.params.layout.stTest .txfifoFull (readWord .status s) = s.blk.txFull ∧
    s.params.layout.stTest .rxfifoEmpty (readWord .status s) = s.blk.rxEmpty := by
  simp only [readWord, tick_of_quiet hq, blockReadValue]
  exact ⟨stTest_statusWord_txfifoFull hL _, stTest_statusWord_rxfifoEmpty hL _⟩

/-- Everything a loop of `FILL` that ends can have done (`42_fifo.md` R130). -/
theorem fillLoop_run (n i : Nat) (s : State) {r : Nat × State} (h : fillLoop n i s = .next r) :
    ∃ xs last, r.1 = i + xs.length ∧ FillRun s n xs last r.2 := by
  induction n generalizing i s with
  | zero =>
    cases h
    refine ⟨[], [], rfl, ?_⟩
    exact {
      ports := by simp [fillPorts]
      clear := fun x hx => by cases hx
      ends := .inl ⟨rfl, rfl⟩
      eng := Engine.with_txBuf _ (map_advance_zero _ _)
      platform := by simpa [fillPorts] using State.keepsPlatform.rfl' s
      mem := by simp [fillPorts]
      results := .rfl' s
      words := .rfl' _
      wf := fun h1 h2 => ⟨h1, h2⟩
      quiet := fun _ _ _ => ⟨by simp, by simp, fun a _ j hj => by simp at hj⟩ }
  | succ n ih =>
    unfold fillLoop at h
    split at h
    · rename_i hfull
      cases h
      refine ⟨[], [.regRead .status (readWord .status s)], rfl, ?_⟩
      have hro := afterRead_keepsOutside .status s
      exact {
        ports := by simp [fillPorts]
        clear := fun x hx => by cases hx
        ends := .inr ⟨by simp, _, rfl, hfull⟩
        eng := by rw [afterRead_eng]; exact Engine.with_txBuf _ (map_advance_zero _ _)
        platform := hro.platform
        mem := hro.2.2.2.2.1
        results := afterRead_keepsResults _ _
        words := afterRead_sameWords _ _
        wf := afterRead_wf _ _
        quiet := fun hq hL hl => by
          rw [(readWord_status_of_quiet hq hL).1] at hfull
          have hfull : s.blk.txq.length = 32 := of_decide_eq_true hfull
          rw [afterRead_of_quiet _ _ hq (by decide)]
          refine ⟨by simp, by simp [hfull], fun a _ j hj => by simp at hj⟩ }
    · rename_i hclear
      obtain ⟨r0, hr0, hrest⟩ := andThen_eq_next h
      have hst := fillStep_of_next (Bool.not_eq_true _ ▸ hclear) hr0
      generalize regWrite .txData (zext32 r0.1) r0.2 = v at hrest hst
      generalize readWord .status s = w at hst hclear
      obtain ⟨xs, last, hi, hrun⟩ := ih (i + 1) v hrest
      have hvb : v.eng.txBuf = s.eng.txBuf.map (nextAddr s.params.addrW) := by rw [hst.eng]
      have hvp : v.params = s.params := hst.platform.1
      have hlen : (fillPorts s.params.addrW s.eng.txBuf ((w, r0.1) :: xs) ++ last).length =
          (fillPorts s.params.addrW s.eng.txBuf [(w, r0.1)]).length + (fillPorts v.params.addrW v.eng.txBuf xs ++ last).length := by
        rw [fillPorts_cons, hvb, hvp]; simp
      refine ⟨(w, r0.1) :: xs, last, by rw [hi]; simp; omega, ?_⟩
      exact {
        ports := by rw [hrun.ports, hst.ports, fillPorts_cons _ _ (w, r0.1) xs, hvb, hvp]; simp
        clear := by
          intro x hx
          rcases List.mem_cons.1 hx with rfl | hx
          · exact ⟨hst.clear, hst.filler⟩
          · have := hrun.clear x hx
            rw [hvp, hvb] at this
            exact ⟨this.1, fun hn => this.2 (by rw [hn]; rfl)⟩
        ends := by have := hrun.ends; rw [hvp] at this; exact loopEnd_succ this
        eng := by
          rw [hrun.eng, hvb, hvp, map_advance_succ, hst.eng]; rfl
        platform := by rw [hlen]; exact hst.platform.trans hrun.platform
        mem := by rw [hlen]; exact mem_ticks_trans hst.platform hst.mem hrun.mem
        results := hst.results.trans hrun.results
        words := hst.words.trans hrun.words
        wf := fun hm hb => by
          obtain ⟨h1, h2⟩ := hst.wf hm hb
          have := hrun.wf (by rw [hvp]; exact h1) (by rw [hvp]; exact h2)
          rwa [hvp] at this
        quiet := fun hq hL hl => by
          obtain ⟨q1, q2⟩ := hst.quiet hq
          have hnf : s.blk.txq.length < 32 := by
            have h3 := (readWord_status_of_quiet hq hL).1
            rw [← hst.word, hst.clear] at h3
            simp only [Block.txFull, Config.fifoDepth] at h3
            have := of_decide_eq_false h3.symm
            omega
          have hbyte : (zext32 r0.1).extractLsb' 0 8 = r0.1 := by
            apply BitVec.eq_of_getLsbD_eq
            intro k hk
            simp only [zext32, BitVec.getLsbD_extractLsb', hk, decide_true, Bool.true_and, Nat.zero_add,
              BitVec.getLsbD_setWidth]
            have : k < 32 := by omega
            simp [this]
          have hvb2 : v.blk = { s.blk with txq := s.blk.txq ++ [r0.1] } := by
            rw [q1]; simp only [blockWrite, Config.fifoDepth, if_pos hnf, hbyte]
          have hve : v.env = [] := by
            rw [hst.platform.2.2.2.2, ticks_env, hq]; simp
          have hvm : v.mem = s.mem := by rw [hst.mem, ticks_of_quiet _ hq]
          obtain ⟨p1, p2, p3⟩ := hrun.quiet hve (by rw [hvp]; exact hL) (by rw [hvb2]; simp; omega)
          refine ⟨?_, ?_, ?_⟩
          · rw [p1, hvb2]; simp
          · simp only [List.length_cons, p2, hvb2, List.length_append, List.length_nil]; omega
          · intro a ha j hj
            cases j with
            | zero => exact q2 a ha
            | succ j =>
              have := p3 (nextAddr s.params.addrW a) (by rw [hvb, ha]; rfl) j (by simpa using hj)
              rw [hvm, hvp] at this
              simpa [advance_succ] using this }

/-- A loop of `FILL` ends when the source is absent or the host holds the bytes lent (`20_memory.md` R53). -/
theorem fillLoop_completes (n i : Nat) (s : State) (hh : s.hostHolds) (hl : s.mem.lends s.params.addrW s.eng.txBuf n) :
    ∃ r, fillLoop n i s = .next r := by
  induction n generalizing i s with
  | zero => exact ⟨_, rfl⟩
  | succ n ih =>
    unfold fillLoop
    split
    · exact ⟨_, rfl⟩
    · rename_i hclear
      have hex : ∃ r, nextTxByte (afterRead .status s) = .next r := by
        unfold nextTxByte
        rw [afterRead_eng]
        cases hb : s.eng.txBuf with
        | none => exact ⟨_, rfl⟩
        | some a =>
          have h1 := (hl.tick hh)
          have h2 : (tick (afterRead .status s)).mem.lends s.params.addrW s.eng.txBuf (n + 1) := by
            have hro := afterRead_keepsOutside .status s
            have hh1 : (afterRead .status s).hostHolds :=
              hostHolds_of_env hh (by rw [hro.2.2.2.2.2.2, ticks_env]; simp)
            refine Memory.lends.tick hh1 ?_
            rw [hro.2.2.2.2.1]; exact hl.ticks 1 hh
          have h3 := h2 a hb 0 (by omega)
          simp only [advance_zero] at h3
          obtain ⟨b, hbyte⟩ := Option.isSome_iff_exists.1 h3
          simp only [bufRead, hbyte, andThen_next]
          exact ⟨_, rfl⟩
      obtain ⟨r0, hr0⟩ := hex
      have hst := fillStep_of_next (Bool.not_eq_true _ ▸ hclear) hr0
      rw [hr0, andThen_next]
      refine ih (i + 1) _ ?_ ?_
      · have := hst.platform.2.2.2.2
        intro es hes
        rw [this, ticks_env] at hes
        exact hh es (List.mem_of_mem_drop hes)
      · rw [hst.mem, hst.eng, hst.platform.1]
        have := hl.ticks (fillPorts s.params.addrW s.eng.txBuf [(readWord .status s, r0.1)]).length hh
        cases hb : s.eng.txBuf with
        | none => intro a ha; cases ha
        | some a => rw [hb] at this; exact this.next

/-! ### One iteration of `DRAIN` -/

/-- Memory after the bytes `bs` were stored from a sink pointer on, one after another; addresses have `w` bits. -/
def storeAll (w : Nat) : Option Nat → List Byte → Memory → Memory
  | _, [], m => m
  | none, _ :: _, m => m
  | some a, b :: bs, m => storeAll w (some (nextAddr w a)) bs (m.write a b)

@[simp] theorem storeAll_none (w : Nat) (bs : List Byte) (m : Memory) : storeAll w none bs m = m := by cases bs <;> rfl

/-- The words of one iteration of `DRAIN` and the state after it. -/
structure DrainStep (s : State) (w d : Word) (v : State) : Prop where
  word : w = readWord .status s
  clear : s.params.layout.stTest .rxfifoEmpty w = false
  ports : v.ports = s.ports ++ drainPorts s.params.addrW s.eng.rxBuf [(w, d)]
  eng : v.eng = { s.eng with rxBuf := s.eng.rxBuf.map (nextAddr s.params.addrW) }
  platform : s.keepsPlatform (drainPorts s.params.addrW s.eng.rxBuf [(w, d)]).length v
  memAbsent : s.eng.rxBuf = none → v.mem = (ticks 2 s).mem
  memStill : s.hostStill → v.mem = storeAll s.params.addrW s.eng.rxBuf [dataByte d] s.mem
  memLends : s.hostHolds → ∀ w buf n, s.mem.lends w buf n → v.mem.lends w buf n
  results : s.keepsResults v
  words : s.blk.sameWords v.blk
  wf : s.mem.wf s.params.addrW = true → s.blk.Wf s.params → v.mem.wf s.params.addrW = true ∧ v.blk.Wf s.params
  quiet : s.env = [] → v.blk = { s.blk with rxq := s.blk.rxq.tail } ∧
    ∀ x xs, s.blk.rxq = x :: xs → dataByte d = x

theorem dataByte_or (w : Word) (x : Byte) : dataByte ((w &&& 0xFFFFFF00#32) ||| x.setWidth 32) = x := by
  apply BitVec.eq_of_getLsbD_eq
  intro k hk
  have h32 : k < 32 := by omega
  have hm : (0xFFFFFF00#32).getLsbD k = false := by
    have : ∀ j : Fin 8, (0xFFFFFF00#32).getLsbD j.val = false := by decide
    exact this ⟨k, hk⟩
  simp only [dataByte, BitVec.getLsbD_extractLsb', hk, decide_true, Bool.true_and, Nat.zero_add, BitVec.getLsbD_or,
    BitVec.getLsbD_and, hm, Bool.and_false, Bool.false_or, BitVec.getLsbD_setWidth, h32]

theorem drainStep_of_next {s : State} (hs : s.params.layout.stTest .rxfifoEmpty (readWord .status s) = false) {v : State}
    (h : storeRxByte (dataByte (readWord .rxData (afterRead .status s))) (afterRead .rxData (afterRead .status s)) =
      .next v) :
    DrainStep s (readWord .status s) (readWord .rxData (afterRead .status s)) v := by
  have hko := (afterRead_keepsOutside .status s).trans (afterRead_keepsOutside .rxData (afterRead .status s))
  have hkr := (afterRead_keepsResults .status s).trans (afterRead_keepsResults .rxData (afterRead .status s))
  have hkw := (afterRead_sameWords .status s).trans (afterRead_sameWords .rxData (afterRead .status s))
  have hkp : (afterRead .rxData (afterRead .status s)).ports = s.ports ++
      [.regRead .status (readWord .status s), .regRead .rxData (readWord .rxData (afterRead .status s))] := by simp
  have hke : (afterRead .rxData (afterRead .status s)).eng = s.eng := by simp
  have hkpar : (afterRead .rxData (afterRead .status s)).params = s.params := by simp
  have hkwf : s.mem.wf s.params.addrW = true → s.blk.Wf s.params →
      (afterRead .rxData (afterRead .status s)).mem.wf s.params.addrW = true ∧
      (afterRead .rxData (afterRead .status s)).blk.Wf s.params := by
    intro hm hb
    obtain ⟨h1, h2⟩ := afterRead_wf .status s hm hb
    have := afterRead_wf .rxData (afterRead .status s) (by rw [afterRead_params]; exact h1) (by rw [afterRead_params]; exact h2)
    rwa [afterRead_params] at this
  have hkq : s.env = [] → (afterRead .rxData (afterRead .status s)).blk = { s.blk with rxq := s.blk.rxq.tail } ∧
      ∀ x xs, s.blk.rxq = x :: xs → dataByte (readWord .rxData (afterRead .status s)) = x := by
    intro hq
    rw [afterRead_of_quiet .status s hq (by decide)]
    simp only [afterRead, readWord, tick_of_quiet (s := s.record _) hq]
    refine ⟨rfl, fun x xs hx => ?_⟩
    simp only [State.record_blk, blockReadValue, hx]
    exact dataByte_or _ _
  generalize readWord .rxData (afterRead .status s) = d at h hkp hkq ⊢
  generalize afterRead .rxData (afterRead .status s) = u at h hko hkr hkw hkp hke hkpar hkwf hkq
  have huh : s.hostHolds → u.hostHolds := fun hh es hes => hh es
    (List.mem_of_mem_drop (i := 2) (by rwa [hko.2.2.2.2.2.2, ticks_env] at hes))
  have hus : s.hostStill → u.hostStill := fun hh es hes => hh es
    (List.mem_of_mem_drop (i := 2) (by rwa [hko.2.2.2.2.2.2, ticks_env] at hes))
  unfold storeRxByte at h
  rw [hke, hkpar] at h
  cases hb : s.eng.rxBuf with
  | none =>
    rw [hb] at h
    cases h
    exact {
      word := rfl, clear := hs
      ports := by rw [hb, hkp]; rfl
      eng := by rw [hke]; exact Engine.with_rxBuf _ (by rw [hb]; rfl)
      platform := by rw [hb]; exact hko.platform
      memAbsent := fun _ => hko.2.2.2.2.1
      memStill := fun hh => by rw [hko.2.2.2.2.1, ticks_mem_of_still _ hh, hb]; simp
      memLends := fun hh w buf n hl => by rw [hko.2.2.2.2.1]; exact hl.ticks 2 hh
      results := hkr, words := hkw, wf := hkwf, quiet := hkq }
  | some a =>
    rw [hb] at h
    obtain ⟨t, ht, hv⟩ := andThen_eq_next h
    obtain ⟨hlisted, hst⟩ := bufWrite_eq_next ht
    cases hv
    have htp : u.keepsPlatform 1 t := by rw [hst]; exact ⟨by simp, by simp, rfl, rfl, rfl⟩
    have htpar : t.params = s.params := htp.1.trans hkpar
    have htm : t.mem = (tick u).mem.write a (dataByte d) := by rw [hst]; simp
    have htb : t.blk = (tick u).blk := by rw [hst]; simp
    have hte : t.eng = s.eng := by rw [hst]; simp [hke]
    have htports : t.ports = s.ports ++ drainPorts s.params.addrW (some a) [(readWord .status s, d)] := by
      rw [hst]; simp [hkp, drainPorts, dataByte]
    have htr : u.keepsResults t := by rw [hst]; exact ⟨by simp, by simp, by simp⟩
    exact {
      word := rfl, clear := hs
      ports := by rw [hb]; exact htports
      eng := by rw [hte, hb]; rfl
      platform := by rw [hb]; exact (hko.platform.trans htp)
      memAbsent := fun hn => by rw [hb] at hn; cases hn
      memStill := fun hh => by
        simp only [htm]
        rw [tick_mem_of_still (hus hh), hko.2.2.2.2.1, ticks_mem_of_still _ hh, hb]; rfl
      memLends := fun hh w buf n hl => by
        simp only [htm]
        refine Memory.lends.write _ _ (Memory.lends.tick (huh hh) ?_)
        rw [hko.2.2.2.2.1]; exact hl.ticks 2 hh
      results := hkr.trans htr
      words := hkw.trans (by simp only [htb]; exact tick_sameWords u)
      wf := fun hm hbw => by
        obtain ⟨h1, h2⟩ := hkwf hm hbw
        obtain ⟨h3, h4⟩ := tick_wf u (by rw [hkpar]; exact h1) (by rw [hkpar]; exact h2)
        rw [hkpar] at h3 h4
        simp only [htm, htb]
        exact ⟨Memory.wf_write _ _ _ (Memory.read_lt h3 hlisted) h3, h4⟩
      quiet := fun hq => by
        have huq : u.env = [] := (hko.quiet hq).2.2.2
        obtain ⟨q1, q2⟩ := hkq hq
        simp only [htb, tick_of_quiet huq]
        exact ⟨q1, q2⟩ }

/-! ### The loop of `DRAIN` -/

/-- What a loop of `DRAIN` of at most `n` iterations has done when it ends in `v`, for the `STATUS` and `RX_DATA` words `xs`
and the accesses `last` that ended it. -/
structure DrainRun (s : State) (n : Nat) (xs : List (Word × Word)) (last : List PortEvent) (v : State) : Prop where
  ports : v.ports = s.ports ++ (drainPorts s.params.addrW s.eng.rxBuf xs ++ last)
  clear : ∀ x ∈ xs, s.params.layout.stTest .rxfifoEmpty x.1 = false
  ends : loopEnd s.params.layout .rxfifoEmpty n xs.length last
  eng : v.eng = { s.eng with rxBuf := s.eng.rxBuf.map (advance s.params.addrW xs.length) }
  platform : s.keepsPlatform (drainPorts s.params.addrW s.eng.rxBuf xs ++ last).length v
  memAbsent : s.eng.rxBuf = none → v.mem = (ticks (drainPorts s.params.addrW s.eng.rxBuf xs ++ last).length s).mem
  memStill : s.hostStill → v.mem = storeAll s.params.addrW s.eng.rxBuf (xs.map fun x => dataByte x.2) s.mem
  memLends : s.hostHolds → ∀ w buf m, s.mem.lends w buf m → v.mem.lends w buf m
  results : s.keepsResults v
  words : s.blk.sameWords v.blk
  wf : s.mem.wf s.params.addrW = true → s.blk.Wf s.params → v.mem.wf s.params.addrW = true ∧ v.blk.Wf s.params
  quiet : s.env = [] → s.params.layout.legal = true →
    v.blk = { s.blk with rxq := s.blk.rxq.drop xs.length } ∧ xs.length = min n s.blk.rxq.length ∧
    xs.map (fun x => dataByte x.2) = s.blk.rxq.take xs.length

theorem drainPorts_cons (w : Nat) (buf : Option Nat) (x : Word × Word) (xs : List (Word × Word)) :
    drainPorts w buf (x :: xs) = drainPorts w buf [x] ++ drainPorts w (buf.map (nextAddr w)) xs := by
  cases buf <;> simp [drainPorts]

theorem storeAll_cons (w : Nat) (buf : Option Nat) (b : Byte) (bs : List Byte) (m : Memory) :
    storeAll w buf (b :: bs) m = storeAll w (buf.map (nextAddr w)) bs (storeAll w buf [b] m) := by
  cases buf <;> simp [storeAll]

/-- Everything a loop of `DRAIN` that ends can have done (`42_fifo.md` R131). -/
theorem drainLoop_run (n i : Nat) (s : State) {r : Nat × State} (h : drainLoop n i s = .next r) :
    ∃ xs last, r.1 = i + xs.length ∧ DrainRun s n xs last r.2 := by
  induction n generalizing i s with
  | zero =>
    cases h
    refine ⟨[], [], rfl, ?_⟩
    exact {
      ports := by simp [drainPorts]
      clear := fun x hx => by cases hx
      ends := .inl ⟨rfl, rfl⟩
      eng := Engine.with_rxBuf _ (map_advance_zero _ _)
      platform := by simpa [drainPorts] using State.keepsPlatform.rfl' s
      memAbsent := fun _ => by simp [drainPorts]
      memStill := fun _ => by cases s.eng.rxBuf <;> rfl
      memLends := fun _ _ _ _ h => h
      results := .rfl' s
      words := .rfl' _
      wf := fun h1 h2 => ⟨h1, h2⟩
      quiet := fun _ _ => ⟨by simp, by simp, by simp⟩ }
  | succ n ih =>
    unfold drainLoop at h
    split at h
    · rename_i hempty
      cases h
      refine ⟨[], [.regRead .status (readWord .status s)], rfl, ?_⟩
      have hro := afterRead_keepsOutside .status s
      exact {
        ports := by simp [drainPorts]
        clear := fun x hx => by cases hx
        ends := .inr ⟨by simp, _, rfl, hempty⟩
        eng := by rw [afterRead_eng]; exact Engine.with_rxBuf _ (map_advance_zero _ _)
        platform := hro.platform
        memAbsent := fun _ => hro.2.2.2.2.1
        memStill := fun hh => by
          rw [hro.2.2.2.2.1, ticks_mem_of_still _ hh]; cases s.eng.rxBuf <;> rfl
        memLends := fun hh w buf m hl => by rw [hro.2.2.2.2.1]; exact hl.ticks 1 hh
        results := afterRead_keepsResults _ _
        words := afterRead_sameWords _ _
        wf := afterRead_wf _ _
        quiet := fun hq hL => by
          rw [(readWord_status_of_quiet hq hL).2] at hempty
          have hempty : s.blk.rxq.length = 0 := of_decide_eq_true hempty
          rw [afterRead_of_quiet _ _ hq (by decide)]
          refine ⟨by simp, by simp [hempty], by simp⟩ }
    · rename_i hclear
      obtain ⟨v, hv, hrest⟩ := andThen_eq_next h
      have hst := drainStep_of_next (Bool.not_eq_true _ ▸ hclear) hv
      generalize readWord .rxData (afterRead .status s) = d at hst
      generalize readWord .status s = w at hst hclear
      obtain ⟨xs, last, hi, hrun⟩ := ih (i + 1) v hrest
      have hvb : v.eng.rxBuf = s.eng.rxBuf.map (nextAddr s.params.addrW) := by rw [hst.eng]
      have hvp : v.params = s.params := hst.platform.1
      have hlen : (drainPorts s.params.addrW s.eng.rxBuf ((w, d) :: xs) ++ last).length =
          (drainPorts s.params.addrW s.eng.rxBuf [(w, d)]).length + (drainPorts v.params.addrW v.eng.rxBuf xs ++ last).length := by
        rw [drainPorts_cons, hvb, hvp]; simp
      have hve := hst.platform.2.2.2.2
      have hvh : s.hostHolds → v.hostHolds := fun hh es hes => hh es
        (List.mem_of_mem_drop (by rwa [hve, ticks_env] at hes))
      have hvs : s.hostStill → v.hostStill := fun hh es hes => hh es
        (List.mem_of_mem_drop (by rwa [hve, ticks_env] at hes))
      refine ⟨(w, d) :: xs, last, by rw [hi]; simp; omega, ?_⟩
      exact {
        ports := by rw [hrun.ports, hst.ports, drainPorts_cons _ _ (w, d) xs, hvb, hvp]; simp
        clear := by
          intro x hx
          rcases List.mem_cons.1 hx with rfl | hx
          · exact hst.clear
          · have := hrun.clear x hx
            rwa [hvp] at this
        ends := by have := hrun.ends; rw [hvp] at this; exact loopEnd_succ this
        eng := by rw [hrun.eng, hvb, hvp, map_advance_succ, hst.eng]; rfl
        platform := by rw [hlen]; exact hst.platform.trans hrun.platform
        memAbsent := fun hn => by
          have h2 : (drainPorts s.params.addrW s.eng.rxBuf [(w, d)]).length = 2 := by rw [hn]; rfl
          have hm := hst.memAbsent hn
          rw [hlen]
          exact mem_ticks_trans hst.platform (by rw [h2]; exact hm) (hrun.memAbsent (by rw [hvb, hn]; rfl))
        memStill := fun hh => by
          rw [hrun.memStill (hvs hh), hst.memStill hh, hvb, hvp, List.map_cons, ← storeAll_cons s.params.addrW s.eng.rxBuf]
        memLends := fun hh w buf m hl => hrun.memLends (hvh hh) w buf m (hst.memLends hh w buf m hl)
        results := hst.results.trans hrun.results
        words := hst.words.trans hrun.words
        wf := fun hm hb => by
          obtain ⟨h1, h2⟩ := hst.wf hm hb
          have := hrun.wf (by rw [hvp]; exact h1) (by rw [hvp]; exact h2)
          rwa [hvp] at this
        quiet := fun hq hL => by
          obtain ⟨q1, q2⟩ := hst.quiet hq
          have h3 := (readWord_status_of_quiet hq hL).2
          rw [← hst.word, hst.clear] at h3
          simp only [Block.rxEmpty] at h3
          have hne := of_decide_eq_false h3.symm
          have hvq : v.env = [] := by rw [hve, ticks_env, hq]; simp
          obtain ⟨p1, p2, p3⟩ := hrun.quiet hvq (by rw [hvp]; exact hL)
          cases hx : s.blk.rxq with
          | nil => rw [hx] at hne; simp at hne
          | cons x rest =>
            have hq2 := q2 x rest hx
            rw [q1] at p1 p2 p3
            simp only [hx, List.tail_cons] at p1 p2 p3
            refine ⟨?_, ?_, ?_⟩
            · rw [p1]; simp
            · simp only [List.length_cons, p2]; omega
            · simp only [List.map_cons, List.length_cons, List.take_succ_cons, hq2, p3] }

/-- A loop of `DRAIN` ends when the sink is absent or the host holds the bytes lent (R53). -/
theorem drainLoop_completes (n i : Nat) (s : State) (hh : s.hostHolds) (hl : s.mem.lends s.params.addrW s.eng.rxBuf n) :
    ∃ r, drainLoop n i s = .next r := by
  induction n generalizing i s with
  | zero => exact ⟨_, rfl⟩
  | succ n ih =>
    unfold drainLoop
    split
    · exact ⟨_, rfl⟩
    · rename_i hclear
      have hex : ∃ v, storeRxByte (dataByte (readWord .rxData (afterRead .status s)))
          (afterRead .rxData (afterRead .status s)) = .next v := by
        have hko := (afterRead_keepsOutside .status s).trans (afterRead_keepsOutside .rxData (afterRead .status s))
        generalize dataByte (readWord .rxData (afterRead .status s)) = b
        unfold storeRxByte
        rw [hko.2.1]
        cases hb : s.eng.rxBuf with
        | none => exact ⟨_, rfl⟩
        | some a =>
          have huh : (afterRead .rxData (afterRead .status s)).hostHolds := fun es hes => hh es
            (List.mem_of_mem_drop (i := 2) (by rwa [hko.2.2.2.2.2.2, ticks_env] at hes))
          have h2 : (tick (afterRead .rxData (afterRead .status s))).mem.lends s.params.addrW s.eng.rxBuf (n + 1) := by
            refine Memory.lends.tick huh ?_
            rw [hko.2.2.2.2.1]; exact hl.ticks 2 hh
          have h3 := h2 a hb 0 (by omega)
          simp only [advance_zero] at h3
          obtain ⟨c, hc⟩ := Option.isSome_iff_exists.1 h3
          simp only [bufWrite, hc, andThen_next]
          exact ⟨_, rfl⟩
      obtain ⟨v, hv⟩ := hex
      have hst := drainStep_of_next (Bool.not_eq_true _ ▸ hclear) hv
      simp only
      rw [hv, andThen_next]
      refine ih (i + 1) _ ?_ ?_
      · intro es hes
        rw [hst.platform.2.2.2.2, ticks_env] at hes
        exact hh es (List.mem_of_mem_drop hes)
      · have := hst.memLends hh _ _ _ hl
        rw [hst.eng, hst.platform.1]
        cases hb : s.eng.rxBuf with
        | none => intro a ha; cases ha
        | some a => rw [hb] at this; exact this.next

/-! ### Whole bursts -/

/-- What a `FILL` that ends in `t` has done, for the `STATUS` words and bytes `xs` and the accesses `last` that ended its
loop (`42_fifo.md` R130). -/
structure FillBurst (s : State) (xs : List (Word × Byte)) (last : List PortEvent) (t : State) : Prop where
  ports : s.params.layout.legal = true → t.ports = s.ports ++
    (xferLenPorts s.params.layout s.blk.control (BitVec.ofNat 32 (burst s.eng.txLen)) ++
      (fillPorts s.params.addrW s.eng.txBuf xs ++ last))
  clear : ∀ x ∈ xs, s.params.layout.stTest .txfifoFull x.1 = false ∧ (s.eng.txBuf = none → x.2 = Config.filler)
  ends : loopEnd s.params.layout .txfifoFull (burst s.eng.txLen) xs.length last
  eng : t.eng = { s.eng with
    txLen := s.eng.txLen - xs.length, pending := s.eng.pending + xs.length,
    txBuf := s.eng.txBuf.map (advance s.params.addrW xs.length) }
  platform : s.keepsPlatform (7 + (fillPorts s.params.addrW s.eng.txBuf xs ++ last).length) t
  mem : t.mem = (ticks (7 + (fillPorts s.params.addrW s.eng.txBuf xs ++ last).length) s).mem
  results : s.keepsResults t
  words : (setTransferLen (BitVec.ofNat 32 (burst s.eng.txLen)) s).blk.sameWords t.blk
  wf : s.mem.wf s.params.addrW = true → s.blk.Wf s.params → t.mem.wf s.params.addrW = true ∧ t.blk.Wf s.params
  quiet : s.env = [] → s.params.layout.legal = true → s.blk.txq.length ≤ 32 →
    t.blk.txq = s.blk.txq ++ xs.map Prod.snd ∧ t.blk.rxq = s.blk.rxq ∧ t.blk.wire = s.blk.wire ∧
    t.blk.openWord = s.blk.openWord ∧ t.blk.framesSent = 0 ∧ t.blk.ris = t.blk.risAtEnable s.params s.blk.ris ∧
    xs.length = min (burst s.eng.txLen) (32 - s.blk.txq.length) ∧
    ∀ a, s.eng.txBuf = some a → ∀ j (hj : j < xs.length), s.mem.read (advance s.params.addrW j a) = some (xs[j]).2

theorem FillBurst.length_le {s t : State} {xs : List (Word × Byte)} {last : List PortEvent} (h : FillBurst s xs last t) :
    xs.length ≤ burst s.eng.txLen := by
  rcases h.ends with ⟨h1, -⟩ | ⟨h1, -⟩ <;> omega

theorem fillBurst_run (s : State) {t : State} (h : fillBurst s = .next t) : ∃ xs last, FillBurst s xs last t := by
  obtain ⟨r, hr, hk⟩ := andThen_eq_next h
  cases hk
  have hc := setTransferLen_configStep (BitVec.ofNat 32 (burst s.eng.txLen)) s
  have hports : s.params.layout.legal = true → (setTransferLen (BitVec.ofNat 32 (burst s.eng.txLen)) s).ports = s.ports ++
      xferLenPorts s.params.layout s.blk.control (BitVec.ofNat 32 (burst s.eng.txLen)) :=
    fun hL => setTransferLen_ports hL _
  have haround : s.params.layout.legal = true →
      s.keepsAroundProtocol 7 (setTransferLen (BitVec.ofNat 32 (burst s.eng.txLen)) s) :=
    fun hL => setTransferLen_around hL _
  generalize hu : setTransferLen (BitVec.ofNat 32 (burst s.eng.txLen)) s = u at hr hc hports haround
  obtain ⟨xs, last, hi, hrun⟩ := fillLoop_run _ _ _ hr
  have hup := hc.params
  have hue := hc.eng
  refine ⟨xs, last, ?_⟩
  exact {
    ports := fun hL => by rw [advanceTx_ports, hrun.ports, hports hL, hue, hup, List.append_assoc]
    clear := by have := hrun.clear; rwa [hup, hue] at this
    ends := by have := hrun.ends; rwa [hup] at this
    eng := by
      rw [advanceTx_eng, hrun.eng, hue, hup, hi]; simp
    platform := by
      have := hc.outside.platform.trans hrun.platform
      rw [hue, hup] at this
      exact this
    mem := by
      have := mem_ticks_trans hc.outside.platform hc.outside.2.2.2.2.1 hrun.mem
      rw [hue, hup] at this
      exact this
    results := hc.results.trans hrun.results
    words := by rw [hu]; exact hrun.words
    wf := fun hm hb => by
      obtain ⟨h1, h2⟩ := hc.wf hm hb
      have := hrun.wf (by rw [hup]; exact h1) (by rw [hup]; exact h2)
      rwa [hup] at this
    quiet := fun hq hL hl => by
      obtain ⟨-, -, -, -, ha1, ha2⟩ := haround hL
      obtain ⟨-, -, -, k4, k5, k6, k7, k8⟩ := hc.quiet hq
      have hmem := (hc.outside.quiet hq).1
      obtain ⟨p1, p2, p3⟩ := hrun.quiet k4 (by rw [hup]; exact hL) (by rw [k5]; exact hl)
      have hris : (advanceTx r.1 r.2).blk.ris = u.blk.ris := by rw [advanceTx_blk, p1]
      have hrae : (advanceTx r.1 r.2).blk.risAtEnable s.params s.blk.ris = u.blk.risAtEnable s.params s.blk.ris := by
        rw [advanceTx_blk, p1]; rfl
      refine ⟨?_, ?_, ?_, ?_, ?_, ?_, ?_, ?_⟩
      · rw [advanceTx_blk, p1, ← k5]
      · rw [advanceTx_blk, p1]; exact k6
      · rw [advanceTx_blk, p1]; exact k7
      · rw [advanceTx_blk, p1]; exact k8
      · rw [advanceTx_blk, p1]; exact ha1
      · rw [hris, hrae]; exact ha2 hq
      · rw [p2, k5]
      · intro a ha j hj
        rw [← hmem]
        have := p3 a (by rw [hue]; exact ha) j hj
        rwa [hup] at this }

/-- `FILL` ends when the source is absent or the host holds the bytes of the burst lent (R53). -/
theorem fillBurst_completes (s : State) (hh : s.hostHolds) (hl : s.mem.lends s.params.addrW s.eng.txBuf (burst s.eng.txLen)) :
    ∃ t, fillBurst s = .next t := by
  have hc := setTransferLen_configStep (BitVec.ofNat 32 (burst s.eng.txLen)) s
  obtain ⟨r, hr⟩ := fillLoop_completes (burst s.eng.txLen) 0 (setTransferLen (BitVec.ofNat 32 (burst s.eng.txLen)) s)
    (fun es hes => hh es (List.mem_of_mem_drop (i := 7) (by rwa [hc.outside.2.2.2.2.2.2, ticks_env] at hes)))
    (by rw [hc.outside.2.2.2.2.1, hc.eng, hc.params]; exact hl.ticks 7 hh)
  exact ⟨_, by rw [fillBurst, hr]; rfl⟩

/-- What a `DRAIN` that ends in `t` has done, for the words `xs` and the accesses `last` that ended its loop (R131). -/
structure DrainBurst (s : State) (xs : List (Word × Word)) (last : List PortEvent) (t : State) : Prop where
  ports : t.ports = s.ports ++ (drainPorts s.params.addrW s.eng.rxBuf xs ++ last)
  clear : ∀ x ∈ xs, s.params.layout.stTest .rxfifoEmpty x.1 = false
  ends : loopEnd s.params.layout .rxfifoEmpty (burst s.eng.rxLen) xs.length last
  eng : t.eng = { s.eng with
    rxLen := s.eng.rxLen - xs.length, pending := s.eng.pending - xs.length,
    rxBuf := s.eng.rxBuf.map (advance s.params.addrW xs.length) }
  platform : s.keepsPlatform (drainPorts s.params.addrW s.eng.rxBuf xs ++ last).length t
  memAbsent : s.eng.rxBuf = none → t.mem = (ticks (drainPorts s.params.addrW s.eng.rxBuf xs ++ last).length s).mem
  memStill : s.hostStill → t.mem = storeAll s.params.addrW s.eng.rxBuf (xs.map fun x => dataByte x.2) s.mem
  memLends : s.hostHolds → ∀ w buf m, s.mem.lends w buf m → t.mem.lends w buf m
  results : s.keepsResults t
  words : s.blk.sameWords t.blk
  wf : s.mem.wf s.params.addrW = true → s.blk.Wf s.params → t.mem.wf s.params.addrW = true ∧ t.blk.Wf s.params
  quiet : s.env = [] → s.params.layout.legal = true →
    t.blk = { s.blk with rxq := s.blk.rxq.drop xs.length } ∧ xs.length = min (burst s.eng.rxLen) s.blk.rxq.length ∧
    xs.map (fun x => dataByte x.2) = s.blk.rxq.take xs.length

theorem DrainBurst.length_le {s t : State} {xs : List (Word × Word)} {last : List PortEvent} (h : DrainBurst s xs last t) :
    xs.length ≤ burst s.eng.rxLen := by
  rcases h.ends with ⟨h1, -⟩ | ⟨h1, -⟩ <;> omega

theorem drainBurst_run (s : State) {t : State} (h : drainBurst s = .next t) : ∃ xs last, DrainBurst s xs last t := by
  obtain ⟨r, hr, hk⟩ := andThen_eq_next h
  cases hk
  obtain ⟨xs, last, hi, hrun⟩ := drainLoop_run _ _ _ hr
  refine ⟨xs, last, ?_⟩
  exact {
    ports := hrun.ports, clear := hrun.clear, ends := hrun.ends
    eng := by rw [advanceRx_eng, hrun.eng, hi]; simp
    platform := hrun.platform, memAbsent := hrun.memAbsent, memStill := hrun.memStill, memLends := hrun.memLends
    results := hrun.results, words := hrun.words, wf := hrun.wf, quiet := hrun.quiet }

/-- `DRAIN` ends when the sink is absent or the host holds the bytes of the burst lent (R53). -/
theorem drainBurst_completes (s : State) (hh : s.hostHolds) (hl : s.mem.lends s.params.addrW s.eng.rxBuf (burst s.eng.rxLen)) :
    ∃ t, drainBurst s = .next t := by
  obtain ⟨r, hr⟩ := drainLoop_completes (burst s.eng.rxLen) 0 s hh hl
  exact ⟨_, by rw [drainBurst, hr]; rfl⟩

/-! ### What lies in memory after a burst was stored -/

/-- A byte outside the stored addresses reads as before. -/
theorem storeAll_read_other (w : Nat) (buf : Option Nat) (bs : List Byte) (m : Memory) (x : Nat)
    (h : ∀ a, buf = some a → ∀ k, k < bs.length → x ≠ advance w k a) : (storeAll w buf bs m).read x = m.read x := by
  induction bs generalizing buf m with
  | nil => cases buf <;> rfl
  | cons b bs ih =>
    cases buf with
    | none => rfl
    | some a =>
      simp only [storeAll]
      rw [ih (some (nextAddr w a)) (m.write a b) fun a' ha' k hk => by
        cases ha'
        have := h a rfl (k + 1) (by simpa using hk)
        rwa [advance_succ] at this]
      exact Memory.read_write_other _ _ (h a rfl 0 (by simp))

/-- Below the top of the address space the stored bytes lie one after another. -/
theorem storeAll_read_same (w a : Nat) (bs : List Byte) (m : Memory) (h : a + bs.length ≤ 2 ^ w) (k : Nat)
    (hk : k < bs.length) : (storeAll w (some a) bs m).read (a + k) = some bs[k] := by
  induction bs generalizing a m k with
  | nil => simp at hk
  | cons b bs ih =>
    simp only [storeAll]
    simp only [List.length_cons] at h hk
    cases k with
    | zero =>
      rw [storeAll_read_other _ _ _ _ _ fun a' ha' j hj => ?_]
      · simp [Memory.read_write_same]
      · cases ha'
        rw [nextAddr_eq (by omega), advance_eq j _ (by omega)]
        omega
    | succ k =>
      have := ih (nextAddr w a) (m.write a b) (by rw [nextAddr_eq (by omega)]; omega) k (by omega)
      rw [nextAddr_eq (by omega)] at this
      have he : a + 1 + k = a + (k + 1) := by omega
      rw [he] at this
      simpa [nextAddr_eq (show a + 1 < 2 ^ w by omega)] using this

end Sys2Proof.Machine
end

