-- ==== Sys2Proof/Laws/Bursts.lean ====
section
/-! SUPPORT. `FILL` and `DRAIN` in the words in which statements speak of them: the bytes moved and the accesses made. -/

namespace Sys2Proof.Machine

/-! ### `DRAIN` -/

/-- What a `DRAIN` that ends in `t` has done: the bytes `d` received and the accesses `ev` made (`42_fifo.md` R131). -/
structure Drained (s : State) (d : List Byte) (ev : List PortEvent) (t : State) : Prop where
  burst : isDrain s.params s.eng.rxLen s.eng.rxBuf d ev
  le : d.length ≤ min s.eng.rxLen 32
  ports : t.ports = s.ports ++ ev
  eng : t.eng = { s.eng with
    rxLen := s.eng.rxLen - d.length, pending := s.eng.pending - d.length, rxBuf := s.eng.rxBuf.map (advance s.params.addrW d.length) }
  platform : s.keepsPlatform ev.length t
  memAbsent : s.eng.rxBuf = none → t.mem = (ticks ev.length s).mem
  memStill : s.hostStill → t.mem = storeAll s.params.addrW s.eng.rxBuf d s.mem
  memLends : s.hostHolds → ∀ w buf m, s.mem.lends w buf m → t.mem.lends w buf m
  results : s.keepsResults t
  words : s.blk.sameWords t.blk
  wf : s.mem.wf s.params.addrW = true → s.blk.Wf s.params → t.mem.wf s.params.addrW = true ∧ t.blk.Wf s.params
  quiet : s.env = [] → s.params.layout.legal = true →
    t.blk = { s.blk with rxq := s.blk.rxq.drop d.length } ∧ d = s.blk.rxq.take (min s.eng.rxLen 32)

theorem drainBurst_drained {s t : State} (h : drainBurst s = .next t) : ∃ d ev, Drained s d ev t := by
  obtain ⟨xs, last, hb⟩ := drainBurst_run s h
  have hl : (xs.map fun x => dataByte x.2).length = xs.length := by simp
  refine ⟨xs.map fun x => dataByte x.2, drainPorts s.params.addrW s.eng.rxBuf xs ++ last, ?_⟩
  exact {
    burst := ⟨xs, last, rfl, rfl, hb.clear, by rw [hl]; exact hb.ends⟩
    le := by rw [hl]; exact hb.length_le
    ports := hb.ports
    eng := by rw [hl]; exact hb.eng
    platform := hb.platform, memAbsent := hb.memAbsent, memStill := hb.memStill, memLends := hb.memLends
    results := hb.results, words := hb.words, wf := hb.wf
    quiet := fun hq hL => by
      obtain ⟨h1, h2, h3⟩ := hb.quiet hq hL
      rw [hl]
      refine ⟨h1, ?_⟩
      rw [h3, h2]
      have : burst s.eng.rxLen = min s.eng.rxLen 32 := rfl
      rw [this, ← List.take_take, List.take_length] }

/-- With nothing left to receive, no drain at all is a drain of no byte. -/
theorem drained_nil {s : State} (h : s.eng.rxLen = 0) : Drained s [] [] s where
  burst := ⟨[], [], rfl, rfl, fun x hx => (by cases hx), .inl ⟨by simp [h], rfl⟩⟩
  le := by simp
  ports := by simp
  eng := by
    cases hs : s.eng.rxBuf <;> simp [advance_zero] <;> rw [← hs]
  platform := .rfl' s
  memAbsent := fun _ => rfl
  memStill := fun _ => by cases s.eng.rxBuf <;> rfl
  memLends := fun _ _ _ _ h => h
  results := .rfl' s
  words := .rfl' _
  wf := fun h1 h2 => ⟨h1, h2⟩
  quiet := fun _ _ => ⟨by simp, by simp [h]⟩

/-! ### `FILL` -/

/-- The words of the block a `FILL` leaves: the frame count is the size of the burst, `ENABLE` is set (R130, R115). -/
def Block.fillWords (L : Layout) (b : Block) (n : Nat) (c : Block) : Prop :=
  c.control = L.set .enable (L.set .framecnt (L.set .enable b.control 0#32) (BitVec.ofNat 32 n)) 1#32 ∧
  c.framesup = 0#32 ∧ c.frameSize = b.frameSize ∧ c.clkGen = b.clkGen ∧ c.ssel = b.ssel

/-- What a `FILL` that ends in `t` has done: the bytes `b` sent and the accesses `ev` made (R130). -/
structure Filled (s : State) (b : List Byte) (ev : List PortEvent) (t : State) : Prop where
  burst : isFill s.params s.blk.control s.eng.txLen s.eng.txBuf b ev
  le : b.length ≤ min s.eng.txLen 32
  ports : s.params.layout.legal = true → t.ports = s.ports ++ ev
  eng : t.eng = { s.eng with
    txLen := s.eng.txLen - b.length, pending := s.eng.pending + b.length, txBuf := s.eng.txBuf.map (advance s.params.addrW b.length) }
  platform : s.keepsPlatform ev.length t
  mem : t.mem = (ticks ev.length s).mem
  results : s.keepsResults t
  words : s.params.layout.legal = true → s.blk.fillWords s.params.layout (min s.eng.txLen 32) t.blk
  wf : s.mem.wf s.params.addrW = true → s.blk.Wf s.params → t.mem.wf s.params.addrW = true ∧ t.blk.Wf s.params
  quiet : s.env = [] → s.params.layout.legal = true → s.blk.txq.length ≤ 32 →
    t.blk.txq = s.blk.txq ++ b ∧ t.blk.rxq = s.blk.rxq ∧ t.blk.wire = s.blk.wire ∧ t.blk.openWord = s.blk.openWord ∧
    t.blk.framesSent = 0 ∧ t.blk.ris = t.blk.risAtEnable s.params s.blk.ris ∧
    b.length = min (min s.eng.txLen 32) (32 - s.blk.txq.length) ∧
    (∀ a, s.eng.txBuf = some a → ∀ j (hj : j < b.length), s.mem.read (advance s.params.addrW j a) = some b[j]) ∧
    (s.eng.txBuf = none → ∀ x ∈ b, x = 0xAA#8)

theorem small_len {n : Nat} (h : n ≤ 32) :
    BitVec.ofNat 32 n &&& 0xFFFF#32 = BitVec.ofNat 32 n ∧ BitVec.ofNat 32 n &&& 0xFFFF0000#32 = 0#32 := by
  have : ∀ k : Fin 33, BitVec.ofNat 32 k.val &&& 0xFFFF#32 = BitVec.ofNat 32 k.val ∧
      BitVec.ofNat 32 k.val &&& 0xFFFF0000#32 = 0#32 := by decide
  exact this ⟨n, by omega⟩

theorem fillBurst_filled {s t : State} (h : fillBurst s = .next t) : ∃ b ev, Filled s b ev t := by
  obtain ⟨xs, last, hb⟩ := fillBurst_run s h
  have hl : (xs.map Prod.snd).length = xs.length := by simp
  have h7 : ∀ len : Word, (xferLenPorts s.params.layout s.blk.control len).length = 7 := fun _ => rfl
  have hbu : burst s.eng.txLen = min s.eng.txLen 32 := rfl
  refine ⟨xs.map Prod.snd, xferLenPorts s.params.layout s.blk.control (BitVec.ofNat 32 (min s.eng.txLen 32)) ++
    fillPorts s.params.addrW s.eng.txBuf xs ++ last, ?_⟩
  have hlen : (xferLenPorts s.params.layout s.blk.control (BitVec.ofNat 32 (min s.eng.txLen 32)) ++
    fillPorts s.params.addrW s.eng.txBuf xs ++ last).length = 7 + (fillPorts s.params.addrW s.eng.txBuf xs ++ last).length := by
    rw [List.append_assoc, List.length_append, h7]
  exact {
    burst := ⟨xs, last, rfl, rfl, hb.clear, by rw [hl]; exact hb.ends⟩
    le := by rw [hl]; exact hb.length_le
    ports := fun hL => by rw [hb.ports hL, List.append_assoc, hbu]
    eng := by rw [hl]; exact hb.eng
    platform := by rw [hlen]; exact hb.platform
    mem := by rw [hlen]; exact hb.mem
    results := hb.results
    words := fun hL => by
      obtain ⟨w1, w2, w3, w4, w5⟩ := hb.words
      obtain ⟨v1, v2, v3, v4, v5⟩ := setTransferLen_words hL (BitVec.ofNat 32 (burst s.eng.txLen))
      obtain ⟨s1, s2⟩ := small_len (n := burst s.eng.txLen) (by rw [hbu]; omega)
      refine ⟨?_, ?_, w2.trans v3, w3.trans v4, w4.trans v5⟩
      · rw [w1, v1, lenLow, s1]; rfl
      · rw [w5, v2, lenHigh, s2]; rfl
    wf := hb.wf
    quiet := fun hq hL hl' => by
      obtain ⟨q1, q2, q3, q4, q5, q6, q7, q8⟩ := hb.quiet hq hL hl'
      refine ⟨q1, q2, q3, q4, q5, q6, by rw [hl]; exact q7, ?_, ?_⟩
      · intro a ha j hj
        rw [hl] at hj
        rw [q8 a ha j hj]; simp
      · intro hn x hx
        obtain ⟨y, hy, rfl⟩ := List.mem_map.1 hx
        exact (hb.clear y hy).2 hn }

/-- The frame count a `FILL` leaves is the size of its burst (R130, R47). -/
theorem fillWords_frameCount {L : Layout} (hL : L.legal = true) {b c : Block} {n : Nat} (hn : n ≤ 32)
    (h : b.fillWords L n c) : frameCount L c c.control = n := by
  obtain ⟨h1, h2, -⟩ := h
  have hg : L.get .framecnt c.control = BitVec.ofNat 32 n := by
    rw [h1, L.get_set_ne hL (by decide), L.get_set_same hL]
    have : fieldMask CtlField.framecnt.width = 0xFFFF#32 := by decide
    rw [this, (small_len hn).1]
  rw [frameCount, h2, hg]
  simp
  omega

/-- With something to send, the enable inside a `FILL` raises no TX-done. -/
theorem fillWords_ris {p : Params} (hL : p.layout.legal = true) {b c : Block} {n : Nat} (h0 : 0 < n) (hn : n ≤ 32)
    (h : b.fillWords p.layout n c) (r : BitVec 4) : c.risAtEnable p r = r := by
  rw [Block.risAtEnable, fillWords_frameCount hL hn h, if_neg]
  omega

end Sys2Proof.Machine
end

