-- ==== Sys2Proof/Laws/Clock.lean ====
section
/-! SUPPORT. The arithmetic of the clock calculator, and what `APPLY_CLK` does. -/

namespace Sys2Proof.Machine

/-! ### Arithmetic -/

theorem lt_ceilDiv_iff {a b : Nat} (k : Nat) (hb : 0 < b) : k < ceilDiv a b ↔ k * b < a := by
  rw [ceilDiv, Nat.lt_iff_add_one_le, Nat.le_div_iff_mul_le hb, Nat.add_mul]
  omega

theorem ceilDiv_le_iff {a b : Nat} (k : Nat) (hb : 0 < b) : ceilDiv a b ≤ k ↔ a ≤ k * b := by
  have := lt_ceilDiv_iff (a := a) k hb
  omega

theorem le_floorLog2_iff {q : Nat} (k : Nat) (hq : 0 < q) : k ≤ floorLog2 q ↔ 2 ^ k ≤ q :=
  Nat.le_log2 (by omega)

theorem floorLog2_lt_iff {q : Nat} (k : Nat) (hq : 0 < q) : floorLog2 q < k ↔ q < 2 ^ k :=
  Nat.log2_lt (by omega)

/-- Mode 1 is chosen exactly for ratios above 2 and up to 512 (`40_clock.md` R101 (a)). -/
theorem mode1_iff {src t : Nat} (ht : 0 < t) (_hs : 0 < src) :
    (1 ≤ ceilDiv src (2 * t) - 1 ∧ ceilDiv src (2 * t) - 1 ≤ 255) ↔ (2 * t < src ∧ src ≤ 512 * t) := by
  have hb : 0 < 2 * t := by omega
  have h1 := lt_ceilDiv_iff (a := src) 1 hb
  have h2 := ceilDiv_le_iff (a := src) 256 hb
  omega

/-- What the calculator answers, by cases on the ratio (R100, R101 (c)). -/
theorem calcDivider_cases (target src : Nat) :
    (src = 0 ∨ min target src = 0 ∨ 65535 * min target src < src) ∧ calcDivider target src = none ∨
    0 < min target src ∧ 2 * min target src < src ∧ src ≤ 512 * min target src ∧
      calcDivider target src = some (true, ceilDiv src (2 * min target src) - 1) ∨
    0 < min target src ∧ 0 < src ∧ ¬(2 * min target src < src ∧ src ≤ 512 * min target src) ∧
      src ≤ 65535 * min target src ∧
      calcDivider target src = some (false, floorLog2 (ceilDiv src (min target src))) := by
  unfold calcDivider
  by_cases hs : src = 0
  · simp [hs]
  · simp only [hs, if_false]
    generalize hm : min target src = t
    by_cases ht : t = 0
    · simp [ht]
    · have hs' : 0 < src := by omega
      have ht' : 0 < t := by omega
      have h1 := mode1_iff (src := src) ht' hs'
      have hq : 0 < ceilDiv src t := (lt_ceilDiv_iff 0 ht').2 (by omega)
      have h2 := floorLog2_lt_iff 16 hq
      have h3 := ceilDiv_le_iff (a := src) 65535 ht'
      simp only [ht, if_false]
      by_cases hg : 1 ≤ ceilDiv src (2 * t) - 1 ∧ ceilDiv src (2 * t) - 1 ≤ 255
      · rw [if_pos hg]
        have := h1.1 hg
        exact .inr (.inl ⟨ht', this.1, this.2, rfl⟩)
      · rw [if_neg hg]
        have hn : ¬(2 * t < src ∧ src ≤ 512 * t) := fun h => hg (h1.2 h)
        by_cases hf : floorLog2 (ceilDiv src t) > 15
        · rw [if_pos hf]
          exact .inl ⟨.inr (.inr (by omega)), rfl⟩
        · rw [if_neg hf]
          exact .inr (.inr ⟨ht', hs', hn, by omega, rfl⟩)

/-- The ranges of a calculated pair (`10_state.md` R11). -/
theorem calcDivider_range {target src : Nat} {m : Bool} {g : Nat} (h : calcDivider target src = some (m, g)) :
    (m = true → 1 ≤ g ∧ g ≤ 255) ∧ (m = false → g ≤ 15) := by
  rcases calcDivider_cases target src with ⟨-, h1⟩ | ⟨h0, h2, h3, h1⟩ | ⟨h0, hs, -, h3, h1⟩
  · rw [h1] at h; cases h
  · rw [h1] at h; cases h
    have := (mode1_iff h0 (by omega)).2 ⟨h2, h3⟩
    exact ⟨fun _ => this, fun h => by cases h⟩
  · rw [h1] at h; cases h
    refine ⟨fun h => (by cases h), fun _ => ?_⟩
    have hq := (lt_ceilDiv_iff (a := src) 0 h0).2 (by omega)
    have h4 := floorLog2_lt_iff 16 hq
    have h5 := ceilDiv_le_iff (a := src) 65535 h0
    omega

/-! ### Apply-clock -/

theorem applyClk_configStep (s : State) : ConfigStep s 7 (applyClk s) :=
  (((disableCtl_configStep s).trans (regWrite_configStep _ _ (by decide))).trans
    (rmw_configStep _ _ (by decide) (by decide))).trans (enableCtl_configStep _)

@[simp] theorem applyClk_params (s : State) : (applyClk s).params = s.params := (applyClk_configStep s).params
@[simp] theorem applyClk_eng (s : State) : (applyClk s).eng = s.eng := (applyClk_configStep s).eng

section
variable {s : State} (hL : s.params.layout.legal = true)
include hL

theorem applyClk_mid1 : MidStep s 3 (regWrite .clkGen (clkGenWord s.eng.clkGen) (disableCtl s)) :=
  (disableCtl_midStep hL).trans (regWrite_midStep _ (disableCtl_clear hL) (.inr (.inl rfl)))

theorem applyClk_mid2 :
    MidStep s 5 (rmw .control (fun c => s.params.layout.set .clkmode c (bitWord s.eng.clkMode))
      (regWrite .clkGen (clkGenWord s.eng.clkGen) (disableCtl s))) := by
  have h := applyClk_mid1 hL
  refine h.trans (rmw_midStep _ (by rw [h.step.params]; exact h.disabled) ?_)
  rw [h.step.params, Layout.test_set_ne hL (by decide)]
  exact h.disabled

theorem applyClk_around : s.keepsAroundProtocol 7 (applyClk s) := by
  have := (applyClk_mid2 hL).enable hL
  simpa [applyClk] using this

theorem applyClk_words :
    (applyClk s).blk.control =
      s.params.layout.set .enable (s.params.layout.set .clkmode (s.params.layout.set .enable s.blk.control 0#32)
        (bitWord s.eng.clkMode)) 1#32 ∧
    (applyClk s).blk.clkGen = clkGenWord s.eng.clkGen &&& s.params.layout.genMask ∧
    (applyClk s).blk.frameSize = s.blk.frameSize ∧ (applyClk s).blk.ssel = s.blk.ssel ∧
    (applyClk s).blk.framesup = s.blk.framesup := by
  obtain ⟨d1, d2, d3, d4⟩ := disableCtl_words s
  have h1 := applyClk_mid1 hL
  have hc1 : (regWrite .clkGen (clkGenWord s.eng.clkGen) (disableCtl s)).blk =
      { (tick (disableCtl s)).blk with clkGen := clkGenWord s.eng.clkGen &&& s.params.layout.genMask } := by
    rw [regWrite_blk, disableCtl_params]; rfl
  generalize hu : regWrite .clkGen (clkGenWord s.eng.clkGen) (disableCtl s) = u at h1 hc1
  have hup : u.params = s.params := h1.step.params
  have hdis : u.params.layout.test .enable u.blk.control = false := by rw [hup]; exact h1.disabled
  obtain ⟨m1, m2, m3, m4⟩ :=
    (rmw_control_words (fun c => s.params.layout.set .clkmode c (bitWord s.eng.clkMode)) u).2
  have hmc := rmw_control_of_disabled (fun c => s.params.layout.set .clkmode c (bitWord s.eng.clkMode)) hdis
  obtain ⟨e1, e2, e3, e4⟩ :=
    enableCtl_words (rmw .control (fun c => s.params.layout.set .clkmode c (bitWord s.eng.clkMode)) u)
  have hc := enableCtl_control (s := rmw .control (fun c => s.params.layout.set .clkmode c (bitWord s.eng.clkMode)) u)
    (by simp [hup, hL])
  have hue : u.eng = s.eng := h1.step.eng
  simp only [applyClk, disableCtl_eng, hu, hup, hue]
  rw [hc, e1, e2, e3, e4, m1, m2, m3, m4, hmc, hc1]
  simp [hup, d1, d3, d4, disableCtl_control hL]

theorem applyClk_ports :
    (applyClk s).ports = s.ports ++
      [.regRead .control s.blk.control, .regWrite .control (s.params.layout.set .enable s.blk.control 0#32),
       .regWrite .clkGen (clkGenWord s.eng.clkGen),
       .regRead .control (s.params.layout.set .enable s.blk.control 0#32),
       .regWrite .control (s.params.layout.set .clkmode (s.params.layout.set .enable s.blk.control 0#32)
          (bitWord s.eng.clkMode)),
       .regRead .control (s.params.layout.set .clkmode (s.params.layout.set .enable s.blk.control 0#32)
          (bitWord s.eng.clkMode)),
       .regWrite .control (s.params.layout.set .enable (s.params.layout.set .clkmode
          (s.params.layout.set .enable s.blk.control 0#32) (bitWord s.eng.clkMode)) 1#32)] := by
  have h1 := applyClk_mid1 hL
  have hc1 : (regWrite .clkGen (clkGenWord s.eng.clkGen) (disableCtl s)).blk.control =
      s.params.layout.set .enable s.blk.control 0#32 := by
    rw [regWrite_blk, ← disableCtl_control hL, ← tick_control (disableCtl s)]; rfl
  have hports : (regWrite .clkGen (clkGenWord s.eng.clkGen) (disableCtl s)).ports =
      (disableCtl s).ports ++ [.regWrite .clkGen (clkGenWord s.eng.clkGen)] := by simp
  generalize hu : regWrite .clkGen (clkGenWord s.eng.clkGen) (disableCtl s) = u at h1 hc1 hports
  have hup : u.params = s.params := h1.step.params
  have hue : u.eng = s.eng := h1.step.eng
  have hdis : u.params.layout.test .enable u.blk.control = false := by rw [hup]; exact h1.disabled
  have hmc := rmw_control_of_disabled (fun c => s.params.layout.set .clkmode c (bitWord s.eng.clkMode)) hdis
  simp only [applyClk, disableCtl_eng, hu, hup, hue, enableCtl_ports, rmw_ports, rmw_params, readWord_control, hmc, hc1,
    hports, disableCtl_ports, List.append_assoc, List.cons_append, List.nil_append]

end

end Sys2Proof.Machine
end

