-- ==== Sys2Proof/Laws/Fetch.lean ====
section
/-! SUPPORT. Taking a request: what a step that finds a request waiting can do. -/

namespace Sys2Proof

/-- A word that decodes is an instruction of the source it came from (`30_encoding.md` R84, R85). -/
theorem decode_source {r : Request} {i : Instr} (h : decode r = .ok i) : i.source = r.source := by
  unfold decode at h
  split at h
  · rename_i hs
    rw [hs]
    unfold decodeCommand at h
    repeat' split at h
    all_goals first | (cases h; done) | (cases h; rfl)
  · rename_i hs
    rw [hs]
    unfold decodeEvent at h
    split at h
    · cases h; rfl
    · cases h
  · rename_i hs
    rw [hs]
    unfold decodeMicro at h
    split at h
    all_goals first | (cases h; done) | (cases h; rfl)

end Sys2Proof

namespace Sys2Proof.Machine

/-- A request is barred exactly when it is a call of a micro-operation during a transfer (`10_state.md` R29) or in an instance
torn down (`44_init_teardown.md` R151). -/
theorem callBarred_iff (src : Source) (s : State) :
    callBarred src s = true ↔ src = .sequencer ∧ (s.eng.state = .transferring ∨ s.eng.live = .removed) := by
  simp [callBarred]

/-- A request that is barred is turned away, whatever its word. -/
theorem runRequest_of_callBarred {r : Request} {s : State} (h : callBarred r.source s = true) :
    runRequest r s = .next (rejectRequest r.source s) := by
  unfold runRequest
  split
  · rw [if_pos h]
  · rfl

/-- A request that decodes and is not barred runs. -/
theorem runRequest_of_decode {r : Request} {s : State} {i : Instr} (hd : decode r = .ok i)
    (h : r.source = .sequencer → s.eng.state ≠ .transferring ∧ s.eng.live ≠ .removed) : runRequest r s = exec i s := by
  have : ¬ callBarred r.source s = true := fun k => by
    obtain ⟨hs, ht | hl⟩ := (callBarred_iff _ _).1 k
    · exact (h hs).1 ht
    · exact (h hs).2 hl
  simp only [runRequest, hd, if_neg this]

/-- A request is run as the instruction it decodes to, or turned away. -/
theorem runRequest_cases (r : Request) (s : State) :
    (∃ i, decode r = .ok i ∧ i.source = r.source ∧ callBarred r.source s = false ∧ runRequest r s = exec i s) ∨
    runRequest r s = .next (rejectRequest r.source s) := by
  cases hd : decode r with
  | error e => exact .inr (by simp only [runRequest, hd])
  | ok i =>
    cases ho : callBarred r.source s with
    | true => exact .inr (runRequest_of_callBarred ho)
    | false => exact .inl ⟨i, rfl, decode_source hd, rfl, by simp only [runRequest, hd, ho]; rfl⟩

/-- A request that is turned away reaches one of the three answers only. -/
theorem rejectRequest_keeps (src : Source) (s : State) :
    (rejectRequest src s).params = s.params ∧ (rejectRequest src s).eng = s.eng ∧ (rejectRequest src s).blk = s.blk ∧
    (rejectRequest src s).clock = s.clock ∧ (rejectRequest src s).mem = s.mem ∧
    (rejectRequest src s).otherIrq = s.otherIrq ∧ (rejectRequest src s).ports = s.ports ∧
    (rejectRequest src s).inputs = s.inputs ∧ (rejectRequest src s).env = s.env := by
  cases src <;> exact ⟨rfl, rfl, rfl, rfl, rfl, rfl, rfl, rfl, rfl⟩

end Sys2Proof.Machine
end

