-- ==== Sys2Proof/Laws/Fields.lean ====
section
/-! SUPPORT. Single bits and untouched bits of a `CONTROL` word after its fields are written (`30_encoding.md` R70, R72). -/

namespace Sys2Proof.Machine

section
variable {L : Layout} {fs : List CtlField} {c d : Word}

theorem Layout.sameOutside.rfl' (L : Layout) (fs : List CtlField) (c : Word) : L.sameOutside fs c c := fun _ _ => rfl

/-- A write to a listed field leaves the bits outside the list. -/
theorem Layout.sameOutside.set {f : CtlField} (h : L.sameOutside fs c d) (v : Word) (hf : f ∈ fs) :
    L.sameOutside fs c (L.set f d v) := by
  intro i hi
  rw [Layout.set, getLsbD_setField, if_neg]
  · exact h i hi
  · rintro ⟨h1, h2, _⟩
    exact hi f hf ⟨h1, h2⟩

/-- A bit of `INTEN` is the bit of one of the four enables (R72). -/
theorem Layout.getLsbD_intenMask_pos (h : L.legal = true) (k : IntSrc) :
    L.intenMask.getLsbD (L.pos k.inten) = true := by
  have hk := L.pos_lt h k.inten
  simp only [Layout.intenMask, BitVec.getLsbD_or, getLsbD_bitMask]
  cases k <;> simp only [IntSrc.inten] at hk ⊢ <;> simp [hk]

theorem Layout.getLsbD_intenMask_of_ne (L : Layout) {i : Nat} (hi : ∀ k : IntSrc, i ≠ L.pos k.inten) :
    L.intenMask.getLsbD i = false := by
  have h1 := hi .txdone
  have h2 := hi .rxrdy
  have h3 := hi .rxovf
  have h4 := hi .txunder
  simp only [IntSrc.inten] at h1 h2 h3 h4
  simp [Layout.intenMask, getLsbD_bitMask, h1, h2, h3, h4]

/-- Outside the enables, `INTEN` has no bit. -/
theorem Layout.intenMask_outside (hf : ∀ k : IntSrc, k.inten ∈ fs) {i : Nat} (hi : ∀ f ∈ fs, ¬ L.covers f i) :
    L.intenMask.getLsbD i = false := by
  refine L.getLsbD_intenMask_of_ne fun k hk => hi _ (hf k) ⟨by omega, ?_⟩
  have := k.inten.width_pos
  omega

theorem Layout.sameOutside.or_inten (h : L.sameOutside fs c d) (hf : ∀ k : IntSrc, k.inten ∈ fs) :
    L.sameOutside fs c (d ||| L.intenMask) := by
  intro i hi
  rw [BitVec.getLsbD_or, h i hi, Layout.intenMask_outside hf hi, Bool.or_false]

theorem Layout.sameOutside.and_inten (h : L.sameOutside fs c d) (hf : ∀ k : IntSrc, k.inten ∈ fs) :
    L.sameOutside fs c (d &&& ~~~L.intenMask) := by
  intro i hi
  rw [BitVec.getLsbD_and, h i hi, BitVec.getLsbD_not, Layout.intenMask_outside hf hi]
  cases hx : c.getLsbD i
  · rfl
  · simp [BitVec.lt_of_getLsbD hx]

end

section
variable {L : Layout} (h : L.legal = true)
include h

/-- The lowest bit of a field after a bit was written to it. -/
theorem Layout.getLsbD_set_same (f : CtlField) (w : Word) (b : Bool) :
    (L.set f w (bitWord b)).getLsbD (L.pos f) = b :=
  (L.test_set_same h f w (bitWord b)).trans (getLsbD_bitWord_zero b)

/-- The lowest bit of a field after a write to another. -/
theorem Layout.getLsbD_set_ne {f g : CtlField} (hfg : f ≠ g) (w v : Word) :
    (L.set g w v).getLsbD (L.pos f) = w.getLsbD (L.pos f) := L.test_set_ne h hfg w v

theorem Layout.getLsbD_set_enable (w : Word) : (L.set .enable w 1#32).getLsbD L.enable = true :=
  L.getLsbD_set_same h .enable w true

theorem Layout.getLsbD_clear_enable (w : Word) : (L.set .enable w 0#32).getLsbD L.enable = false :=
  L.getLsbD_set_same h .enable w false

/-- A field other than an enable keeps its bits where `INTEN` is set. -/
theorem Layout.get_or_inten {f : CtlField} (hf : ∀ k : IntSrc, f ≠ k.inten) (w : Word) :
    L.get f (w ||| L.intenMask) = L.get f w := by
  apply BitVec.eq_of_getLsbD_eq
  intro i _
  simp only [Layout.get, getLsbD_getField, BitVec.getLsbD_or]
  by_cases hi : i < f.width
  · rw [L.getLsbD_intenMask_of_ne fun k hk => ?_, Bool.or_false]
    have := L.fields_apart h (hf k)
    have := k.inten.width_pos
    omega
  · simp [hi]

/-- A field that holds a bit of another word is that field of the word. -/
theorem Layout.getLsbD_set_get (f : CtlField) (w o : Word) {i : Nat} (hi : L.covers f i) :
    (L.set f w (L.get f o)).getLsbD i = o.getLsbD i := by
  have h32 := L.pos_add_width_le h f
  obtain ⟨h1, h2⟩ := hi
  rw [Layout.set, getLsbD_setField, if_pos ⟨h1, h2, by omega⟩, Layout.get, getLsbD_getField,
    Nat.add_sub_of_le h1, decide_eq_true (show i - L.pos f < 32 by omega),
    decide_eq_true (show i - L.pos f < f.width by omega)]
  rfl

/-- Two fields share no bit. -/
theorem Layout.covers_unique {f g : CtlField} (hfg : f ≠ g) {i : Nat} (hi : L.covers f i) : ¬ L.covers g i := by
  have := L.fields_apart h hfg
  unfold Layout.covers at *
  omega

end

end Sys2Proof.Machine
end

