-- ==== Sys2Proof/Laws/Interrupt.lean ====
section
/-! SUPPORT. One interrupt service, part by part: everything it can have done when it answers, and when it answers. -/

namespace Sys2Proof.Machine

/-! ### Acknowledging -/

theorem ackSource_configStep (k : IntSrc) (s : State) : ConfigStep s 1 (ackSource k s) := ackBit_configStep _ s

theorem ackBit_blk (n : Nat) (s : State) :
    (ackBit n s).blk = { (tick s).blk with ris := (tick s).blk.ris &&& ~~~((bitMask n).extractLsb' 0 4) } := by
  rw [ackBit, regWrite_blk]; rfl

theorem ackBit_sameWords (n : Nat) (s : State) : s.blk.sameWords (ackBit n s).blk := by
  rw [ackBit_blk]; exact tick_sameWords s

theorem bitMask_low {n : Nat} (h : n < 4) : (bitMask n).extractLsb' 0 4 = 1#4 <<< n := by
  have : ∀ k : Fin 4, (bitMask k.val).extractLsb' 0 4 = 1#4 <<< k.val := by decide
  exact this ⟨n, h⟩

theorem ackSource_ris_of_quiet {s : State} (hL : s.params.layout.legal = true) (k : IntSrc) (hq : s.env = []) :
    (ackSource k s).blk = { s.blk with ris := s.blk.ris &&& ~~~intMask s.params.layout k } := by
  rw [ackSource, ackBit_blk, tick_of_quiet hq, bitMask_low (Layout.intBit_lt hL k)]; rfl

theorem ackSource_ports (k : IntSrc) (s : State) :
    (ackSource k s).ports = s.ports ++ [.regWrite .intClear (bitMask (s.params.layout.intBit k))] := by
  simp [ackSource, ackBit]

@[simp] theorem ackSource_params (k : IntSrc) (s : State) : (ackSource k s).params = s.params :=
  (ackSource_configStep k s).params
@[simp] theorem ackSource_eng (k : IntSrc) (s : State) : (ackSource k s).eng = s.eng := (ackSource_configStep k s).eng

theorem and_not_zero (x : BitVec 4) : x &&& ~~~0#4 = x := by revert x; decide

/-! ### The TX-done part -/

/-- What the TX-done part of a service has done when it answers `fin` in `t`, `on` saying whether TX-done was seen: the bytes
`d` received and `b` sent, and the accesses of drain and fill (`43_interrupt.md` R140). -/
structure TxPart (s : State) (on : Bool) (d b : List Byte) (evD evF : List PortEvent) (fin : Bool) (t : State) : Prop where
  drain : if on = true then isDrain s.params s.eng.rxLen s.eng.rxBuf d evD else d = [] ∧ evD = []
  fill : if on = true ∧ 0 < s.eng.txLen then isFill s.params s.blk.control s.eng.txLen s.eng.txBuf b evF
    else b = [] ∧ evF = []
  leD : d.length ≤ min s.eng.rxLen 32
  leB : b.length ≤ min s.eng.txLen 32
  ports : s.params.layout.legal = true → t.ports = s.ports ++
    if on = true then .regWrite .intClear (bitMask (s.params.layout.intBit .txdone)) :: (evD ++ evF) else []
  eng : t.eng = { s.eng with
    rxLen := s.eng.rxLen - d.length, txLen := s.eng.txLen - b.length, pending := s.eng.pending - d.length + b.length,
    rxBuf := s.eng.rxBuf.map (advance s.params.addrW d.length), txBuf := s.eng.txBuf.map (advance s.params.addrW b.length) }
  fin : fin = (on && decide (s.eng.rxLen - d.length = 0))
  platform : s.keepsPlatform (if on = true then 1 + (evD.length + evF.length) else 0) t
  memAbsent : on = false ∨ s.eng.rxBuf = none →
    t.mem = (ticks (if on = true then 1 + (evD.length + evF.length) else 0) s).mem
  memStill : s.hostStill → t.mem = storeAll s.params.addrW s.eng.rxBuf d s.mem
  results : s.keepsResults t
  words : s.params.layout.legal = true →
    if on = true ∧ 0 < s.eng.txLen then s.blk.fillWords s.params.layout (min s.eng.txLen 32) t.blk
    else s.blk.sameWords t.blk
  wf : s.mem.wf s.params.addrW = true → s.blk.Wf s.params → t.mem.wf s.params.addrW = true ∧ t.blk.Wf s.params
  quiet : s.env = [] → s.params.layout.legal = true → s.blk.txq.length ≤ 32 →
    t.blk.txq = s.blk.txq ++ b ∧ t.blk.rxq = s.blk.rxq.drop d.length ∧ t.blk.wire = s.blk.wire ∧
    t.blk.openWord = s.blk.openWord ∧
    t.blk.ris = s.blk.ris &&& ~~~(if on = true then intMask s.params.layout .txdone else 0#4) ∧
    (on = true → d = s.blk.rxq.take (min s.eng.rxLen 32)) ∧
    (on = true → b.length = min (min s.eng.txLen 32) (32 - s.blk.txq.length)) ∧
    t.blk.framesSent = (if on = true ∧ 0 < s.eng.txLen then 0 else s.blk.framesSent)

theorem hostHolds_platform {s t : State} {n : Nat} (hh : s.hostHolds) (h : s.keepsPlatform n t) : t.hostHolds :=
  fun es hes => hh es (List.mem_of_mem_drop (i := n) (by rwa [h.2.2.2.2, ticks_env] at hes))

theorem hostStill_platform {s t : State} {n : Nat} (hh : s.hostStill) (h : s.keepsPlatform n t) : t.hostStill :=
  fun es hes => hh es (List.mem_of_mem_drop (i := n) (by rwa [h.2.2.2.2, ticks_env] at hes))

theorem keepsPlatform_env_nil {s t : State} {n : Nat} (hq : s.env = []) (h : s.keepsPlatform n t) : t.env = [] := by
  rw [h.2.2.2.2, ticks_env, hq]; simp

theorem storeAll_nil (w : Nat) (buf : Option Nat) (m : Memory) : storeAll w buf [] m = m := by cases buf <;> rfl

/-- A drain if anything remains, in the words of a drain. -/
theorem drainIfAny_drained {s t : State} (h : drainIfAny s = .next t) : ∃ d ev, Drained s d ev t := by
  unfold drainIfAny at h
  split at h
  · exact drainBurst_drained h
  · cases h; exact ⟨[], [], drained_nil (by omega)⟩

/-- Everything the TX-done part can have done. -/
theorem serveTxDone_part {f : Word} {s : State} {r : Bool × State} (h : serveTxDone f s = .next r) :
    ∃ d b evD evF, TxPart s (irqBit s.params.layout f .txdone) d b evD evF r.1 r.2 := by
  unfold serveTxDone at h
  split at h
  · rename_i hon
    rw [hon]
    obtain ⟨t1, ht1, h⟩ := andThen_eq_next h
    obtain ⟨t2, ht2, h⟩ := andThen_eq_next h
    cases h
    have hacs := ackSource_configStep .txdone s
    have hack := hacs.outside.platform
    have hackp := ackSource_ports .txdone s
    have hackw : s.blk.sameWords (ackSource .txdone s).blk := ackBit_sameWords _ s
    have hackq := fun (hL : s.params.layout.legal = true) => ackSource_ris_of_quiet hL .txdone
    have hacke := ackSource_eng .txdone s
    generalize ackSource .txdone s = u at ht1 hacs hack hackp hackw hackq hacke
    have hup : u.params = s.params := hack.1
    obtain ⟨d, evD, hD⟩ := drainIfAny_drained ht1
    have h1p : t1.params = s.params := hD.platform.1.trans hup
    have h1e := hD.eng
    rw [hacke, hup] at h1e
    have h1c : t1.blk.control = s.blk.control := hD.words.1.trans hackw.1
    have hDb := hD.burst
    rw [hup, hacke] at hDb
    have hDle := hD.le
    rw [hacke] at hDle
    unfold fillIfAny at ht2
    split at ht2
    · rename_i htx
      obtain ⟨b, evF, hF⟩ := fillBurst_filled ht2
      have hFb := hF.burst
      rw [h1p, h1e, h1c] at hFb
      have htx' : 0 < s.eng.txLen := by rw [h1e] at htx; exact htx
      have hFle := hF.le
      rw [h1e] at hFle
      have h2e := hF.eng
      rw [h1e, h1p] at h2e
      refine ⟨d, b, evD, evF, ?_⟩
      exact {
        drain := hDb
        fill := by rw [if_pos ⟨rfl, htx'⟩]; exact hFb
        leD := hDle, leB := hFle
        ports := fun hL => by
          rw [if_pos rfl, hF.ports (by rw [h1p]; exact hL), hD.ports, hackp]; simp
        eng := h2e
        fin := by simp [h2e]
        platform := by
          have := (hack.trans hD.platform).trans hF.platform
          rw [if_pos rfl, ← Nat.add_assoc]
          exact this
        memAbsent := fun hor => by
          rcases hor with hor | hor
          · cases hor
          · rw [if_pos rfl, ← Nat.add_assoc]
            have h3 := mem_ticks_trans hack hacs.outside.2.2.2.2.1
              (hD.memAbsent (by rw [hacke]; exact hor))
            exact mem_ticks_trans (hack.trans hD.platform) h3 hF.mem
        memStill := fun hh => by
          have hu := hostStill_platform hh hack
          have h1 := hostStill_platform hu hD.platform
          rw [hF.mem, ticks_mem_of_still _ h1, hD.memStill hu, hacs.outside.2.2.2.2.1, ticks_mem_of_still _ hh, hacke, hup]
        results := (hacs.results.trans hD.results).trans hF.results
        words := fun hL => by
          rw [if_pos ⟨rfl, htx'⟩]
          obtain ⟨w1, w2, w3, w4, w5⟩ := hF.words (by rw [h1p]; exact hL)
          obtain ⟨v1, v2, v3, v4, v5⟩ := hackw.trans hD.words
          rw [h1p, h1c, h1e] at w1
          exact ⟨w1, w2, w3.trans v2, w4.trans v3, w5.trans v4⟩
        wf := fun hm hb => by
          obtain ⟨a1, a2⟩ := hacs.wf hm hb
          obtain ⟨b1, b2⟩ := hD.wf (by rw [hup]; exact a1) (by rw [hup]; exact a2)
          have := hF.wf (by rw [h1p, ← hup]; exact b1) (by rw [h1p, ← hup]; exact b2)
          rwa [h1p] at this
        quiet := fun hq hL hl => by
          have hub := hackq hL hq
          have huq := keepsPlatform_env_nil hq hack
          have h1q := keepsPlatform_env_nil huq hD.platform
          obtain ⟨p1, p2⟩ := hD.quiet huq (by rw [hup]; exact hL)
          have hL1 : t1.params.layout.legal = true := by rw [h1p]; exact hL
          obtain ⟨q1, q2, q3, q4, q5, q6, q7, -⟩ := hF.quiet h1q hL1 (by rw [p1, hub]; exact hl)
          have hw := hF.words hL1
          have h1t : t1.eng.txLen = s.eng.txLen := by rw [h1e]
          rw [fillWords_ris hL1 (by rw [h1t]; omega) (by omega) hw] at q6
          rw [p1, hub] at q1 q2 q3 q4 q6 q7
          rw [hub, hacke] at p2
          rw [h1t] at q7
          refine ⟨q1, q2, q3, q4, ?_, fun _ => p2, fun _ => q7, ?_⟩
          · rw [if_pos rfl]; exact q6
          · rw [if_pos ⟨rfl, htx'⟩]; exact q5 }
    · rename_i htx
      cases ht2
      have htx' : ¬ 0 < s.eng.txLen := by rw [h1e] at htx; exact htx
      refine ⟨d, [], evD, [], ?_⟩
      exact {
        drain := hDb
        fill := by rw [if_neg (fun k => htx' k.2)]; exact ⟨rfl, rfl⟩
        leD := hDle, leB := by simp
        ports := fun hL => by rw [if_pos rfl, hD.ports, hackp]; simp
        eng := by rw [h1e]; simp [map_advance_zero]
        fin := by simp [h1e]
        platform := by
          have := hack.trans hD.platform
          simpa using this
        memAbsent := fun hor => by
          rcases hor with hor | hor
          · cases hor
          · rw [if_pos rfl]
            exact mem_ticks_trans hack hacs.outside.2.2.2.2.1 (hD.memAbsent (by rw [hacke]; exact hor))
        memStill := fun hh => by
          have hu := hostStill_platform hh hack
          rw [hD.memStill hu, hacs.outside.2.2.2.2.1, ticks_mem_of_still _ hh, hacke, hup]
        results := hacs.results.trans hD.results
        words := fun hL => by
          rw [if_neg (fun k => htx' k.2)]
          exact hackw.trans hD.words
        wf := fun hm hb => by
          obtain ⟨a1, a2⟩ := hacs.wf hm hb
          have := hD.wf (by rw [hup]; exact a1) (by rw [hup]; exact a2)
          rwa [hup] at this
        quiet := fun hq hL hl => by
          have hub := hackq hL hq
          have huq := keepsPlatform_env_nil hq hack
          obtain ⟨p1, p2⟩ := hD.quiet huq (by rw [hup]; exact hL)
          rw [hub] at p1
          rw [hub, hacke] at p2
          rw [p1]
          refine ⟨by simp, rfl, rfl, rfl, by rw [if_pos rfl], fun _ => p2, fun _ => ?_, ?_⟩
          · simp; omega
          · rw [if_neg (fun k => htx' k.2)] }
  · rename_i hoff
    cases h
    rw [Bool.not_eq_true] at hoff
    rw [hoff]
    refine ⟨[], [], [], [], ?_⟩
    exact {
      drain := ⟨rfl, rfl⟩, fill := ⟨rfl, rfl⟩, leD := by simp, leB := by simp
      ports := fun _ => by simp
      eng := by simp [map_advance_zero]
      fin := rfl
      platform := .rfl' s
      memAbsent := fun _ => rfl
      memStill := fun _ => by rw [storeAll_nil]
      results := .rfl' s
      words := fun _ => .rfl' _
      wf := fun h1 h2 => ⟨h1, h2⟩
      quiet := fun _ _ _ => ⟨by simp, by simp, rfl, rfl, (and_not_zero _).symm, by simp, by simp, by simp⟩ }

/-- The TX-done part answers when the host holds the bytes of the bursts lent (`20_memory.md` R53). -/
theorem serveTxDone_completes (f : Word) (s : State) (hh : s.hostHolds)
    (hr : s.mem.lends s.params.addrW s.eng.rxBuf (min s.eng.rxLen 32)) (ht : s.mem.lends s.params.addrW s.eng.txBuf (min s.eng.txLen 32)) :
    ∃ r, serveTxDone f s = .next r := by
  unfold serveTxDone
  split
  · have hacs := ackSource_configStep .txdone s
    have hum : ∀ w buf n, s.mem.lends w buf n → (ackSource .txdone s).mem.lends w buf n := fun w buf n hl => by
      rw [hacs.outside.2.2.2.2.1]; exact hl.ticks 1 hh
    have huh := hostHolds_platform hh hacs.outside.platform
    have h1 : ∃ t1, drainIfAny (ackSource .txdone s) = .next t1 := by
      unfold drainIfAny
      split
      · exact drainBurst_completes _ huh (by rw [ackSource_eng, ackSource_params]; exact hum _ _ _ hr)
      · exact ⟨_, rfl⟩
    obtain ⟨t1, ht1⟩ := h1
    obtain ⟨d, evD, hD⟩ := drainIfAny_drained ht1
    have h2 : ∃ t2, fillIfAny t1 = .next t2 := by
      unfold fillIfAny
      split
      · refine fillBurst_completes _ (hostHolds_platform huh hD.platform) ?_
        rw [hD.eng, ackSource_eng, hD.platform.1, ackSource_params]
        exact hD.memLends huh _ _ _ (hum _ _ _ ht)
      · exact ⟨_, rfl⟩
    obtain ⟨t2, ht2⟩ := h2
    rw [ht1, andThen_next, ht2, andThen_next]
    exact ⟨_, rfl⟩
  · exact ⟨_, rfl⟩

/-! ### The other parts -/

/-- The events of a fault part, `on` saying whether the fault was seen (R140). -/
def faultPorts (L : Layout) (k : ErrKind) (on : Bool) (e : Engine) : List PortEvent :=
  if on = true then
    [.regWrite .intClear (bitMask (L.intBit k.src)), .emitError { kind := k, rxLen := e.rxLen, txLen := e.txLen }]
  else []

/-- What a part that acknowledges at most one source, and may log, has done. -/
structure AckPart (s : State) (k : IntSrc) (on : Bool) (t : State) : Prop where
  platform : s.keepsPlatform (if on = true then 1 else 0) t
  mem : t.mem = (ticks (if on = true then 1 else 0) s).mem
  results : s.keepsResults t
  words : s.blk.sameWords t.blk
  wf : s.mem.wf s.params.addrW = true → s.blk.Wf s.params → t.mem.wf s.params.addrW = true ∧ t.blk.Wf s.params
  quiet : s.env = [] → s.params.layout.legal = true →
    t.blk = { s.blk with ris := s.blk.ris &&& ~~~(if on = true then intMask s.params.layout k else 0#4) }

theorem emitError_keeps (k : ErrKind) (s : State) :
    (emitError k s).params = s.params ∧ (emitError k s).mem = s.mem ∧ (emitError k s).blk = s.blk := by
  simp

theorem serveRxReady_part (f : Word) (s : State) :
    AckPart s .rxrdy (irqBit s.params.layout f .rxrdy) (serveRxReady f s) ∧ (serveRxReady f s).eng = s.eng ∧
    (serveRxReady f s).ports = s.ports ++
      if irqBit s.params.layout f .rxrdy = true then [.regWrite .intClear (bitMask (s.params.layout.intBit .rxrdy))]
      else [] := by
  unfold serveRxReady
  split
  · rename_i hon
    have h := ackSource_configStep .rxrdy s
    refine ⟨?_, h.eng, ?_⟩
    · rw [hon]
      exact ⟨h.outside.platform, h.outside.2.2.2.2.1, h.results, ackBit_sameWords _ _, h.wf,
        fun hq hL => ackSource_ris_of_quiet hL _ hq⟩
    · exact ackSource_ports _ _
  · rename_i hoff
    rw [Bool.not_eq_true] at hoff
    refine ⟨?_, rfl, by simp⟩
    rw [hoff]
    exact ⟨.rfl' s, rfl, .rfl' s, .rfl' _, fun h1 h2 => ⟨h1, h2⟩, fun _ _ => by rw [if_neg (by simp), and_not_zero]⟩

theorem serveFault_part (k : ErrKind) (f : Word) (s : State) :
    AckPart s k.src (irqBit s.params.layout f k.src) (serveFault k f s) ∧
    (serveFault k f s).eng = { s.eng with errlog := s.eng.errlog ++
      (if irqBit s.params.layout f k.src = true then [ErrEntry.mk k s.eng.rxLen s.eng.txLen] else []) } ∧
    (serveFault k f s).ports = s.ports ++
      faultPorts s.params.layout k (irqBit s.params.layout f k.src) s.eng := by
  unfold serveFault faultPorts
  split
  · rename_i hon
    have h := ackSource_configStep k.src s
    refine ⟨?_, ?_, ?_⟩
    · rw [hon]
      obtain ⟨p1, p2, p3, p4, p5⟩ := h.outside.platform
      refine ⟨⟨p1, p2, p3, p4, p5⟩, h.outside.2.2.2.2.1, h.results, ackBit_sameWords _ _, h.wf, fun hq hL => ?_⟩
      rw [emitError_blk]
      exact ackSource_ris_of_quiet hL _ hq
    · simp
    · simp [ackSource_ports]
  · rename_i hoff
    rw [Bool.not_eq_true] at hoff
    refine ⟨?_, by simp, by simp⟩
    rw [hoff]
    exact ⟨.rfl' s, rfl, .rfl' s, .rfl' _, fun h1 h2 => ⟨h1, h2⟩, fun _ _ => by rw [if_neg (by simp), and_not_zero]⟩

end Sys2Proof.Machine
end

