-- ==== Sys2Proof/Laws/Lifecycle.lean ====
section
/-! SUPPORT. `INIT` and `TEARDOWN`: what each stage leaves alone, the words of the block at the end, and the accesses. -/

namespace Sys2Proof.Machine

/-! ### Stages that may change the engine's record -/

/-- What a stage of `n` accesses leaves alone: as `ConfigStep`, but for the engine's record. -/
structure OpStep (s : State) (n : Nat) (t : State) : Prop where
  platform : s.keepsPlatform n t
  mem : t.mem = (ticks n s).mem
  results : s.keepsResults t
  quiet : s.keepsQuietly t
  wf : s.mem.wf s.params.addrW = true → s.blk.Wf s.params → t.mem.wf s.params.addrW = true ∧ t.blk.Wf s.params

theorem ConfigStep.op {s t : State} {n : Nat} (h : ConfigStep s n t) : OpStep s n t :=
  ⟨h.outside.platform, h.outside.2.2.2.2.1, h.results, h.quiet, h.wf⟩

theorem OpStep.params {s t : State} {n : Nat} (h : OpStep s n t) : t.params = s.params := h.platform.1

theorem OpStep.trans {s t u : State} {n m : Nat} (h : OpStep s n t) (k : OpStep t m u) : OpStep s (n + m) u where
  platform := h.platform.trans k.platform
  mem := mem_ticks_trans h.platform h.mem k.mem
  results := h.results.trans k.results
  quiet := h.quiet.trans k.quiet
  wf := fun hm hb => by
    obtain ⟨h1, h2⟩ := h.wf hm hb
    have := k.wf (by rw [h.params]; exact h1) (by rw [h.params]; exact h2)
    rwa [h.params] at this

theorem ticks_succ' (n : Nat) (s : State) : ticks (n + 1) s = tick (ticks n s) := by rw [ticks_add]; rfl

/-- The rate of the clock service is a matter of the service and the schedule alone. -/
theorem tick_hz_congr {s t : State} (hc : s.clock.hz = t.clock.hz) (he : s.env = t.env) :
    (tick s).clock.hz = (tick t).clock.hz := by
  have hf : ∀ (es : List EnvEvent) (s t : State), s.clock.hz = t.clock.hz →
      (es.foldl applyEnv s).clock.hz = (es.foldl applyEnv t).clock.hz := by
    intro es
    induction es with
    | nil => exact fun _ _ h => h
    | cons e es ih => exact fun s t h => ih _ _ (by cases e <;> simp [applyEnv, h])
  unfold tick
  rw [he]
  split
  · exact hc
  · exact hf _ _ _ hc

theorem ticks_hz_congr (n : Nat) {s t : State} (hc : s.clock.hz = t.clock.hz) (he : s.env = t.env) :
    (ticks n s).clock.hz = (ticks n t).clock.hz := by
  induction n generalizing s t with
  | zero => exact hc
  | succ n ih => exact ih (tick_hz_congr hc he) (by simp [he])

/-- The rate a query after `n` accesses answers. -/
theorem clockAnswer_after {s t : State} {n : Nat} (h : s.keepsPlatform n t) :
    clockAnswer t = (ticks (n + 1) s).clock.hz := by
  rw [ticks_succ', clockAnswer]
  exact tick_hz_congr (by rw [h.2.2.1]) h.2.2.2.2

theorem initMaxSpeed_op (s : State) : OpStep s 1 (initMaxSpeed s) where
  platform := (afterClockRate_keepsOutside s).platform
  mem := (afterClockRate_keepsOutside s).2.2.2.2.1
  results := afterClockRate_keepsResults s
  quiet := fun hq => by
    have := tick_of_quiet hq
    simp [initMaxSpeed, afterClockRate, this, hq]
  wf := afterClockRate_wf s

theorem initRecord_op (s : State) : OpStep s 0 (initRecord s) where
  platform := ⟨rfl, rfl, rfl, rfl, rfl⟩
  mem := rfl
  results := ⟨rfl, rfl, rfl⟩
  quiet := fun hq => ⟨fun _ => rfl, rfl, rfl, hq, rfl, rfl, rfl, rfl⟩
  wf := fun h1 h2 => ⟨h1, h2⟩

/-! ### Read-modify-writes of `CONTROL` that touch no locked field -/

/-- A read-modify-write of `CONTROL` that carries the locked fields stores the modified word whole, whatever `ENABLE` is. -/
theorem rmw_control_of_carried {s : State} (f : Word → Word)
    (h : ∀ g, g = CtlField.framecnt ∨ g = .spo ∨ g = .sph →
      s.params.layout.get g (f s.blk.control) = s.params.layout.get g s.blk.control) :
    (rmw .control f s).blk.control = f s.blk.control := by
  rw [(rmw_control_words f s).1]
  exact lockedControl_carried (h _ (.inl rfl)) (h _ (.inr (.inl rfl))) (h _ (.inr (.inr rfl)))

/-- A read-modify-write of `CONTROL` that does not set `ENABLE` moves no latch and no frame counter by itself. -/
theorem rmw_control_ris_of_not_rising {s : State} (f : Word → Word)
    (h : s.params.layout.test .enable s.blk.control = true ∨
      s.params.layout.test .enable (lockedControl s.params.layout s.blk.control (f s.blk.control)) = false)
    (hq : s.env = []) :
    (rmw .control f s).blk.ris = s.blk.ris ∧ (rmw .control f s).blk.framesSent = s.blk.framesSent := by
  rw [rmw_control_blk_of_quiet f hq, writeControl_of_not_rising _ _ _ h]
  exact ⟨rfl, rfl⟩

/-! ### `INIT` -/

theorem initialise_op (s : State) : OpStep s 19 (initialise s) :=
  ((((((((rmw_configStep (r := .control) _ s (by decide) (by decide)).op.trans (setFrameSize_configStep _ _).op).trans
    (initMaxSpeed_op _)).trans (rmw_configStep (r := .control) _ _ (by decide) (by decide)).op).trans
    (enableInterrupts_configStep _).op).trans (regWrite_configStep (r := .slaveSelect) _ _ (by decide)).op).trans
    (rmw_configStep (r := .control) _ _ (by decide) (by decide)).op).trans (initRecord_op _))

theorem initialise_eng (s : State) :
    (initialise s).eng = { s.eng with
      maxSpeedHz := (ticks 8 s).clock.hz, state := .idle, live := .ready, txLen := 0, rxLen := 0, pending := 0,
      txBuf := none, rxBuf := none } := by
  have h1 : OpStep s 7 (setFrameSize Config.frameBits (initFraming s)) :=
    (rmw_configStep (r := .control) _ s (by decide) (by decide)).op.trans (setFrameSize_configStep _ _).op
  have he : (setFrameSize Config.frameBits (initFraming s)).eng = s.eng := by simp [initFraming]
  simp only [initialise, initRecord_eng, initRelease, initSelect, initBehaviour, initMaxSpeed, rmw_eng, regWrite_eng,
    enableInterrupts_eng, afterClockRate_eng, he, clockAnswer_after h1.platform]

section
variable {s : State} (hL : s.params.layout.legal = true)
include hL

theorem initFraming_control : (initFraming s).blk.control = initWord1 s.params.layout s.blk.control :=
  rmw_control_of_carried _ fun g hg => by
    rcases hg with rfl | rfl | rfl <;>
    rw [Layout.get_set_ne hL (by decide), Layout.get_set_ne hL (by decide)]

theorem initBehaviour_control :
    (initBehaviour s).blk.control = s.params.layout.set .bigfifo (s.params.layout.set .sps s.blk.control 1#32) 1#32 :=
  rmw_control_of_carried _ fun g hg => by
    rcases hg with rfl | rfl | rfl <;>
    rw [Layout.get_set_ne hL (by decide), Layout.get_set_ne hL (by decide)]

theorem initRelease_control : (initRelease s).blk.control = initWord4 s.params.layout s.blk.control :=
  rmw_control_of_carried _ fun g hg => by
    rcases hg with rfl | rfl | rfl <;>
    rw [Layout.get_set_ne hL (by decide), Layout.get_set_ne hL (by decide)]

end

theorem initSelect_words (s : State) :
    (initSelect s).blk.control = s.blk.control ∧
    (initSelect s).blk.ssel = s.params.layout.directWord &&& s.params.layout.sselMask ∧
    (initSelect s).blk.frameSize = s.blk.frameSize ∧ (initSelect s).blk.clkGen = s.blk.clkGen ∧
    (initSelect s).blk.framesup = s.blk.framesup := by
  rw [initSelect, regWrite_blk]
  simp only [blockWrite]
  exact ⟨tick_control s, trivial, tick_frameSize s, tick_clkGen s, tick_framesup s⟩

theorem directWord_and_sselMask (L : Layout) : L.directWord &&& L.sselMask = L.directWord := by
  apply BitVec.eq_of_getLsbD_eq
  intro i _
  simp only [Layout.sselMask, BitVec.getLsbD_and, BitVec.getLsbD_or]
  cases L.directWord.getLsbD i <;> simp

/-- The words of the block after `INIT` (`70_reset_and_hazards.md` R221). -/
theorem initialise_words {s : State} (hL : s.params.layout.legal = true) :
    (initialise s).blk.control = initWord4 s.params.layout (initWord3 s.params.layout (initWord2 s.params.layout
      (initWord1 s.params.layout s.blk.control))) ∧
    (initialise s).blk.frameSize = 8#32 &&& s.params.layout.sizeMask ∧ (initialise s).blk.ssel = s.params.layout.directWord ∧
    (initialise s).blk.clkGen = s.blk.clkGen ∧ (initialise s).blk.framesup = s.blk.framesup := by
  simp only [initialise, initRecord_blk]
  have h1c := initFraming_control hL
  have h1w : s.blk.sameWordsButControl (initFraming s).blk := (rmw_control_words _ s).2
  have h1p : (initFraming s).params = s.params := by simp [initFraming]
  generalize initFraming s = u1 at h1c h1w h1p
  obtain ⟨h2c, h2f, h2g, h2s, h2u⟩ := setFrameSize_words (s := u1) (by rw [h1p]; exact hL) Config.frameBits
  have h2p : (setFrameSize Config.frameBits u1).params = s.params := by simp [h1p]
  generalize setFrameSize Config.frameBits u1 = u2 at h2c h2f h2g h2s h2u h2p
  have h3w : u2.blk.sameWords (initMaxSpeed u2).blk := afterClockRate_sameWords u2
  have h3p : (initMaxSpeed u2).params = s.params := by simp [initMaxSpeed, h2p]
  generalize initMaxSpeed u2 = u3 at h3w h3p
  have h4c := initBehaviour_control (s := u3) (by rw [h3p]; exact hL)
  have h4w : u3.blk.sameWordsButControl (initBehaviour u3).blk := (rmw_control_words _ u3).2
  have h4p : (initBehaviour u3).params = s.params := by simp [initBehaviour, h3p]
  generalize initBehaviour u3 = u4 at h4c h4w h4p
  obtain ⟨h5c, h5w⟩ := enableInterrupts_words (s := u4) (by rw [h4p]; exact hL)
  have h5p : (enableInterrupts u4).params = s.params := by simp [h4p]
  generalize enableInterrupts u4 = u5 at h5c h5w h5p
  obtain ⟨h6c, h6s, h6f, h6g, h6u⟩ := initSelect_words u5
  have h6p : (initSelect u5).params = s.params := by simp [initSelect, h5p]
  generalize initSelect u5 = u6 at h6c h6s h6f h6g h6u h6p
  have h7c := initRelease_control (s := u6) (by rw [h6p]; exact hL)
  obtain ⟨h7f, h7g, h7s, h7u⟩ : u6.blk.sameWordsButControl (initRelease u6).blk := (rmw_control_words _ u6).2
  obtain ⟨h1f, h1g, h1s, h1u⟩ := h1w
  obtain ⟨h3c, h3f, h3g, h3s, h3u⟩ := h3w
  obtain ⟨h4f, h4g, h4s, h4u⟩ := h4w
  obtain ⟨h5f, h5g, h5s, h5u⟩ := h5w
  refine ⟨?_, ?_, ?_, ?_, ?_⟩
  · rw [h7c, h6p, h6c, h5c, h4p, h4c, h3p, h3c, h2c, h1p, h1c]; rfl
  · rw [h7f, h6f, h5f, h4f, h3f, h2f, h1p]; rfl
  · rw [h7s, h6s, h5p, directWord_and_sselMask]
  · rw [h7g, h6g, h5g, h4g, h3g, h2g, h1g]
  · rw [h7u, h6u, h5u, h4u, h3u, h2u, h1u]

theorem initialise_ports {s : State} (hL : s.params.layout.legal = true) :
    (initialise s).ports = s.ports ++ initPorts s.params.layout s.blk.control (ticks 8 s).clock.hz := by
  have hop : OpStep s 7 (setFrameSize Config.frameBits (initFraming s)) :=
    (rmw_configStep (r := .control) _ s (by decide) (by decide)).op.trans (setFrameSize_configStep _ _).op
  have hz := clockAnswer_after hop.platform
  simp only [initialise, initRecord_ports]
  have h1c := initFraming_control hL
  have h1t : (initFraming s).ports = s.ports ++
      [.regRead .control s.blk.control, .regWrite .control (initWord1 s.params.layout s.blk.control)] := by
    simp [initFraming, initWord1]
  have h1p : (initFraming s).params = s.params := by simp [initFraming]
  generalize initFraming s = u1 at h1c h1t h1p hz
  have h2c := (setFrameSize_words (s := u1) (by rw [h1p]; exact hL) Config.frameBits).1
  have h2t := setFrameSize_ports (s := u1) (by rw [h1p]; exact hL) Config.frameBits
  have h2p : (setFrameSize Config.frameBits u1).params = s.params := by simp [h1p]
  generalize setFrameSize Config.frameBits u1 = u2 at h2c h2t h2p hz
  have h3c : (initMaxSpeed u2).blk.control = u2.blk.control := tick_control u2
  have h3t : (initMaxSpeed u2).ports = u2.ports ++ [.clockRate (ticks 8 s).clock.hz] := by
    simp [initMaxSpeed, hz]
  have h3p : (initMaxSpeed u2).params = s.params := by simp [initMaxSpeed, h2p]
  generalize initMaxSpeed u2 = u3 at h3c h3t h3p
  have h4c := initBehaviour_control (s := u3) (by rw [h3p]; exact hL)
  have h4t : (initBehaviour u3).ports = u3.ports ++ [.regRead .control u3.blk.control, .regWrite .control
      (u3.params.layout.set .bigfifo (u3.params.layout.set .sps u3.blk.control 1#32) 1#32)] := by simp [initBehaviour]
  have h4p : (initBehaviour u3).params = s.params := by simp [initBehaviour, h3p]
  generalize initBehaviour u3 = u4 at h4c h4t h4p
  have h5c := (enableInterrupts_words (s := u4) (by rw [h4p]; exact hL)).1
  have h5t := enableInterrupts_ports (s := u4) (by rw [h4p]; exact hL)
  have h5p : (enableInterrupts u4).params = s.params := by simp [h4p]
  generalize enableInterrupts u4 = u5 at h5c h5t h5p
  have h6c := (initSelect_words u5).1
  have h6t : (initSelect u5).ports = u5.ports ++ [.regWrite .slaveSelect u5.params.layout.directWord] := by
    simp [initSelect]
  have h6p : (initSelect u5).params = s.params := by simp [initSelect, h5p]
  generalize initSelect u5 = u6 at h6c h6t h6p
  have h7t : (initRelease u6).ports = u6.ports ++
      [.regRead .control u6.blk.control, .regWrite .control (initWord4 u6.params.layout u6.blk.control)] := by
    simp [initRelease, initWord4]
  have h8 : zext32 Config.frameBits = 8#32 := by decide
  simp only [h7t, h6t, h5t, h4t, h3t, h2t, h1t, h6p, h5p, h4p, h3p, h1p, h6c, h5c, h4c, h3c, h2c, h1c, h8,
    List.append_assoc, List.cons_append, List.nil_append, initPorts, initWord2, initWord3]

/-! ### `TEARDOWN` -/

/-- The stages of `TEARDOWN` (`44_init_teardown.md` R151). -/
theorem teardown_clock (s : State) :
    (disableCtl (clockRelease (disableInterrupts s))).clock.held = false ∧
    (disableCtl (clockRelease (disableInterrupts s))).clock.hz = (ticks 9 s).clock.hz := by
  have h1 := (disableInterrupts_configStep s).outside.platform
  have h2 := (disableCtl_configStep (clockRelease (disableInterrupts s))).outside
  have h3 : (clockRelease (disableInterrupts s)).clock.hz = (ticks 7 s).clock.hz := by
    rw [ticks_succ']
    exact tick_hz_congr (by rw [h1.2.2.1]) h1.2.2.2.2
  have h4 : (clockRelease (disableInterrupts s)).env = (ticks 7 s).env := by
    have : (clockRelease (disableInterrupts s)).env = (tick (disableInterrupts s)).env := rfl
    rw [this, tick_env, h1.2.2.2.2, ticks_env, ticks_env, List.tail_drop]
  refine ⟨?_, ?_⟩
  · rw [h2.2.2.2.1]
    have hf : ∀ n (u : State), (ticks n u).clock.held = u.clock.held := by
      intro n
      induction n with
      | zero => exact fun _ => rfl
      | succ n ih => exact fun u => (ih _).trans (tick_clock_held u)
    rw [hf]; rfl
  · rw [h2.2.2.2.1]
    have := ticks_hz_congr 2 h3 h4
    rw [← ticks_add] at this
    exact this

theorem clockRelease_mem (s : State) : (clockRelease s).mem = (tick s).mem := rfl
theorem clockRelease_otherIrq (s : State) : (clockRelease s).otherIrq = (tick s).otherIrq := rfl
theorem clockRelease_env (s : State) : (clockRelease s).env = (tick s).env := rfl
theorem clockRelease_inputs (s : State) : (clockRelease s).inputs = s.inputs := by simp [clockRelease]

/-- The stages of `TEARDOWN` together leave the engine's record, memory, shared line and schedule to the other agents. -/
theorem teardown_outside (s : State) :
    (disableCtl (clockRelease (disableInterrupts s))).params = s.params ∧
    (disableCtl (clockRelease (disableInterrupts s))).eng = s.eng ∧
    (disableCtl (clockRelease (disableInterrupts s))).inputs = s.inputs ∧
    (disableCtl (clockRelease (disableInterrupts s))).mem = (ticks 9 s).mem ∧
    (disableCtl (clockRelease (disableInterrupts s))).otherIrq = (ticks 9 s).otherIrq ∧
    (disableCtl (clockRelease (disableInterrupts s))).env = (ticks 9 s).env := by
  have h1 := (disableInterrupts_configStep s).outside
  have h2 := (disableCtl_configStep (clockRelease (disableInterrupts s))).outside
  have hm : (clockRelease (disableInterrupts s)).mem = (ticks 7 s).mem := by
    rw [clockRelease_mem, ticks_succ']
    exact tick_mem_congr (h1.1.trans (ticks_params 6 s).symm) h1.2.2.2.2.1 h1.2.2.2.2.2.2
  have he : (clockRelease (disableInterrupts s)).env = (ticks 7 s).env := by
    rw [clockRelease_env, tick_env, h1.2.2.2.2.2.2, ticks_env, ticks_env, List.tail_drop]
  have ho : (clockRelease (disableInterrupts s)).otherIrq = (ticks 7 s).otherIrq := by
    rw [clockRelease_otherIrq, ticks_succ']
    exact (tick_platform_congr h1.2.2.2.1 h1.2.2.2.2.2.1 h1.2.2.2.2.2.2).2
  have hf : ∀ n (u v : State), u.otherIrq = v.otherIrq → u.env = v.env →
      (ticks n u).otherIrq = (ticks n v).otherIrq := by
    have hl : ∀ (es : List EnvEvent) (u v : State), u.otherIrq = v.otherIrq →
        (es.foldl applyEnv u).otherIrq = (es.foldl applyEnv v).otherIrq := by
      intro es
      induction es with
      | nil => exact fun _ _ h => h
      | cons e es ih => exact fun u v h => ih _ _ (by cases e <;> simp [applyEnv, h])
    intro n
    induction n with
    | zero => exact fun _ _ h _ => h
    | succ n ih =>
      intro u v h h'
      refine ih _ _ ?_ (by simp [h'])
      unfold tick
      rw [h']
      split
      · exact h
      · exact hl _ _ _ h
  refine ⟨by simp, by simp, ?_, ?_, ?_, ?_⟩
  · rw [h2.2.2.1, clockRelease_inputs]; exact h1.2.2.1
  · rw [h2.2.2.2.2.1]
    exact (ticks_mem_congr 2 (by simp) hm he).trans (by rw [← ticks_add])
  · rw [h2.2.2.2.2.2.1]
    exact (hf 2 _ _ ho he).trans (by rw [← ticks_add])
  · rw [h2.2.2.2.2.2.2, ticks_env, he, ticks_env, ticks_env, List.drop_drop]

section
variable {s : State} (hL : s.params.layout.legal = true)
include hL

theorem teardown_words :
    (disableCtl (clockRelease (disableInterrupts s))).blk.control =
      s.params.layout.set .enable (s.params.layout.set .enable s.blk.control 0#32 &&& ~~~s.params.layout.intenMask) 0#32 ∧
    s.blk.sameWordsButControl (disableCtl (clockRelease (disableInterrupts s))).blk := by
  obtain ⟨h1c, h1f, h1g, h1s, h1u⟩ := disableInterrupts_words hL
  have hp : (clockRelease (disableInterrupts s)).params = s.params := by simp
  obtain ⟨h2c, h2f, h2g, h2s, h2u⟩ := clockRelease_sameWords (disableInterrupts s)
  have h3c := disableCtl_control (s := clockRelease (disableInterrupts s)) (by rw [hp]; exact hL)
  obtain ⟨h3f, h3g, h3s, h3u⟩ := disableCtl_words (clockRelease (disableInterrupts s))
  refine ⟨?_, h3f.trans (h2f.trans h1f), h3g.trans (h2g.trans h1g), h3s.trans (h2s.trans h1s),
    h3u.trans (h2u.trans h1u)⟩
  rw [h3c, hp, h2c, h1c, Layout.set_set_same]

theorem teardown_ports :
    (disableCtl (clockRelease (disableInterrupts s))).ports = s.ports ++ teardownPorts s.params.layout s.blk.control := by
  have h1c := (disableInterrupts_words hL).1
  have h2c := (clockRelease_sameWords (disableInterrupts s)).1
  simp only [disableCtl_ports, clockRelease_ports, clockRelease_params, disableInterrupts_params,
    disableInterrupts_ports hL, h2c, h1c, teardownPorts, List.append_assoc, List.cons_append, List.nil_append]

end

theorem clockRelease_quiet {s : State} (hq : s.env = []) :
    (clockRelease s).env = [] ∧ (clockRelease s).mem = s.mem ∧ (clockRelease s).blk = s.blk ∧
    (clockRelease s).otherIrq = s.otherIrq := by
  simp [clockRelease, tick_of_quiet hq, hq]

/-- With no other agent acting `TEARDOWN` leaves memory and the FIFOs. -/
theorem teardown_quiet {s : State} (hq : s.env = []) :
    let t := disableCtl (clockRelease (disableInterrupts s))
    (∀ a, t.mem.read a = s.mem.read a) ∧ t.otherIrq = s.otherIrq ∧ t.env = [] ∧ t.blk.txq = s.blk.txq ∧
    t.blk.rxq = s.blk.rxq ∧ t.blk.wire = s.blk.wire ∧ t.blk.openWord = s.blk.openWord := by
  obtain ⟨a1, a2, a3, a4, a5, a6, a7, a8⟩ := (disableInterrupts_configStep s).quiet hq
  obtain ⟨b1, b2, b3, b4⟩ := clockRelease_quiet a4
  obtain ⟨c1, c2, c3, c4, c5, c6, c7, c8⟩ := (disableCtl_configStep (clockRelease (disableInterrupts s))).quiet b1
  rw [b3] at c5 c6 c7 c8
  exact ⟨fun a => (c1 a).trans (by rw [b2]; exact a1 a), c3.trans (b4.trans a3), c4, c5.trans a5, c6.trans a6,
    c7.trans a7, c8.trans a8⟩

theorem teardown_wf (s : State) (hm : s.mem.wf s.params.addrW = true) (hb : s.blk.Wf s.params) :
    (disableCtl (clockRelease (disableInterrupts s))).mem.wf s.params.addrW = true ∧
    (disableCtl (clockRelease (disableInterrupts s))).blk.Wf s.params := by
  obtain ⟨h1, h2⟩ := (disableInterrupts_configStep s).wf hm hb
  obtain ⟨h3, h4⟩ := clockRelease_wf (disableInterrupts s) (by simpa using h1) (by simpa using h2)
  have := (disableCtl_configStep (clockRelease (disableInterrupts s))).wf (by simpa using h3) (by simpa using h4)
  simpa using this

end Sys2Proof.Machine
end

