-- ==== Sys2Proof/Laws/PerInstr.lean ====
section
/-! SUPPORT. Laws stated instruction by instruction. -/

namespace Sys2Proof.Laws.CodeField

/-- The word of an instruction holds its code in the field `OPC`, bits 4:0 (`30_encoding.md` R83 to R85), and 0 in `Z0` and
`Z1` (R92). -/
def Statement (i : Instr) : Prop :=
  (opcOf (encode i).word).toNat = i.code ∧ z0Of (encode i).word = 0#3 ∧ z1Of (encode i).word = 0#16

/-- A word written out proves the statement for every instruction encoded in it. -/
theorem of_word {i : Instr} (w : Word) (hw : (encode i).word = w)
    (h : (opcOf w).toNat = i.code ∧ z0Of w = 0#3 ∧ z1Of w = 0#16) : Statement i := by
  rw [Statement, hw]
  exact h

theorem init : Statement .init := ⟨rfl, rfl, rfl⟩
theorem setup (cs : BitVec 3) (csHigh : Bool) : Statement (.setup cs csHigh) := by
  unfold Statement
  revert cs csHigh
  decide
theorem prepmsg (mode : BitVec 2) : Statement (.prepmsg mode) := by
  unfold Statement
  revert mode
  decide
theorem xfer (len hz : Word) (tx rx : Option Nat) : Statement (.xfer len hz tx rx) := by
  simp only [Statement, encode, Instr.code]
  generalize tx.isSome = t
  generalize rx.isSome = r
  revert t r
  decide
theorem setcs (cs : BitVec 3) (disable : Bool) : Statement (.setcs cs disable) := by
  unfold Statement
  revert cs disable
  decide
theorem finack : Statement .finack := ⟨rfl, rfl, rfl⟩
theorem teardown : Statement .teardown := ⟨rfl, rfl, rfl⟩
theorem irq : Statement .irq := ⟨rfl, rfl, rfl⟩
theorem calcClk (target src : Word) : Statement (.calcClk target src) :=
  of_word 0x10#32 rfl (by simp only [Instr.code]; decide)
theorem applyClk : Statement .applyClk := ⟨rfl, rfl, rfl⟩
theorem disable : Statement .disable := ⟨rfl, rfl, rfl⟩
theorem enable : Statement .enable := ⟨rfl, rfl, rfl⟩
theorem setFramesize (bits : Byte) : Statement (.setFramesize bits) :=
  of_word 0x14#32 rfl (by simp only [Instr.code]; decide)
theorem setMode (mode : BitVec 2) : Statement (.setMode mode) :=
  of_word 0x15#32 rfl (by simp only [Instr.code]; decide)
theorem setXferLen (len : Word) : Statement (.setXferLen len) :=
  of_word 0x16#32 rfl (by simp only [Instr.code]; decide)
theorem enableInts : Statement .enableInts := ⟨rfl, rfl, rfl⟩
theorem disableInts : Statement .disableInts := ⟨rfl, rfl, rfl⟩
theorem fill : Statement .fill := ⟨rfl, rfl, rfl⟩
theorem drain : Statement .drain := ⟨rfl, rfl, rfl⟩
theorem ack (bit : BitVec 2) : Statement (.ack bit) :=
  of_word 0x1B#32 rfl (by simp only [Instr.code]; decide)

end Sys2Proof.Laws.CodeField
end

