-- ==== Sys2Proof/Laws/Service.lean ====
section
/-! SUPPORT. What one interrupt service does, said once (`43_interrupt.md` R140). -/

namespace Sys2Proof.Machine

/-- Whether a service that saw the masked status `f` completes the transfer, `rx` bytes remaining to be received (R140). -/
def finalises (L : Layout) (f : Word) (rx : Nat) : Bool :=
  (irqBit L f .txdone && decide (rx = 0)) || irqBit L f .rxovf || irqBit L f .txunder

/-- The accesses and emissions of a service after its read of `MIS`, for the masked status `f` (R140). -/
def servicePorts (L : Layout) (f : Word) (evD evF : List PortEvent) (rx tx : Nat) : List PortEvent :=
  let ack := fun k => PortEvent.regWrite .intClear (bitMask (L.intBit k))
  (if irqBit L f .txdone = true then ack .txdone :: (evD ++ evF) else []) ++
  (if irqBit L f .rxrdy = true then [ack .rxrdy] else []) ++
  (if irqBit L f .rxovf = true then [ack .rxovf, .emitError (ErrEntry.mk .rxOverflow rx tx)] else []) ++
  (if irqBit L f .txunder = true then [ack .txunder, .emitError (ErrEntry.mk .txUnderrun rx tx)] else []) ++
  (if finalises L f rx = true then [.emitFinished] else [])

/-- How many accesses a service makes after its read of `MIS`. -/
def serviceAccesses (L : Layout) (f : Word) (evD evF : List PortEvent) : Nat :=
  (if irqBit L f .txdone = true then 1 + (evD.length + evF.length) else 0) +
  (if irqBit L f .rxrdy = true then 1 else 0) + (if irqBit L f .rxovf = true then 1 else 0) +
  (if irqBit L f .txunder = true then 1 else 0)

/-- The latches a service acknowledges. -/
def ackedBits (L : Layout) (f : Word) : BitVec 4 :=
  (if irqBit L f .txdone = true then intMask L .txdone else 0#4) |||
  (if irqBit L f .rxrdy = true then intMask L .rxrdy else 0#4) |||
  (if irqBit L f .rxovf = true then intMask L .rxovf else 0#4) |||
  (if irqBit L f .txunder = true then intMask L .txunder else 0#4)

/-- What the parts of a service that saw `f` have done when it ends in `t`: the bytes `d` received and `b` sent, the accesses
of the drain and the fill (R140). -/
structure Serviced (s : State) (f : Word) (d b : List Byte) (evD evF : List PortEvent) (t : State) : Prop where
  drain : if irqBit s.params.layout f .txdone = true then isDrain s.params s.eng.rxLen s.eng.rxBuf d evD
    else d = [] ∧ evD = []
  fill : if irqBit s.params.layout f .txdone = true ∧ 0 < s.eng.txLen then
    isFill s.params s.blk.control s.eng.txLen s.eng.txBuf b evF else b = [] ∧ evF = []
  leD : d.length ≤ min s.eng.rxLen 32
  leB : b.length ≤ min s.eng.txLen 32
  ports : s.params.layout.legal = true → t.ports = s.ports ++
    servicePorts s.params.layout f evD evF (s.eng.rxLen - d.length) (s.eng.txLen - b.length)
  eng : t.eng = { s.eng with
    rxLen := s.eng.rxLen - d.length, txLen := s.eng.txLen - b.length, pending := s.eng.pending - d.length + b.length,
    rxBuf := if finalises s.params.layout f (s.eng.rxLen - d.length) = true then none
      else s.eng.rxBuf.map (advance s.params.addrW d.length),
    txBuf := if finalises s.params.layout f (s.eng.rxLen - d.length) = true then none
      else s.eng.txBuf.map (advance s.params.addrW b.length),
    state := if finalises s.params.layout f (s.eng.rxLen - d.length) = true then .completing else s.eng.state,
    finished := s.eng.finished + (if finalises s.params.layout f (s.eng.rxLen - d.length) = true then 1 else 0),
    errlog := s.eng.errlog ++
      (if irqBit s.params.layout f .rxovf = true then
        [ErrEntry.mk .rxOverflow (s.eng.rxLen - d.length) (s.eng.txLen - b.length)] else []) ++
      (if irqBit s.params.layout f .txunder = true then
        [ErrEntry.mk .txUnderrun (s.eng.rxLen - d.length) (s.eng.txLen - b.length)] else []) }
  platform : s.keepsPlatform (serviceAccesses s.params.layout f evD evF) t
  memStill : s.hostStill → t.mem = storeAll s.params.addrW s.eng.rxBuf d s.mem
  results : t.irqResult = some .handled ∧ t.result = s.result ∧ t.callResult = s.callResult
  words : s.params.layout.legal = true →
    if irqBit s.params.layout f .txdone = true ∧ 0 < s.eng.txLen then
      s.blk.fillWords s.params.layout (min s.eng.txLen 32) t.blk
    else s.blk.sameWords t.blk
  wf : s.mem.wf s.params.addrW = true → s.blk.Wf s.params → t.mem.wf s.params.addrW = true ∧ t.blk.Wf s.params
  quiet : s.env = [] → s.params.layout.legal = true → s.blk.txq.length ≤ 32 →
    t.blk.txq = s.blk.txq ++ b ∧ t.blk.rxq = s.blk.rxq.drop d.length ∧ t.blk.wire = s.blk.wire ∧
    t.blk.openWord = s.blk.openWord ∧ t.blk.ris = s.blk.ris &&& ~~~ackedBits s.params.layout f

theorem AckPart.params {s t : State} {k : IntSrc} {on : Bool} (h : AckPart s k on t) : t.params = s.params := h.platform.1

/-- A service changes the words of the block by its fill only. -/
theorem words_trans {P : Prop} [Decidable P] {L : Layout} {n : Nat} {b c d : Block}
    (h : if P then b.fillWords L n c else b.sameWords c) (k : c.sameWords d) :
    if P then b.fillWords L n d else b.sameWords d := by
  split at h
  · rename_i hp
    rw [if_pos hp]
    exact ⟨k.1.trans h.1, k.2.2.2.2.trans h.2.1, k.2.1.trans h.2.2.1, k.2.2.1.trans h.2.2.2.1, k.2.2.2.1.trans h.2.2.2.2⟩
  · rename_i hp
    rw [if_neg hp]
    exact h.trans k

theorem not_or4 (a b c d r : BitVec 4) :
    r &&& ~~~a &&& ~~~b &&& ~~~c &&& ~~~d = r &&& ~~~(a ||| b ||| c ||| d) := by
  simp only [BitVec.not_or, BitVec.and_assoc]

/-- The end of a service: completion where it finalises, and the answer to the dispatcher (R140). -/
def endService (final : Bool) (t : State) : State := respondIrq .handled (if final = true then finalise t else t)

theorem endService_fields (final : Bool) (t : State) :
    (endService final t).params = t.params ∧ (endService final t).blk = t.blk ∧ (endService final t).mem = t.mem ∧
    (endService final t).clock = t.clock ∧ (endService final t).otherIrq = t.otherIrq ∧
    (endService final t).env = t.env ∧ (endService final t).inputs = t.inputs ∧ (endService final t).result = t.result ∧
    (endService final t).callResult = t.callResult ∧ (endService final t).irqResult = some .handled ∧
    (endService final t).ports = t.ports ++ (if final = true then [.emitFinished] else []) ∧
    (endService final t).eng = { t.eng with
      rxBuf := if final = true then none else t.eng.rxBuf,
      txBuf := if final = true then none else t.eng.txBuf,
      state := if final = true then .completing else t.eng.state,
      finished := t.eng.finished + (if final = true then 1 else 0) } := by
  unfold endService
  cases final <;> simp

/-- A service that answers has run its parts in order (`43_interrupt.md` R140). -/
theorem serviceBits_serviced {f : Word} {s t : State} (h : serviceBits f s = .next t) :
    ∃ d b evD evF, Serviced s f d b evD evF t := by
  obtain ⟨r, h1, h2⟩ := andThen_eq_next h
  obtain ⟨d, b, evD, evF, hT⟩ := serveTxDone_part h1
  obtain ⟨hR, hRe, hRp⟩ := serveRxReady_part f r.2
  obtain ⟨hO, hOe, hOp⟩ := serveFault_part .rxOverflow f (serveRxReady f r.2)
  obtain ⟨hU, hUe, hUp⟩ := serveFault_part .txUnderrun f (serveFault .rxOverflow f (serveRxReady f r.2))
  have pT : r.2.params = s.params := hT.platform.1
  have pR := hR.params.trans pT
  have pO := hO.params.trans pR
  simp only [pT] at hR hRp
  simp only [pR] at hO hOe hOp
  simp only [pO] at hU hUe hUp
  generalize serveRxReady f r.2 = u at *
  generalize serveFault .rxOverflow f u = v at *
  generalize serveFault .txUnderrun f v = w at *
  have ht : t = endService (finalises s.params.layout f (s.eng.rxLen - d.length)) w := by
    injection h2 with h2
    rw [← h2, hT.fin]
    rfl
  obtain ⟨e1, e2, e3, e4, e5, e6, e7, e8, e9, e10, e11, e12⟩ :=
    endService_fields (finalises s.params.layout f (s.eng.rxLen - d.length)) w
  rw [← ht] at e1 e2 e3 e4 e5 e6 e7 e8 e9 e10 e11 e12
  have hp := ((hT.platform.trans hR.platform).trans hO.platform).trans hU.platform
  have we : w.eng = { s.eng with
      rxLen := s.eng.rxLen - d.length, txLen := s.eng.txLen - b.length,
      pending := s.eng.pending - d.length + b.length,
      rxBuf := s.eng.rxBuf.map (advance s.params.addrW d.length), txBuf := s.eng.txBuf.map (advance s.params.addrW b.length),
      errlog := s.eng.errlog ++
        (if irqBit s.params.layout f .rxovf = true then
          [ErrEntry.mk .rxOverflow (s.eng.rxLen - d.length) (s.eng.txLen - b.length)] else []) ++
        (if irqBit s.params.layout f .txunder = true then
          [ErrEntry.mk .txUnderrun (s.eng.rxLen - d.length) (s.eng.txLen - b.length)] else []) } := by
    rw [hUe, hOe, hRe, hT.eng]
    rfl
  refine ⟨d, b, evD, evF, ?_⟩
  exact {
    drain := hT.drain, fill := hT.fill, leD := hT.leD, leB := hT.leB
    ports := fun hL => by
      rw [e11, hUp, hOp, hRp, hT.ports hL, hOe, hRe, hT.eng]
      simp only [servicePorts, faultPorts, ErrKind.src, List.append_assoc]
      rfl
    eng := by rw [e12, we]
    platform := ⟨e1.trans hp.1, e7.trans hp.2.1, e4.trans hp.2.2.1, e5.trans hp.2.2.2.1, e6.trans hp.2.2.2.2⟩
    memStill := fun hh => by
      have h1 := hostStill_platform hh hT.platform
      have h2 := hostStill_platform h1 hR.platform
      have h3 := hostStill_platform h2 hO.platform
      rw [e3, hU.mem, ticks_mem_of_still _ h3, hO.mem, ticks_mem_of_still _ h2, hR.mem, ticks_mem_of_still _ h1,
        hT.memStill hh]
    results := by
      have hr := ((hT.results.trans hR.results).trans hO.results).trans hU.results
      exact ⟨e10, e8.trans hr.1, e9.trans hr.2.2⟩
    words := fun hL => by
      rw [e2]
      exact words_trans (words_trans (words_trans (hT.words hL) hR.words) hO.words) hU.words
    wf := fun hm hb => by
      obtain ⟨m1, b1⟩ := hT.wf hm hb
      rw [← pT] at m1 b1
      obtain ⟨m2, b2⟩ := hR.wf m1 b1
      rw [← hR.params] at m2 b2
      obtain ⟨m3, b3⟩ := hO.wf m2 b2
      rw [← hO.params] at m3 b3
      obtain ⟨m4, b4⟩ := hU.wf m3 b3
      rw [pO] at m4 b4
      exact ⟨e3 ▸ m4, e2 ▸ b4⟩
    quiet := fun hq hL hx => by
      obtain ⟨q1, q2, q3, q4, q5, -⟩ := hT.quiet hq hL hx
      have n1 := keepsPlatform_env_nil hq hT.platform
      have n2 := keepsPlatform_env_nil n1 hR.platform
      have n3 := keepsPlatform_env_nil n2 hO.platform
      have k1 := hR.quiet n1 (by rw [pT]; exact hL)
      have k2 := hO.quiet n2 (by rw [pR]; exact hL)
      have k3 := hU.quiet n3 (by rw [pO]; exact hL)
      rw [e2, k3, k2, k1]
      refine ⟨q1, q2, q3, q4, ?_⟩
      simp only [q5, pT, pR, pO, not_or4, ackedBits, ErrKind.src] }

/-! ### Counting the accesses of a service -/

theorem portAccesses_append (a b : List PortEvent) : portAccesses (a ++ b) = portAccesses a + portAccesses b := by
  simp [portAccesses]

theorem fillPorts_accesses (w : Nat) (buf : Option Nat) (xs : List (Word × Byte)) :
    portAccesses (fillPorts w buf xs) = (fillPorts w buf xs).length := by
  induction xs generalizing buf with
  | nil => cases buf <;> rfl
  | cons x xs ih =>
    cases buf <;>
      simp only [portAccesses] at ih <;> simp [fillPorts, portAccesses, isAccess, List.countP_cons, ih]

theorem drainPorts_accesses (w : Nat) (buf : Option Nat) (xs : List (Word × Word)) :
    portAccesses (drainPorts w buf xs) = (drainPorts w buf xs).length := by
  induction xs generalizing buf with
  | nil => cases buf <;> rfl
  | cons x xs ih =>
    cases buf <;>
      simp only [portAccesses] at ih <;> simp [drainPorts, portAccesses, isAccess, List.countP_cons, ih]

theorem loopEnd_accesses {L : Layout} {f : StField} {n i : Nat} {last : List PortEvent} (h : loopEnd L f n i last) :
    portAccesses last = last.length := by
  rcases h with ⟨_, rfl⟩ | ⟨_, w, rfl, _⟩ <;> rfl

/-- Every event of a fill burst is an access. -/
theorem isFill_accesses {p : Params} {c : Word} {n : Nat} {buf : Option Nat} {b : List Byte} {ev : List PortEvent}
    (h : isFill p c n buf b ev) : portAccesses ev = ev.length := by
  obtain ⟨xs, last, rfl, _, _, hl⟩ := h
  rw [portAccesses_append, portAccesses_append, fillPorts_accesses, loopEnd_accesses hl, List.length_append,
    List.length_append]
  rfl

/-- Every event of a drain burst is an access. -/
theorem isDrain_accesses {p : Params} {n : Nat} {buf : Option Nat} {b : List Byte} {ev : List PortEvent}
    (h : isDrain p n buf b ev) : portAccesses ev = ev.length := by
  obtain ⟨xs, last, rfl, _, _, hl⟩ := h
  rw [portAccesses_append, drainPorts_accesses, loopEnd_accesses hl, List.length_append]

theorem servicePorts_accesses {L : Layout} (f : Word) (evD evF : List PortEvent) (rx tx : Nat)
    (h1 : portAccesses evD = evD.length) (h2 : portAccesses evF = evF.length) :
    portAccesses (servicePorts L f evD evF rx tx) = serviceAccesses L f evD evF := by
  simp only [servicePorts, serviceAccesses, portAccesses_append]
  have k : ∀ c : Bool, portAccesses (if c = true then [.emitFinished] else []) = 0 := by intro c; cases c <;> rfl
  have k1 : ∀ (c : Bool) (r v), portAccesses (if c = true then [.regWrite r v] else []) = if c = true then 1 else 0 := by
    intro c r v; cases c <;> rfl
  have k2 : ∀ (c : Bool) (r v e), portAccesses (if c = true then [.regWrite r v, .emitError e] else []) =
      if c = true then 1 else 0 := by
    intro c r v e; cases c <;> rfl
  have k3 : ∀ (c : Bool) (r v), portAccesses (if c = true then .regWrite r v :: (evD ++ evF) else []) =
      if c = true then 1 + (evD.length + evF.length) else 0 := by
    intro c r v
    cases c
    · rfl
    · have : portAccesses (.regWrite r v :: (evD ++ evF)) = 1 + (portAccesses evD + portAccesses evF) := by
        rw [← portAccesses_append]; simp [portAccesses, isAccess, List.countP_cons]; omega
      rw [if_pos rfl, if_pos rfl, this, h1, h2]
  rw [k, k1, k2, k2, k3, Nat.add_zero]

/-! ### The status word -/

theorem getLsbD_low (i : Nat) : (0xF#32).getLsbD i = decide (i < 4) := by
  by_cases h : i < 32
  · have : ∀ k : Fin 32, (0xF#32).getLsbD k.val = decide (k.val < 4) := by decide
    exact this ⟨i, h⟩
  · simp [BitVec.getLsbD_of_ge _ _ (Nat.le_of_not_lt h)]
    omega

/-- A service looks at the four relevant bits of the word read from `MIS` (`30_encoding.md` R80). -/
theorem irqBit_low {L : Layout} (hL : L.legal = true) (w : Word) (k : IntSrc) :
    irqBit L (w &&& 0xF#32) k = w.getLsbD (L.intBit k) := by
  simp [irqBit, BitVec.getLsbD_and, getLsbD_low, L.intBit_lt hL k]

/-- The four sources of a legal layout are the four low bits (`30_encoding.md` R70 (f), R82). -/
theorem intBit_surjective {L : Layout} (hL : L.legal = true) {i : Nat} (hi : i < 4) : ∃ k, L.intBit k = i := by
  have h1 := L.intBit_lt hL .txdone
  have h2 := L.intBit_lt hL .rxrdy
  have h3 := L.intBit_lt hL .rxovf
  have h4 := L.intBit_lt hL .txunder
  have n1 := L.intBit_ne hL (k := .txdone) (j := .rxrdy) (by decide)
  have n2 := L.intBit_ne hL (k := .txdone) (j := .rxovf) (by decide)
  have n3 := L.intBit_ne hL (k := .txdone) (j := .txunder) (by decide)
  have n4 := L.intBit_ne hL (k := .rxrdy) (j := .rxovf) (by decide)
  have n5 := L.intBit_ne hL (k := .rxrdy) (j := .txunder) (by decide)
  have n6 := L.intBit_ne hL (k := .rxovf) (j := .txunder) (by decide)
  have : L.intBit .txdone = i ∨ L.intBit .rxrdy = i ∨ L.intBit .rxovf = i ∨ L.intBit .txunder = i := by omega
  rcases this with h | h | h | h
  exacts [⟨_, h⟩, ⟨_, h⟩, ⟨_, h⟩, ⟨_, h⟩]

theorem low_eq_zero_iff {L : Layout} (hL : L.legal = true) (w : Word) :
    w &&& 0xF#32 = 0#32 ↔ ∀ k : IntSrc, w.getLsbD (L.intBit k) = false := by
  constructor
  · intro h k
    rw [← irqBit_low hL, h]
    simp [irqBit]
  · intro h
    apply BitVec.eq_of_getLsbD_eq
    intro i _
    rw [BitVec.getLsbD_and, getLsbD_low, BitVec.getLsbD_zero]
    by_cases hi : i < 4
    · obtain ⟨k, hk⟩ := intBit_surjective hL hi
      rw [← hk, h k]
      rfl
    · simp [hi]

/-- The bit of a source in `MIS`: pending and enabled (`46_spi_core_agent.md` R173). -/
theorem getLsbD_misBits {L : Layout} (hL : L.legal = true) (b : Block) (k : IntSrc) :
    (misBits L b).getLsbD (L.intBit k) = (b.ris.getLsbD (L.intBit k) && b.control.getLsbD (L.pos k.inten)) := by
  have hbit : ∀ j : IntSrc, (intMask L j).getLsbD (L.intBit k) = decide (j = k) := by
    intro j
    have hk := L.intBit_lt hL k
    by_cases hjk : j = k
    · subst hjk
      simp [intMask, hk]
    · have := L.intBit_ne hL hjk
      simp [intMask, hjk, hk]
      omega
  have hif : ∀ (c : Bool) (j : IntSrc),
      (if c = true then intMask L j else 0#4).getLsbD (L.intBit k) = (c && decide (j = k)) := by
    intro c j
    cases c <;> simp [hbit]
  simp only [misBits, intenBits, BitVec.getLsbD_and, BitVec.getLsbD_or, hif]
  cases k <;> simp [Layout.test, IntSrc.inten]

theorem getLsbD_misWord {L : Layout} (hL : L.legal = true) (b : Block) (k : IntSrc) :
    (misWord L b).getLsbD (L.intBit k) = (b.ris.getLsbD (L.intBit k) && b.control.getLsbD (L.pos k.inten)) := by
  have hk := L.intBit_lt hL k
  have hm : (0xFFFFFFF0#32).getLsbD (L.intBit k) = false := by
    have : ∀ i : Fin 4, (0xFFFFFFF0#32).getLsbD i.val = false := by decide
    exact this ⟨_, hk⟩
  rw [misWord, BitVec.getLsbD_or, BitVec.getLsbD_and, hm, BitVec.getLsbD_setWidth, getLsbD_misBits hL]
  have : L.intBit k < 32 := by omega
  simp [this]

/-- In an instance that is not live no service is started and the dispatcher gets `NONE` (`45_host_operations.md` R164). -/
theorem execIrq_of_not_ready {s : State} (h : s.eng.live ≠ .ready) : execIrq s = .next (respondIrq .none s) := by
  simp [execIrq, h]

/-- The two ways a service can end, by the word it read from `MIS` (R140). -/
theorem execIrq_ready {s : State} (h : s.eng.live = .ready) :
    (irqStatus s = 0#32 → execIrq s = .next (respondIrq .none (afterRead .mis s))) ∧
    (irqStatus s ≠ 0#32 → execIrq s = serviceBits (irqStatus s) (afterRead .mis s)) := by
  constructor
  · intro h0
    simp [execIrq, h, h0]
  · intro h0
    simp [execIrq, h, h0]

end Sys2Proof.Machine
end

