-- ==== Sys2Proof/Laws/Transfer.lean ====
section
/-! SUPPORT. `XFER` up to its first burst (`45_host_operations.md` R162). -/

namespace Sys2Proof.Machine

/-- Accepting the "finished" signal reaches the variable `state` only (R162, R163). -/
theorem acceptFinished_eq (s : State) :
    acceptFinished s = { s with eng := { s.eng with
      state := if s.eng.state = .completing then .idle else s.eng.state } } := by
  unfold acceptFinished
  split
  · rfl
  · rfl

theorem applyEnv_acceptFinished (s : State) (e : EnvEvent) :
    applyEnv (acceptFinished s) e = acceptFinished (applyEnv s e) := by
  simp only [acceptFinished_eq, applyEnv_eng]
  cases e <;> rfl

/-- The other agents act alike before and after the signal is accepted. -/
theorem tick_acceptFinished (s : State) : tick (acceptFinished s) = acceptFinished (tick s) := by
  have hf : ∀ (es : List EnvEvent) (u : State),
      es.foldl applyEnv (acceptFinished u) = acceptFinished (es.foldl applyEnv u) := by
    intro es
    induction es with
    | nil => intro u; rfl
    | cons e es ih => intro u; simp only [List.foldl_cons, applyEnv_acceptFinished, ih]
  have he : (acceptFinished s).env = s.env := by rw [acceptFinished_eq]
  simp only [tick, he]
  split
  · rfl
  · rw [← hf]
    simp only [acceptFinished_eq]

/-- An admitted `XFER`: the clock query, then failure or the transfer (R162). -/
theorem execXfer_admitted {s : State} (len hz : Word) (tx rx : Option Nat) (h1 : s.eng.live = .ready)
    (h2 : s.eng.state ≠ .transferring) :
    execXfer len hz tx rx s = match calcDivider hz.toNat (tick s).clock.hz.toNat with
      | none => .next (respond .invalidFrequency (afterClockRate (acceptFinished s)))
      | some (m, g) =>
        andThen (fillBurst (loadTransfer len tx rx (applyClk (setClock m g (afterClockRate (acceptFinished s))))))
          fun s => .next (respond .inProgress (beginTransfer s)) := by
  have h3 : startAdmitted s = true := by simp [startAdmitted, h1, h2]
  have h4 : clockAnswer (acceptFinished s) = (tick s).clock.hz := by
    rw [clockAnswer, tick_acceptFinished, acceptFinished_eq]
  rw [← h4]
  exact if_pos h3

/-- What an admitted `XFER` has done when its first burst begins: the state `u` (R162). -/
structure Prepared (s : State) (len : Word) (tx rx : Option Nat) (m : Bool) (g : Nat) (u : State) : Prop where
  platform : s.keepsPlatform 8 u
  mem : u.mem = (ticks 8 s).mem
  ports : u.ports = s.ports ++ (.clockRate (tick s).clock.hz :: applyClkPorts s.params.layout s.blk.control m g)
  eng : u.eng = { s.eng with
    clkMode := m, clkGen := g, state := .idle, txLen := len.toNat, rxLen := len.toNat, pending := 0,
    txBuf := tx.map (bufAddr s.params.addrW), rxBuf := rx.map (bufAddr s.params.addrW) }
  results : s.keepsResults u
  control : u.blk.control = s.params.layout.set .enable (s.params.layout.set .clkmode
    (s.params.layout.set .enable s.blk.control 0#32) (bitWord m)) 1#32
  clkGen : u.blk.clkGen = clkGenWord g &&& s.params.layout.genMask
  frameSize : u.blk.frameSize = s.blk.frameSize
  ssel : u.blk.ssel = s.blk.ssel
  quiet : s.keepsQuietly u

theorem idle_of_not_transferring {s : State} (h : s.eng.state ≠ .transferring) :
    (if s.eng.state = .completing then Phase.idle else s.eng.state) = .idle := by
  cases hx : s.eng.state <;> simp_all

/-- The state before the clock pair is applied. -/
theorem clockQueried_step (s : State) (m : Bool) (g : Nat) (h : s.eng.state ≠ .transferring) :
    let v := setClock m g (afterClockRate (acceptFinished s))
    s.keepsPlatform 1 v ∧ v.mem = (ticks 1 s).mem ∧ v.blk = (tick s).blk ∧
    v.eng = { s.eng with clkMode := m, clkGen := g, state := .idle } ∧ s.keepsResults v ∧
    v.ports = s.ports ++ [.clockRate (tick s).clock.hz] := by
  have hi := idle_of_not_transferring h
  simp only [afterClockRate, clockAnswer, tick_acceptFinished]
  simp [acceptFinished_eq, hi, State.keepsPlatform, State.keepsResults, ticks_succ]

theorem loadTransfer_prepared {s : State} (hL : s.params.layout.legal = true) (len : Word) (tx rx : Option Nat) (m : Bool)
    (g : Nat) (h : s.eng.state ≠ .transferring) :
    Prepared s len tx rx m g (loadTransfer len tx rx (applyClk (setClock m g (afterClockRate (acceptFinished s))))) := by
  obtain ⟨vk, vm, vb, ve, vr, vp⟩ := clockQueried_step s m g h
  generalize setClock m g (afterClockRate (acceptFinished s)) = v at *
  have st := applyClk_configStep v
  have hLv : v.params.layout.legal = true := by rw [vk.1]; exact hL
  have hw := applyClk_words (s := v) hLv
  have hp := applyClk_ports (s := v) hLv
  have hvc : v.blk.control = s.blk.control := by rw [vb, tick_control]
  rw [vk.1, ve, hvc] at hw hp
  have k8 := vk.trans st.outside.platform
  have vq : s.keepsQuietly v := by
    intro hq
    have t1 := ticks_of_quiet 1 hq
    refine ⟨fun a => by rw [vm, t1], by rw [vk.2.2.1, t1], by rw [vk.2.2.2.1, t1], by rw [vk.2.2.2.2, t1, hq], ?_, ?_, ?_, ?_⟩
    all_goals rw [vb, tick_of_quiet hq]
  exact {
    platform := ⟨k8.1, k8.2.1, k8.2.2.1, k8.2.2.2.1, k8.2.2.2.2⟩
    mem := mem_ticks_trans vk vm st.outside.2.2.2.2.1
    ports := by
      rw [loadTransfer_ports, hp, vp]
      simp [applyClkPorts, clkGenWord]
    eng := by rw [loadTransfer_eng, applyClk_eng, applyClk_params, ve, vk.1]
    results := vr.trans st.results
    control := hw.1
    clkGen := hw.2.1
    frameSize := by rw [loadTransfer_blk, hw.2.2.1, vb, tick_frameSize]
    ssel := by rw [loadTransfer_blk, hw.2.2.2.1, vb, tick_ssel]
    quiet := vq.trans st.quiet }

end Sys2Proof.Machine
end

