-- ==== Sys2Proof/Tests/Slice0.lean ====
section
/-! SUPPORT. The model's own tests: well-formedness, decoding of words written out from the spec's encoding, one step per
instruction against the worked examples of the spec, and witnesses for the hypotheses of the statements. The witnesses of a
statement are named `witness_<statement>`. -/

open Sys2Proof Sys2Proof.Machine

namespace Sys2Proof.Tests

/-! ### States -/

/-- A live instance as `INIT` leaves it (`44_init_teardown.md` R150, worked example), the source clock at 100 MHz. -/
def up : State :=
  { State.reset with
    eng := { Engine.reset with live := .ready, maxSpeedHz := 100000000#32 }
    blk := { Block.reset with control := 0x240000F3#32, frameSize := 8#32, ssel := 0x300#32 }
    clock := { hz := 100000000#32, held := true } }

/-- `up` with another `CONTROL` word. -/
def ctl (c : Word) : State := { up with blk := { up.blk with control := c } }

/-- Three lent bytes at `0x1000`. -/
def lent : Memory := [(0x1000, 1#8), (0x1001, 2#8), (0x1002, 3#8)]

/-- The start of the worked example of `42_fifo.md` R130. -/
def filling : State :=
  { ctl 0x370000F3#32 with
    mem := lent, eng := { up.eng with state := .transferring, txLen := 3, rxLen := 3, txBuf := some 0x1000 } }

/-- The start of the worked examples of `42_fifo.md` R131 and `43_interrupt.md` R140. -/
def draining : State :=
  { up with
    eng := { up.eng with state := .transferring, rxLen := 3, pending := 3 }
    blk := { up.blk with rxq := [0x5A#8, 0x5B#8, 0x5C#8], ris := 3#4 } }

/-- An RX-overflow alone is pending. -/
def overflowed : State :=
  { up with eng := { up.eng with state := .transferring, rxLen := 40, txLen := 8 }, blk := { up.blk with ris := 4#4 } }

/-- RX-ready alone is pending. -/
def received : State := { draining with blk := { draining.blk with ris := 2#4 } }

/-- A finished transfer waits for its acceptance. -/
def completing : State := { up with eng := { up.eng with state := .completing } }

/-- A live instance whose controller is disabled. -/
def off : State := ctl 0x240000F2#32

/-- The machine after reset with the source clock running. -/
def clocked : State := { State.reset with clock := { hz := 100000000#32, held := true } }

/-- An instance torn down. -/
def gone : State := { up with eng := { up.eng with live := .removed } }

/-- The outcome is a next state with the property. -/
def answers (o : Result) (p : State → Bool) : Bool :=
  match o with
  | .next t => p t
  | .fault _ => false
  | .refused _ => false

/-! ### Well-formedness -/

theorem test_wf_framesize_7 : (Instr.setFramesize 7#8).wf = false := by decide
theorem test_wf_framesize_8 : (Instr.setFramesize 8#8).wf = true := by decide

/-! ### Decoding: words written out from `30_encoding.md` R83 to R85, R92 -/

theorem test_decode_init : decode (bareRequest .commandPort 0x00000001#32) = .ok .init := by decide
theorem test_decode_setup : decode (bareRequest .commandPort 0x00000A02#32) = .ok (.setup 2#3 true) := by decide
theorem test_decode_prepmsg : decode (bareRequest .commandPort 0x00002003#32) = .ok (.prepmsg 2#2) := by decide
theorem test_decode_xfer :
    decode { source := .commandPort, word := 0x00008004#32, len := 3#32, hz := 7#32, txa := 0x1000, rxa := 0x2000 } =
      .ok (.xfer 3#32 7#32 none (some 0x2000)) := by decide
theorem test_decode_setcs : decode (bareRequest .commandPort 0x00000705#32) = .ok (.setcs 7#3 false) := by decide
theorem test_decode_finack : decode (bareRequest .commandPort 0x00000006#32) = .ok .finack := by decide
theorem test_decode_teardown : decode (bareRequest .commandPort 0x00000007#32) = .ok .teardown := by decide
theorem test_decode_irq : decode (bareRequest .dispatcher 0x00000008#32) = .ok .irq := by decide
theorem test_decode_calcClk :
    decode { bareRequest .sequencer 0x00000010#32 with hz := 1000000#32, len := 100000000#32 } =
      .ok (.calcClk 1000000#32 100000000#32) := by decide
theorem test_decode_applyClk : decode (bareRequest .sequencer 0x00000011#32) = .ok .applyClk := by decide
theorem test_decode_disable : decode (bareRequest .sequencer 0x00000012#32) = .ok .disable := by decide
theorem test_decode_enable : decode (bareRequest .sequencer 0x00000013#32) = .ok .enable := by decide
theorem test_decode_setFramesize :
    decode { bareRequest .sequencer 0x00000014#32 with len := 8#32 } = .ok (.setFramesize 8#8) := by decide
theorem test_decode_setMode :
    decode { bareRequest .sequencer 0x00000015#32 with len := 1#32 } = .ok (.setMode 1#2) := by decide
theorem test_decode_setXferLen :
    decode { bareRequest .sequencer 0x00000016#32 with len := 0x10005#32 } = .ok (.setXferLen 0x10005#32) := by decide
theorem test_decode_enableInts : decode (bareRequest .sequencer 0x00000017#32) = .ok .enableInts := by decide
theorem test_decode_disableInts : decode (bareRequest .sequencer 0x00000018#32) = .ok .disableInts := by decide
theorem test_decode_fill : decode (bareRequest .sequencer 0x00000019#32) = .ok .fill := by decide
theorem test_decode_drain : decode (bareRequest .sequencer 0x0000001A#32) = .ok .drain := by decide
theorem test_decode_ack : decode { bareRequest .sequencer 0x0000001B#32 with len := 2#32 } = .ok (.ack 2#2) := by decide
theorem test_decode_irq_on_the_command_port :
    decode (bareRequest .commandPort 0x00000008#32) = .error .dispatcherOnly := by decide
theorem test_decode_z0 : decode (bareRequest .commandPort 0x00000081#32) = .error .z0NotZero := by decide
theorem test_decode_z1 : decode (bareRequest .commandPort 0x80000001#32) = .error .z1NotZero := by decide
theorem test_decode_reserved : decode (bareRequest .commandPort 0x0000001C#32) = .error .reservedOpcode := by decide

/-! ### One step per instruction: the worked examples of the spec -/

/-- `44_init_teardown.md` R150, worked example. -/
theorem test_init :
    answers (exec .init clocked) (fun t => t.ports ==
      [.regRead .control 0x80000000#32, .regWrite .control 0x80000002#32,
       .regRead .control 0x80000002#32, .regWrite .control 0x80000002#32, .regWrite .frameSize 8#32,
       .regRead .control 0x80000002#32, .regWrite .control 0x80000003#32, .clockRate 100000000#32,
       .regRead .control 0x80000003#32, .regWrite .control 0xA4000003#32,
       .regRead .control 0xA4000003#32, .regWrite .control 0xA4000002#32,
       .regRead .control 0xA4000002#32, .regWrite .control 0xA40000F2#32,
       .regRead .control 0xA40000F2#32, .regWrite .control 0xA40000F3#32, .regWrite .slaveSelect 0x300#32,
       .regRead .control 0xA40000F3#32, .regWrite .control 0x240000F3#32]) = true := by decide
/-- `45_host_operations.md` R160, worked example. -/
theorem test_setup :
    answers (exec (.setup 2#3 true) up) (fun t => t.ports ==
      [.regRead .slaveSelect 0x300#32, .regWrite .slaveSelect 0x304#32]) = true := by decide
/-- `45_host_operations.md` R161, worked example. -/
theorem test_prepmsg :
    answers (exec (.prepmsg 3#2) up) (fun t => t.ports ==
      [.regRead .control 0x240000F3#32, .regWrite .control 0x240000F2#32, .regWrite .frameSize 8#32,
       .regRead .control 0x240000F2#32, .regWrite .control 0x240000F3#32,
       .regRead .control 0x240000F3#32, .regWrite .control 0x240000F2#32,
       .regRead .control 0x240000F2#32, .regWrite .control 0x270000F2#32,
       .regRead .control 0x270000F2#32, .regWrite .control 0x270000F3#32]) = true := by decide
/-- `45_host_operations.md` R162, worked example. -/
theorem test_xfer :
    answers (exec (.xfer 3#32 1000000#32 (some 0x1000) none) { ctl 0x270000F3#32 with mem := lent }) (fun t => t.ports ==
      [.clockRate 100000000#32,
       .regRead .control 0x270000F3#32, .regWrite .control 0x270000F2#32, .regWrite .clkGen 0x31#32,
       .regRead .control 0x270000F2#32, .regWrite .control 0x370000F2#32,
       .regRead .control 0x370000F2#32, .regWrite .control 0x370000F3#32,
       .regRead .control 0x370000F3#32, .regWrite .control 0x370000F2#32,
       .regRead .control 0x370000F2#32, .regWrite .control 0x370003F2#32, .regWrite .framesup 0#32,
       .regRead .control 0x370003F2#32, .regWrite .control 0x370003F3#32,
       .regRead .status 0x440#32, .bufRead 0x1000 1#8, .regWrite .txData 1#32,
       .regRead .status 0x40#32, .bufRead 0x1001 2#8, .regWrite .txData 2#32,
       .regRead .status 0x40#32, .bufRead 0x1002 3#8, .regWrite .txData 3#32]) = true := by decide
/-- The end of the same example. -/
theorem test_xfer_record :
    answers (exec (.xfer 3#32 1000000#32 (some 0x1000) none) { ctl 0x270000F3#32 with mem := lent }) (fun t =>
      t.result == some .inProgress && t.eng == { up.eng with
        state := .transferring, clkMode := true, clkGen := 49, rxLen := 3, pending := 3, txBuf := some 0x1003 }) =
      true := by decide
/-- `95_test_vectors.md` V-CS7. -/
theorem test_setcs :
    answers (exec (.setcs 3#3 false) { up with blk := { up.blk with ssel := 0x3F7#32 } }) (fun t => t.ports ==
      [.regRead .slaveSelect 0x3F7#32, .regWrite .slaveSelect 0x3FF#32]) = true := by decide
/-- `95_test_vectors.md` V-CS5. -/
theorem test_setcs_disable :
    answers (exec (.setcs 0#3 true) { up with blk := { up.blk with ssel := 0x3FF#32 } }) (fun t => t.ports ==
      [.regRead .slaveSelect 0x3FF#32, .regWrite .slaveSelect 0x3FE#32]) = true := by decide
/-- `45_host_operations.md` R163, worked example. -/
theorem test_finack :
    answers (exec .finack completing) (fun t => t.eng.state == .idle && t.result == some .ok && t.ports == []) = true := by
  decide
/-- `44_init_teardown.md` R151, worked example. -/
theorem test_teardown :
    answers (exec .teardown (ctl 0x340008F3#32)) (fun t => t.ports ==
      [.regRead .control 0x340008F3#32, .regWrite .control 0x340008F2#32,
       .regRead .control 0x340008F2#32, .regWrite .control 0x34000802#32,
       .regRead .control 0x34000802#32, .regWrite .control 0x34000803#32, .clockRelease,
       .regRead .control 0x34000803#32, .regWrite .control 0x34000802#32] && t.eng.live == .removed) = true := by decide
/-- `43_interrupt.md` R140, worked example. -/
theorem test_irq :
    answers (exec .irq draining) (fun t => t.ports ==
      [.regRead .mis 3#32, .regWrite .intClear 1#32,
       .regRead .status 0x400#32, .regRead .rxData 0x5A#32, .regRead .status 0x400#32, .regRead .rxData 0x5B#32,
       .regRead .status 0x400#32, .regRead .rxData 0x5C#32, .regWrite .intClear 2#32, .emitFinished] &&
      t.eng.state == .completing && t.eng.rxLen == 0 && t.eng.pending == 0 && t.eng.finished == 1) = true := by decide
/-- `95_test_vectors.md` S4: an RX-overflow alone forces completion, the cursors untouched. -/
theorem test_irq_overflow :
    answers (exec .irq overflowed) (fun t => t.ports ==
      [.regRead .mis 4#32, .regWrite .intClear 4#32, .emitError (ErrEntry.mk .rxOverflow 40 8), .emitFinished] &&
      t.eng.state == .completing && t.eng.rxLen == 40 && t.eng.txLen == 8) = true := by decide
/-- `40_clock.md` R100, worked example; `95_test_vectors.md` section 2.1. -/
theorem test_calcClk :
    answers (exec (.calcClk 1000000#32 100000000#32) up) (fun t => t.eng.clkMode == true && t.eng.clkGen == 49) = true := by
  decide
theorem test_calcClk_table :
    calcDivider 195312 100000000 = some (false, 9) ∧ calcDivider 195313 100000000 = some (true, 255) ∧
    calcDivider 1526 100000000 = some (false, 15) ∧ calcDivider 1525 100000000 = none ∧
    calcDivider 50000000 100000000 = some (false, 1) ∧ calcDivider 4294967295 4294967295 = some (false, 0) ∧
    calcDivider 65537 4294967295 = some (false, 15) ∧ calcDivider 1 1024 = some (false, 10) := by decide
/-- `40_clock.md` R103, worked example. -/
theorem test_applyClk :
    answers (exec .applyClk { ctl 0x270000F3#32 with eng := { up.eng with clkMode := true, clkGen := 49 } }) (fun t =>
      t.ports ==
      [.regRead .control 0x270000F3#32, .regWrite .control 0x270000F2#32, .regWrite .clkGen 0x31#32,
       .regRead .control 0x270000F2#32, .regWrite .control 0x370000F2#32,
       .regRead .control 0x370000F2#32, .regWrite .control 0x370000F3#32]) = true := by decide
/-- `41_config.md` R110, worked example. -/
theorem test_disable :
    answers (exec .disable up) (fun t => t.ports ==
      [.regRead .control 0x240000F3#32, .regWrite .control 0x240000F2#32]) = true := by decide
/-- `41_config.md` R111, worked example. -/
theorem test_enable :
    answers (exec .enable off) (fun t => t.ports ==
      [.regRead .control 0x240000F2#32, .regWrite .control 0x240000F3#32]) = true := by decide
/-- `41_config.md` R113, worked example. -/
theorem test_setFramesize :
    answers (exec (.setFramesize 8#8) (ctl 0x80000002#32)) (fun t => t.ports ==
      [.regRead .control 0x80000002#32, .regWrite .control 0x80000002#32, .regWrite .frameSize 8#32,
       .regRead .control 0x80000002#32, .regWrite .control 0x80000003#32]) = true := by decide
/-- `95_test_vectors.md` V-MODE, mode 1: both bits are replaced. -/
theorem test_setMode :
    answers (exec (.setMode 1#2) (ctl 0x270000F3#32)) (fun t => t.ports ==
      [.regRead .control 0x270000F3#32, .regWrite .control 0x270000F2#32,
       .regRead .control 0x270000F2#32, .regWrite .control 0x260000F2#32,
       .regRead .control 0x260000F2#32, .regWrite .control 0x260000F3#32]) = true := by decide
/-- `95_test_vectors.md` V-LEN, `len = 0x10005`: the split. -/
theorem test_setXferLen :
    answers (exec (.setXferLen 0x10005#32) up) (fun t => t.ports ==
      [.regRead .control 0x240000F3#32, .regWrite .control 0x240000F2#32,
       .regRead .control 0x240000F2#32, .regWrite .control 0x240005F2#32, .regWrite .framesup 0x10000#32,
       .regRead .control 0x240005F2#32, .regWrite .control 0x240005F3#32] && t.blk.framesup == 0x10000#32) = true := by
  decide
/-- `41_config.md` R116, worked example. -/
theorem test_enableInts :
    answers (exec .enableInts (ctl 0xA4000003#32)) (fun t => t.ports ==
      [.regRead .control 0xA4000003#32, .regWrite .control 0xA4000002#32,
       .regRead .control 0xA4000002#32, .regWrite .control 0xA40000F2#32,
       .regRead .control 0xA40000F2#32, .regWrite .control 0xA40000F3#32]) = true := by decide
/-- `41_config.md` R117, worked example. -/
theorem test_disableInts :
    answers (exec .disableInts (ctl 0x340008F3#32)) (fun t => t.ports ==
      [.regRead .control 0x340008F3#32, .regWrite .control 0x340008F2#32,
       .regRead .control 0x340008F2#32, .regWrite .control 0x34000802#32,
       .regRead .control 0x34000802#32, .regWrite .control 0x34000803#32]) = true := by decide
/-- `42_fifo.md` R130, worked example. -/
theorem test_fill :
    answers (exec .fill filling) (fun t => t.ports.drop 7 ==
      [.regRead .status 0x440#32, .bufRead 0x1000 1#8, .regWrite .txData 1#32,
       .regRead .status 0x40#32, .bufRead 0x1001 2#8, .regWrite .txData 2#32,
       .regRead .status 0x40#32, .bufRead 0x1002 3#8, .regWrite .txData 3#32] &&
      t.eng == { filling.eng with txLen := 0, pending := 3, txBuf := some 0x1003 }) = true := by decide
/-- `42_fifo.md` R130: an absent source sends the filler. -/
theorem test_fill_filler :
    answers (exec .fill { filling with eng := { filling.eng with txLen := 1, txBuf := none } }) (fun t =>
      t.ports.drop 7 == [.regRead .status 0x440#32, .regWrite .txData 0xAA#32] && t.eng.txLen == 0) = true := by decide
/-- `42_fifo.md` R131, worked example. -/
theorem test_drain :
    answers (exec .drain draining) (fun t => t.ports ==
      [.regRead .status 0x400#32, .regRead .rxData 0x5A#32, .regRead .status 0x400#32, .regRead .rxData 0x5B#32,
       .regRead .status 0x400#32, .regRead .rxData 0x5C#32] && t.eng.rxLen == 0 && t.eng.pending == 0) = true := by decide
/-- `42_fifo.md` R131: the received bytes go to the sink in their order. -/
theorem test_drain_sink :
    answers (exec .drain { draining with mem := lent, eng := { draining.eng with rxBuf := some 0x1000 } }) (fun t =>
      t.mem == [(0x1000, 0x5A#8), (0x1001, 0x5B#8), (0x1002, 0x5C#8)] && t.eng.rxBuf == some 0x1003) = true := by decide
/-- `43_interrupt.md` R141, worked example. -/
theorem test_ack :
    answers (exec (.ack 2#2) overflowed) (fun t => t.ports == [.regWrite .intClear 4#32] && t.blk.ris == 0#4) = true := by
  decide

/-! ### Witnesses for the hypotheses of the statements -/

/-- The state with a command word waiting. -/
def waiting (w : Word) (s : State) : State := placeRequest (bareRequest .commandPort w) s

/-- A live instance during a transfer. -/
def busy : State := { up with eng := { up.eng with state := .transferring } }

/-- The source byte is not lent. -/
def unlentSource : State := { filling with mem := [] }

/-- The sink is not lent. -/
def unlentSink : State := { draining with eng := { draining.eng with rxBuf := some 0x1000 } }

/-- A frame is ready to move: the frame count is 1 and one frame waits. -/
def shifting : State := { up with blk := { up.blk with control := 0x240001F3#32, txq := [0x42#8] } }

theorem witness_ResetEventSetsTheRecord :
    ({ gone with inputs := [.reset Block.reset] }).inputs = [.reset Block.reset] ∧ gone.eng.live = .removed ∧
    ∃ t, step { gone with inputs := [.reset Block.reset] } = .next t ∧ t.eng.live ≠ .removed :=
  ⟨rfl, rfl, _, rfl, by decide⟩

theorem witness_StepRunsTheDecodedRequest :
    (waiting 0x1#32 clocked).inputs = [.request (bareRequest .commandPort 0x1#32)] ∧
    decode (bareRequest .commandPort 0x1#32) = .ok .init ∧ Instr.init.wf = true ∧
    decode (bareRequest .sequencer 0x12#32) = .ok .disable ∧ clocked.eng.state ≠ .transferring ∧
    clocked.eng.live ≠ .removed := by decide

theorem witness_PlacedWordRunsNext :
    decodeTableWord 32 0x1 = some .init ∧ decodeTableWord 32 0x1B = some (.ack 0#2) ∧ decodeTableWord 32 0x8 = some .irq ∧
    (Instr.ack 0#2).source = .sequencer ∧ up.eng.state ≠ .transferring ∧ up.eng.live ≠ .removed := by decide

/-- Each kind of refused word, at the ends of its range. -/
theorem witness_RefusedWordsChangeNothing :
    (0x21#32 : Word).extractLsb' 5 3 ≠ 0#3 ∧ (0x10001#32 : Word).extractLsb' 16 16 ≠ 0#16 ∧
    ((0x00#32 : Word).extractLsb' 0 5).toNat = 0 ∧ ((0x09#32 : Word).extractLsb' 0 5).toNat = 0x09 ∧
    ((0x0F#32 : Word).extractLsb' 0 5).toNat = 0x0F ∧ ((0x1C#32 : Word).extractLsb' 0 5).toNat = 0x1C ∧
    ((0x1F#32 : Word).extractLsb' 0 5).toNat = 0x1F ∧ ((0x08#32 : Word).extractLsb' 0 5).toNat = 0x08 ∧
    ((0x10#32 : Word).extractLsb' 0 5).toNat = 0x10 ∧ ((0x1B#32 : Word).extractLsb' 0 5).toNat = 0x1B := by decide
theorem witness_RefusedWordsChangeNothing_index :
    (waiting 0x702#32 { up with params := { up.params with numCs := 7 } }).inputs =
      [.request (bareRequest .commandPort 0x702#32)] ∧ (bareRequest .commandPort 0x702#32).source = .commandPort ∧
    ((0x702#32 : Word).extractLsb' 0 5).toNat = 0x02 ∧ 7 ≤ ((0x702#32 : Word).extractLsb' 8 3).toNat := by decide
theorem witness_RefusedWordsChangeNothing_state :
    (waiting 0x1#32 up).inputs = [.request (bareRequest .commandPort 0x1#32)] ∧
    ∃ i, decode (bareRequest .commandPort 0x1#32) = .ok i ∧ i.admitted up.eng.live up.eng.state = false :=
  ⟨by decide, .init, by decide⟩

theorem witness_AdmissibilityTable :
    Instr.init.source = .commandPort ∧ Instr.init.admitted up.eng.live up.eng.state = false ∧
    (∃ t, exec .init up = .next t) ∧ gone.eng.live ≠ .ready ∧ completing.eng.live = .ready ∧
    up.eng.live = .ready ∧ up.eng.state ≠ .completing := ⟨rfl, rfl, ⟨_, rfl⟩, by decide⟩
theorem witness_AdmissibilityTable_admitted :
    (Instr.setcs 7#3 true).source = .commandPort ∧ (Instr.setcs 7#3 true).admitted up.eng.live up.eng.state = true ∧
    (7#3 : BitVec 3).toNat < up.params.numCs ∧ ∃ t, exec (.setcs 7#3 true) up = .next t :=
  ⟨rfl, rfl, by decide, _, rfl⟩
theorem witness_AdmissibilityTable_irq :
    overflowed.params.layout.legal = true ∧ overflowed.eng.live = .ready ∧ ∃ t, exec .irq overflowed = .next t :=
  ⟨by decide, rfl, _, rfl⟩

/-- The line is asserted by this block, by another device, and by none. -/
theorem witness_LineStartsTheIdleEngine :
    up.params.layout.legal = true ∧ overflowed.inputs = [] ∧ overflowed.eng.live = .ready ∧
    overflowed.blk.ris.getLsbD (overflowed.params.layout.intBit .rxovf) = true ∧
    overflowed.blk.control.getLsbD (overflowed.params.layout.pos IntSrc.rxovf.inten) = true ∧
    ({ up with otherIrq := true }).otherIrq = true ∧ irqLine up = false := by decide
/-- Another device asserts the line of an instance torn down: no start, `NONE` (`95_test_vectors.md` P7). -/
theorem witness_LineStartsTheIdleEngine_removed :
    ({ gone with otherIrq := true }).inputs = [] ∧ ({ gone with otherIrq := true }).eng.live ≠ .ready ∧
    answers (step { gone with otherIrq := true, irqResult := some .handled })
      (fun t => t.irqResult == some .none && t.ports == []) = true := by decide

/-- A micro-operation of each of the three shapes of answer. -/
theorem witness_MicroOperationsAnswerTheCall :
    Instr.disable.source = .sequencer ∧ (∃ t, exec .disable up = .next t) ∧
    (Instr.calcClk 1#32 0#32).source = .sequencer ∧ (∃ t, exec (.calcClk 1#32 0#32) up = .next t) ∧
    (Instr.setFramesize 7#8).source = .sequencer ∧ ∃ t, exec (.setFramesize 7#8) up = .next t :=
  ⟨rfl, ⟨_, rfl⟩, rfl, ⟨_, rfl⟩, rfl, _, rfl⟩

theorem witness_DisableClearsEnable : up.params.layout.legal = true ∧ up.env = [] := by decide
theorem witness_EnableSetsEnable :
    off.params.layout.legal = true ∧ off.env = [] ∧ off.blk.control.getLsbD off.params.layout.enable = false ∧
    up.blk.control.getLsbD up.params.layout.enable = true := by decide
theorem witness_SetFramesizeProgramsEightBits : up.params.layout.legal = true ∧ (9#8 : Byte) ≠ 8#8 := by decide
theorem witness_SetModeProgramsPolarityAndPhase : up.params.layout.legal = true := by decide
theorem witness_SetXferLenProgramsTheFrameCount : up.params.layout.legal = true := by decide
theorem witness_EnableIntsSetsTheFourEnables : up.params.layout.legal = true := by decide
theorem witness_DisableIntsClearsTheFourEnables : up.params.layout.legal = true := by decide

/-- The highest index admitted; an index refused; an instance refused. -/
theorem witness_SetCsWritesOneBit :
    up.eng.live = .ready ∧ (7#3 : BitVec 3).toNat < up.params.numCs ∧
    up.blk.ssel &&& up.params.layout.sselMask = up.blk.ssel ∧
    ({ up with params := { up.params with numCs := 7 } }).params.numCs ≤ (7#3 : BitVec 3).toNat ∧
    gone.eng.live ≠ .ready := by decide
theorem witness_SetupSetsTheSelectBit :
    up.eng.live = .ready ∧ (0#3 : BitVec 3).toNat < up.params.numCs ∧
    up.blk.ssel &&& up.params.layout.sselMask = up.blk.ssel ∧
    ({ up with params := { up.params with numCs := 1 } }).params.numCs ≤ (1#3 : BitVec 3).toNat ∧
    gone.eng.live ≠ .ready := by decide

/-- Each range of the ratio, at both ends. -/
theorem witness_CalcClkFollowsTheFormulas :
    65535 * min 1 65536 < 65536 ∧
    (2 * min 1 3 < 3 ∧ 3 ≤ 512 * min 1 3) ∧ (2 * min 1 512 < 512 ∧ 512 ≤ 512 * min 1 512) ∧
    (0 < min 9 1 ∧ 1 ≤ 2 * min 9 1) ∧ (0 < min 1 2 ∧ 2 ≤ 2 * min 1 2) ∧
    (512 * min 1 513 < 513 ∧ 513 ≤ 65535 * min 1 513) ∧ (512 * min 1 65535 < 65535 ∧ 65535 ≤ 65535 * min 1 65535) := by
  decide
theorem witness_CalculatorProperties :
    calcDivider 1 1024 = some (false, 10) ∧ calcDivider 1 512 = some (true, 255) ∧
    (calcDivider (1#32 : Word).toNat (3#32 : Word).toNat).isSome = true ∧
    (∃ t, exec (.calcClk 1#32 3#32) up = .next t) ∧ ∃ t, exec (.calcClk 1#32 3#32) gone = .next t :=
  ⟨by decide, by decide, by decide, ⟨_, rfl⟩, _, rfl⟩
theorem witness_RealisedFrequencyIsBounded :
    calcDivider 1 65535 = some (false, 15) ∧ calcDivider 10000000 100000000 = some (true, 4) := by decide
theorem witness_ApplyClkProgramsThePair :
    up.params.layout.legal = true ∧ ({ up.eng with clkMode := true, clkGen := 255 }).clkGen ≤ 255 := by decide

theorem witness_FillIsOneBurst :
    filling.params.layout.legal = true ∧ filling.env = [] ∧ filling.blk.txq.length ≤ 32 ∧
    ∃ t, exec .fill filling = .next t := ⟨by decide, rfl, by decide, _, rfl⟩
theorem filling_holds : filling.hostHolds := by
  intro es h
  cases h
theorem filling_lends : filling.mem.lends filling.params.addrW filling.eng.txBuf (min filling.eng.txLen 32) := by
  intro a h
  cases h
  decide
theorem witness_FillCompletesUnderTheHostsDuty :
    filling.hostHolds ∧ filling.mem.lends filling.params.addrW filling.eng.txBuf (min filling.eng.txLen 32) ∧
    filling.params.layout.legal = true ∧ filling.env = [] ∧ filling.blk.txq.length ≤ 32 :=
  ⟨filling_holds, filling_lends, by decide, rfl, by decide⟩
/-- Three received frames and a sink lent for them. -/
def sinking : State := { draining with mem := lent, eng := { draining.eng with rxBuf := some 0x1000 } }
theorem sinking_lends : sinking.mem.lends sinking.params.addrW sinking.eng.rxBuf (min sinking.eng.rxLen 32) := by
  intro a h
  cases h
  decide
theorem sinking_holds : sinking.hostHolds := by
  intro es h
  cases h
theorem witness_DrainIsOneBurst :
    sinking.params.layout.legal = true ∧ sinking.env = [] ∧ sinking.eng.rxBuf = some 0x1000 ∧
    0x1000 + 3 ≤ 2 ^ sinking.params.addrW ∧ draining.eng.rxBuf = none ∧
    (∃ t, exec .drain sinking = .next t) ∧ ∃ t, exec .drain draining = .next t :=
  ⟨by decide, rfl, rfl, by decide, rfl, ⟨_, rfl⟩, _, rfl⟩
theorem witness_DrainCompletesUnderTheHostsDuty :
    sinking.hostHolds ∧ sinking.mem.lends sinking.params.addrW sinking.eng.rxBuf (min sinking.eng.rxLen 32) ∧
    sinking.params.layout.legal = true ∧ sinking.env = [] := ⟨sinking_holds, sinking_lends, by decide, rfl⟩
/-- An address not lent; the first byte of a burst; the last byte of a burst, the bytes before it lent. -/
theorem witness_UnlentBufferByteIsRefused :
    (tick up).mem.read 0x1000 = none ∧
    unlentSource.params.layout.legal = true ∧ unlentSource.env = [] ∧ unlentSource.eng.txBuf = some 0x1000 ∧
    0 < min unlentSource.eng.txLen 32 ∧ unlentSource.blk.txq.length + 0 < 32 ∧
    unlentSource.mem.read (advance unlentSource.params.addrW 0 0x1000) = none ∧
    unlentSink.params.layout.legal = true ∧ unlentSink.env = [] ∧ unlentSink.eng.rxBuf = some 0x1000 ∧
    0 < min unlentSink.eng.rxLen 32 ∧ 0 < unlentSink.blk.rxq.length ∧
    unlentSink.mem.read (advance unlentSink.params.addrW 0 0x1000) = none := by decide
theorem witness_UnlentBufferByteIsRefused_last :
    ({ filling with mem := lent.take 2 }).mem.lends filling.params.addrW (some 0x1000) 2 ∧
    2 < min filling.eng.txLen 32 ∧ filling.blk.txq.length + 2 < 32 ∧
    Memory.read (lent.take 2) (advance filling.params.addrW 2 0x1000) = none ∧
    2 < min unlentSink.eng.rxLen 32 ∧ 2 < unlentSink.blk.rxq.length :=
  ⟨(fun a h => by cases h; decide), by decide, by decide, by decide, by decide, by decide⟩

/-- Nothing is pending; or something is, but its enable is clear. -/
theorem witness_ForeignInterruptIsReported :
    up.params.layout.legal = true ∧ up.eng.live = .ready ∧
    (∀ k : IntSrc, ¬ ((tick up).blk.ris.getLsbD (up.params.layout.intBit k) = true ∧
      up.blk.control.getLsbD (up.params.layout.pos k.inten) = true)) := by
  refine ⟨by decide, rfl, ?_⟩
  intro k
  cases k <;> decide
theorem witness_ServiceFollowsTheStatusRead :
    draining.params.layout.legal = true ∧ draining.eng.live = .ready ∧ draining.env = [] ∧
    draining.blk.txq.length ≤ 32 ∧ ∃ t, exec .irq draining = .next t := ⟨by decide, rfl, rfl, by decide, _, rfl⟩
/-- A service with something pending, and one with nothing. -/
theorem witness_ServiceCompletesUnderTheHostsDuty :
    sinking.params.layout.legal = true ∧ sinking.eng.live = .ready ∧ sinking.hostHolds ∧
    sinking.mem.lends sinking.params.addrW sinking.eng.rxBuf (min sinking.eng.rxLen 32) ∧
    sinking.mem.lends sinking.params.addrW sinking.eng.txBuf (min sinking.eng.txLen 32) ∧
    ∃ k : IntSrc, (tick sinking).blk.ris.getLsbD (sinking.params.layout.intBit k) = true ∧
      sinking.blk.control.getLsbD (sinking.params.layout.pos k.inten) = true :=
  ⟨by decide, rfl, sinking_holds, sinking_lends, (fun a h => by cases h), .txdone, by decide⟩
theorem witness_ServiceCompletesUnderTheHostsDuty_none :
    up.params.layout.legal = true ∧ up.eng.live = .ready ∧ up.hostHolds ∧ up.mem.lends up.params.addrW up.eng.rxBuf (min up.eng.rxLen 32) ∧
    up.mem.lends up.params.addrW up.eng.txBuf (min up.eng.txLen 32) ∧
    ∀ k : IntSrc, ¬ ((tick up).blk.ris.getLsbD (up.params.layout.intBit k) = true ∧
      up.blk.control.getLsbD (up.params.layout.pos k.inten) = true) :=
  ⟨by decide, rfl, (fun _ h => by cases h), (fun a h => by cases h), (fun a h => by cases h),
    witness_ForeignInterruptIsReported.2.2⟩
theorem witness_FaultForcesCompletion :
    overflowed.params.layout.legal = true ∧ overflowed.eng.live = .ready ∧
    ((tick overflowed).blk.ris.getLsbD (overflowed.params.layout.intBit .txdone) &&
      overflowed.blk.control.getLsbD (overflowed.params.layout.pos IntSrc.txdone.inten)) = false ∧
    ((tick overflowed).blk.ris.getLsbD (overflowed.params.layout.intBit .rxovf) &&
      overflowed.blk.control.getLsbD (overflowed.params.layout.pos IntSrc.rxovf.inten)) = true := by decide
/-- A service that answers `NONE`, one that finalises and one that does not. -/
theorem witness_ServiceProperties :
    up.params.layout.legal = true ∧ up.eng.live = .ready ∧ (∃ t, exec .irq up = .next t ∧ t.irqResult = some .none) ∧
    (∃ t, exec .irq overflowed = .next t ∧ t.eng.finished = overflowed.eng.finished + 1) ∧
    ∃ t, exec .irq received = .next t ∧ t.irqResult = some .handled ∧ t.eng.finished = received.eng.finished :=
  ⟨by decide, rfl, ⟨_, rfl, rfl⟩, ⟨_, rfl, rfl⟩, _, rfl, rfl, rfl⟩

theorem witness_InitEstablishesTheReadyState :
    clocked.params.layout.legal = true ∧ clocked.eng.live = .created ∧ clocked.env = [] ∧
    clocked.params.zeroLenTxdone = false ∧ up.eng.live ≠ .created := by decide
/-- After `TEARDOWN` (R151): a command and a call of `ENABLE` wait; the call changes no register. -/
theorem witness_TeardownSilencesReleasesDisables_removed :
    gone.eng.live = .removed ∧ (waiting 0x1#32 gone).inputs = [.request (bareRequest .commandPort 0x1#32)] ∧
    (bareRequest .commandPort 0x1#32).source = .commandPort ∧
    answers (step (placeRequest (bareRequest .sequencer 0x13#32) gone)) (fun t => t.blk == gone.blk && t.ports == []) = true := by
  decide
theorem witness_TeardownSilencesReleasesDisables :
    up.params.layout.legal = true ∧ up.eng.live = .ready ∧ up.env = [] ∧ gone.eng.live ≠ .ready := by decide
theorem witness_PrepmsgProgramsFramingAndMode :
    up.params.layout.legal = true ∧ up.eng.live = .ready ∧ up.eng.state ≠ .transferring ∧ gone.eng.live ≠ .ready ∧
    busy.eng.state = .transferring := by decide
theorem witness_FinackAcceptsTheFinishedSignal : completing.eng.live = .ready ∧ gone.eng.live ≠ .ready := by decide

/-- Each of the three causes; the ratio at the first value out of range. -/
theorem witness_UnachievableClockStopsXfer :
    up.eng.live = .ready ∧ up.eng.state ≠ .transferring ∧
    (tick { up with clock := { hz := 0#32, held := true } }).clock.hz = 0#32 ∧
    65535 * min (1#32 : Word).toNat (65536#32 : Word).toNat < (65536#32 : Word).toNat ∧
    (tick { up with clock := { hz := 65536#32, held := true } }).clock.hz = 65536#32 := by decide
/-- The start of the worked example of `45_host_operations.md` R162. -/
def starting : State := { ctl 0x270000F3#32 with mem := lent }
theorem witness_XferStartsTheTransfer :
    starting.params.layout.legal = true ∧ starting.eng.live = .ready ∧ starting.eng.state ≠ .transferring ∧
    calcDivider (1000000#32 : Word).toNat (tick starting).clock.hz.toNat = some (true, 49) ∧
    (∃ t, exec (.xfer 3#32 1000000#32 (some 0x1000) none) starting = .next t) ∧ starting.env = [] ∧
    starting.blk.txq.length ≤ 32 ∧ calcDivider (0#32 : Word).toNat (tick starting).clock.hz.toNat = none ∧
    gone.eng.live ≠ .ready ∧ busy.eng.state = .transferring :=
  ⟨by decide, rfl, by decide, by decide, ⟨_, rfl⟩, rfl, by decide, by decide, by decide, rfl⟩
theorem witness_XferCompletesUnderTheHostsDuty :
    starting.params.layout.legal = true ∧ starting.eng.live = .ready ∧ starting.eng.state ≠ .transferring ∧
    (calcDivider (1000000#32 : Word).toNat (tick starting).clock.hz.toNat).isSome = true ∧ starting.hostHolds ∧
    starting.mem.lends starting.params.addrW ((some 0x1000).map (bufAddr starting.params.addrW)) (min (3#32 : Word).toNat 32) ∧ starting.env = [] ∧
    starting.blk.txq.length ≤ 32 :=
  ⟨by decide, rfl, by decide, by decide, (fun _ h => by cases h), (fun a h => by cases h; decide), rfl, by decide⟩

/-- The rows of the table: a start, a failed start, a refused start, both acceptances, the services, a chip select, a
message, and the two ways out of a transfer. -/
theorem witness_TransitionTable :
    starting.params.layout.legal = true ∧ starting.eng.live = .ready ∧
    (∃ t, exec (.xfer 3#32 1000000#32 none none) starting = .next t) ∧
    (∃ t, exec (.xfer 3#32 0#32 none none) starting = .next t) ∧ (∃ t, exec (.xfer 3#32 0#32 none none) busy = .next t) ∧
    (∃ t, exec .finack completing = .next t) ∧ (∃ t, exec .finack up = .next t) ∧
    (∃ t, exec (.setcs 7#3 true) up = .next t) ∧ (∃ t, exec (.prepmsg 3#2) up = .next t) ∧
    ∃ t, exec (.prepmsg 3#2) busy = .next t :=
  ⟨by decide, rfl, ⟨_, rfl⟩, ⟨_, rfl⟩, ⟨_, rfl⟩, ⟨_, rfl⟩, ⟨_, rfl⟩, ⟨_, rfl⟩, ⟨_, rfl⟩, _, rfl⟩
theorem witness_TransitionTable_ways_out :
    overflowed.eng.state = .transferring ∧ (∃ t, exec .irq overflowed = .next t ∧ t.eng.state ≠ .transferring) ∧
    (∃ t, exec .teardown overflowed = .next t ∧ t.eng.state ≠ .transferring) ∧
    ∃ t, exec .irq received = .next t ∧ t.eng.state = .transferring :=
  ⟨rfl, ⟨_, rfl, by decide⟩, ⟨_, rfl, by decide⟩, _, rfl, rfl⟩

/-- A transfer in flight: a request that is no service, and a call of a micro-operation. -/
theorem witness_OnlyTheHandlerAdvancesATransfer :
    (waiting 0x6#32 busy).eng.live = .ready ∧ (waiting 0x6#32 busy).eng.state = .transferring ∧
    (∃ t, step (waiting 0x6#32 busy) = .next t) ∧ (∀ b rest, (waiting 0x6#32 busy).inputs ≠ .reset b :: rest) ∧
    (waiting 0x6#32 busy).inputs ≠ [] ∧ decode (bareRequest .commandPort 0x6#32) = .ok .finack ∧
    (placeRequest (bareRequest .sequencer 0x19#32) busy).inputs = [.request (bareRequest .sequencer 0x19#32)] ∧
    (bareRequest .sequencer 0x19#32).source = .sequencer :=
  ⟨rfl, rfl, ⟨_, rfl⟩, (fun _ _ h => by cases h), (fun h => by cases h), rfl, rfl, rfl⟩

theorem witness_LockedFieldsKeepTheirValues :
    up.params.layout.legal = true ∧ up.blk.control.getLsbD up.params.layout.enable = true ∧
    off.blk.control.getLsbD off.params.layout.enable = false ∧ up.params.layout.covers .framecnt 23 ∧
    up.params.layout.covers .spo 24 ∧ up.params.layout.covers .sph 25 :=
  ⟨by decide, by decide, by decide, ⟨by decide, by decide⟩, ⟨by decide, by decide⟩, by decide, by decide⟩
theorem witness_FrameCountIsSplit :
    off.params.layout.legal = true ∧ off.blk.control.getLsbD off.params.layout.enable = false ∧ Reg.framesup ≠ .control := by
  decide
/-- A listed address, one between two listed ones, one past the last, and a misaligned one. -/
theorem witness_OnlyListedOffsetsAnswer :
    up.params.regBase % 4 = 0 ∧ 0x50 = up.params.regBase + Reg.framesup.offset ∧
    (∀ r ∈ Reg.all, 0x24 ≠ up.params.regBase + r.offset) ∧
    (∀ r ∈ Reg.all, 0x54 ≠ up.params.regBase + r.offset) ∧
    ∀ r ∈ Reg.all, 0x01 ≠ up.params.regBase + r.offset := by decide
theorem witness_StatusShowsTheFifos : up.params.layout.legal = true ∧ up.blk.openWord = 0#32 := by decide
theorem witness_MisShowsEnabledLatches : up.params.layout.legal = true ∧ up.blk.openWord = 0#32 := by decide
theorem witness_ShiftExchangesOneFrame :
    shifting.params.layout.legal = true ∧ shifting.blk.control.getLsbD shifting.params.layout.enable = true ∧
    shifting.blk.control.getLsbD shifting.params.layout.reset = false ∧ shifting.blk.txq = [0x42#8] ∧
    shifting.blk.framesSent < frameCount shifting.params.layout shifting.blk shifting.blk.control := by decide
theorem witness_FaultsRaiseOneLatch :
    up.params.layout.legal = true ∧ up.blk.control.getLsbD up.params.layout.enable = true := by decide
/-- Each failing guard: disabled, in reset, nothing to send, the count reached. -/
theorem witness_StepsWithoutTheirGuardDoNothing :
    off.params.layout.legal = true ∧ off.blk.control.getLsbD off.params.layout.enable = false ∧
    (ctl 0xA40001F3#32).blk.control.getLsbD up.params.layout.reset = true ∧ up.blk.txq = [] ∧
    frameCount up.params.layout up.blk up.blk.control ≤ up.blk.framesSent := by decide
/-- Both edges of `ENABLE`, and a zero and a non-zero count with `ZERO_LEN_TXDONE`. -/
theorem witness_EnableTransitionsKeepTheFifos :
    up.params.layout.legal = true ∧ up.blk.control.getLsbD up.params.layout.enable = true ∧
    (0x240000F2#32 : Word).getLsbD up.params.layout.enable = false ∧
    off.blk.control.getLsbD off.params.layout.enable = false ∧
    (0x240000F3#32 : Word).getLsbD off.params.layout.enable = true ∧
    ({ off.params with zeroLenTxdone := true }).zeroLenTxdone = true ∧
    frameCount off.params.layout off.blk 0x240000F3#32 = 0 ∧ frameCount off.params.layout off.blk 0x240001F3#32 ≠ 0 := by
  decide
theorem witness_DataPortsMoveOneFrame :
    draining.blk.rxq = 0x5A#8 :: [0x5B#8, 0x5C#8] ∧ up.blk.txq.length < 32 ∧
    32 ≤ (List.replicate 32 0#8).length := by decide
theorem witness_OtherAgentsWriteNoRegister : up.blk.txq.length ≤ 32 ∧ up.blk.rxq.length ≤ 32 := by decide

theorem witness_OperationsReachOnlyTheirRegisters :
    filling.params.layout.legal = true ∧ ∃ t, exec .fill filling = .next t := ⟨by decide, _, rfl⟩
theorem witness_AccessesAreBounded :
    draining.params.layout.legal = true ∧ ∃ t, exec .irq draining = .next t := ⟨by decide, _, rfl⟩
theorem witness_OutputsOnlyGrow :
    (∃ t, step (waiting 0x1#32 clocked) = .next t) ∧ ∀ b rest, (waiting 0x1#32 clocked).inputs ≠ .reset b :: rest :=
  ⟨⟨_, rfl⟩, fun _ _ h => by cases h⟩
theorem witness_DecodeEncodeAgree : (Instr.setFramesize 8#8).wf = true := by decide
theorem witness_StepKeepsTheInvariant :
    (waiting 0x1#32 clocked).Inv ∧ ∃ t, step (waiting 0x1#32 clocked) = .next t := ⟨by decide, _, rfl⟩

end Sys2Proof.Tests
end

/-! ## The state of the engine (`10_state.md`): its reset, its outputs, and its record during a transfer -/

section
namespace Sys2Proof.Machine

/-! ### Reset -/

/-- The block that the model's log chooses at reset (log 3) is in form, whatever the parameters. -/
theorem Block.reset_wf (p : Params) : Block.reset.Wf p := by
  simp [Block.reset, Block.Wf]

/-- The record of R26 has its clock pair, cursors and pointers in range, whatever the width of an address. -/
theorem Engine.reset_wf (w : Nat) :
    Engine.reset.ClockWf ∧ Engine.reset.CursorWf ∧ Engine.reset.PhaseWf ∧ Engine.reset.PointerWf w := by
  simp [Engine.reset, Engine.ClockWf, Engine.CursorWf, Engine.PhaseWf, Engine.PointerWf]

/-- Settles O2. -/
theorem resetStateIsAsLogged : Obligations.ResetStateIsAsLogged :=
  ⟨rfl, rfl, rfl, rfl, rfl, rfl, rfl, rfl, rfl, rfl, rfl, rfl, rfl, rfl, rfl, rfl, rfl, rfl, defaultLayout_legal⟩

/-- Settles O3: nothing is lent, and block and record are in form each by itself. -/
theorem resetMeetsTheInvariant : Obligations.ResetMeetsTheInvariant := by
  refine ⟨⟨rfl, Block.reset_wf _, Engine.reset_wf _⟩, ?_⟩
  simp [Params.legal, State.reset, Params.default, defaultLayout_legal]

/-! ### Outputs that only grow -/

/-- `t` has the parameters of `s` and every output of `s`, and possibly more of each: accesses, completions, entries of the
error log. -/
structure OutputsGrow (s t : State) : Prop where
  params : t.params = s.params
  ports : s.ports <+: t.ports
  finished : s.eng.finished ≤ t.eng.finished
  errlog : s.eng.errlog <+: t.eng.errlog

theorem OutputsGrow.trans {s t u : State} (h : OutputsGrow s t) (k : OutputsGrow t u) : OutputsGrow s u where
  params := k.params.trans h.params
  ports := h.ports.trans k.ports
  finished := h.finished.trans k.finished
  errlog := h.errlog.trans k.errlog

/-- A stage that reaches no output. -/
theorem OutputsGrow.of_same {s t : State} (hp : t.params = s.params) (ha : t.ports = s.ports)
    (hf : t.eng.finished = s.eng.finished) (he : t.eng.errlog = s.eng.errlog) : OutputsGrow s t :=
  ⟨hp, ha ▸ List.prefix_rfl, hf.ge, he ▸ List.prefix_rfl⟩

/-- A stage that leaves the engine's record alone and makes the accesses `ev`. -/
theorem OutputsGrow.of_accesses {s t : State} {ev : List PortEvent} (hp : t.params = s.params) (he : t.eng = s.eng)
    (ha : t.ports = s.ports ++ ev) : OutputsGrow s t :=
  ⟨hp, ha ▸ List.prefix_append _ _, by rw [he], by rw [he]⟩

section
variable (s : State)

theorem OutputsGrow.refl : OutputsGrow s s := .of_same rfl rfl rfl rfl

theorem respond_outputsGrow (c : ResultCode) : OutputsGrow s (respond c s) := .of_same rfl rfl rfl rfl
theorem respondIrq_outputsGrow (c : IrqResult) : OutputsGrow s (respondIrq c s) := .of_same rfl rfl rfl rfl
theorem respondCall_outputsGrow (c : ResultCode) : OutputsGrow s (respondCall c s) := .of_same rfl rfl rfl rfl

theorem afterRead_outputsGrow (r : Reg) : OutputsGrow s (afterRead r s) :=
  .of_accesses (afterRead_params r s) (afterRead_eng r s) (afterRead_ports r s)
theorem regWrite_outputsGrow (r : Reg) (v : Word) : OutputsGrow s (regWrite r v s) :=
  .of_accesses (regWrite_params r v s) (regWrite_eng r v s) (regWrite_ports r v s)
theorem rmw_outputsGrow (r : Reg) (f : Word → Word) : OutputsGrow s (rmw r f s) :=
  .of_accesses (rmw_params r f s) (rmw_eng r f s) (rmw_ports r f s)
theorem afterClockRate_outputsGrow : OutputsGrow s (afterClockRate s) :=
  .of_accesses (afterClockRate_params s) (afterClockRate_eng s) (afterClockRate_ports s)
theorem clockRelease_outputsGrow : OutputsGrow s (clockRelease s) :=
  .of_accesses (clockRelease_params s) (clockRelease_eng s) (clockRelease_ports s)

/-! The configuration operations (`41_config.md` R110 to R117), apply-clock and the acknowledgement. -/

theorem disableCtl_outputsGrow : OutputsGrow s (disableCtl s) := rmw_outputsGrow s _ _
theorem enableCtl_outputsGrow : OutputsGrow s (enableCtl s) := rmw_outputsGrow s _ _

theorem setFrameSize_outputsGrow (bits : Byte) : OutputsGrow s (setFrameSize bits s) :=
  ((disableCtl_outputsGrow s).trans (regWrite_outputsGrow _ _ _)).trans (enableCtl_outputsGrow _)

theorem setSpiMode_outputsGrow (mode : BitVec 2) : OutputsGrow s (setSpiMode mode s) :=
  ((disableCtl_outputsGrow s).trans (rmw_outputsGrow _ _ _)).trans (enableCtl_outputsGrow _)

theorem setTransferLen_outputsGrow (len : Word) : OutputsGrow s (setTransferLen len s) :=
  (((disableCtl_outputsGrow s).trans (rmw_outputsGrow _ _ _)).trans (regWrite_outputsGrow _ _ _)).trans
    (enableCtl_outputsGrow _)

theorem enableInterrupts_outputsGrow : OutputsGrow s (enableInterrupts s) :=
  ((disableCtl_outputsGrow s).trans (rmw_outputsGrow _ _ _)).trans (enableCtl_outputsGrow _)

theorem disableInterrupts_outputsGrow : OutputsGrow s (disableInterrupts s) :=
  ((disableCtl_outputsGrow s).trans (rmw_outputsGrow _ _ _)).trans (enableCtl_outputsGrow _)

theorem applyClk_outputsGrow : OutputsGrow s (applyClk s) :=
  (((disableCtl_outputsGrow s).trans (regWrite_outputsGrow _ _ _)).trans (rmw_outputsGrow _ _ _)).trans
    (enableCtl_outputsGrow _)

theorem ackBit_outputsGrow (n : Nat) : OutputsGrow s (ackBit n s) := regWrite_outputsGrow s _ _

end

/-! The bursts (`42_fifo.md` R130, R131). -/

theorem fillLoop_outputsGrow {n i : Nat} {s : State} {r : Nat × State} (h : fillLoop n i s = .next r) :
    OutputsGrow s r.2 := by
  obtain ⟨xs, last, -, hrun⟩ := fillLoop_run n i s h
  exact ⟨hrun.platform.1, hrun.ports ▸ List.prefix_append _ _, by rw [hrun.eng], by rw [hrun.eng]⟩

theorem fillBurst_outputsGrow {s t : State} (h : fillBurst s = .next t) : OutputsGrow s t := by
  obtain ⟨r, hloop, hend⟩ := andThen_eq_next h
  cases hend
  exact ((setTransferLen_outputsGrow s _).trans (fillLoop_outputsGrow hloop)).trans (.of_same rfl rfl rfl rfl)

theorem drainBurst_outputsGrow {s t : State} (h : drainBurst s = .next t) : OutputsGrow s t := by
  obtain ⟨d, ev, hd⟩ := drainBurst_drained h
  exact ⟨hd.platform.1, hd.ports ▸ List.prefix_append _ _, by rw [hd.eng], by rw [hd.eng]⟩

/-! The interrupt service, part by part (`43_interrupt.md` R140). -/

theorem drainIfAny_outputsGrow {s t : State} (h : drainIfAny s = .next t) : OutputsGrow s t := by
  unfold drainIfAny at h
  split at h
  · exact drainBurst_outputsGrow h
  · cases h; exact .refl s

theorem fillIfAny_outputsGrow {s t : State} (h : fillIfAny s = .next t) : OutputsGrow s t := by
  unfold fillIfAny at h
  split at h
  · exact fillBurst_outputsGrow h
  · cases h; exact .refl s

theorem serveTxDone_outputsGrow {f : Word} {s : State} {r : Bool × State} (h : serveTxDone f s = .next r) :
    OutputsGrow s r.2 := by
  unfold serveTxDone at h
  split at h
  · obtain ⟨t, hdrain, h⟩ := andThen_eq_next h
    obtain ⟨u, hfill, h⟩ := andThen_eq_next h
    cases h
    exact ((ackBit_outputsGrow s _).trans (drainIfAny_outputsGrow hdrain)).trans (fillIfAny_outputsGrow hfill)
  · cases h; exact .refl s

theorem serveRxReady_outputsGrow (f : Word) (s : State) : OutputsGrow s (serveRxReady f s) := by
  obtain ⟨hpart, heng, hports⟩ := serveRxReady_part f s
  exact .of_accesses hpart.params heng hports

/-- A fault part is the one part that logs. -/
theorem serveFault_outputsGrow (k : ErrKind) (f : Word) (s : State) : OutputsGrow s (serveFault k f s) := by
  obtain ⟨hpart, heng, hports⟩ := serveFault_part k f s
  exact ⟨hpart.params, hports ▸ List.prefix_append _ _, by rw [heng], by rw [heng]; exact List.prefix_append _ _⟩

/-- The completion is the one part that emits `Finished`. -/
theorem endService_outputsGrow (final : Bool) (s : State) : OutputsGrow s (endService final s) := by
  obtain ⟨hparams, -, -, -, -, -, -, -, -, -, hports, heng⟩ := endService_fields final s
  exact ⟨hparams, hports ▸ List.prefix_append _ _, by rw [heng]; exact Nat.le_add_right _ _, by rw [heng]⟩

theorem serviceBits_outputsGrow {f : Word} {s t : State} (h : serviceBits f s = .next t) : OutputsGrow s t := by
  obtain ⟨r, htx, hend⟩ := andThen_eq_next h
  cases hend
  exact ((((serveTxDone_outputsGrow htx).trans (serveRxReady_outputsGrow f _)).trans
    (serveFault_outputsGrow .rxOverflow f _)).trans (serveFault_outputsGrow .txUnderrun f _)).trans
    (endService_outputsGrow _ _)

theorem execIrq_outputsGrow {s t : State} (h : execIrq s = .next t) : OutputsGrow s t := by
  unfold execIrq at h
  split at h
  · dsimp only at h
    split at h
    · cases h
      exact (afterRead_outputsGrow s _).trans (respondIrq_outputsGrow _ _)
    · exact (afterRead_outputsGrow s _).trans (serviceBits_outputsGrow h)
  · cases h
    exact respondIrq_outputsGrow s _

/-! The lifecycle (`44_init_teardown.md` R150, R151). -/

theorem initMaxSpeed_outputsGrow (s : State) : OutputsGrow s (initMaxSpeed s) :=
  (afterClockRate_outputsGrow s).trans (.of_same rfl rfl rfl rfl)
theorem initRecord_outputsGrow (s : State) : OutputsGrow s (initRecord s) := .of_same rfl rfl rfl rfl
theorem teardownRecord_outputsGrow (s : State) : OutputsGrow s (teardownRecord s) := .of_same rfl rfl rfl rfl

theorem initialise_outputsGrow (s : State) : OutputsGrow s (initialise s) := by
  have hspeed : OutputsGrow s (initMaxSpeed (setFrameSize Config.frameBits (initFraming s))) :=
    ((rmw_outputsGrow s _ _).trans (setFrameSize_outputsGrow _ _)).trans (initMaxSpeed_outputsGrow _)
  exact ((((hspeed.trans (rmw_outputsGrow _ _ _)).trans (enableInterrupts_outputsGrow _)).trans
    (regWrite_outputsGrow _ _ _)).trans (rmw_outputsGrow _ _ _)).trans (initRecord_outputsGrow _)

theorem execInit_outputsGrow {s t : State} (h : execInit s = .next t) : OutputsGrow s t := by
  unfold execInit at h
  split at h <;> cases h
  · exact (initialise_outputsGrow s).trans (respond_outputsGrow _ _)
  · exact respond_outputsGrow s _

theorem execTeardown_outputsGrow {s t : State} (h : execTeardown s = .next t) : OutputsGrow s t := by
  unfold execTeardown at h
  split at h <;> cases h
  · exact ((((disableInterrupts_outputsGrow s).trans (clockRelease_outputsGrow _)).trans (disableCtl_outputsGrow _)).trans
      (teardownRecord_outputsGrow _)).trans (respond_outputsGrow _ _)
  · exact respond_outputsGrow s _

/-! The host commands (`45_host_operations.md`). -/

theorem acceptFinished_outputsGrow (s : State) : OutputsGrow s (acceptFinished s) := by
  rw [acceptFinished_eq]
  exact .of_same rfl rfl rfl rfl

theorem execSetup_outputsGrow {cs : BitVec 3} {csHigh : Bool} {s t : State} (h : execSetup cs csHigh s = .next t) :
    OutputsGrow s t := by
  unfold execSetup at h
  split at h <;> cases h
  · refine OutputsGrow.trans ?_ (respond_outputsGrow _ _)
    split
    · exact rmw_outputsGrow s _ _
    · exact .refl s
  · exact respond_outputsGrow s _

theorem execPrepmsg_outputsGrow {mode : BitVec 2} {s t : State} (h : execPrepmsg mode s = .next t) :
    OutputsGrow s t := by
  unfold execPrepmsg at h
  split at h <;> cases h
  · exact ((setFrameSize_outputsGrow s _).trans (setSpiMode_outputsGrow _ _)).trans (respond_outputsGrow _ _)
  · exact respond_outputsGrow s _

theorem setClock_outputsGrow (m : Bool) (g : Nat) (s : State) : OutputsGrow s (setClock m g s) :=
  .of_same rfl rfl rfl rfl
theorem loadTransfer_outputsGrow (len : Word) (tx rx : Option Nat) (s : State) :
    OutputsGrow s (loadTransfer len tx rx s) := .of_same rfl rfl rfl rfl
theorem beginTransfer_outputsGrow (s : State) : OutputsGrow s (beginTransfer s) := .of_same rfl rfl rfl rfl

theorem execXfer_outputsGrow {len hz : Word} {tx rx : Option Nat} {s t : State} (h : execXfer len hz tx rx s = .next t) :
    OutputsGrow s t := by
  have hquery : OutputsGrow s (afterClockRate (acceptFinished s)) :=
    (acceptFinished_outputsGrow s).trans (afterClockRate_outputsGrow _)
  unfold execXfer at h
  split at h
  · dsimp only at h
    split at h
    · cases h
      exact hquery.trans (respond_outputsGrow _ _)
    · rename_i m g _
      obtain ⟨u, hfill, hend⟩ := andThen_eq_next h
      cases hend
      have hclk : OutputsGrow s (applyClk (setClock m g (afterClockRate (acceptFinished s)))) :=
        (hquery.trans (setClock_outputsGrow m g _)).trans (applyClk_outputsGrow _)
      exact (((hclk.trans (loadTransfer_outputsGrow len tx rx _)).trans (fillBurst_outputsGrow hfill)).trans
        (beginTransfer_outputsGrow u)).trans (respond_outputsGrow _ _)
  · cases h
    exact respond_outputsGrow s _

theorem execSetcs_outputsGrow {cs : BitVec 3} {disable : Bool} {s t : State} (h : execSetcs cs disable s = .next t) :
    OutputsGrow s t := by
  unfold execSetcs at h
  split at h <;> cases h
  · exact (rmw_outputsGrow s _ _).trans (respond_outputsGrow _ _)
  · exact respond_outputsGrow s _

theorem execFinack_outputsGrow {s t : State} (h : execFinack s = .next t) : OutputsGrow s t := by
  unfold execFinack at h
  split at h <;> cases h
  · exact (acceptFinished_outputsGrow s).trans (respond_outputsGrow _ _)
  · exact respond_outputsGrow s _

/-! The micro-operations that branch. -/

theorem execCalcClk_outputsGrow {target src : Word} {s t : State} (h : execCalcClk target src s = .next t) :
    OutputsGrow s t := by
  unfold execCalcClk at h
  split at h <;> cases h
  · exact .of_same rfl rfl rfl rfl
  · exact respondCall_outputsGrow s _

theorem execSetFramesize_outputsGrow {bits : Byte} {s t : State} (h : execSetFramesize bits s = .next t) :
    OutputsGrow s t := by
  unfold execSetFramesize at h
  split at h <;> cases h
  · exact (setFrameSize_outputsGrow s _).trans (respondCall_outputsGrow _ _)
  · exact respondCall_outputsGrow s _

/-- Every operation that answers keeps the parameters and only adds to the outputs. -/
theorem exec_outputsGrow {i : Instr} {s t : State} (h : exec i s = .next t) : OutputsGrow s t := by
  cases i with
  | init => exact execInit_outputsGrow h
  | setup cs csHigh => exact execSetup_outputsGrow h
  | prepmsg mode => exact execPrepmsg_outputsGrow h
  | xfer len hz tx rx => exact execXfer_outputsGrow h
  | setcs cs disable => exact execSetcs_outputsGrow h
  | finack => exact execFinack_outputsGrow h
  | teardown => exact execTeardown_outputsGrow h
  | irq => exact execIrq_outputsGrow h
  | calcClk target src => exact execCalcClk_outputsGrow h
  | applyClk => cases h; exact (applyClk_outputsGrow s).trans (respondCall_outputsGrow _ _)
  | disable => cases h; exact (disableCtl_outputsGrow s).trans (respondCall_outputsGrow _ _)
  | enable => cases h; exact (enableCtl_outputsGrow s).trans (respondCall_outputsGrow _ _)
  | setFramesize bits => exact execSetFramesize_outputsGrow h
  | setMode mode => cases h; exact (setSpiMode_outputsGrow s _).trans (respondCall_outputsGrow _ _)
  | setXferLen len => cases h; exact (setTransferLen_outputsGrow s _).trans (respondCall_outputsGrow _ _)
  | enableInts => cases h; exact (enableInterrupts_outputsGrow s).trans (respondCall_outputsGrow _ _)
  | disableInts => cases h; exact (disableInterrupts_outputsGrow s).trans (respondCall_outputsGrow _ _)
  | fill =>
    obtain ⟨u, hfill, hend⟩ := andThen_eq_next h
    cases hend
    exact (fillBurst_outputsGrow hfill).trans (respondCall_outputsGrow _ _)
  | drain =>
    obtain ⟨u, hdrain, hend⟩ := andThen_eq_next h
    cases hend
    exact (drainBurst_outputsGrow hdrain).trans (respondCall_outputsGrow _ _)
  | ack bit => cases h; exact (ackBit_outputsGrow s _).trans (respondCall_outputsGrow _ _)

/-! ### What one step can be -/

/-- A step is the dispatcher's own start, a request, an event of another agent, or the reset event (log 1). -/
theorem step_cases {s t : State} (h : step s = .next t) :
    (s.inputs = [] ∧ idleStep s = .next t) ∨
    (∃ r rest, s.inputs = .request r :: rest ∧ runRequest r { s with inputs := rest } = .next t) ∨
    (∃ e rest, s.inputs = .env e :: rest ∧ t = applyEnv { s with inputs := rest } e) ∨
    ∃ b rest, s.inputs = .reset b :: rest ∧ t = resetEngine b { s with inputs := rest } := by
  unfold step at h
  split at h
  · rename_i hin
    exact .inl ⟨hin, h⟩
  · rename_i x rest hin
    cases x with
    | request r => exact .inr (.inl ⟨r, rest, hin, h⟩)
    | env e => cases h; exact .inr (.inr (.inl ⟨e, rest, hin, rfl⟩))
    | reset b => cases h; exact .inr (.inr (.inr ⟨b, rest, hin, rfl⟩))

theorem idleStep_outputsGrow {s t : State} (h : idleStep s = .next t) : OutputsGrow s t := by
  unfold idleStep at h
  split at h
  · exact exec_outputsGrow h
  · cases h; exact .refl s

theorem runRequest_outputsGrow {r : Request} {s t : State} (h : runRequest r s = .next t) : OutputsGrow s t := by
  rcases runRequest_cases r s with ⟨i, -, -, -, hrun⟩ | hrun
  · exact exec_outputsGrow (hrun ▸ h)
  · cases hrun.symm.trans h
    obtain ⟨hparams, heng, -, -, -, -, hports, -, -⟩ := rejectRequest_keeps r.source s
    exact .of_same hparams hports (by rw [heng]) (by rw [heng])

/-- Settles O58, by the four kinds of step; the reset event is the one that does not let every output grow. -/
theorem outputsOnlyGrow : Obligations.OutputsOnlyGrow := by
  intro s t h
  rcases step_cases h with ⟨-, hidle⟩ | ⟨r, rest, hin, hrun⟩ | ⟨e, rest, hin, rfl⟩ | ⟨b, rest, hin, rfl⟩
  · have hg := idleStep_outputsGrow hidle
    exact ⟨hg.params, hg.ports, fun _ => ⟨hg.finished, hg.errlog⟩⟩
  · have hg := runRequest_outputsGrow hrun
    exact ⟨hg.params, hg.ports, fun _ => ⟨hg.finished, hg.errlog⟩⟩
  · simp
  · exact ⟨rfl, List.prefix_rfl, fun hno => absurd hin (hno b rest)⟩

/-! ### The engine's record during a transfer -/

section
variable {s t : State}

theorem startAdmitted_of_transferring (h : s.eng.state = .transferring) : startAdmitted s = false := by
  simp [startAdmitted, h]

theorem acceptFinished_of_transferring (h : s.eng.state = .transferring) : acceptFinished s = s := by
  simp [acceptFinished, h]

theorem execSetup_eng {cs : BitVec 3} {csHigh : Bool} (h : execSetup cs csHigh s = .next t) : t.eng = s.eng := by
  unfold execSetup at h
  split at h <;> cases h
  · cases csHigh <;> simp
  · rfl

theorem execSetcs_eng {cs : BitVec 3} {disable : Bool} (h : execSetcs cs disable s = .next t) : t.eng = s.eng := by
  unfold execSetcs at h
  split at h <;> cases h <;> simp

/-- Of the host commands `TEARDOWN` alone reaches the engine's record during a transfer: `INIT`, `PREPMSG` and `XFER` are
refused, the chip selects are no part of the record, and `FINACK` has no signal to accept (`45_host_operations.md` R164). -/
theorem exec_hostCommand_eng_of_transferring {i : Instr} (hlive : s.eng.live = .ready)
    (hstate : s.eng.state = .transferring) (hsource : i.source = .commandPort) (hne : i ≠ .teardown)
    (h : exec i s = .next t) : t.eng = s.eng := by
  cases i with
  | init =>
    have hrefused : execInit s = .next (respond .refused s) := by simp [execInit, hlive]
    cases hrefused.symm.trans h
    rfl
  | setup cs csHigh => exact execSetup_eng h
  | prepmsg mode =>
    have hrefused : execPrepmsg mode s = .next (respond .refused s) := by
      simp [execPrepmsg, startAdmitted_of_transferring hstate]
    cases hrefused.symm.trans h
    rfl
  | xfer len hz tx rx =>
    have hrefused : execXfer len hz tx rx s = .next (respond .refused s) := by
      simp [execXfer, startAdmitted_of_transferring hstate]
    cases hrefused.symm.trans h
    rfl
  | setcs cs disable => exact execSetcs_eng h
  | finack =>
    have hok : execFinack s = .next (respond .ok s) := by
      simp [execFinack, hlive, acceptFinished_of_transferring hstate]
    cases hok.symm.trans h
    rfl
  | teardown => exact absurd rfl hne
  | irq | calcClk | applyClk | disable | enable | setFramesize | setMode | setXferLen | enableInts | disableInts
  | fill | drain | ack => cases hsource

/-- The record after a `TEARDOWN` that is not refused (`44_init_teardown.md` R151). -/
theorem execTeardown_eng (hlive : s.eng.live = .ready) (h : execTeardown s = .next t) :
    t.eng = { s.eng with state := .idle, live := .removed, txBuf := none, rxBuf := none } := by
  rw [execTeardown, if_pos hlive] at h
  cases h
  simp

/-- A service does not reach the clock pair. -/
theorem execIrq_clockPair (h : execIrq s = .next t) : t.eng.clkGen = s.eng.clkGen ∧ t.eng.clkMode = s.eng.clkMode := by
  by_cases hlive : s.eng.live = .ready
  · obtain ⟨hnone, hserve⟩ := execIrq_ready hlive
    by_cases hf : irqStatus s = 0#32
    · cases (hnone hf).symm.trans h
      simp
    · obtain ⟨d, b, evD, evF, hs⟩ := serviceBits_serviced ((hserve hf).symm.trans h)
      simp [hs.eng]
  · cases (execIrq_of_not_ready hlive).symm.trans h
    exact ⟨rfl, rfl⟩

theorem idleStep_clockPair (h : idleStep s = .next t) :
    t.eng.clkGen = s.eng.clkGen ∧ t.eng.clkMode = s.eng.clkMode := by
  unfold idleStep at h
  split at h
  · exact execIrq_clockPair h
  · cases h; exact ⟨rfl, rfl⟩

/-- What a request does to the engine's record during a transfer: nothing, unless it is a service or `TEARDOWN`. -/
theorem runRequest_eng_of_transferring {r : Request} (hlive : s.eng.live = .ready)
    (hstate : s.eng.state = .transferring) (h : runRequest r s = .next t) :
    t.eng = s.eng ∨ (decode r = .ok .irq ∧ execIrq s = .next t) ∨
    (decode r = .ok .teardown ∧
      t.eng = { s.eng with state := .idle, live := .removed, txBuf := none, rxBuf := none }) := by
  rcases runRequest_cases r s with ⟨i, hdec, hsource, hbarred, hrun⟩ | hrun
  · have hexec : exec i s = .next t := hrun ▸ h
    cases hi : i.source with
    | commandPort =>
      by_cases htd : i = .teardown
      · subst htd
        exact .inr (.inr ⟨hdec, execTeardown_eng hlive hexec⟩)
      · exact .inl (exec_hostCommand_eng_of_transferring hlive hstate hi htd hexec)
    | dispatcher =>
      cases i <;> cases hi
      exact .inr (.inl ⟨hdec, hexec⟩)
    | sequencer =>
      have hbar : callBarred r.source s = true := (callBarred_iff _ _).2 ⟨hsource.symm.trans hi, .inl hstate⟩
      rw [hbar] at hbarred
      cases hbarred
  · cases hrun.symm.trans h
    exact .inl (rejectRequest_keeps r.source s).2.1

/-- A step during a transfer that is neither a reset nor a service keeps the cursors, and `TEARDOWN` apart the whole record;
no step but the reset event moves the clock pair (`10_state.md` R29). -/
theorem step_record_of_transferring (hlive : s.eng.live = .ready) (hstate : s.eng.state = .transferring)
    (h : step s = .next t) (hreset : ∀ b rest, s.inputs ≠ .reset b :: rest) :
    t.eng.clkGen = s.eng.clkGen ∧ t.eng.clkMode = s.eng.clkMode ∧
    (s.inputs ≠ [] → (∀ r rest, s.inputs = .request r :: rest → decode r ≠ .ok .irq) →
      t.eng.txLen = s.eng.txLen ∧ t.eng.rxLen = s.eng.rxLen ∧ t.eng.pending = s.eng.pending ∧
      ((∀ r rest, s.inputs = .request r :: rest → decode r ≠ .ok .teardown) →
        t.eng.txBuf = s.eng.txBuf ∧ t.eng.rxBuf = s.eng.rxBuf ∧ t.eng.state = .transferring)) := by
  rcases step_cases h with ⟨hin, hidle⟩ | ⟨r, rest, hin, hrun⟩ | ⟨e, rest, -, rfl⟩ | ⟨b, rest, hin, -⟩
  · obtain ⟨hgen, hmode⟩ := idleStep_clockPair hidle
    exact ⟨hgen, hmode, fun hne => absurd hin hne⟩
  · rcases runRequest_eng_of_transferring (s := { s with inputs := rest }) hlive hstate hrun with
      heng | ⟨hirq, hexec⟩ | ⟨htd, heng⟩
    · simp [heng, hstate]
    · obtain ⟨hgen, hmode⟩ := execIrq_clockPair hexec
      exact ⟨hgen, hmode, fun _ hno => absurd hirq (hno r rest hin)⟩
    · rw [heng]
      exact ⟨rfl, rfl, fun _ _ => ⟨rfl, rfl, rfl, fun hno => absurd htd (hno r rest hin)⟩⟩
  · simp [hstate]
  · exact absurd hin (hreset b rest)

/-- A call of the sequencer during a transfer is turned away, whatever its word (log 12). -/
theorem step_sequencer_of_transferring {r : Request} {rest : List Input} (hin : s.inputs = .request r :: rest)
    (hsource : r.source = .sequencer) (hstate : s.eng.state = .transferring) :
    step s = .next { s with inputs := rest, callResult := some .refused } := by
  have hbar : callBarred r.source { s with inputs := rest } = true := (callBarred_iff _ _).2 ⟨hsource, .inl hstate⟩
  have hrun := runRequest_of_callBarred hbar
  rw [hsource] at hrun
  simp only [step, hin]
  exact hrun

end

/-- Settles O43. -/
theorem onlyTheHandlerAdvancesATransfer : Obligations.OnlyTheHandlerAdvancesATransfer :=
  ⟨fun _ _ => step_record_of_transferring, fun _ _ _ => step_sequencer_of_transferring⟩

end Sys2Proof.Machine
end

/-! ## The register window and the register block (`20_memory.md` R42 to R48) -/

section
namespace Sys2Proof.Machine

/-! ### The addresses that answer -/

section
variable {p : Params} {a : Nat}

theorem busTarget_eq_none (h : ∀ r : Reg, a ≠ p.regBase + r.offset) : busTarget p a = none := by
  cases hb : busTarget p a with
  | none => rfl
  | some r => exact absurd (regAddr_of_busTarget hb) (h r)

theorem busAccess_of_target {r : Reg} (b : Block) (v : Word) (h : busTarget p a = some r) :
    coreRead p b a = some (blockReadValue p b r, blockReadEffect b r) ∧ coreWrite p b a v = some (blockWrite p b r v) := by
  simp [coreRead, coreWrite, h]

theorem busAccess_of_no_target (b : Block) (v : Word) (h : busTarget p a = none) :
    coreRead p b a = none ∧ coreWrite p b a v = none := by
  simp [coreRead, coreWrite, h]

end

/-- Settles O47: an address that selects a register is that register's own, so no other selects one. -/
theorem onlyListedOffsetsAnswer : Obligations.OnlyListedOffsetsAnswer := by
  intro p b a v hbase
  refine ⟨?_, fun hno => busAccess_of_no_target b v (busTarget_eq_none hno), rfl⟩
  rintro r rfl
  exact busAccess_of_target b v (busTarget_regAddr p r hbase)

/-! ### The locked fields -/

/-- A field write leaves every bit outside the field. -/
theorem Layout.getLsbD_set_of_not_covers {L : Layout} {f : CtlField} {i : Nat} (w v : Word) (h : ¬ L.covers f i) :
    (L.set f w v).getLsbD i = w.getLsbD i := by
  rw [Layout.set, getLsbD_setField, if_neg]
  rintro ⟨hlow, hhigh, -⟩
  exact h ⟨hlow, hhigh⟩

section
variable {L : Layout} {old : Word} (v : Word) (hen : L.test .enable old = true)
include hen

theorem lockedControl_enabled : lockedControl L old v =
    L.set .framecnt (L.set .spo (L.set .sph v (L.get .sph old)) (L.get .spo old)) (L.get .framecnt old) :=
  if_pos hen

/-- The locked fields are written back in turn, and no later write-back reaches an earlier one (`20_memory.md` R46). -/
theorem getLsbD_lockedControl_locked (hL : L.legal = true) {f : CtlField}
    (hf : f = CtlField.spo ∨ f = .sph ∨ f = .framecnt) {i : Nat} (hi : L.covers f i) :
    (lockedControl L old v).getLsbD i = old.getLsbD i := by
  rw [lockedControl_enabled v hen]
  rcases hf with rfl | rfl | rfl
  · rw [L.getLsbD_set_of_not_covers _ _ (L.covers_unique hL (by decide) hi), L.getLsbD_set_get hL _ _ _ hi]
  · rw [L.getLsbD_set_of_not_covers _ _ (L.covers_unique hL (by decide) hi),
      L.getLsbD_set_of_not_covers _ _ (L.covers_unique hL (by decide) hi), L.getLsbD_set_get hL _ _ _ hi]
  · exact L.getLsbD_set_get hL _ _ _ hi

theorem lockedControl_sameOutside : L.sameOutside [.spo, .sph, .framecnt] v (lockedControl L old v) := by
  rw [lockedControl_enabled v hen]
  exact (((Layout.sameOutside.rfl' L _ v).set _ (by decide)).set _ (by decide)).set _ (by decide)

end

section
variable {p : Params} {b : Block} (v : Word)

theorem blockWrite_control_control : (blockWrite p b .control v).control = lockedControl p.layout b.control v :=
  (writeControl_keeps p b v).1

theorem blockWrite_frameSize_enabled (h : p.layout.test .enable b.control = true) : blockWrite p b .frameSize v = b :=
  if_pos h

theorem blockWrite_framesup_enabled (h : p.layout.test .enable b.control = true) : blockWrite p b .framesup v = b :=
  if_pos h

end

/-- Settles O44, by the two states of `ENABLE`. -/
theorem lockedFieldsKeepTheirValues : Obligations.LockedFieldsKeepTheirValues := by
  intro p b v hL
  rw [blockWrite_control_control]
  refine ⟨fun hen => ⟨?_, ?_, ?_, ?_⟩, fun hdis => ⟨?_, ?_, ?_⟩, rfl⟩
  · exact fun f hf i hi => getLsbD_lockedControl_locked v hen hL hf hi
  · exact lockedControl_sameOutside v hen
  · exact blockWrite_frameSize_enabled v hen
  · exact blockWrite_framesup_enabled v hen
  · exact lockedControl_disabled v hdis
  · exact blockWrite_frameSize_disabled v hdis
  · exact blockWrite_framesup_disabled v hdis

/-! ### The frame count -/

theorem getLsbD_highMask (i : Nat) : (0xFFFF0000#32).getLsbD i = (decide (16 ≤ i) && decide (i < 32)) := by
  by_cases h : i < 32
  · have hbit : ∀ k : Fin 32, (0xFFFF0000#32).getLsbD k.val = decide (16 ≤ k.val) := by decide
    exact (hbit ⟨i, h⟩).trans (by simp [h])
  · simp [h, BitVec.getLsbD_of_ge _ _ (Nat.le_of_not_lt h)]

/-- The two halves of the count stand side by side in the word that is counted to. -/
theorem countWord_eq_append (L : Layout) (framesup control : Word) :
    (framesup &&& 0xFFFF0000#32) ||| L.get .framecnt control =
      framesup.extractLsb' 16 16 ++ control.extractLsb' L.framecnt 16 := by
  apply BitVec.eq_of_getLsbD_eq
  intro i hi
  have hget : (L.get .framecnt control).getLsbD i = (decide (i < 16) && control.getLsbD (L.framecnt + i)) := by
    rw [Layout.get, getLsbD_getField, decide_eq_true hi]
    rfl
  rw [BitVec.getLsbD_or, BitVec.getLsbD_and, getLsbD_highMask, hget, BitVec.getLsbD_append]
  by_cases hlow : i < 16
  · simp [hlow]
  · have hsub : i - 16 < 16 := by omega
    have hadd : 16 + (i - 16) = i := by omega
    simp [hlow, hi, hsub, hadd, Nat.le_of_not_lt hlow]

theorem frameCount_eq (L : Layout) (b : Block) (control : Word) :
    frameCount L b control =
      (b.framesup.extractLsb' 16 16).toNat * 65536 + (control.extractLsb' L.framecnt 16).toNat := by
  rw [frameCount, countWord_eq_append, BitVec.toNat_append, ← Nat.shiftLeft_add_eq_or_of_lt (BitVec.isLt _),
    Nat.shiftLeft_eq]

theorem extractLsb'_high_and_highMask (v : Word) : (v &&& 0xFFFF0000#32).extractLsb' 16 16 = v.extractLsb' 16 16 := by
  apply BitVec.eq_of_getLsbD_eq
  intro i hi
  simp [getLsbD_highMask, hi, show 16 + i < 32 by omega]

theorem extractLsb'_low_and_highMask (v : Word) : (v &&& 0xFFFF0000#32).extractLsb' 0 16 = 0#16 := by
  apply BitVec.eq_of_getLsbD_eq
  intro i hi
  simp [getLsbD_highMask, hi]

/-- A `FRAMESUP` write looks at the high half of the word only (`20_memory.md` R47). -/
theorem blockWrite_framesup_and_highMask (p : Params) (b : Block) (v : Word) :
    blockWrite p b .framesup (v &&& 0xFFFF0000#32) = blockWrite p b .framesup v := by
  simp only [blockWrite, and_and_mask]

/-- Only a `CONTROL` write reaches `CONTROL`. -/
theorem blockWrite_control_of_ne (p : Params) (b : Block) {r : Reg} (v : Word) (h : r ≠ .control) :
    (blockWrite p b r v).control = b.control := by
  cases r with
  | control => exact absurd rfl h
  | frameSize | txData | framesup => simp only [blockWrite]; split <;> rfl
  | status | intClear | rxData | clkGen | slaveSelect | mis => rfl

/-- Settles O45. -/
theorem frameCountIsSplit : Obligations.FrameCountIsSplit := by
  intro p b v _
  refine ⟨frameCount_eq _ _ _, (blockWrite_framesup_and_highMask p b v).symm, fun hdis => ?_,
    fun r hr => blockWrite_control_of_ne p b v hr⟩
  rw [blockWrite_framesup_disabled v hdis]
  exact ⟨extractLsb'_high_and_highMask v, extractLsb'_low_and_highMask v⟩

/-! ### Slave select and the data ports -/

/-- Of a word put together from two by a mask, the bits of the mask are those of the word that gave them. -/
theorem merge_and_mask (w v m : Word) : ((w &&& ~~~m) ||| (v &&& m)) &&& m = v &&& m := by
  apply BitVec.eq_of_getLsbD_eq
  intro i _
  simp only [BitVec.getLsbD_and, BitVec.getLsbD_or, BitVec.getLsbD_not]
  cases m.getLsbD i <;> simp

/-- Settles O46. -/
theorem slaveSelectIsAlwaysWritable : Obligations.SlaveSelectIsAlwaysWritable :=
  fun _ b v => ⟨rfl, merge_and_mask b.openWord v _⟩

section
variable (p : Params) (b : Block) (v : Word)

theorem blockWrite_txData_of_room (h : b.txq.length < 32) :
    blockWrite p b .txData v = { b with txq := b.txq ++ [v.extractLsb' 0 8] } := if_pos h

theorem blockWrite_txData_of_full (h : 32 ≤ b.txq.length) : blockWrite p b .txData v = b := if_neg (Nat.not_lt.2 h)

theorem blockReadValue_rxData_of_cons {x : Byte} {q : List Byte} (h : b.rxq = x :: q) :
    (blockReadValue p b .rxData).extractLsb' 0 8 = x := by
  simp only [blockReadValue, h]
  exact dataByte_or b.openWord x

theorem getLsbD_ris_blockWrite_intClear (i : Nat) :
    (blockWrite p b .intClear v).ris.getLsbD i = (b.ris.getLsbD i && !v.getLsbD i) := by
  by_cases hi : i < 4
  · simp [blockWrite, hi]
  · simp [blockWrite, BitVec.getLsbD_of_ge b.ris i (Nat.le_of_not_lt hi)]

end

/-- Settles O54. -/
theorem dataPortsMoveOneFrame : Obligations.DataPortsMoveOneFrame := by
  intro p b v
  refine ⟨fun x q hq => ⟨blockReadValue_rxData_of_cons p b hq, ?_⟩, fun r => blockReadEffect_of_ne b,
    blockWrite_txData_of_room p b v, blockWrite_txData_of_full p b v, getLsbD_ris_blockWrite_intClear p b v,
    rfl, rfl, rfl, rfl⟩
  simp [blockReadEffect, hq]

end Sys2Proof.Machine
end

/-! ## Bytes the host has not lent (`20_memory.md` R53) -/

section
namespace Sys2Proof.Machine

/-! ### One access -/

section
variable {a : Nat} {s : State}

theorem bufRead_of_not_lent (h : (tick s).mem.read a = none) : bufRead a s = .refused (.bufReadNotLent a) := by
  simp [bufRead, h]

theorem bufWrite_of_not_lent (b : Byte) (h : (tick s).mem.read a = none) :
    bufWrite a b s = .refused (.bufWriteNotLent a) := by
  simp [bufWrite, h]

theorem nextTxByte_of_not_lent (hbuf : s.eng.txBuf = some a) (h : (tick s).mem.read a = none) :
    nextTxByte s = .refused (.bufReadNotLent a) := by
  simp [nextTxByte, hbuf, bufRead_of_not_lent h]

theorem nextTxByte_of_lent (hbuf : s.eng.txBuf = some a) (h : ((tick s).mem.read a).isSome = true) :
    ∃ r, nextTxByte s = .next r := by
  obtain ⟨b, hb⟩ := Option.isSome_iff_exists.1 h
  simp [nextTxByte, hbuf, bufRead, hb]

theorem storeRxByte_of_not_lent (b : Byte) (hbuf : s.eng.rxBuf = some a) (h : (tick s).mem.read a = none) :
    storeRxByte b s = .refused (.bufWriteNotLent a) := by
  simp [storeRxByte, hbuf, bufWrite_of_not_lent b h]

theorem storeRxByte_of_lent (b : Byte) (hbuf : s.eng.rxBuf = some a) (h : ((tick s).mem.read a).isSome = true) :
    ∃ t, storeRxByte b s = .next t := by
  obtain ⟨c, hc⟩ := Option.isSome_iff_exists.1 h
  simp [storeRxByte, hbuf, bufWrite, hc]

end

/-! ### The first byte of a burst that is not lent -/

theorem Memory.lends.head {m : Memory} {w a k : Nat} (h : m.lends w (some a) (k + 1)) : (m.read a).isSome = true :=
  h a rfl 0 (Nat.succ_pos k)

/-- A write to `TX_DATA` puts at most one frame into the FIFO. -/
theorem blockWrite_txData_length_le (p : Params) (b : Block) (v : Word) :
    (blockWrite p b .txData v).txq.length ≤ b.txq.length + 1 := by
  simp only [blockWrite]
  split <;> simp

/-- With no other agent acting, the loop of `FILL` goes on over lent bytes and stops at the first that is not lent, as long as
count and FIFO leave room for it. -/
theorem fillLoop_of_not_lent {n i a k : Nat} {s : State} (hL : s.params.layout.legal = true) (hq : s.env = [])
    (hbuf : s.eng.txBuf = some a) (hn : k < n) (hroom : s.blk.txq.length + k < 32)
    (hlent : s.mem.lends s.params.addrW (some a) k) (hstop : s.mem.read (advance s.params.addrW k a) = none) :
    fillLoop n i s = .refused (.bufReadNotLent (advance s.params.addrW k a)) := by
  induction n generalizing i a k s with
  | zero => omega
  | succ n ih =>
    have hclear : s.params.layout.stTest .txfifoFull (readWord .status s) = false := by
      rw [(readWord_status_of_quiet hq hL).1]
      exact decide_eq_false (by simp only [Config.fifoDepth]; omega)
    obtain ⟨hrmem, -, -, hrenv⟩ := (afterRead_keepsOutside .status s).quiet hq
    have hread : (tick (afterRead .status s)).mem = s.mem := by rw [tick_of_quiet hrenv, hrmem]
    rw [fillLoop, if_neg (by simp [hclear])]
    cases k with
    | zero =>
      rw [nextTxByte_of_not_lent (a := a) (by simp [hbuf]) (by rw [hread]; exact hstop)]
      rfl
    | succ k =>
      obtain ⟨r, hr⟩ := nextTxByte_of_lent (a := a) (s := afterRead .status s) (by simp [hbuf])
        (by rw [hread]; exact hlent.head)
      have hstep := fillStep_of_next hclear hr
      rw [hr, andThen_next, advance_succ]
      generalize regWrite .txData (zext32 r.1) r.2 = v at hstep ⊢
      obtain ⟨hparams, -, -, -, henv⟩ := hstep.platform
      have hmem : v.mem = s.mem := by rw [hstep.mem, ticks_of_quiet _ hq]
      have hlen := blockWrite_txData_length_le s.params s.blk (zext32 r.1)
      rw [← (hstep.quiet hq).1] at hlen
      rw [← hparams]
      refine ih ?_ ?_ ?_ (by omega) (by omega) ?_ ?_
      · rw [hparams]; exact hL
      · rw [henv, ticks_of_quiet _ hq]; exact hq
      · simp [hstep.eng, hbuf, hparams]
      · rw [hmem, hparams]; exact hlent.next
      · rw [hmem, hparams]; exact hstop

/-- The loop of `DRAIN` likewise, as long as the count and the frames received reach that byte. -/
theorem drainLoop_of_not_lent {n i a k : Nat} {s : State} (hL : s.params.layout.legal = true) (hq : s.env = [])
    (hbuf : s.eng.rxBuf = some a) (hn : k < n) (hframes : k < s.blk.rxq.length)
    (hlent : s.mem.lends s.params.addrW (some a) k) (hstop : s.mem.read (advance s.params.addrW k a) = none) :
    drainLoop n i s = .refused (.bufWriteNotLent (advance s.params.addrW k a)) := by
  induction n generalizing i a k s with
  | zero => omega
  | succ n ih =>
    have hclear : s.params.layout.stTest .rxfifoEmpty (readWord .status s) = false := by
      rw [(readWord_status_of_quiet hq hL).2]
      exact decide_eq_false (by omega)
    have hko := (afterRead_keepsOutside .status s).trans (afterRead_keepsOutside .rxData (afterRead .status s))
    obtain ⟨hrmem, -, -, hrenv⟩ := hko.quiet hq
    have hreng := hko.2.1
    have hread : (tick (afterRead .rxData (afterRead .status s))).mem = s.mem := by rw [tick_of_quiet hrenv, hrmem]
    rw [drainLoop, if_neg (by simp [hclear])]
    dsimp only
    cases k with
    | zero =>
      rw [storeRxByte_of_not_lent (a := a) _ (by rw [hreng]; exact hbuf) (by rw [hread]; exact hstop)]
      rfl
    | succ k =>
      obtain ⟨v, hv⟩ := storeRxByte_of_lent (a := a) (dataByte (readWord .rxData (afterRead .status s)))
        (by rw [hreng]; exact hbuf) (by rw [hread]; exact hlent.head)
      have hstep := drainStep_of_next hclear hv
      rw [hv, andThen_next, advance_succ]
      obtain ⟨hparams, -, -, -, henv⟩ := hstep.platform
      have hmem : v.mem = s.mem.write a (dataByte (readWord .rxData (afterRead .status s))) := by
        rw [hstep.memStill (hostStill_of_quiet hq), hbuf]; rfl
      have hother : advance s.params.addrW k (nextAddr s.params.addrW a) ≠ a := fun he => by
        have hsome := hlent.head
        rw [← he, ← advance_succ, hstop] at hsome
        cases hsome
      rw [← hparams]
      refine ih ?_ ?_ ?_ (by omega) ?_ ?_ ?_
      · rw [hparams]; exact hL
      · rw [henv, ticks_of_quiet _ hq]; exact hq
      · simp [hstep.eng, hbuf, hparams]
      · rw [(hstep.quiet hq).1]; simp only [List.length_tail]; omega
      · rw [hmem, hparams]; exact hlent.next.write _ _
      · rw [hmem, hparams, Memory.read_write_other _ _ hother]; exact hstop

section
variable {s : State} {a k : Nat}

theorem execFill_of_not_lent (hL : s.params.layout.legal = true) (hq : s.env = []) (hbuf : s.eng.txBuf = some a)
    (hk : k < min s.eng.txLen 32) (hroom : s.blk.txq.length + k < 32) (hlent : s.mem.lends s.params.addrW (some a) k)
    (hstop : s.mem.read (advance s.params.addrW k a) = none) :
    execFill s = .refused (.bufReadNotLent (advance s.params.addrW k a)) := by
  have hc := setTransferLen_configStep (BitVec.ofNat 32 (burst s.eng.txLen)) s
  obtain ⟨hmem, -, -, henv⟩ := hc.outside.quiet hq
  obtain ⟨-, -, -, -, htxq, -⟩ := hc.quiet hq
  rw [execFill, fillBurst]
  generalize setTransferLen (BitVec.ofNat 32 (burst s.eng.txLen)) s = u at hc hmem henv htxq ⊢
  rw [← hc.params, fillLoop_of_not_lent (a := a) (k := k)]
  · rfl
  · rw [hc.params]; exact hL
  · exact henv
  · rw [hc.eng]; exact hbuf
  · exact hk
  · rw [htxq]; exact hroom
  · rw [hmem, hc.params]; exact hlent
  · rw [hmem, hc.params]; exact hstop

theorem execDrain_of_not_lent (hL : s.params.layout.legal = true) (hq : s.env = []) (hbuf : s.eng.rxBuf = some a)
    (hk : k < min s.eng.rxLen 32) (hframes : k < s.blk.rxq.length) (hlent : s.mem.lends s.params.addrW (some a) k)
    (hstop : s.mem.read (advance s.params.addrW k a) = none) :
    execDrain s = .refused (.bufWriteNotLent (advance s.params.addrW k a)) := by
  have hloop : drainLoop (burst s.eng.rxLen) 0 s = .refused (.bufWriteNotLent (advance s.params.addrW k a)) :=
    drainLoop_of_not_lent hL hq hbuf hk hframes hlent hstop
  simp [execDrain, drainBurst, hloop]

end

/-! ### Nothing else stops an instruction -/

/-- The stage answers, or is stopped at a buffer byte that is not lent. -/
def AnswersOrUnlent {α : Type} (o : Host.Outcome α Fault Refusal) : Prop :=
  (∃ x, o = .next x) ∨ ∃ a, o = .refused (.bufReadNotLent a) ∨ o = .refused (.bufWriteNotLent a)

theorem AnswersOrUnlent.next {α : Type} (x : α) : AnswersOrUnlent (.next x) := .inl ⟨x, rfl⟩

/-- A chain of stages is stopped by its stages only. -/
theorem AnswersOrUnlent.andThen {α β : Type} {o : Host.Outcome α Fault Refusal} {k : α → Host.Outcome β Fault Refusal}
    (ho : AnswersOrUnlent o) (hk : ∀ x, AnswersOrUnlent (k x)) : AnswersOrUnlent (Machine.andThen o k) := by
  rcases ho with ⟨x, rfl⟩ | ⟨a, rfl | rfl⟩
  · exact hk x
  · exact .inr ⟨a, .inl rfl⟩
  · exact .inr ⟨a, .inr rfl⟩

section
variable (s : State)

theorem bufRead_answersOrUnlent (a : Nat) : AnswersOrUnlent (bufRead a s) := by
  cases hm : (tick s).mem.read a with
  | none => exact .inr ⟨a, .inl (bufRead_of_not_lent hm)⟩
  | some b => simp [bufRead, hm, AnswersOrUnlent.next]

theorem bufWrite_answersOrUnlent (a : Nat) (b : Byte) : AnswersOrUnlent (bufWrite a b s) := by
  cases hm : (tick s).mem.read a with
  | none => exact .inr ⟨a, .inr (bufWrite_of_not_lent b hm)⟩
  | some c => simp [bufWrite, hm, AnswersOrUnlent.next]

theorem nextTxByte_answersOrUnlent : AnswersOrUnlent (nextTxByte s) := by
  unfold nextTxByte
  split
  · exact .next _
  · exact (bufRead_answersOrUnlent s _).andThen fun _ => .next _

theorem storeRxByte_answersOrUnlent (b : Byte) : AnswersOrUnlent (storeRxByte b s) := by
  unfold storeRxByte
  split
  · exact .next _
  · exact (bufWrite_answersOrUnlent s _ b).andThen fun _ => .next _

theorem fillLoop_answersOrUnlent (n i : Nat) : AnswersOrUnlent (fillLoop n i s) := by
  induction n generalizing i s with
  | zero => exact .next _
  | succ n ih =>
    unfold fillLoop
    split
    · exact .next _
    · exact (nextTxByte_answersOrUnlent _).andThen fun _ => ih _ _

theorem drainLoop_answersOrUnlent (n i : Nat) : AnswersOrUnlent (drainLoop n i s) := by
  induction n generalizing i s with
  | zero => exact .next _
  | succ n ih =>
    unfold drainLoop
    split
    · exact .next _
    · exact (storeRxByte_answersOrUnlent _ _).andThen fun _ => ih _ _

theorem fillBurst_answersOrUnlent : AnswersOrUnlent (fillBurst s) :=
  (fillLoop_answersOrUnlent _ _ _).andThen fun _ => .next _

theorem drainBurst_answersOrUnlent : AnswersOrUnlent (drainBurst s) :=
  (drainLoop_answersOrUnlent _ _ _).andThen fun _ => .next _

theorem drainIfAny_answersOrUnlent : AnswersOrUnlent (drainIfAny s) := by
  unfold drainIfAny
  split
  · exact drainBurst_answersOrUnlent s
  · exact .next s

theorem fillIfAny_answersOrUnlent : AnswersOrUnlent (fillIfAny s) := by
  unfold fillIfAny
  split
  · exact fillBurst_answersOrUnlent s
  · exact .next s

theorem serveTxDone_answersOrUnlent (f : Word) : AnswersOrUnlent (serveTxDone f s) := by
  unfold serveTxDone
  split
  · exact (drainIfAny_answersOrUnlent _).andThen fun t => (fillIfAny_answersOrUnlent t).andThen fun _ => .next _
  · exact .next _

theorem execIrq_answersOrUnlent : AnswersOrUnlent (execIrq s) := by
  by_cases hlive : s.eng.live = .ready
  · obtain ⟨hnone, hserve⟩ := execIrq_ready hlive
    by_cases hf : irqStatus s = 0#32
    · rw [hnone hf]; exact .next _
    · rw [hserve hf]; exact (serveTxDone_answersOrUnlent _ _).andThen fun _ => .next _
  · rw [execIrq_of_not_ready hlive]; exact .next _

theorem execXfer_answersOrUnlent (len hz : Word) (tx rx : Option Nat) : AnswersOrUnlent (execXfer len hz tx rx s) := by
  unfold execXfer
  split
  · dsimp only
    split
    · exact .next _
    · exact (fillBurst_answersOrUnlent _).andThen fun _ => .next _
  · exact .next _

theorem execFill_answersOrUnlent : AnswersOrUnlent (execFill s) :=
  (fillBurst_answersOrUnlent s).andThen fun _ => .next _

theorem execDrain_answersOrUnlent : AnswersOrUnlent (execDrain s) :=
  (drainBurst_answersOrUnlent s).andThen fun _ => .next _

end

theorem exists_next_of_ite {c : Prop} [Decidable c] (s t : State) :
    ∃ u, (if c then (.next s : Result) else .next t) = .next u := by
  split <;> exact ⟨_, rfl⟩

/-- The instruction reaches buffer memory: it is a burst or makes one (`42_fifo.md` R130, R131). -/
def MakesBurst (i : Instr) : Prop :=
  i = .fill ∨ i = .drain ∨ i = .irq ∨ ∃ len hz tx rx, i = .xfer len hz tx rx

/-- An instruction is a burst or makes one, or it answers in every state. -/
theorem exec_completes_or_makesBurst (i : Instr) (s : State) : (∃ t, exec i s = .next t) ∨ MakesBurst i := by
  cases i with
  | xfer len hz tx rx => exact .inr (.inr (.inr (.inr ⟨len, hz, tx, rx, rfl⟩)))
  | irq => exact .inr (.inr (.inr (.inl rfl)))
  | fill => exact .inr (.inl rfl)
  | drain => exact .inr (.inr (.inl rfl))
  | init | setup | prepmsg | setcs | finack | teardown | setFramesize => exact .inl (exists_next_of_ite _ _)
  | calcClk target src =>
    simp only [exec, execCalcClk]
    split <;> exact .inl ⟨_, rfl⟩
  | applyClk | disable | enable | setMode | setXferLen | enableInts | disableInts | ack => exact .inl ⟨_, rfl⟩

theorem MakesBurst.answersOrUnlent {i : Instr} (h : MakesBurst i) (s : State) : AnswersOrUnlent (exec i s) := by
  rcases h with rfl | rfl | rfl | ⟨len, hz, tx, rx, rfl⟩
  · exact execFill_answersOrUnlent s
  · exact execDrain_answersOrUnlent s
  · exact execIrq_answersOrUnlent s
  · exact execXfer_answersOrUnlent s len hz tx rx

/-- Settles O28: the two accesses, the two bursts by induction on their loops, and the chain of stages of every instruction. -/
theorem unlentBufferByteIsRefused : Obligations.UnlentBufferByteIsRefused := by
  refine ⟨fun s a b h => ⟨bufRead_of_not_lent h, bufWrite_of_not_lent b h⟩, fun _ _ _ => execFill_of_not_lent,
    fun _ _ _ => execDrain_of_not_lent, fun s i => ?_⟩
  rcases exec_completes_or_makesBurst i s with hnext | hburst
  · exact .inl hnext
  · exact (hburst.answersOrUnlent s).imp_right fun hstop => ⟨hburst, hstop⟩

end Sys2Proof.Machine
end

/-! ## The registers an operation reaches (`20_memory.md` R61) -/

section
namespace Sys2Proof.Machine

/-- From `s` to `t` the record of accesses grows by events that read registers among `rs` and write registers among `ws`
only. -/
def Reaches (rs ws : List Reg) (s t : State) : Prop :=
  ∃ ev, t.ports = s.ports ++ ev ∧ ∀ e ∈ ev, withinReach rs ws e

section
variable {rs ws : List Reg}

theorem Reaches.trans {s t u : State} (h : Reaches rs ws s t) (k : Reaches rs ws t u) : Reaches rs ws s u := by
  obtain ⟨ev, hports, hev⟩ := h
  obtain ⟨fv, kports, hfv⟩ := k
  refine ⟨ev ++ fv, by rw [kports, hports, List.append_assoc], fun e he => ?_⟩
  rcases List.mem_append.1 he with he | he
  · exact hev e he
  · exact hfv e he

/-- A stage that adds nothing to the record. -/
theorem Reaches.of_same {s t : State} (h : t.ports = s.ports) : Reaches rs ws s t :=
  ⟨[], by simp [h], fun _ he => by cases he⟩

theorem Reaches.refl (s : State) : Reaches rs ws s s := .of_same rfl

/-- A stage that adds one event. -/
theorem Reaches.of_event {s t : State} {e : PortEvent} (h : t.ports = s.ports ++ [e]) (he : withinReach rs ws e) :
    Reaches rs ws s t :=
  ⟨[e], h, by simpa using he⟩

/-! ### Stages -/

section
variable (s : State)

theorem afterRead_reaches {r : Reg} (hr : r ∈ rs) : Reaches rs ws s (afterRead r s) := .of_event (afterRead_ports r s) hr

theorem regWrite_reaches {r : Reg} (v : Word) (hw : r ∈ ws) : Reaches rs ws s (regWrite r v s) :=
  .of_event (regWrite_ports r v s) hw

theorem rmw_reaches {r : Reg} (f : Word → Word) (hr : r ∈ rs) (hw : r ∈ ws) : Reaches rs ws s (rmw r f s) :=
  (afterRead_reaches s hr).trans (regWrite_reaches _ _ hw)

theorem afterClockRate_reaches : Reaches rs ws s (afterClockRate s) := .of_event (afterClockRate_ports s) trivial
theorem clockRelease_reaches : Reaches rs ws s (clockRelease s) := .of_event (clockRelease_ports s) trivial
theorem emitError_reaches (k : ErrKind) : Reaches rs ws s (emitError k s) := .of_event rfl trivial
theorem finalise_reaches : Reaches rs ws s (finalise s) := .of_event rfl trivial

theorem ackBit_reaches (n : Nat) (hw : .intClear ∈ ws) : Reaches rs ws s (ackBit n s) := regWrite_reaches s _ hw

theorem respond_reaches (c : ResultCode) : Reaches rs ws s (respond c s) := .of_same rfl
theorem respondIrq_reaches (c : IrqResult) : Reaches rs ws s (respondIrq c s) := .of_same rfl
theorem respondCall_reaches (c : ResultCode) : Reaches rs ws s (respondCall c s) := .of_same rfl

/-! The stages that move the engine's record only. -/

theorem setClock_reaches (m : Bool) (g : Nat) : Reaches rs ws s (setClock m g s) := .of_same rfl
theorem loadTransfer_reaches (len : Word) (tx rx : Option Nat) : Reaches rs ws s (loadTransfer len tx rx s) := .of_same rfl
theorem beginTransfer_reaches : Reaches rs ws s (beginTransfer s) := .of_same rfl
theorem acceptFinished_reaches : Reaches rs ws s (acceptFinished s) := .of_same (by rw [acceptFinished_eq])
theorem initMaxSpeed_reaches : Reaches rs ws s (initMaxSpeed s) := (afterClockRate_reaches s).trans (.of_same rfl)
theorem initRecord_reaches : Reaches rs ws s (initRecord s) := .of_same rfl
theorem teardownRecord_reaches : Reaches rs ws s (teardownRecord s) := .of_same rfl

end

/-! The configuration operations (`41_config.md` R110 to R117), apply-clock and initialisation: each reaches `CONTROL`. -/

section
variable (s : State) (hr : .control ∈ rs) (hw : .control ∈ ws)
include hr hw

theorem disableCtl_reaches : Reaches rs ws s (disableCtl s) := rmw_reaches s _ hr hw
theorem enableCtl_reaches : Reaches rs ws s (enableCtl s) := rmw_reaches s _ hr hw

theorem setFrameSize_reaches (bits : Byte) (hf : .frameSize ∈ ws) : Reaches rs ws s (setFrameSize bits s) :=
  ((disableCtl_reaches s hr hw).trans (regWrite_reaches _ _ hf)).trans (enableCtl_reaches _ hr hw)

theorem setSpiMode_reaches (mode : BitVec 2) : Reaches rs ws s (setSpiMode mode s) :=
  ((disableCtl_reaches s hr hw).trans (rmw_reaches _ _ hr hw)).trans (enableCtl_reaches _ hr hw)

theorem setTransferLen_reaches (len : Word) (hu : .framesup ∈ ws) : Reaches rs ws s (setTransferLen len s) :=
  (((disableCtl_reaches s hr hw).trans (rmw_reaches _ _ hr hw)).trans (regWrite_reaches _ _ hu)).trans
    (enableCtl_reaches _ hr hw)

theorem enableInterrupts_reaches : Reaches rs ws s (enableInterrupts s) :=
  ((disableCtl_reaches s hr hw).trans (rmw_reaches _ _ hr hw)).trans (enableCtl_reaches _ hr hw)

theorem disableInterrupts_reaches : Reaches rs ws s (disableInterrupts s) :=
  ((disableCtl_reaches s hr hw).trans (rmw_reaches _ _ hr hw)).trans (enableCtl_reaches _ hr hw)

theorem applyClk_reaches (hg : .clkGen ∈ ws) : Reaches rs ws s (applyClk s) :=
  (((disableCtl_reaches s hr hw).trans (regWrite_reaches _ _ hg)).trans (rmw_reaches _ _ hr hw)).trans
    (enableCtl_reaches _ hr hw)

theorem initialise_reaches (hf : .frameSize ∈ ws) (hs : .slaveSelect ∈ ws) : Reaches rs ws s (initialise s) := by
  have hspeed : Reaches rs ws s (initMaxSpeed (setFrameSize Config.frameBits (initFraming s))) :=
    ((rmw_reaches s _ hr hw).trans (setFrameSize_reaches _ hr hw _ hf)).trans (initMaxSpeed_reaches _)
  exact ((((hspeed.trans (rmw_reaches _ _ hr hw)).trans (enableInterrupts_reaches _ hr hw)).trans
    (regWrite_reaches _ _ hs)).trans (rmw_reaches _ _ hr hw)).trans (initRecord_reaches _)

end

/-! The bursts (`42_fifo.md` R130, R131). -/

theorem fillPorts_within (hr : .status ∈ rs) (hw : .txData ∈ ws) (w : Nat) (buf : Option Nat) (xs : List (Word × Byte)) :
    ∀ e ∈ fillPorts w buf xs, withinReach rs ws e := by
  induction xs generalizing buf with
  | nil => cases buf <;> simp [fillPorts]
  | cons x xs ih => cases buf <;> simpa [fillPorts, withinReach, hr, hw] using ih _

theorem drainPorts_within (hr : .status ∈ rs) (hd : .rxData ∈ rs) (w : Nat) (buf : Option Nat)
    (xs : List (Word × Word)) : ∀ e ∈ drainPorts w buf xs, withinReach rs ws e := by
  induction xs generalizing buf with
  | nil => cases buf <;> simp [drainPorts]
  | cons x xs ih => cases buf <;> simpa [drainPorts, withinReach, hr, hd] using ih _

/-- The access that ends a loop by its flag is a read of `STATUS`. -/
theorem loopEnd_within (hr : .status ∈ rs) {L : Layout} {f : StField} {n i : Nat} {last : List PortEvent}
    (h : loopEnd L f n i last) : ∀ e ∈ last, withinReach rs ws e := by
  rcases h with ⟨-, rfl⟩ | ⟨-, w, rfl, -⟩
  · simp
  · simpa [withinReach] using hr

theorem fillBurst_reaches (hr : .control ∈ rs) (hw : .control ∈ ws) (hu : .framesup ∈ ws) (hs : .status ∈ rs)
    (hd : .txData ∈ ws) {s t : State} (h : fillBurst s = .next t) : Reaches rs ws s t := by
  obtain ⟨r, hloop, hend⟩ := andThen_eq_next h
  cases hend
  obtain ⟨xs, last, -, hrun⟩ := fillLoop_run _ _ _ hloop
  refine (setTransferLen_reaches s hr hw _ hu).trans ⟨_, hrun.ports, fun e he => ?_⟩
  rcases List.mem_append.1 he with he | he
  · exact fillPorts_within hs hd _ _ _ e he
  · exact loopEnd_within hs hrun.ends e he

theorem drainBurst_reaches (hs : .status ∈ rs) (hd : .rxData ∈ rs) {s t : State} (h : drainBurst s = .next t) :
    Reaches rs ws s t := by
  obtain ⟨xs, last, hb⟩ := drainBurst_run s h
  refine ⟨_, hb.ports, fun e he => ?_⟩
  rcases List.mem_append.1 he with he | he
  · exact drainPorts_within hs hd _ _ _ e he
  · exact loopEnd_within hs hb.ends e he

end

/-! The interrupt service, part by part (`43_interrupt.md` R140). -/

section
variable {s : State}

/-- The reach of a service (`20_memory.md` R61, row of `IRQ`). -/
abbrev IrqReaches (s t : State) : Prop := Reaches Instr.irq.mayRead Instr.irq.mayWrite s t

theorem ackSource_irqReaches (k : IntSrc) (s : State) : IrqReaches s (ackSource k s) := ackBit_reaches s _ (by decide)

theorem drainIfAny_irqReaches {t : State} (h : drainIfAny s = .next t) : IrqReaches s t := by
  unfold drainIfAny at h
  split at h
  · exact drainBurst_reaches (by decide) (by decide) h
  · cases h; exact .refl s

theorem fillIfAny_irqReaches {t : State} (h : fillIfAny s = .next t) : IrqReaches s t := by
  unfold fillIfAny at h
  split at h
  · exact fillBurst_reaches (by decide) (by decide) (by decide) (by decide) (by decide) h
  · cases h; exact .refl s

theorem serveTxDone_irqReaches {f : Word} {r : Bool × State} (h : serveTxDone f s = .next r) : IrqReaches s r.2 := by
  unfold serveTxDone at h
  split at h
  · obtain ⟨t, hdrain, h⟩ := andThen_eq_next h
    obtain ⟨u, hfill, h⟩ := andThen_eq_next h
    cases h
    exact ((ackSource_irqReaches _ s).trans (drainIfAny_irqReaches hdrain)).trans (fillIfAny_irqReaches hfill)
  · cases h; exact .refl s

theorem serveRxReady_irqReaches (f : Word) (s : State) : IrqReaches s (serveRxReady f s) := by
  unfold serveRxReady
  split
  · exact ackSource_irqReaches _ s
  · exact .refl s

theorem serveFault_irqReaches (k : ErrKind) (f : Word) (s : State) : IrqReaches s (serveFault k f s) := by
  unfold serveFault
  split
  · exact (ackSource_irqReaches _ s).trans (emitError_reaches _ k)
  · exact .refl s

theorem endService_irqReaches (final : Bool) (s : State) : IrqReaches s (endService final s) := by
  refine Reaches.trans ?_ (respondIrq_reaches _ _)
  split
  · exact finalise_reaches s
  · exact .refl s

theorem serviceBits_irqReaches {f : Word} {t : State} (h : serviceBits f s = .next t) : IrqReaches s t := by
  obtain ⟨r, htx, hend⟩ := andThen_eq_next h
  cases hend
  exact ((((serveTxDone_irqReaches htx).trans (serveRxReady_irqReaches f _)).trans
    (serveFault_irqReaches .rxOverflow f _)).trans (serveFault_irqReaches .txUnderrun f _)).trans
    (endService_irqReaches _ _)

theorem execIrq_irqReaches {t : State} (h : execIrq s = .next t) : IrqReaches s t := by
  by_cases hlive : s.eng.live = .ready
  · obtain ⟨hnone, hserve⟩ := execIrq_ready hlive
    have hread : IrqReaches s (afterRead .mis s) := afterRead_reaches s (by decide)
    by_cases hf : irqStatus s = 0#32
    · cases (hnone hf).symm.trans h
      exact hread.trans (respondIrq_reaches _ _)
    · exact hread.trans (serviceBits_irqReaches ((hserve hf).symm.trans h))
  · cases (execIrq_of_not_ready hlive).symm.trans h
    exact respondIrq_reaches s _

end

/-! ### Instructions -/

section
variable {s t : State}

theorem execInit_reaches (h : execInit s = .next t) : Reaches [.control] [.control, .frameSize, .slaveSelect] s t := by
  unfold execInit at h
  split at h <;> cases h
  · exact (initialise_reaches s (by decide) (by decide) (by decide) (by decide)).trans (respond_reaches _ _)
  · exact respond_reaches s _

theorem execTeardown_reaches (h : execTeardown s = .next t) : Reaches [.control] [.control] s t := by
  unfold execTeardown at h
  split at h <;> cases h
  · exact ((((disableInterrupts_reaches s (by decide) (by decide)).trans (clockRelease_reaches _)).trans
      (disableCtl_reaches _ (by decide) (by decide))).trans (teardownRecord_reaches _)).trans (respond_reaches _ _)
  · exact respond_reaches s _

theorem execSetup_reaches {cs : BitVec 3} {csHigh : Bool} (h : execSetup cs csHigh s = .next t) :
    Reaches [.slaveSelect] [.slaveSelect] s t := by
  unfold execSetup at h
  split at h <;> cases h
  · refine Reaches.trans ?_ (respond_reaches _ _)
    split
    · exact rmw_reaches s _ (by decide) (by decide)
    · exact .refl s
  · exact respond_reaches s _

theorem execSetcs_reaches {cs : BitVec 3} {disable : Bool} (h : execSetcs cs disable s = .next t) :
    Reaches [.slaveSelect] [.slaveSelect] s t := by
  unfold execSetcs at h
  split at h <;> cases h
  · exact (rmw_reaches s _ (by decide) (by decide)).trans (respond_reaches _ _)
  · exact respond_reaches s _

theorem execPrepmsg_reaches {mode : BitVec 2} (h : execPrepmsg mode s = .next t) :
    Reaches [.control] [.control, .frameSize] s t := by
  unfold execPrepmsg at h
  split at h <;> cases h
  · exact ((setFrameSize_reaches s (by decide) (by decide) _ (by decide)).trans
      (setSpiMode_reaches _ (by decide) (by decide) mode)).trans (respond_reaches _ _)
  · exact respond_reaches s _

theorem execFinack_reaches (h : execFinack s = .next t) : Reaches [] [] s t := by
  unfold execFinack at h
  split at h <;> cases h
  · exact (acceptFinished_reaches s).trans (respond_reaches _ _)
  · exact respond_reaches s _

theorem execXfer_reaches {len hz : Word} {tx rx : Option Nat} (h : execXfer len hz tx rx s = .next t) :
    Reaches [.control, .status] [.control, .txData, .clkGen, .framesup] s t := by
  unfold execXfer at h
  split at h
  · dsimp only at h
    have hquery : Reaches [.control, .status] [.control, .txData, .clkGen, .framesup] s
        (afterClockRate (acceptFinished s)) := (acceptFinished_reaches s).trans (afterClockRate_reaches _)
    split at h
    · cases h
      exact hquery.trans (respond_reaches _ _)
    · rename_i m g _
      obtain ⟨u, hfill, hend⟩ := andThen_eq_next h
      cases hend
      have hclk := (hquery.trans (setClock_reaches _ m g)).trans (applyClk_reaches _ (by decide) (by decide) (by decide))
      have hburst := (hclk.trans (loadTransfer_reaches _ len tx rx)).trans
        (fillBurst_reaches (by decide) (by decide) (by decide) (by decide) (by decide) hfill)
      exact (hburst.trans (beginTransfer_reaches u)).trans (respond_reaches _ _)
  · cases h
    exact respond_reaches s _

theorem execCalcClk_reaches {target src : Word} (h : execCalcClk target src s = .next t) : Reaches [] [] s t := by
  unfold execCalcClk at h
  split at h <;> cases h
  · exact (setClock_reaches s _ _).trans (respondCall_reaches _ _)
  · exact respondCall_reaches s _

theorem execSetFramesize_reaches {bits : Byte} (h : execSetFramesize bits s = .next t) :
    Reaches [.control] [.control, .frameSize] s t := by
  unfold execSetFramesize at h
  split at h <;> cases h
  · exact (setFrameSize_reaches s (by decide) (by decide) bits (by decide)).trans (respondCall_reaches _ _)
  · exact respondCall_reaches s _

theorem execSetMode_reaches {mode : BitVec 2} (h : execSetMode mode s = .next t) : Reaches [.control] [.control] s t := by
  cases h
  exact (setSpiMode_reaches s (by decide) (by decide) mode).trans (respondCall_reaches _ _)

theorem execSetXferLen_reaches {len : Word} (h : execSetXferLen len s = .next t) :
    Reaches [.control] [.control, .framesup] s t := by
  cases h
  exact (setTransferLen_reaches s (by decide) (by decide) len (by decide)).trans (respondCall_reaches _ _)

theorem execAck_reaches {bit : BitVec 2} (h : execAck bit s = .next t) : Reaches [] [.intClear] s t := by
  cases h
  exact (ackBit_reaches s _ (by decide)).trans (respondCall_reaches _ _)

theorem execFill_reaches (h : execFill s = .next t) :
    Reaches [.control, .status] [.control, .txData, .framesup] s t := by
  obtain ⟨u, hfill, hend⟩ := andThen_eq_next h
  cases hend
  exact (fillBurst_reaches (by decide) (by decide) (by decide) (by decide) (by decide) hfill).trans
    (respondCall_reaches _ _)

theorem execDrain_reaches (h : execDrain s = .next t) : Reaches [.status, .rxData] [] s t := by
  obtain ⟨u, hdrain, hend⟩ := andThen_eq_next h
  cases hend
  exact (drainBurst_reaches (by decide) (by decide) hdrain).trans (respondCall_reaches _ _)

/-- Every operation that answers stays within its row of the table (`20_memory.md` R61). -/
theorem exec_reaches {i : Instr} (h : exec i s = .next t) : Reaches i.mayRead i.mayWrite s t := by
  cases i with
  | init => exact execInit_reaches h
  | setup cs csHigh => exact execSetup_reaches h
  | prepmsg mode => exact execPrepmsg_reaches h
  | xfer len hz tx rx => exact execXfer_reaches h
  | setcs cs disable => exact execSetcs_reaches h
  | finack => exact execFinack_reaches h
  | teardown => exact execTeardown_reaches h
  | irq => exact execIrq_irqReaches h
  | calcClk target src => exact execCalcClk_reaches h
  | applyClk =>
    cases h; exact (applyClk_reaches s (by decide) (by decide) (by decide)).trans (respondCall_reaches _ _)
  | disable => cases h; exact (disableCtl_reaches s (by decide) (by decide)).trans (respondCall_reaches _ _)
  | enable => cases h; exact (enableCtl_reaches s (by decide) (by decide)).trans (respondCall_reaches _ _)
  | setFramesize bits => exact execSetFramesize_reaches h
  | setMode mode => exact execSetMode_reaches h
  | setXferLen len => exact execSetXferLen_reaches h
  | enableInts => cases h; exact (enableInterrupts_reaches s (by decide) (by decide)).trans (respondCall_reaches _ _)
  | disableInts => cases h; exact (disableInterrupts_reaches s (by decide) (by decide)).trans (respondCall_reaches _ _)
  | fill => exact execFill_reaches h
  | drain => exact execDrain_reaches h
  | ack bit => exact execAck_reaches h

end

/-- Settles O56, by the row of each instruction; it holds whatever the layout. -/
theorem operationsReachOnlyTheirRegisters : Obligations.OperationsReachOnlyTheirRegisters :=
  fun _ _ _ _ h => exec_reaches h

end Sys2Proof.Machine
end

/-! ## The start of an operation (`20_memory.md` R56) -/

section
namespace Sys2Proof.Machine

/-- Settles O4. That the instruction is well formed is not needed: `exec` has a meaning for every operand. -/
theorem stepRunsTheDecodedRequest : Obligations.StepRunsTheDecodedRequest := by
  intro s r rest i hin hdec _ hfree
  simp only [step, hin]
  exact runRequest_of_decode (s := { s with inputs := rest }) hdec hfree

end Sys2Proof.Machine
end

/-! ## The encoding of instructions (`30_encoding.md` R83 to R85, R92) -/

section
namespace Sys2Proof

/-! ### What an encoded request holds -/

theorem encode_source (i : Instr) : (encode i).source = i.source := by cases i <;> rfl

/-- Every encoded word holds the code of its instruction, and 0 in `Z0` and `Z1`. -/
theorem encode_codeField (i : Instr) : Laws.CodeField.Statement i := by
  cases i with
  | init => exact Laws.CodeField.init
  | setup cs csHigh => exact Laws.CodeField.setup cs csHigh
  | prepmsg mode => exact Laws.CodeField.prepmsg mode
  | xfer len hz tx rx => exact Laws.CodeField.xfer len hz tx rx
  | setcs cs disable => exact Laws.CodeField.setcs cs disable
  | finack => exact Laws.CodeField.finack
  | teardown => exact Laws.CodeField.teardown
  | irq => exact Laws.CodeField.irq
  | calcClk target src => exact Laws.CodeField.calcClk target src
  | applyClk => exact Laws.CodeField.applyClk
  | disable => exact Laws.CodeField.disable
  | enable => exact Laws.CodeField.enable
  | setFramesize bits => exact Laws.CodeField.setFramesize bits
  | setMode mode => exact Laws.CodeField.setMode mode
  | setXferLen len => exact Laws.CodeField.setXferLen len
  | enableInts => exact Laws.CodeField.enableInts
  | disableInts => exact Laws.CodeField.disableInts
  | fill => exact Laws.CodeField.fill
  | drain => exact Laws.CodeField.drain
  | ack bit => exact Laws.CodeField.ack bit

theorem encode_setup_fields (cs : BitVec 3) (csHigh : Bool) :
    csOf (encode (.setup cs csHigh)).word = cs ∧ flagOf (encode (.setup cs csHigh)).word = csHigh := by
  revert cs csHigh
  decide

theorem encode_setcs_fields (cs : BitVec 3) (disable : Bool) :
    csOf (encode (.setcs cs disable)).word = cs ∧ flagOf (encode (.setcs cs disable)).word = disable := by
  revert cs disable
  decide

theorem encode_prepmsg_mode (mode : BitVec 2) : modeOf (encode (.prepmsg mode)).word = mode := by
  revert mode
  decide

theorem encode_xfer_presence (len hz : Word) (tx rx : Option Nat) :
    txpOf (encode (.xfer len hz tx rx)).word = tx.isSome ∧ rxpOf (encode (.xfer len hz tx rx)).word = rx.isSome := by
  simp only [encode, Instr.code]
  generalize tx.isSome = t
  generalize rx.isSome = r
  revert t r
  decide

theorem ite_isSome_getD {α : Type} (o : Option α) (d : α) : (if o.isSome = true then some (o.getD d) else none) = o := by
  cases o <;> rfl

/-- The presence bits and the address registers together give each buffer back, present or absent. -/
theorem encode_xfer_buffers (len hz : Word) (tx rx : Option Nat) :
    (if txpOf (encode (.xfer len hz tx rx)).word = true then some (encode (.xfer len hz tx rx)).txa else none) = tx ∧
    (if rxpOf (encode (.xfer len hz tx rx)).word = true then some (encode (.xfer len hz tx rx)).rxa else none) = rx := by
  obtain ⟨htx, hrx⟩ := encode_xfer_presence len hz tx rx
  rw [htx, hrx]
  exact ⟨ite_isSome_getD tx 0, ite_isSome_getD rx 0⟩

/-- An operand that stands in the low bits of a register is read back whole. -/
theorem extractLsb'_setWidth_word {n : Nat} (hn : n ≤ 32) (x : BitVec n) : (x.setWidth 32 : Word).extractLsb' 0 n = x := by
  rw [BitVec.extractLsb'_setWidth_of_le (by omega), BitVec.extractLsb'_eq_self]

theorem encode_setFramesize_bits (bits : Byte) : (encode (.setFramesize bits)).len.extractLsb' 0 8 = bits :=
  extractLsb'_setWidth_word (by decide) bits
theorem encode_setMode_mode (mode : BitVec 2) : (encode (.setMode mode)).len.extractLsb' 0 2 = mode :=
  extractLsb'_setWidth_word (by decide) mode
theorem encode_ack_bit (bit : BitVec 2) : (encode (.ack bit)).len.extractLsb' 0 2 = bit :=
  extractLsb'_setWidth_word (by decide) bit

/-! ### Decoding an encoded request, by the source of the instruction -/

theorem decodeCommand_encode {i : Instr} (h : i.source = .commandPort) : decodeCommand (encode i) = .ok i := by
  obtain ⟨hopc, hz0, hz1⟩ := encode_codeField i
  unfold decodeCommand
  rw [if_neg (fun hne => hne hz0), if_neg (fun hne => hne hz1), hopc]
  cases i with
  | init | finack | teardown => rfl
  | setup cs csHigh =>
    obtain ⟨hcs, hflag⟩ := encode_setup_fields cs csHigh
    simp only [Instr.code, hcs, hflag]
  | setcs cs disable =>
    obtain ⟨hcs, hflag⟩ := encode_setcs_fields cs disable
    simp only [Instr.code, hcs, hflag]
  | prepmsg mode => simp only [Instr.code, encode_prepmsg_mode]
  | xfer len hz tx rx =>
    obtain ⟨htx, hrx⟩ := encode_xfer_buffers len hz tx rx
    have hlen : (encode (.xfer len hz tx rx)).len = len := rfl
    have hhz : (encode (.xfer len hz tx rx)).hz = hz := rfl
    simp only [Instr.code, hlen, hhz, htx, hrx]
  | _ => cases h

theorem decodeEvent_encode {i : Instr} (h : i.source = .dispatcher) : decodeEvent (encode i) = .ok i := by
  cases i with
  | irq => exact if_pos (encode_codeField .irq).1
  | _ => cases h

theorem decodeMicro_encode {i : Instr} (h : i.source = .sequencer) : decodeMicro (encode i) = .ok i := by
  obtain ⟨hopc, -, -⟩ := encode_codeField i
  unfold decodeMicro
  rw [hopc]
  cases i with
  | calcClk | applyClk | disable | enable | setXferLen | enableInts | disableInts | fill | drain => rfl
  | setFramesize bits => simp only [Instr.code, encode_setFramesize_bits]
  | setMode mode => simp only [Instr.code, encode_setMode_mode]
  | ack bit => simp only [Instr.code, encode_ack_bit]
  | _ => cases h

/-- The round trip holds of every instruction term, well formed or not. -/
theorem decode_encode (i : Instr) : decode (encode i) = .ok i := by
  unfold decode
  rw [encode_source]
  split
  next h => exact decodeCommand_encode h
  next h => exact decodeEvent_encode h
  next h => exact decodeMicro_encode h

/-- Settles O59. That the instruction is well formed is not needed: `SET_FRAMESIZE` keeps its operand at every value. -/
theorem decodeEncodeAgree : Obligations.DecodeEncodeAgree := fun i _ => decode_encode i

/-- Settles O6, by evaluating the decoder at each of the thirteen words. -/
theorem writtenWordsDecode : Obligations.WrittenWordsDecode :=
  ⟨rfl, rfl, rfl, rfl, rfl, rfl, rfl, rfl, rfl, rfl, rfl, rfl, rfl⟩

/-! ### What a word of the command port can decode to -/

/-- The rows of R84 for the command port: a word that decodes is one of seven, with 0 in `Z0` and `Z1` (R92). -/
theorem decodeCommand_cases {r : Request} {i : Instr} (h : decodeCommand r = .ok i) :
    z0Of r.word = 0#3 ∧ z1Of r.word = 0#16 ∧
    ((opcOf r.word).toNat = 0x01 ∧ i = .init ∨
     (opcOf r.word).toNat = 0x02 ∧ i = .setup (csOf r.word) (flagOf r.word) ∨
     (opcOf r.word).toNat = 0x03 ∧ i = .prepmsg (modeOf r.word) ∨
     (opcOf r.word).toNat = 0x04 ∧ i = .xfer r.len r.hz (if txpOf r.word then some r.txa else none)
       (if rxpOf r.word then some r.rxa else none) ∨
     (opcOf r.word).toNat = 0x05 ∧ i = .setcs (csOf r.word) (flagOf r.word) ∨
     (opcOf r.word).toNat = 0x06 ∧ i = .finack ∨
     (opcOf r.word).toNat = 0x07 ∧ i = .teardown) := by
  unfold decodeCommand at h
  split at h
  next => cases h
  next hz0 =>
    split at h
    next => cases h
    next hz1 =>
      refine ⟨not_not.1 hz0, not_not.1 hz1, ?_⟩
      split at h
      case h_1 | h_2 | h_3 | h_4 | h_5 | h_6 | h_7 => cases h; simp [*]
      case h_8 => cases h
      case h_9 => split at h <;> cases h

end Sys2Proof

namespace Sys2Proof.Machine

/-! ### Requests of the command port that are refused (`30_encoding.md` R92, `60_exceptions.md` R207) -/

/-- A request whose word is rejected is turned away. -/
theorem runRequest_of_reject {r : Request} {s : State} {e : Reject} (h : decode r = .error e) :
    runRequest r s = .next (rejectRequest r.source s) := by
  simp only [runRequest, h]

section
variable {s : State}

/-- A host command that the table of R164 does not admit answers REFUSED and does nothing else. -/
theorem exec_of_not_admitted {i : Instr} (hsource : i.source = .commandPort)
    (h : i.admitted s.eng.live s.eng.state = false) : exec i s = .next (respond .refused s) := by
  cases i with
  | init => exact if_neg (by simpa [Instr.admitted] using h)
  | setup | setcs => exact if_neg fun hok => by simp [Instr.admitted, hok.1] at h
  | prepmsg | xfer => exact if_neg (Bool.eq_false_iff.1 h)
  | finack | teardown => exact if_neg (by simpa [Instr.admitted] using h)
  | _ => cases hsource

theorem csAdmitted_eq_false {cs : BitVec 3} (h : s.params.numCs ≤ cs.toNat) : csAdmitted cs s = false :=
  decide_eq_false h.not_gt

theorem execSetup_of_index {cs : BitVec 3} (csHigh : Bool) (h : s.params.numCs ≤ cs.toNat) :
    execSetup cs csHigh s = .next (respond .refused s) := by
  simp [execSetup, csAdmitted_eq_false h]

theorem execSetcs_of_index {cs : BitVec 3} (disable : Bool) (h : s.params.numCs ≤ cs.toNat) :
    execSetcs cs disable s = .next (respond .refused s) := by
  simp [execSetcs, csAdmitted_eq_false h]

/-- A word with opcode SETUP or SETCS and an index that is no chip select is refused in every state. -/
theorem exec_of_index {r : Request} {i : Instr} (hi : decodeCommand r = .ok i)
    (hopc : (opcOf r.word).toNat = 0x02 ∨ (opcOf r.word).toNat = 0x05) (hcs : s.params.numCs ≤ (csOf r.word).toNat) :
    exec i s = .next (respond .refused s) := by
  obtain ⟨-, -, ⟨_, rfl⟩ | ⟨_, rfl⟩ | ⟨_, rfl⟩ | ⟨_, rfl⟩ | ⟨_, rfl⟩ | ⟨_, rfl⟩ | ⟨_, rfl⟩⟩ := decodeCommand_cases hi
  case inr.inl => exact execSetup_of_index _ hcs
  case inr.inr.inr.inr.inl => exact execSetcs_of_index _ hcs
  all_goals omega

end

/-- Settles O7: a word that does not decode is turned away, and of the causes of refusal only the index and the table of R164
leave a word that decodes. -/
theorem refusedWordsChangeNothing : Obligations.RefusedWordsChangeNothing := by
  intro s r rest hin hport hcause
  simp only [step, hin, takeInput]
  cases hd : decode r with
  | error e => rw [runRequest_of_reject hd, hport]; rfl
  | ok i =>
    have hsource : i.source = .commandPort := (decode_source hd).trans hport
    rw [runRequest_of_decode hd (by simp [hport])]
    have hcommand : decodeCommand r = .ok i := by simpa only [decode, hport] using hd
    obtain ⟨hz0, hz1, hrow⟩ := decodeCommand_cases hcommand
    have hopc : 1 ≤ (opcOf r.word).toNat ∧ (opcOf r.word).toNat ≤ 7 := by omega
    simp only [opcOf] at hopc
    rcases hcause with hne | hne | hcode | hcode | hcode | hcode | hcode | ⟨hindexed, hcs⟩ | ⟨j, hj, hnot⟩
    · exact absurd hz0 hne
    · exact absurd hz1 hne
    iterate 5 omega
    · exact exec_of_index hcommand hindexed hcs
    · cases hd.symm.trans hj
      exact exec_of_not_admitted hsource hnot

/-! ### The answer of a micro-operation called on its own (`30_encoding.md` R85, logs 12 and 13) -/

/-- What the call of a micro-operation answers when it answers: `CALC_CLK` and `SET_FRAMESIZE` are the two that can fail. -/
def callAnswer (i : Instr) : ResultCode :=
  match i with
  | .calcClk target src => if (calcDivider target.toNat src.toNat).isSome = true then .ok else .invalidFrequency
  | .setFramesize bits => if bits = Config.frameBits then .ok else .refused
  | _ => .ok

theorem callAnswer_eq_ok {i : Instr} (hcalc : ∀ target src, i ≠ .calcClk target src)
    (hframe : ∀ bits, i ≠ .setFramesize bits) : callAnswer i = .ok := by
  cases i with
  | calcClk target src => exact absurd rfl (hcalc target src)
  | setFramesize bits => exact absurd rfl (hframe bits)
  | _ => rfl

/-- The call is answered with `c`, and the host's result and the dispatcher's are left as they were. -/
structure CallAnswered (c : ResultCode) (s t : State) : Prop where
  result : t.result = s.result
  irqResult : t.irqResult = s.irqResult
  callResult : t.callResult = some c

theorem State.keepsResults.callAnswered {s t : State} (h : s.keepsResults t) (c : ResultCode) :
    CallAnswered c s (respondCall c t) :=
  ⟨h.1, h.2.1, rfl⟩

section
variable {s t : State}

theorem fillBurst_keepsResults (h : fillBurst s = .next t) : s.keepsResults t := by
  obtain ⟨_, _, hfill⟩ := fillBurst_filled h
  exact hfill.results

theorem drainBurst_keepsResults (h : drainBurst s = .next t) : s.keepsResults t := by
  obtain ⟨_, _, hdrain⟩ := drainBurst_drained h
  exact hdrain.results

theorem execCalcClk_callAnswered {target src : Word} (h : execCalcClk target src s = .next t) :
    CallAnswered (callAnswer (.calcClk target src)) s t := by
  unfold execCalcClk at h
  rw [callAnswer]
  split at h
  next m g hdiv =>
    cases h
    rw [hdiv]
    have hclock : s.keepsResults (setClock m g s) := ⟨rfl, rfl, rfl⟩
    exact hclock.callAnswered .ok
  next hdiv =>
    cases h
    rw [hdiv]
    exact (State.keepsResults.rfl' s).callAnswered .invalidFrequency

theorem execSetFramesize_callAnswered {bits : Byte} (h : execSetFramesize bits s = .next t) :
    CallAnswered (callAnswer (.setFramesize bits)) s t := by
  unfold execSetFramesize at h
  rw [callAnswer]
  split at h
  next h8 =>
    cases h
    rw [if_pos h8]
    exact (setFrameSize_configStep bits s).results.callAnswered .ok
  next h8 =>
    cases h
    rw [if_neg h8]
    exact (State.keepsResults.rfl' s).callAnswered .refused

theorem exec_callAnswered {i : Instr} (hsource : i.source = .sequencer) (h : exec i s = .next t) :
    CallAnswered (callAnswer i) s t := by
  cases i with
  | calcClk target src => exact execCalcClk_callAnswered h
  | setFramesize bits => exact execSetFramesize_callAnswered h
  | applyClk => cases h; exact (applyClk_configStep s).results.callAnswered _
  | disable => cases h; exact (disableCtl_configStep s).results.callAnswered _
  | enable => cases h; exact (enableCtl_configStep s).results.callAnswered _
  | setMode mode => cases h; exact (setSpiMode_configStep mode s).results.callAnswered _
  | setXferLen len => cases h; exact (setTransferLen_configStep len s).results.callAnswered _
  | enableInts => cases h; exact (enableInterrupts_configStep s).results.callAnswered _
  | disableInts => cases h; exact (disableInterrupts_configStep s).results.callAnswered _
  | ack bit => cases h; exact (ackBit_configStep bit.toNat s).results.callAnswered _
  | fill =>
    obtain ⟨u, hburst, hend⟩ := andThen_eq_next h
    cases hend
    exact (fillBurst_keepsResults hburst).callAnswered _
  | drain =>
    obtain ⟨u, hburst, hend⟩ := andThen_eq_next h
    cases hend
    exact (drainBurst_keepsResults hburst).callAnswered _
  | _ => cases hsource

end

/-- Settles O10. -/
theorem microOperationsAnswerTheCall : Obligations.MicroOperationsAnswerTheCall := by
  intro s t i hsource h
  obtain ⟨hresult, hirq, hcall⟩ := exec_callAnswered hsource h
  refine ⟨hresult, hirq, ?_, ?_, fun hcalc hframe => ?_⟩
  · rintro target src rfl
    exact hcall
  · rintro bits rfl
    exact hcall
  · rw [hcall, callAnswer_eq_ok hcalc hframe]

/-! ### The word placed for the next step -/

/-- Bits of an opcode-table row that decode do so as the request placed for them. -/
theorem decode_of_decodeTableWord {nbits w : Nat} {i : Instr} (h : decodeTableWord nbits w = some i) :
    decode (tableRequest nbits w) = .ok i := by
  unfold decodeTableWord at h
  split at h
  next j hj => cases h; exact hj
  next => cases h

/-- Settles O5. The request placed is the first to wait, so it is the one the step takes. -/
theorem placedWordRunsNext : Obligations.PlacedWordRunsNext := by
  intro s nbits w i hword hfree
  have hdec := decode_of_decodeTableWord hword
  refine ⟨?_, rfl⟩
  calc step (s.withFetchWord nbits w)
      = runRequest (tableRequest nbits w) s := rfl
    _ = exec i s := runRequest_of_decode hdec fun hseq => hfree ((decode_source hdec).trans hseq)

end Sys2Proof.Machine
end

/-! ## The clock (`40_clock.md`): the calculator `CALC_CLK` and `APPLY_CLK` -/

section
namespace Sys2Proof.Machine

/-! ### The two quotients of the calculator (R100) -/

/-- The ceiling of a positive quotient, said by inequalities. -/
theorem ceilDiv_brackets {a b : Nat} (ha : 0 < a) (hb : 0 < b) :
    (ceilDiv a b - 1) * b < a ∧ a ≤ ceilDiv a b * b := by
  have hpos : 0 < ceilDiv a b := (lt_ceilDiv_iff 0 hb).2 (by omega)
  exact ⟨(lt_ceilDiv_iff _ hb).1 (by omega), (ceilDiv_le_iff _ hb).1 (Nat.le_refl _)⟩

/-- The integer logarithm, said by inequalities. -/
theorem floorLog2_brackets {q : Nat} (hq : 0 < q) : 2 ^ floorLog2 q ≤ q ∧ q < 2 ^ (floorLog2 q + 1) :=
  ⟨(le_floorLog2_iff _ hq).1 (Nat.le_refl _), (floorLog2_lt_iff _ hq).1 (Nat.lt_succ_self _)⟩

/-! ### The answer of the calculator, by the ratio of source and clamped target -/

section
variable {target src g : Nat}

/-- R101 (c), the failures. -/
theorem calcDivider_eq_none_iff :
    calcDivider target src = none ↔ src = 0 ∨ min target src = 0 ∨ 65535 * min target src < src := by
  rcases calcDivider_cases target src with ⟨hfail, hcalc⟩ | ⟨ht, hlow, hhigh, hcalc⟩ | ⟨ht, hs, -, hle, hcalc⟩
  · simp only [hcalc, true_iff]; exact hfail
  · simp only [hcalc, reduceCtorEq, false_iff]; omega
  · simp only [hcalc, reduceCtorEq, false_iff]; omega

theorem calcDivider_eq_mode1_iff :
    calcDivider target src = some (true, g) ↔
      (2 * min target src < src ∧ src ≤ 512 * min target src) ∧ g = ceilDiv src (2 * min target src) - 1 := by
  rcases calcDivider_cases target src with ⟨hfail, hcalc⟩ | ⟨ht, hlow, hhigh, hcalc⟩ | ⟨ht, hs, hratio, hle, hcalc⟩
  · simp only [hcalc, reduceCtorEq, false_iff]; omega
  · simp [hcalc, hlow, hhigh, eq_comm]
  · simp [hcalc, hratio]

theorem calcDivider_eq_mode0_iff :
    calcDivider target src = some (false, g) ↔
      (0 < src ∧ 0 < min target src ∧ src ≤ 65535 * min target src) ∧
      ¬(2 * min target src < src ∧ src ≤ 512 * min target src) ∧ g = floorLog2 (ceilDiv src (min target src)) := by
  rcases calcDivider_cases target src with ⟨hfail, hcalc⟩ | ⟨ht, hlow, hhigh, hcalc⟩ | ⟨ht, hs, hratio, hle, hcalc⟩
  · simp only [hcalc, reduceCtorEq, false_iff]; omega
  · simp [hcalc, hlow, hhigh]
  · simp only [hcalc, ht, hs, hratio, hle, not_false_eq_true, true_and, Option.some.injEq, Prod.mk.injEq, eq_comm]

/-- A pair of mode 1: `g + 1` is the ceiling of half the ratio, and `g` is in range (`10_state.md` R11). -/
theorem calcDivider_mode1_brackets (h : calcDivider target src = some (true, g)) :
    (1 ≤ g ∧ g ≤ 255) ∧ g * (2 * min target src) < src ∧ src ≤ (g + 1) * (2 * min target src) := by
  have hrange := (calcDivider_range h).1 rfl
  obtain ⟨⟨hlow, hhigh⟩, hg⟩ := calcDivider_eq_mode1_iff.1 h
  have hq : ceilDiv src (2 * min target src) = g + 1 := by omega
  have hb := ceilDiv_brackets (a := src) (b := 2 * min target src) (by omega) (by omega)
  rw [hq] at hb
  exact ⟨hrange, hb⟩

/-- A pair of mode 0: `g` is the integer logarithm of the ceiling of the ratio. -/
theorem calcDivider_mode0_brackets (h : calcDivider target src = some (false, g)) :
    ((ceilDiv src (min target src) - 1) * min target src < src ∧
      src ≤ ceilDiv src (min target src) * min target src) ∧
    2 ^ g ≤ ceilDiv src (min target src) ∧ ceilDiv src (min target src) < 2 ^ (g + 1) := by
  obtain ⟨⟨hs, ht, -⟩, -, rfl⟩ := calcDivider_eq_mode0_iff.1 h
  exact ⟨ceilDiv_brackets hs ht, floorLog2_brackets ((lt_ceilDiv_iff 0 ht).2 (by omega))⟩

/-- In mode 0 the realised frequency is below the clamped target (R101 (d)). -/
theorem calcDivider_mode0_src_lt (h : calcDivider target src = some (false, g)) :
    src < min target src * 2 ^ (g + 1) := by
  obtain ⟨⟨-, ht, -⟩, -⟩ := calcDivider_eq_mode0_iff.1 h
  obtain ⟨⟨-, hceil⟩, -, hlog⟩ := calcDivider_mode0_brackets h
  calc src ≤ ceilDiv src (min target src) * min target src := hceil
    _ < 2 ^ (g + 1) * min target src := Nat.mul_lt_mul_of_pos_right hlog ht
    _ = min target src * 2 ^ (g + 1) := Nat.mul_comm _ _

/-- In mode 0 the realised frequency is above a quarter of the clamped target (R101 (d)): rounding the ratio up at most doubles
it, and so does rounding the divisor up to a power of two. -/
theorem calcDivider_mode0_lt_four_mul_src (h : calcDivider target src = some (false, g)) :
    min target src * 2 ^ (g + 1) < 4 * src := by
  obtain ⟨⟨hceil, -⟩, hlog, -⟩ := calcDivider_mode0_brackets h
  have hround : ceilDiv src (min target src) * min target src < 2 * src := by
    rw [Nat.sub_mul] at hceil
    omega
  calc min target src * 2 ^ (g + 1) = 2 * (2 ^ g * min target src) := by ring
    _ ≤ 2 * (ceilDiv src (min target src) * min target src) := Nat.mul_le_mul_left 2 (Nat.mul_le_mul_right _ hlog)
    _ < 4 * src := by omega

/-- In mode 1 a divisor of at least `2 * (g + 1)` keeps the frequency at or below the clamped target (R101 (e)). -/
theorem calcDivider_mode1_src_le (h : calcDivider target src = some (true, g)) :
    src ≤ 2 * (g + 1) * min target src := by
  obtain ⟨-, -, hceil⟩ := calcDivider_mode1_brackets h
  calc src ≤ (g + 1) * (2 * min target src) := hceil
    _ = 2 * (g + 1) * min target src := by ring

/-- Up to a ratio of 2 the calculator answers mode 0 with a divider value of 0 or 1. -/
theorem calcDivider_of_ratio_le_two (hs : 0 < src) (ht : 0 < min target src) (hle : src ≤ 2 * min target src) :
    ∃ g, calcDivider target src = some (false, g) ∧ (src = min target src → g = 0) ∧ (min target src < src → g = 1) := by
  have hone := lt_ceilDiv_iff (a := src) 1 ht
  have hq := (lt_ceilDiv_iff (a := src) 0 ht).2 (by omega)
  refine ⟨_, calcDivider_eq_mode0_iff.2 ⟨⟨hs, ht, by omega⟩, by omega, rfl⟩, fun heq => ?_, fun hlt => ?_⟩
  · rw [show ceilDiv src (min target src) = 1 by omega]; rfl
  · have htwo := (ceilDiv_le_iff (a := src) 2 ht).2 hle
    rw [show ceilDiv src (min target src) = 2 by omega]; rfl

/-- From a ratio above 512 on the calculator answers mode 0 with a divider value in 9..15. -/
theorem calcDivider_of_ratio_gt_512 (ht : 0 < min target src) (hgt : 512 * min target src < src)
    (hle : src ≤ 65535 * min target src) :
    ∃ g, calcDivider target src = some (false, g) ∧ 9 ≤ g ∧ g ≤ 15 := by
  have hq := (lt_ceilDiv_iff (a := src) 512 ht).2 hgt
  have hnine := le_floorLog2_iff (q := ceilDiv src (min target src)) 9 (by omega)
  have hcalc := calcDivider_eq_mode0_iff.2 ⟨⟨by omega, ht, hle⟩, by omega, rfl⟩
  exact ⟨_, hcalc, by omega, (calcDivider_range hcalc).2 rfl⟩

end

/-! ### `CALC_CLK` called on its own -/

section
variable {target src : Word} (s : State)

theorem exec_calcClk_of_none (h : calcDivider target.toNat src.toNat = none) :
    exec (.calcClk target src) s = .next { s with callResult := some .invalidFrequency } := by
  simp only [exec, execCalcClk, h]
  rfl

theorem exec_calcClk_of_some {m : Bool} {g : Nat} (h : calcDivider target.toNat src.toNat = some (m, g)) :
    exec (.calcClk target src) s =
      .next { s with eng := { s.eng with clkMode := m, clkGen := g }, callResult := some .ok } := by
  simp only [exec, execCalcClk, h]
  rfl

end

/-- Settles O20, one range of the ratio after the other. -/
theorem calcClkFollowsTheFormulas : Obligations.CalcClkFollowsTheFormulas := by
  rintro s target src _ rfl
  refine ⟨fun hfail => ?_, fun hratio => ?_, fun ⟨hs, ht, hle⟩ => ?_, fun ⟨ht, hgt, hle⟩ => ?_⟩
  · exact exec_calcClk_of_none s (calcDivider_eq_none_iff.2 (hfail.imp_left (congrArg BitVec.toNat)))
  · have hcalc := calcDivider_eq_mode1_iff.2 ⟨hratio, rfl⟩
    obtain ⟨⟨hpos, hmax⟩, hbelow, habove⟩ := calcDivider_mode1_brackets hcalc
    exact ⟨_, exec_calcClk_of_some s hcalc, hpos, hmax, hbelow, habove⟩
  · obtain ⟨g, hcalc, hg⟩ := calcDivider_of_ratio_le_two hs ht hle
    exact ⟨g, exec_calcClk_of_some s hcalc, hg⟩
  · obtain ⟨g, hcalc, hnine, hfifteen⟩ := calcDivider_of_ratio_gt_512 ht hgt hle
    obtain ⟨⟨hbelow, habove⟩, hlog⟩ := calcDivider_mode0_brackets hcalc
    exact ⟨g, _, exec_calcClk_of_some s hcalc, hnine, hfifteen, hbelow, habove, hlog⟩

/-- Settles O21. -/
theorem calculatorProperties : Obligations.CalculatorProperties := by
  refine ⟨fun src t hs ht => ⟨mode1_iff ht hs, ?_, ceilDiv_le_iff 65535 ht⟩, fun target src => ?_,
    fun target src g hcalc => ?_, fun _ _ _ => calcDivider_mode1_src_le, ⟨4, by decide, by decide⟩, ?_⟩
  · have hlog := floorLog2_lt_iff 16 ((lt_ceilDiv_iff (a := src) 0 ht).2 (by omega))
    omega
  · rw [Option.isSome_iff_ne_none, Ne, calcDivider_eq_none_iff]
    omega
  · obtain ⟨⟨-, hceil⟩, -, hlog⟩ := calcDivider_mode0_brackets hcalc
    exact ⟨hlog, hceil, calcDivider_mode0_src_lt hcalc, calcDivider_mode0_lt_four_mul_src hcalc⟩
  · intro target src s₁ s₂ t₁ t₂ hsome h₁ h₂
    obtain ⟨⟨m, g⟩, hcalc⟩ := Option.isSome_iff_exists.1 hsome
    cases (exec_calcClk_of_some s₁ hcalc).symm.trans h₁
    cases (exec_calcClk_of_some s₂ hcalc).symm.trans h₂
    exact ⟨rfl, rfl⟩

/-! ### The realised frequency (R102) -/

/-- With the divisor `2 * g + 1` the realised frequency exceeds the clamped target by a third at most, for `g ≥ 1`. -/
theorem three_mul_le_of_odd_divisor {src t g : Nat} (hg : 1 ≤ g) (h : src ≤ t * (2 * g + 2)) :
    3 * src ≤ 4 * (t * (2 * g + 1)) := by
  calc 3 * src ≤ 3 * (t * (2 * g + 2)) := Nat.mul_le_mul_left 3 h
    _ = t * (3 * (2 * g + 2)) := Nat.mul_left_comm _ _ _
    _ ≤ t * (4 * (2 * g + 1)) := Nat.mul_le_mul_left t (by omega)
    _ = 4 * (t * (2 * g + 1)) := Nat.mul_left_comm _ _ _

/-- Settles O22. -/
theorem realisedFrequencyIsBounded : Obligations.RealisedFrequencyIsBounded := by
  intro target src g m hcalc
  cases m with
  | false =>
    exact ⟨fun _ => ⟨rfl, Nat.le_of_lt (calcDivider_mode0_src_lt hcalc)⟩, (nomatch ·), (nomatch ·), (nomatch ·)⟩
  | true =>
    have hpos := (calcDivider_mode1_brackets hcalc).1.1
    have hsrc : src ≤ min target src * (2 * g + 2) := by
      rw [Nat.mul_comm]
      exact calcDivider_mode1_src_le hcalc
    refine ⟨(nomatch ·), fun _ => rfl, fun _ hdiv => ?_, fun _ hdiv => ⟨hsrc, ?_⟩⟩
    · exact hsrc.trans (Nat.mul_le_mul_left _ hdiv)
    · rw [show divisor true g = 2 * g + 1 from hdiv]
      exact three_mul_le_of_odd_divisor hpos hsrc

/-! ### Apply-clock (R103) -/

/-- Settles O23. -/
theorem applyClkProgramsThePair : Obligations.ApplyClkProgramsThePair := by
  intro s hL hg
  obtain ⟨hcontrol, hclkGen, hframeSize, hssel, hframesup⟩ := applyClk_words hL
  have hmode : (applyClk s).blk.control.getLsbD (s.params.layout.pos .clkmode) = s.eng.clkMode := by
    rw [hcontrol, Layout.getLsbD_set_ne hL (by decide), Layout.getLsbD_set_same hL]
  have henable : (applyClk s).blk.control.getLsbD s.params.layout.enable = true := by
    rw [hcontrol, Layout.getLsbD_set_enable hL]
  have houtside : s.params.layout.sameOutside [.enable, .clkmode] s.blk.control (applyClk s).blk.control := by
    rw [hcontrol]
    exact (((Layout.sameOutside.rfl' _ _ _).set _ (by decide)).set _ (by decide)).set _ (by decide)
  refine ⟨_, rfl, applyClk_ports hL, hclkGen, fun h0 => ?_, hmode, henable, houtside, hframeSize, hssel, hframesup,
    applyClk_around hL⟩
  exact (congrArg BitVec.toNat hclkGen).trans (s.params.layout.divider_and_genMask hL h0 hg)

end Sys2Proof.Machine
end

/-! ## Configuration (`41_config.md`): `DISABLE` to `DISABLE_INTS`, and the host command `SETCS` -/

section
namespace Sys2Proof.Machine

/-! ### Words of `CONTROL` and of the frame count -/

/-- Writing to a one-bit field the bit it holds changes nothing. -/
theorem Layout.set_bitWord_test (L : Layout) {f : CtlField} (hf : f.width = 1) (w : Word) :
    L.set f w (bitWord (L.test f w)) = w := by
  rw [← L.get_eq_bitWord hf, L.set_get]

theorem Layout.set_enable_of_enabled {L : Layout} {w : Word} (h : L.test .enable w = true) :
    L.set .enable w 1#32 = w := by
  have hbit := L.set_bitWord_test (f := .enable) rfl w
  rwa [h] at hbit

/-- A clear of `ENABLE` takes back the enable that ended a disable/write/enable operation (`41_config.md` R112). -/
theorem Layout.clear_set_enable_of_disabled {L : Layout} {w : Word} (h : L.test .enable w = false) :
    L.set .enable (L.set .enable w 1#32) 0#32 = w := by
  have hbit := L.set_bitWord_test (f := .enable) rfl w
  rw [h] at hbit
  rwa [L.set_set_same]

theorem IntSrc.inten_ne_enable (k : IntSrc) : k.inten ≠ .enable := by cases k <;> decide

theorem IntSrc.inten_mem (k : IntSrc) :
    k.inten ∈ [CtlField.enable, .intenRxrdy, .intenTxdone, .intenRxovf, .intenTxunder] := by cases k <;> decide

section
variable {L : Layout} (hL : L.legal = true)
include hL

theorem withMode_spo (c : Word) (mode : BitVec 2) :
    (withMode L c mode).getLsbD (L.pos .spo) = mode.getLsbD 1 := by
  rw [withMode, L.getLsbD_set_ne hL (by decide), L.getLsbD_set_same hL]

theorem withMode_sph (c : Word) (mode : BitVec 2) :
    (withMode L c mode).getLsbD (L.pos .sph) = mode.getLsbD 0 := by
  rw [withMode, L.getLsbD_set_same hL]

/-- `FRAMECNT` is as wide as the low half of a transfer length (`30_encoding.md` R86). -/
theorem get_framecnt_set_lenLow (w len : Word) : L.get .framecnt (L.set .framecnt w (lenLow len)) = lenLow len := by
  rw [L.get_set_same hL]
  exact and_and_mask len _

/-- No source shows in `MIS` and the line is not driven exactly when no source is both latched and enabled
(`46_spi_core_agent.md` R173, R176). -/
theorem misBits_eq_zero_iff (b : Block) :
    misBits L b = 0#4 ↔
      ∀ k : IntSrc, (b.ris.getLsbD (L.intBit k) && b.control.getLsbD (L.pos k.inten)) = false := by
  simp only [← getLsbD_misBits hL]
  refine ⟨fun hzero k => by rw [hzero, BitVec.getLsbD_zero], fun hbits => BitVec.eq_of_getLsbD_eq fun i hi => ?_⟩
  obtain ⟨k, rfl⟩ := intBit_surjective hL hi
  rw [hbits k, BitVec.getLsbD_zero]

/-- With the four enables clear no latch shows in `MIS` and none drives the line. -/
theorem interrupts_masked {b : Block} (h : ∀ k : IntSrc, b.control.getLsbD (L.pos k.inten) = false) :
    misWord L b &&& 0xF#32 = 0#32 ∧ coreIrqLine L b = false := by
  have hmasked : ∀ k : IntSrc, (b.ris.getLsbD (L.intBit k) && b.control.getLsbD (L.pos k.inten)) = false :=
    fun k => by rw [h k, Bool.and_false]
  refine ⟨(low_eq_zero_iff hL _).2 fun k => (getLsbD_misWord hL b k).trans (hmasked k), ?_⟩
  rw [coreIrqLine, (misBits_eq_zero_iff hL b).2 hmasked]
  rfl

end

/-- The two halves of a length are the length again (`30_encoding.md` R86). -/
theorem lenHigh_or_lenLow (len : Word) : lenHigh len ||| lenLow len = len := by
  rw [lenHigh, lenLow, ← BitVec.and_or_distrib_left]
  exact BitVec.and_allOnes

/-! ### `DISABLE` and `ENABLE` (R110, R111) -/

/-- Settles O11. -/
theorem disableClearsEnable : Obligations.DisableClearsEnable := by
  intro s hL
  have hstep := disableCtl_configStep s
  have hcontrol := disableCtl_control hL
  have hports : (disableCtl s).ports =
      s.ports ++ [.regRead .control s.blk.control, .regWrite .control (disableCtl s).blk.control] := by
    rw [hcontrol, disableCtl_ports]
  have houtside : s.params.layout.sameOutside [.enable] s.blk.control (disableCtl s).blk.control := by
    rw [hcontrol]
    exact (Layout.sameOutside.rfl' _ _ _).set _ (by decide)
  exact ⟨_, rfl, hports, disableCtl_disabled hL, houtside, disableCtl_words s, hstep.outside, hstep.results.1,
    hstep.results.2.1, hstep.quiet, disableCtl_ris hL⟩

/-- `ENABLE` in an enabled controller writes back what is there (R111, `46_spi_core_agent.md` R177). -/
theorem enableCtl_blk_of_enabled {s : State} (hen : s.params.layout.test .enable s.blk.control = true)
    (hq : s.env = []) : (enableCtl s).blk = s.blk := by
  rw [enableCtl, rmw_control_blk_of_quiet _ hq, Layout.set_enable_of_enabled hen,
    writeControl_of_not_rising _ _ _ (.inl hen), lockedControl_carried rfl rfl rfl]

/-- Settles O12, by what `ENABLE` was. -/
theorem enableSetsEnable : Obligations.EnableSetsEnable := by
  intro s hL
  have hstep := enableCtl_configStep s
  have hcontrol := enableCtl_control hL
  have hports : (enableCtl s).ports =
      s.ports ++ [.regRead .control s.blk.control, .regWrite .control (enableCtl s).blk.control] := by
    rw [hcontrol, enableCtl_ports]
  have houtside : s.params.layout.sameOutside [.enable] s.blk.control (enableCtl s).blk.control := by
    rw [hcontrol]
    exact (Layout.sameOutside.rfl' _ _ _).set _ (by decide)
  exact ⟨_, rfl, hports, enableCtl_enabled hL, houtside, enableCtl_words s, hstep.outside, hstep.results.1,
    hstep.results.2.1, hstep.quiet, enableCtl_blk_of_enabled,
    fun hdis => ⟨enableCtl_framesSent hL hdis, enableCtl_ris hL hdis⟩⟩

/-! ### Operations under the disable/write/enable protocol (R112 to R117) -/

/-- Settles O13. -/
theorem setFramesizeProgramsEightBits : Obligations.SetFramesizeProgramsEightBits := by
  refine ⟨fun s hL => ?_, fun s bits hbits => ⟨respondCall .refused s, if_neg hbits, rfl, rfl⟩⟩
  obtain ⟨hcontrol, hframeSize, hclkGen, hssel, hframesup⟩ := setFrameSize_words hL 8#8
  have hports : (setFrameSize 8#8 s).ports = s.ports ++ frameSizePorts s.params.layout s.blk.control := by
    rw [setFrameSize_ports hL, frameSizePorts, Layout.set_set_same]
    rfl
  have henable : (setFrameSize 8#8 s).blk.control.getLsbD s.params.layout.enable = true := by
    rw [hcontrol, Layout.getLsbD_set_enable hL]
  have houtside : s.params.layout.sameOutside [.enable] s.blk.control (setFrameSize 8#8 s).blk.control := by
    rw [hcontrol]
    exact (Layout.sameOutside.rfl' _ _ _).set _ (by decide)
  exact ⟨_, rfl, hports, henable, houtside, hframeSize,
    fun hsize => hframeSize.trans (Layout.frameBits_and_sizeMask hL hsize), hclkGen, hssel, hframesup,
    setFrameSize_around hL 8#8⟩

/-- Settles O14. -/
theorem setModeProgramsPolarityAndPhase : Obligations.SetModeProgramsPolarityAndPhase := by
  intro s mode hL
  obtain ⟨hcontrol, hwords⟩ := setSpiMode_words hL mode
  have hspo : (setSpiMode mode s).blk.control.getLsbD (s.params.layout.pos .spo) = mode.getLsbD 1 := by
    rw [hcontrol, Layout.getLsbD_set_ne hL (by decide), withMode_spo hL]
  have hsph : (setSpiMode mode s).blk.control.getLsbD (s.params.layout.pos .sph) = mode.getLsbD 0 := by
    rw [hcontrol, Layout.getLsbD_set_ne hL (by decide), withMode_sph hL]
  have henable : (setSpiMode mode s).blk.control.getLsbD s.params.layout.enable = true := by
    rw [hcontrol, Layout.getLsbD_set_enable hL]
  have houtside :
      s.params.layout.sameOutside [.enable, .spo, .sph] s.blk.control (setSpiMode mode s).blk.control := by
    rw [hcontrol]
    exact ((((Layout.sameOutside.rfl' _ _ _).set _ (by decide)).set _ (by decide)).set _ (by decide)).set _ (by decide)
  exact ⟨_, rfl, setSpiMode_ports hL mode, hspo, hsph, henable, houtside, hwords, setSpiMode_around hL mode⟩

/-- Settles O15: the frame count is put together from the two halves that were programmed. -/
theorem setXferLenProgramsTheFrameCount : Obligations.SetXferLenProgramsTheFrameCount := by
  intro s len hL
  obtain ⟨hcontrol, hmasked, hframeSize, hclkGen, hssel⟩ := setTransferLen_words hL len
  have hframesup : (setTransferLen len s).blk.framesup = lenHigh len := hmasked.trans (and_and_mask len _)
  have hframecnt : s.params.layout.get .framecnt (setTransferLen len s).blk.control = lenLow len := by
    rw [hcontrol, Layout.get_set_ne hL (by decide), get_framecnt_set_lenLow hL]
  have hcount :
      frameCount s.params.layout (setTransferLen len s).blk (setTransferLen len s).blk.control = len.toNat := by
    rw [frameCount, hframecnt, hframesup, lenHigh, and_and_mask]
    exact congrArg BitVec.toNat (lenHigh_or_lenLow len)
  have henable : (setTransferLen len s).blk.control.getLsbD s.params.layout.enable = true := by
    rw [hcontrol, Layout.getLsbD_set_enable hL]
  have houtside :
      s.params.layout.sameOutside [.enable, .framecnt] s.blk.control (setTransferLen len s).blk.control := by
    rw [hcontrol]
    exact (((Layout.sameOutside.rfl' _ _ _).set _ (by decide)).set _ (by decide)).set _ (by decide)
  exact ⟨_, rfl, setTransferLen_ports hL len, hframecnt, hframesup, hcount, henable, houtside, hframeSize, hclkGen,
    hssel, setTransferLen_around hL len⟩

/-- Settles O16. -/
theorem enableIntsSetsTheFourEnables : Obligations.EnableIntsSetsTheFourEnables := by
  intro s hL
  obtain ⟨hcontrol, hwords⟩ := enableInterrupts_words hL
  have hclear : s.params.layout.test .enable
      (s.params.layout.set .enable s.blk.control 0#32 ||| s.params.layout.intenMask) = false := by
    rw [Layout.test, BitVec.getLsbD_or, intenMask_enable hL, Bool.or_false]
    exact Layout.getLsbD_clear_enable hL _
  have hset (k : IntSrc) :
      (enableInterrupts s).blk.control.getLsbD (s.params.layout.pos k.inten) = true := by
    rw [hcontrol, Layout.getLsbD_set_ne hL k.inten_ne_enable, BitVec.getLsbD_or, Layout.getLsbD_intenMask_pos hL,
      Bool.or_true]
  have henable : (enableInterrupts s).blk.control.getLsbD s.params.layout.enable = true := by
    rw [hcontrol, Layout.getLsbD_set_enable hL]
  refine ⟨_, rfl, ?_, hset, henable, ?_, hwords, enableInterrupts_around hL⟩
  · rw [respondCall_ports, respondCall_blk, enableInterrupts_ports hL, hcontrol,
      Layout.clear_set_enable_of_disabled hclear]
  · rw [respondCall_blk, hcontrol]
    exact (((Layout.sameOutside.rfl' _ _ _).set _ (by decide)).or_inten IntSrc.inten_mem).set _ (by decide)

/-- Settles O17: what shows in `MIS` is masked by the enables, whatever the latches. -/
theorem disableIntsClearsTheFourEnables : Obligations.DisableIntsClearsTheFourEnables := by
  intro s hL
  obtain ⟨hcontrol, hwords⟩ := disableInterrupts_words hL
  have hclear : s.params.layout.test .enable
      (s.params.layout.set .enable s.blk.control 0#32 &&& ~~~s.params.layout.intenMask) = false := by
    rw [Layout.test, BitVec.getLsbD_and]
    exact Bool.and_eq_false_imp.2 fun h => absurd h (Bool.eq_false_iff.1 (Layout.getLsbD_clear_enable hL _))
  have hreset (k : IntSrc) :
      (disableInterrupts s).blk.control.getLsbD (s.params.layout.pos k.inten) = false := by
    rw [hcontrol, Layout.getLsbD_set_ne hL k.inten_ne_enable, BitVec.getLsbD_and, BitVec.getLsbD_not,
      Layout.getLsbD_intenMask_pos hL, Bool.not_true, Bool.and_false, Bool.and_false]
  have henable : (disableInterrupts s).blk.control.getLsbD s.params.layout.enable = true := by
    rw [hcontrol, Layout.getLsbD_set_enable hL]
  refine ⟨_, rfl, ?_, hreset, henable, ?_, hwords, disableInterrupts_around hL,
    fun _ => interrupts_masked hL hreset⟩
  · rw [respondCall_ports, respondCall_blk, disableInterrupts_ports hL, hcontrol,
      Layout.clear_set_enable_of_disabled hclear]
  · rw [respondCall_blk, hcontrol]
    exact (((Layout.sameOutside.rfl' _ _ _).set _ (by decide)).and_inten IntSrc.inten_mem).set _ (by decide)

/-! ### A read-modify-write of `SLAVE_SELECT` (R118) -/

section
variable (f : Word → Word) (s : State)

/-- In the named bits `SLAVE_SELECT` reads as the stored word (`46_spi_core_agent.md` R172, log 9). -/
theorem readWord_slaveSelect_and_sselMask (h : s.blk.ssel &&& s.params.layout.sselMask = s.blk.ssel) :
    readWord .slaveSelect s &&& s.params.layout.sselMask = s.blk.ssel := by
  have hmerge := merge_and_mask (tick s).blk.openWord s.blk.ssel s.params.layout.sselMask
  rw [h] at hmerge
  rw [readWord, blockReadValue, tick_params, tick_ssel]
  exact hmerge

/-- The modified word is stored in the named bits, and no other register word changes. -/
theorem rmw_slaveSelect_words :
    (rmw .slaveSelect f s).blk.ssel = f (readWord .slaveSelect s) &&& s.params.layout.sselMask ∧
    (rmw .slaveSelect f s).blk.control = s.blk.control ∧ (rmw .slaveSelect f s).blk.frameSize = s.blk.frameSize ∧
    (rmw .slaveSelect f s).blk.clkGen = s.blk.clkGen ∧ (rmw .slaveSelect f s).blk.framesup = s.blk.framesup := by
  simp [rmw, blockWrite]

/-- With no other agent acting no latch moves, and neither does the frame counter. -/
theorem rmw_slaveSelect_latches (hq : s.env = []) :
    (rmw .slaveSelect f s).blk.ris = s.blk.ris ∧ (rmw .slaveSelect f s).blk.framesSent = s.blk.framesSent := by
  have hread := afterRead_of_quiet .slaveSelect s hq (by decide)
  rw [rmw, regWrite_blk_of_quiet _ _ (by rw [hread]; exact hq), hread]
  exact ⟨rfl, rfl⟩

end

/-- The select bit of an index is one of `SSEL`, so it is a named bit of any layout (`30_encoding.md` R79, R88). -/
theorem getLsbD_sselMask_of_cs (L : Layout) (cs : BitVec 3) : L.sselMask.getLsbD cs.toNat = true := by
  have hssel : ∀ c : BitVec 3, (0xFF#32).getLsbD c.toNat = true := by decide
  rw [Layout.sselMask, BitVec.getLsbD_or, hssel, Bool.true_or]

theorem getLsbD_csMask (cs : BitVec 3) (i : Nat) : (csMask cs).getLsbD i = decide (i = cs.toNat) := by
  rw [csMask, getLsbD_bitMask, ← Bool.decide_and]
  exact decide_eq_decide.2 (and_iff_right_of_imp fun h => by omega)

/-- `SETCS` gives the bit of the index the complement of `disable` and keeps every other bit. -/
theorem getLsbD_withCs (w : Word) (cs : BitVec 3) (disable : Bool) (i : Nat) :
    (withCs w cs disable).getLsbD i = if i = cs.toNat then !disable else w.getLsbD i := by
  have hnew : (if disable = true then 0#32 else csMask cs).getLsbD i = (decide (i = cs.toNat) && !disable) := by
    cases disable <;> simp [getLsbD_csMask]
  rw [withCs, BitVec.getLsbD_or, BitVec.getLsbD_and, BitVec.getLsbD_not, getLsbD_csMask, hnew]
  by_cases hi : i = cs.toNat
  · simp [hi]
  · simpa [hi] using BitVec.lt_of_getLsbD

theorem getLsbD_withCs_and_sselMask (L : Layout) (w : Word) (cs : BitVec 3) (disable : Bool) (i : Nat) :
    (withCs w cs disable &&& L.sselMask).getLsbD i =
      if i = cs.toNat then !disable else (w &&& L.sselMask).getLsbD i := by
  rw [BitVec.getLsbD_and, getLsbD_withCs, BitVec.getLsbD_and]
  split
  next hi => rw [hi, getLsbD_sselMask_of_cs, Bool.and_true]
  next => rfl

theorem withCs_eq (w : Word) (cs : BitVec 3) (disable : Bool) :
    withCs w cs disable =
      (w &&& ~~~(1#32 <<< cs.toNat)) ||| ((if disable = true then 0#32 else 1#32) <<< cs.toNat) := by
  cases disable with
  | false => rfl
  | true => simp [withCs, csMask, bitMask]

/-! ### `SETCS` (R118) -/

theorem csAdmitted_eq_true {s : State} {cs : BitVec 3} (h : cs.toNat < s.params.numCs) : csAdmitted cs s = true :=
  decide_eq_true h

/-- Settles O18: of the two causes of refusal one is the index and the other the table of R164. -/
theorem setCsWritesOneBit : Obligations.SetCsWritesOneBit := by
  refine ⟨fun s cs disable hlive hcs hssel => ?_, fun s cs disable hrefused => ?_⟩
  · have hread := readWord_slaveSelect_and_sselMask s hssel
    obtain ⟨hstored, hcontrol, hframeSize, hclkGen, hframesup⟩ := rmw_slaveSelect_words (withCs · cs disable) s
    have hbits (i : Nat) : (rmw .slaveSelect (withCs · cs disable) s).blk.ssel.getLsbD i =
        if i = cs.toNat then !disable else s.blk.ssel.getLsbD i := by
      rw [hstored, getLsbD_withCs_and_sselMask, hread]
    have hstep := rmw_configStep (r := .slaveSelect) (withCs · cs disable) s (by decide) (by decide)
    refine ⟨_, readWord .slaveSelect s, if_pos ⟨hlive, csAdmitted_eq_true hcs⟩, rfl, hread, ?_, hbits, hcontrol,
      hframeSize, hclkGen, hframesup, hstep.outside, hstep.results.2.1, hstep.quiet,
      rmw_slaveSelect_latches (withCs · cs disable) s⟩
    rw [respond_ports, rmw_ports, withCs_eq]
  · rcases hrefused with hcs | hlive
    · exact execSetcs_of_index disable hcs
    · refine exec_of_not_admitted (i := .setcs cs disable) rfl ?_
      simp [Instr.admitted, hlive]

end Sys2Proof.Machine
end

/-! ## The invariant of the machine (`10_state.md` R11 to R17, `42_fifo.md` R132) -/

section
namespace Sys2Proof.Machine

/-! ### What holds between the stages of an operation too -/

/-- The invariant without `Engine.PhaseWf`, which an operation may break between its stages: `XFER` holds its buffer pointers
during its first burst, before `state` becomes `TRANSFERRING` (`45_host_operations.md` R162). -/
structure State.InRange (s : State) : Prop where
  mem : s.mem.wf s.params.addrW = true
  blk : s.blk.Wf s.params
  clock : s.eng.ClockWf
  cursors : s.eng.CursorWf
  pointers : s.eng.PointerWf s.params.addrW

theorem State.inv_iff {s : State} : s.Inv ↔ s.InRange ∧ s.eng.PhaseWf :=
  ⟨fun ⟨hmem, hblk, hclock, hcursors, hphase, hpointers⟩ => ⟨⟨hmem, hblk, hclock, hcursors, hpointers⟩, hphase⟩,
    fun ⟨⟨hmem, hblk, hclock, hcursors, hpointers⟩, hphase⟩ => ⟨hmem, hblk, hclock, hcursors, hphase, hpointers⟩⟩

theorem State.Inv.inRange {s : State} (h : s.Inv) : s.InRange := (State.inv_iff.1 h).1
theorem State.Inv.phase {s : State} (h : s.Inv) : s.eng.PhaseWf := (State.inv_iff.1 h).2

/-- Bytes moved keep `pending` the difference of the cursors (`42_fifo.md` R132 (c)). -/
theorem Engine.CursorWf.advance {e e' : Engine} {d b : Nat} (h : e.CursorWf) (hd : d ≤ e.rxLen) (hb : b ≤ e.txLen)
    (hrx : e'.rxLen = e.rxLen - d) (htx : e'.txLen = e.txLen - b) (hpending : e'.pending = e.pending - d + b) :
    e'.CursorWf := by
  obtain ⟨htx32, hrx32, hdiff⟩ := h
  refine ⟨by omega, by omega, ?_⟩
  rw [hpending, hdiff, hrx, htx]
  omega

theorem all_lt_map_advance {w : Nat} {buf : Option Nat} (n : Nat) (h : buf.all (fun a => decide (a < 2 ^ w)) = true) :
    (buf.map (advance w n)).all (fun a => decide (a < 2 ^ w)) = true := by
  cases buf with
  | none => rfl
  | some a => exact decide_eq_true (advance_lt n (of_decide_eq_true h))

theorem all_lt_map_bufAddr (w : Nat) (buf : Option Nat) :
    (buf.map (bufAddr w)).all (fun a => decide (a < 2 ^ w)) = true := by
  cases buf with
  | none => rfl
  | some a => exact decide_eq_true (bufAddr_lt w a)

/-- The record keeps its phase, and gains no pointer. -/
theorem Engine.PhaseWf.of_same {e e' : Engine} (h : e.PhaseWf) (hstate : e'.state = e.state) (hlive : e'.live = e.live)
    (htx : e.txBuf = none → e'.txBuf = none) (hrx : e.rxBuf = none → e'.rxBuf = none) : e'.PhaseWf := by
  obtain ⟨hbufs, hidle⟩ := h
  rw [Engine.PhaseWf, hstate, hlive]
  exact ⟨fun hne => ⟨htx (hbufs hne).1, hrx (hbufs hne).2⟩, hidle⟩

section
variable {s t : State}

/-- A stage that keeps memory and block in form and leaves a record in range. -/
theorem State.InRange.stage (h : s.InRange) (hparams : t.params = s.params)
    (hform : s.mem.wf s.params.addrW = true → s.blk.Wf s.params → t.mem.wf s.params.addrW = true ∧ t.blk.Wf s.params)
    (hclock : t.eng.ClockWf) (hcursors : t.eng.CursorWf) (hpointers : t.eng.PointerWf s.params.addrW) : t.InRange := by
  obtain ⟨hmem, hblk⟩ := hform h.mem h.blk
  rw [← hparams] at hmem hblk hpointers
  exact ⟨hmem, hblk, hclock, hcursors, hpointers⟩

/-- A stage that keeps memory and block in form and leaves the record alone. -/
theorem State.InRange.of_eng (h : s.InRange) (hparams : t.params = s.params)
    (hform : s.mem.wf s.params.addrW = true → s.blk.Wf s.params → t.mem.wf s.params.addrW = true ∧ t.blk.Wf s.params)
    (heng : t.eng = s.eng) : t.InRange :=
  h.stage hparams hform (heng ▸ h.clock) (heng ▸ h.cursors) (heng ▸ h.pointers)

theorem ConfigStep.inRange {n : Nat} (h : ConfigStep s n t) (hs : s.InRange) : t.InRange :=
  hs.of_eng h.params h.wf h.eng

theorem ConfigStep.inv {n : Nat} (h : ConfigStep s n t) (hs : s.Inv) : t.Inv :=
  State.inv_iff.2 ⟨h.inRange hs.inRange, h.eng ▸ hs.phase⟩

theorem Drained.inRange {d : List Byte} {ev : List PortEvent} (h : Drained s d ev t) (hs : s.InRange) : t.InRange := by
  obtain ⟨htxBuf, hrxBuf⟩ := hs.pointers
  have hle : d.length ≤ s.eng.rxLen := h.le.trans (Nat.min_le_left _ _)
  refine hs.stage h.platform.1 h.wf ?_ (hs.cursors.advance (b := 0) hle (Nat.zero_le _) ?_ ?_ ?_) ?_
  · rw [h.eng]; exact hs.clock
  · rw [h.eng]
  · rw [h.eng]; rfl
  · simp [h.eng]
  · rw [h.eng]; exact ⟨htxBuf, all_lt_map_advance _ hrxBuf⟩

theorem Filled.inRange {b : List Byte} {ev : List PortEvent} (h : Filled s b ev t) (hs : s.InRange) : t.InRange := by
  obtain ⟨htxBuf, hrxBuf⟩ := hs.pointers
  have hle : b.length ≤ s.eng.txLen := h.le.trans (Nat.min_le_left _ _)
  refine hs.stage h.platform.1 h.wf ?_ (hs.cursors.advance (d := 0) (Nat.zero_le _) hle ?_ ?_ ?_) ?_
  · rw [h.eng]; exact hs.clock
  · rw [h.eng]; rfl
  · rw [h.eng]
  · simp [h.eng]
  · rw [h.eng]; exact ⟨all_lt_map_advance _ htxBuf, hrxBuf⟩

/-! The three answers are no part of the invariant. -/

theorem respond_inv (c : ResultCode) (hs : s.Inv) : (respond c s).Inv := hs
theorem respondIrq_inv (c : IrqResult) (hs : s.Inv) : (respondIrq c s).Inv := hs
theorem respondCall_inv (c : ResultCode) (hs : s.Inv) : (respondCall c s).Inv := hs

/-! ### The bursts and the service -/

theorem drainBurst_inv (h : drainBurst s = .next t) (hs : s.Inv) : t.Inv := by
  obtain ⟨d, ev, hd⟩ := drainBurst_drained h
  refine State.inv_iff.2 ⟨hd.inRange hs.inRange, ?_⟩
  refine hs.phase.of_same ?_ ?_ ?_ ?_ <;> simp +contextual [hd.eng]

theorem fillBurst_inv (h : fillBurst s = .next t) (hs : s.Inv) : t.Inv := by
  obtain ⟨b, ev, hb⟩ := fillBurst_filled h
  refine State.inv_iff.2 ⟨hb.inRange hs.inRange, ?_⟩
  refine hs.phase.of_same ?_ ?_ ?_ ?_ <;> simp +contextual [hb.eng]

/-- A service moves both cursors, and drops the pointers where it leaves `TRANSFERRING` (`43_interrupt.md` R140). -/
theorem serviceBits_inv {f : Word} (hlive : s.eng.live = .ready) (h : serviceBits f s = .next t) (hs : s.Inv) :
    t.Inv := by
  obtain ⟨d, b, evD, evF, hd⟩ := serviceBits_serviced h
  obtain ⟨htxBuf, hrxBuf⟩ := hs.inRange.pointers
  have hcursors : t.eng.CursorWf := by
    refine hs.inRange.cursors.advance (hd.leD.trans (Nat.min_le_left _ _)) (hd.leB.trans (Nat.min_le_left _ _)) ?_ ?_ ?_
      <;> rw [hd.eng]
  have hrange (hpointers : t.eng.PointerWf s.params.addrW) : t.InRange :=
    hs.inRange.stage hd.platform.1 hd.wf (by rw [hd.eng]; exact hs.inRange.clock) hcursors hpointers
  cases hfinal : finalises s.params.layout f (s.eng.rxLen - d.length) with
  | true =>
    refine State.inv_iff.2 ⟨hrange ?_, ?_⟩
    · simp [hd.eng, hfinal, Engine.PointerWf]
    · simp [hd.eng, hfinal, hlive, Engine.PhaseWf]
  | false =>
    refine State.inv_iff.2 ⟨hrange ?_, hs.phase.of_same ?_ ?_ ?_ ?_⟩
    · simpa [hd.eng, hfinal] using And.intro (all_lt_map_advance _ htxBuf) (all_lt_map_advance _ hrxBuf)
    all_goals simp +contextual [hd.eng, hfinal]

theorem afterRead_configStep {r : Reg} (s : State) (hr : r ≠ .rxData) : ConfigStep s 1 (afterRead r s) :=
  ⟨afterRead_keepsOutside r s, afterRead_keepsResults r s, afterRead_keepsQuietly s hr, afterRead_wf r s⟩

theorem execIrq_inv (h : execIrq s = .next t) (hs : s.Inv) : t.Inv := by
  by_cases hlive : s.eng.live = .ready
  · obtain ⟨hnone, hserve⟩ := execIrq_ready hlive
    have hread : (afterRead .mis s).Inv := (afterRead_configStep s (by decide)).inv hs
    by_cases hf : irqStatus s = 0#32
    · cases (hnone hf).symm.trans h
      exact respondIrq_inv _ hread
    · exact serviceBits_inv (by rw [afterRead_eng]; exact hlive) ((hserve hf).symm.trans h) hread
  · cases (execIrq_of_not_ready hlive).symm.trans h
    exact respondIrq_inv _ hs

/-! ### The lifecycle -/

theorem execInit_inv (h : execInit s = .next t) (hs : s.Inv) : t.Inv := by
  unfold execInit at h
  split at h <;> cases h
  · have hop := initialise_op s
    refine State.inv_iff.2 ⟨hs.inRange.stage hop.params hop.wf ?_ ?_ ?_, ?_⟩ <;>
      rw [respond_eng, initialise_eng]
    · exact hs.inRange.clock
    · exact ⟨Nat.two_pow_pos 32, Nat.two_pow_pos 32, rfl⟩
    · exact ⟨rfl, rfl⟩
    · exact ⟨fun _ => ⟨rfl, rfl⟩, fun _ => rfl⟩
  · exact respond_inv _ hs

theorem execTeardown_inv (h : execTeardown s = .next t) (hs : s.Inv) : t.Inv := by
  unfold execTeardown at h
  split at h <;> cases h
  · obtain ⟨hparams, heng, -⟩ := teardown_outside s
    have hrange : (disableCtl (clockRelease (disableInterrupts s))).InRange :=
      hs.inRange.of_eng hparams (teardown_wf s) heng
    exact State.inv_iff.2 ⟨⟨hrange.mem, hrange.blk, hrange.clock, hrange.cursors, rfl, rfl⟩,
      fun _ => ⟨rfl, rfl⟩, fun _ => rfl⟩
  · exact respond_inv _ hs

/-! ### The host commands -/

/-- An engine in `COMPLETING` holds no pointer, so it may become idle (`45_host_operations.md` R162, R163). -/
theorem acceptFinished_inv (hs : s.Inv) : (acceptFinished s).Inv := by
  unfold acceptFinished
  split
  next hstate =>
    obtain ⟨hbufs, -⟩ := hs.phase
    have hnone := hbufs (by rw [hstate]; decide)
    exact State.inv_iff.2 ⟨⟨hs.inRange.mem, hs.inRange.blk, hs.inRange.clock, hs.inRange.cursors, hs.inRange.pointers⟩,
      fun _ => hnone, fun _ => rfl⟩
  next => exact hs

theorem execFinack_inv (h : execFinack s = .next t) (hs : s.Inv) : t.Inv := by
  unfold execFinack at h
  split at h <;> cases h
  · exact respond_inv _ (acceptFinished_inv hs)
  · exact respond_inv _ hs

theorem rmw_slaveSelect_inv (f : Word → Word) (hs : s.Inv) : (rmw .slaveSelect f s).Inv :=
  (rmw_configStep f s (by decide) (by decide)).inv hs

theorem execSetup_inv {cs : BitVec 3} {csHigh : Bool} (h : execSetup cs csHigh s = .next t) (hs : s.Inv) : t.Inv := by
  unfold execSetup at h
  split at h <;> cases h
  · refine respond_inv _ ?_
    split
    · exact rmw_slaveSelect_inv _ hs
    · exact hs
  · exact respond_inv _ hs

theorem execSetcs_inv {cs : BitVec 3} {disable : Bool} (h : execSetcs cs disable s = .next t) (hs : s.Inv) : t.Inv := by
  unfold execSetcs at h
  split at h <;> cases h
  · exact respond_inv _ (rmw_slaveSelect_inv _ hs)
  · exact respond_inv _ hs

theorem execPrepmsg_inv {mode : BitVec 2} (h : execPrepmsg mode s = .next t) (hs : s.Inv) : t.Inv := by
  unfold execPrepmsg at h
  split at h <;> cases h
  · exact respond_inv _ ((setSpiMode_configStep mode _).inv ((setFrameSize_configStep _ s).inv hs))
  · exact respond_inv _ hs

theorem afterClockRate_inv (hs : s.Inv) : (afterClockRate s).Inv :=
  State.inv_iff.2 ⟨hs.inRange.of_eng (afterClockRate_params s) (afterClockRate_wf s) (afterClockRate_eng s),
    afterClockRate_eng s ▸ hs.phase⟩

/-- A calculated pair is in the ranges of `10_state.md` R11. -/
theorem setClock_inv {target src g : Nat} {m : Bool} (h : calcDivider target src = some (m, g)) (hs : s.Inv) :
    (setClock m g s).Inv :=
  State.inv_iff.2 ⟨⟨hs.inRange.mem, hs.inRange.blk, calcDivider_range h, hs.inRange.cursors, hs.inRange.pointers⟩, hs.phase⟩

/-- A transfer is loaded with a length of 32 bits and addresses of `ADDR_W` bits (R162). -/
theorem loadTransfer_inRange (len : Word) (tx rx : Option Nat) (hs : s.InRange) : (loadTransfer len tx rx s).InRange where
  mem := hs.mem
  blk := hs.blk
  clock := hs.clock
  cursors := ⟨len.isLt, len.isLt, (Int.sub_self _).symm⟩
  pointers := ⟨all_lt_map_bufAddr _ tx, all_lt_map_bufAddr _ rx⟩

theorem execXfer_inv {len hz : Word} {tx rx : Option Nat} (h : execXfer len hz tx rx s = .next t) (hs : s.Inv) :
    t.Inv := by
  have hquery : (afterClockRate (acceptFinished s)).Inv := afterClockRate_inv (acceptFinished_inv hs)
  unfold execXfer at h
  split at h
  next hstart =>
    dsimp only at h
    split at h
    next =>
      cases h
      exact respond_inv _ hquery
    next m g hcalc =>
      obtain ⟨u, hfill, hend⟩ := andThen_eq_next h
      cases hend
      obtain ⟨b, ev, hb⟩ := fillBurst_filled hfill
      have hclk := (applyClk_configStep _).inv (setClock_inv hcalc hquery)
      have hrange : u.InRange := hb.inRange (loadTransfer_inRange len tx rx hclk.inRange)
      have hlive : u.eng.live = .ready := by
        simp only [startAdmitted, Bool.and_eq_true, beq_iff_eq] at hstart
        simp [hb.eng, acceptFinished_eq, hstart.1]
      exact State.inv_iff.2 ⟨⟨hrange.mem, hrange.blk, hrange.clock, hrange.cursors, hrange.pointers⟩,
        fun hne => absurd rfl hne, fun hne => absurd hlive hne⟩
  next =>
    cases h
    exact respond_inv _ hs

/-! ### The micro-operations that branch -/

theorem execCalcClk_inv {target src : Word} (h : execCalcClk target src s = .next t) (hs : s.Inv) : t.Inv := by
  unfold execCalcClk at h
  split at h <;> cases h
  next hcalc => exact respondCall_inv _ (setClock_inv hcalc hs)
  next => exact respondCall_inv _ hs

theorem execSetFramesize_inv {bits : Byte} (h : execSetFramesize bits s = .next t) (hs : s.Inv) : t.Inv := by
  unfold execSetFramesize at h
  split at h <;> cases h
  · exact respondCall_inv _ ((setFrameSize_configStep bits s).inv hs)
  · exact respondCall_inv _ hs

/-- Every operation that answers keeps the invariant, whoever asks for it and whenever. -/
theorem exec_inv {i : Instr} (h : exec i s = .next t) (hs : s.Inv) : t.Inv := by
  cases i with
  | init => exact execInit_inv h hs
  | setup cs csHigh => exact execSetup_inv h hs
  | prepmsg mode => exact execPrepmsg_inv h hs
  | xfer len hz tx rx => exact execXfer_inv h hs
  | setcs cs disable => exact execSetcs_inv h hs
  | finack => exact execFinack_inv h hs
  | teardown => exact execTeardown_inv h hs
  | irq => exact execIrq_inv h hs
  | calcClk target src => exact execCalcClk_inv h hs
  | applyClk => cases h; exact respondCall_inv _ ((applyClk_configStep s).inv hs)
  | disable => cases h; exact respondCall_inv _ ((disableCtl_configStep s).inv hs)
  | enable => cases h; exact respondCall_inv _ ((enableCtl_configStep s).inv hs)
  | setFramesize bits => exact execSetFramesize_inv h hs
  | setMode mode => cases h; exact respondCall_inv _ ((setSpiMode_configStep mode s).inv hs)
  | setXferLen len => cases h; exact respondCall_inv _ ((setTransferLen_configStep len s).inv hs)
  | enableInts => cases h; exact respondCall_inv _ ((enableInterrupts_configStep s).inv hs)
  | disableInts => cases h; exact respondCall_inv _ ((disableInterrupts_configStep s).inv hs)
  | fill =>
    obtain ⟨u, hfill, hend⟩ := andThen_eq_next h
    cases hend
    exact respondCall_inv _ (fillBurst_inv hfill hs)
  | drain =>
    obtain ⟨u, hdrain, hend⟩ := andThen_eq_next h
    cases hend
    exact respondCall_inv _ (drainBurst_inv hdrain hs)
  | ack bit => cases h; exact respondCall_inv _ ((ackBit_configStep bit.toNat s).inv hs)

/-! ### The four kinds of step -/

theorem idleStep_inv (h : idleStep s = .next t) (hs : s.Inv) : t.Inv := by
  unfold idleStep at h
  split at h
  · exact exec_inv h hs
  · cases h; exact hs

theorem runRequest_inv {r : Request} (h : runRequest r s = .next t) (hs : s.Inv) : t.Inv := by
  rcases runRequest_cases r s with ⟨i, -, -, -, hrun⟩ | hrun
  · exact exec_inv (hrun ▸ h) hs
  · cases hrun.symm.trans h
    obtain ⟨hparams, heng, hblk, -, hmem, -⟩ := rejectRequest_keeps r.source s
    rw [State.Inv, hparams, heng, hblk, hmem]
    exact hs

theorem applyEnv_inv (e : EnvEvent) (hs : s.Inv) : (applyEnv s e).Inv :=
  State.inv_iff.2 ⟨hs.inRange.of_eng (applyEnv_params s e) (applyEnv_wf s e) (applyEnv_eng s e),
    applyEnv_eng s e ▸ hs.phase⟩

/-- The reset event cuts the contents of the block it is given to form; memory it leaves (log 17). -/
theorem resetEngine_inv (b : Block) (hs : s.Inv) : (resetEngine b s).Inv :=
  ⟨hs.inRange.mem, normalise_wf s.params b, Engine.reset_wf s.params.addrW⟩

end

/-- Settles O60, by the four kinds of step. -/
theorem stepKeepsTheInvariant : Obligations.StepKeepsTheInvariant := by
  intro s t hs h
  rcases step_cases h with ⟨-, hidle⟩ | ⟨r, rest, -, hrun⟩ | ⟨e, rest, -, rfl⟩ | ⟨b, rest, -, rfl⟩
  · exact idleStep_inv hidle hs
  · exact runRequest_inv hrun hs
  · exact applyEnv_inv e hs
  · exact resetEngine_inv b hs

end Sys2Proof.Machine
end

/-! ## The FIFO bursts (`42_fifo.md`): `FILL` and `DRAIN` -/

section
namespace Sys2Proof.Machine

section
variable {s t : State}

/-! ### `FILL` (R130) -/

theorem execFill_of_burst (h : fillBurst s = .next t) : execFill s = .next (respondCall .ok t) := by
  rw [execFill, h, andThen_next]

theorem execFill_filled (h : execFill s = .next t) : ∃ b ev u, Filled s b ev u ∧ t = respondCall .ok u := by
  obtain ⟨u, hfill, hend⟩ := andThen_eq_next h
  obtain ⟨b, ev, hb⟩ := fillBurst_filled hfill
  cases hend
  exact ⟨b, ev, u, hb, rfl⟩

theorem Filled.mem_read_of_still {b : List Byte} {ev : List PortEvent} (h : Filled s b ev t) (hstill : s.hostStill)
    (a : Nat) : t.mem.read a = s.mem.read a := by
  rw [h.mem, ticks_mem_of_still _ hstill]

/-- The `CONTROL` word a `FILL` leaves differs from the one it found in the frame count, and has `ENABLE` set (R115). -/
theorem Block.fillWords.control_bits {L : Layout} (hL : L.legal = true) {b c : Block} {n : Nat} (h : b.fillWords L n c) :
    c.control.getLsbD L.enable = true ∧ L.sameOutside [.enable, .framecnt] b.control c.control := by
  obtain ⟨hcontrol, -⟩ := h
  rw [hcontrol]
  exact ⟨Layout.getLsbD_set_enable hL _,
    (((Layout.sameOutside.rfl' _ _ _).set _ (by decide)).set _ (by decide)).set _ (by decide)⟩

/-! ### `DRAIN` (R131) -/

theorem execDrain_of_burst (h : drainBurst s = .next t) : execDrain s = .next (respondCall .ok t) := by
  rw [execDrain, h, andThen_next]

theorem execDrain_drained (h : execDrain s = .next t) : ∃ d ev u, Drained s d ev u ∧ t = respondCall .ok u := by
  obtain ⟨u, hdrain, hend⟩ := andThen_eq_next h
  obtain ⟨d, ev, hd⟩ := drainBurst_drained hdrain
  cases hend
  exact ⟨d, ev, u, hd, rfl⟩

/-- While the host is still a `DRAIN` writes the sink addresses only. -/
theorem Drained.mem_read_other {d : List Byte} {ev : List PortEvent} (h : Drained s d ev t) (hstill : s.hostStill) (x : Nat)
    (hx : ∀ a, s.eng.rxBuf = some a → ∀ k, k < d.length → x ≠ advance s.params.addrW k a) :
    t.mem.read x = s.mem.read x := by
  rw [h.memStill hstill, storeAll_read_other _ _ _ _ _ hx]

/-- While the host is still the sink holds the bytes received. -/
theorem Drained.mem_read_sink {d : List Byte} {ev : List PortEvent} (h : Drained s d ev t) (hstill : s.hostStill) {a : Nat}
    (hbuf : s.eng.rxBuf = some a) (htop : a + d.length ≤ 2 ^ s.params.addrW) (k : Nat) (hk : k < d.length) :
    t.mem.read (a + k) = some d[k] := by
  rw [h.memStill hstill, hbuf, storeAll_read_same _ _ _ _ htop k hk]

end

/-- Settles O24. -/
theorem fillIsOneBurst : Obligations.FillIsOneBurst := by
  intro s t hL h
  obtain ⟨b, ev, u, hb, rfl⟩ := execFill_filled h
  have hwords := hb.words hL
  obtain ⟨henable, houtside⟩ := hwords.control_bits hL
  have hcount := fillWords_frameCount hL (Nat.min_le_right _ _) hwords
  obtain ⟨-, -, hframeSize, hclkGen, hssel⟩ := hwords
  obtain ⟨hresult, hirqResult, -⟩ := hb.results
  refine ⟨b, ev, hb.burst, hb.ports hL, hb.eng, hcount, henable, houtside, hframeSize, hclkGen, hssel, hresult, hirqResult,
    hb.platform, hb.mem, hb.mem_read_of_still, fun hq hroom => ?_⟩
  obtain ⟨htxq, hrxq, hwire, hopen, hsent, hris, -, hsource, hfiller⟩ := hb.quiet hq hL hroom
  exact ⟨htxq, hrxq, hwire, hopen, hsent, hris, hsource, hfiller⟩

/-- Settles O25. -/
theorem fillCompletesUnderTheHostsDuty : Obligations.FillCompletesUnderTheHostsDuty := by
  intro s hholds hlent
  obtain ⟨u, hu⟩ := fillBurst_completes s hholds hlent
  obtain ⟨b, ev, hb⟩ := fillBurst_filled hu
  refine ⟨_, execFill_of_burst hu, fun hL hq hroom => ?_⟩
  obtain ⟨htxq, -, -, -, -, -, hlength, -⟩ := hb.quiet hq hL hroom
  rw [← hlength]
  exact ⟨congrArg Engine.txLen hb.eng, (congrArg List.length htxq).trans List.length_append⟩

/-- Settles O26. -/
theorem drainIsOneBurst : Obligations.DrainIsOneBurst := by
  intro s t hL h
  obtain ⟨d, ev, u, hd, rfl⟩ := execDrain_drained h
  obtain ⟨hresult, hirqResult, -⟩ := hd.results
  exact ⟨d, ev, hd.burst, hd.ports, hd.eng, hd.words, hresult, hirqResult, hd.platform, hd.memAbsent, hd.mem_read_other,
    fun hstill _ hbuf htop => hd.mem_read_sink hstill hbuf htop, fun hq => hd.quiet hq hL⟩

/-- Settles O27. -/
theorem drainCompletesUnderTheHostsDuty : Obligations.DrainCompletesUnderTheHostsDuty := by
  intro s hholds hlent
  obtain ⟨u, hu⟩ := drainBurst_completes s hholds hlent
  obtain ⟨d, ev, hd⟩ := drainBurst_drained hu
  refine ⟨_, execDrain_of_burst hu, fun hL hq => ?_⟩
  obtain ⟨hblk, hframes⟩ := hd.quiet hq hL
  refine ⟨?_, ?_⟩
  · rw [respondCall_eng, hd.eng, hframes, List.length_take]
  · rw [respondCall_blk, hblk, hframes, List.length_take, ← List.drop_eq_drop_min]

end Sys2Proof.Machine
end

/-! ## The interrupt service (`43_interrupt.md`): `ACK` and `IRQ` -/

section
namespace Sys2Proof.Machine

/-! ### `ACK` (R141) -/

/-- The one latch that an acknowledgement clears (R141). -/
theorem getLsbD_ackBit_ris (n : Nat) (s : State) (i : Nat) :
    (ackBit n s).blk.ris.getLsbD i = ((tick s).blk.ris.getLsbD i && decide (i ≠ n)) := by
  rw [ackBit, regWrite_blk, getLsbD_ris_blockWrite_intClear, getLsbD_bitMask]
  by_cases hi : i < 4
  · simp [show i < 32 by omega]
  · simp [BitVec.getLsbD_of_ge _ i (Nat.le_of_not_lt hi)]

theorem ackBit_framesSent_of_quiet (n : Nat) {s : State} (hq : s.env = []) :
    (ackBit n s).blk.framesSent = s.blk.framesSent := by
  rw [ackBit_blk, tick_of_quiet hq]

/-- Settles O29. -/
theorem ackClearsOneLatch : Obligations.AckClearsOneLatch := by
  intro s bit
  have hstep := ackBit_configStep bit.toNat s
  have hris := getLsbD_ackBit_ris bit.toNat s
  have hmis : (misBits s.params.layout (ackBit bit.toNat s).blk).getLsbD bit.toNat = false := by
    rw [misBits, BitVec.getLsbD_and, hris]
    simp
  exact ⟨_, rfl, regWrite_ports _ _ s, hris, hmis, ackBit_sameWords _ s, hstep.outside, hstep.results.1,
    hstep.results.2.1, hstep.quiet, ackBit_framesSent_of_quiet _⟩

/-! ### The word read from `MIS` -/

/-- A source is seen when it is latched at the read and enabled (`46_spi_core_agent.md` R173). -/
theorem getLsbD_readWord_mis {s : State} (hL : s.params.layout.legal = true) (k : IntSrc) :
    (readWord .mis s).getLsbD (s.params.layout.intBit k) =
      ((tick s).blk.ris.getLsbD (s.params.layout.intBit k) &&
        s.blk.control.getLsbD (s.params.layout.pos k.inten)) := by
  rw [readWord, blockReadValue, tick_params, getLsbD_misWord hL, tick_control]

section
variable {L : Layout} (hL : L.legal = true)
include hL

theorem getLsbD_ackedBits (f : Word) (k : IntSrc) : (ackedBits L f).getLsbD (L.intBit k) = irqBit L f k := by
  have hmask (c : Bool) (j : IntSrc) :
      (if c = true then intMask L j else 0#4).getLsbD (L.intBit k) = (c && decide (j = k)) := by
    have hk := L.intBit_lt hL k
    by_cases hjk : j = k
    · subst hjk
      cases c <;> simp [intMask, hk]
    · have hne := L.intBit_ne hL hjk
      cases c <;> simp [intMask, hjk, hk]
      omega
  rw [ackedBits]
  simp only [BitVec.getLsbD_or, hmask]
  cases k <;> simp

/-- The latches acknowledged are those seen (R143 (a)). -/
theorem ackedBits_eq (w : Word) : ackedBits L w = w.extractLsb' 0 4 := by
  apply BitVec.eq_of_getLsbD_eq
  intro i hi
  obtain ⟨k, rfl⟩ := intBit_surjective hL hi
  rw [getLsbD_ackedBits hL, BitVec.getLsbD_extractLsb', Nat.zero_add, decide_eq_true hi, Bool.true_and, irqBit]

end

theorem finalises_iff (L : Layout) (w : Word) (rx : Nat) : finalises L w rx = true ↔
    (w.getLsbD (L.intBit .txdone) = true ∧ rx = 0) ∨ w.getLsbD (L.intBit .rxovf) = true ∨
      w.getLsbD (L.intBit .txunder) = true := by
  simp [finalises, irqBit, or_assoc]

/-! ### One account of a service, whatever it saw (R140) -/

section
variable {s t : State} {w : Word} {d b : List Byte} {evD evF : List PortEvent}

/-- What a service does is said by the four bits it looks at. -/
theorem Serviced.of_low (hL : s.params.layout.legal = true) (h : Serviced s (w &&& 0xF#32) d b evD evF t) :
    Serviced s w d b evD evF t := by
  have hbit : irqBit s.params.layout (w &&& 0xF#32) = irqBit s.params.layout w := funext (irqBit_low hL w)
  have hfinal : finalises s.params.layout (w &&& 0xF#32) = finalises s.params.layout w := by
    unfold finalises; rw [hbit]
  have hports : servicePorts s.params.layout (w &&& 0xF#32) = servicePorts s.params.layout w := by
    unfold servicePorts; rw [hbit, hfinal]
  have haccesses : serviceAccesses s.params.layout (w &&& 0xF#32) = serviceAccesses s.params.layout w := by
    unfold serviceAccesses; rw [hbit]
  have hacked : ackedBits s.params.layout (w &&& 0xF#32) = ackedBits s.params.layout w := by
    unfold ackedBits; rw [hbit]
  obtain ⟨hdrain, hfill, hleD, hleB, hrecord, heng, hplatform, hstill, hresults, hwords, hwf, hquiet⟩ := h
  rw [hbit] at hdrain hfill heng hwords
  rw [hfinal] at heng
  rw [hports] at hrecord
  rw [haccesses] at hplatform
  rw [hacked] at hquiet
  exact ⟨hdrain, hfill, hleD, hleB, hrecord, heng, hplatform, hstill, hresults, hwords, hwf, hquiet⟩

/-- A service that sees no source has run its parts too: each did nothing. -/
theorem serviced_of_nothing_seen (h : ∀ k, irqBit s.params.layout w k = false) :
    Serviced s w [] [] [] [] (respondIrq .handled s) where
  drain := by simp [h]
  fill := by simp [h]
  leD := Nat.zero_le _
  leB := Nat.zero_le _
  ports := fun _ => by simp [servicePorts, finalises, h]
  eng := by simp [finalises, h, map_advance_zero]
  platform := by
    rw [show serviceAccesses s.params.layout w [] [] = 0 by simp [serviceAccesses, h]]
    exact .rfl' s
  memStill := fun _ => (storeAll_nil _ _ _).symm
  results := ⟨rfl, rfl, rfl⟩
  words := fun _ => by simpa [h] using Block.sameWords.rfl' s.blk
  wf := fun hmem hblk => ⟨hmem, hblk⟩
  quiet := fun _ _ _ => by
    rw [show ackedBits s.params.layout w = 0#4 by simp [ackedBits, h], and_not_zero]
    simp

/-- The answer of a service that read `w` from `MIS` (R140). -/
def irqAnswer (w : Word) : IrqResult := if w &&& 0xF#32 = 0#32 then .none else .handled

theorem irqAnswer_of_zero (h : w &&& 0xF#32 = 0#32) : irqAnswer w = .none := if_pos h
theorem irqAnswer_of_ne_zero (h : w &&& 0xF#32 ≠ 0#32) : irqAnswer w = .handled := if_neg h

/-- A service that answers has read `MIS`, run the parts for the sources it saw, and answered. -/
theorem execIrq_serviced (hL : s.params.layout.legal = true) (hlive : s.eng.live = .ready) (h : execIrq s = .next t) :
    ∃ d b evD evF u, Serviced (afterRead .mis s) (readWord .mis s) d b evD evF u ∧
      t = respondIrq (irqAnswer (readWord .mis s)) u := by
  have hL' : (afterRead .mis s).params.layout.legal = true := by rw [afterRead_params]; exact hL
  obtain ⟨hnone, hserve⟩ := execIrq_ready hlive
  by_cases hf : irqStatus s = 0#32
  · cases (hnone hf).symm.trans h
    refine ⟨[], [], [], [], _, serviced_of_nothing_seen ((low_eq_zero_iff hL' _).1 hf), ?_⟩
    rw [irqAnswer_of_zero hf]
    rfl
  · obtain ⟨d, b, evD, evF, hs⟩ := serviceBits_serviced ((hserve hf).symm.trans h)
    refine ⟨d, b, evD, evF, t, hs.of_low hL', ?_⟩
    rw [irqAnswer_of_ne_zero hf, respondIrq, ← hs.results.1]

end

/-! ### A service in the words of the statements -/

/-- A fill changes the words of a block from what they were before stages that left them alone. -/
theorem Block.sameWords.fillWords {L : Layout} {n : Nat} {b c d : Block} (h : b.sameWords c) (k : c.fillWords L n d) :
    b.fillWords L n d := by
  obtain ⟨hcontrol, hframeSize, hclkGen, hssel, -⟩ := h
  obtain ⟨kcontrol, kframesup, kframeSize, kclkGen, kssel⟩ := k
  rw [hcontrol] at kcontrol
  exact ⟨kcontrol, kframesup, kframeSize.trans hframeSize, kclkGen.trans hclkGen, kssel.trans hssel⟩

section
variable {s u : State} {w : Word} {d b : List Byte} {evD evF : List PortEvent}

/-- Every event of the drain and of the fill of a service is an access. -/
theorem Serviced.burst_accesses (h : Serviced s w d b evD evF u) :
    portAccesses evD = evD.length ∧ portAccesses evF = evF.length := by
  obtain ⟨hdrain, hfill, -⟩ := h
  constructor
  · split at hdrain
    · exact isDrain_accesses hdrain
    · rw [hdrain.2]; rfl
  · split at hfill
    · exact isFill_accesses hfill
    · rw [hfill.2]; rfl

theorem portAccesses_irqPorts (L : Layout) (w : Word) (rx tx : Nat) (hD : portAccesses evD = evD.length)
    (hF : portAccesses evF = evF.length) :
    portAccesses (irqPorts L w evD evF rx tx (finalises L w rx)) = 1 + serviceAccesses L w evD evF := by
  rw [← servicePorts_accesses w evD evF rx tx hD hF]
  exact portAccesses_append [.regRead .mis w] (servicePorts L w evD evF rx tx)

end

section
variable {s u : State} {d b : List Byte} {evD evF : List PortEvent}
  (h : Serviced (afterRead .mis s) (readWord .mis s) d b evD evF u)
include h

theorem Serviced.ports_from_read (hL : s.params.layout.legal = true) :
    u.ports = s.ports ++ irqPorts s.params.layout (readWord .mis s) evD evF (s.eng.rxLen - d.length)
      (s.eng.txLen - b.length) (finalises s.params.layout (readWord .mis s) (s.eng.rxLen - d.length)) := by
  rw [h.ports (by rw [afterRead_params]; exact hL), afterRead_ports, afterRead_params, afterRead_eng, List.append_assoc]
  rfl

theorem Serviced.platform_from_read (rx tx : Nat) :
    s.keepsPlatform (portAccesses (irqPorts s.params.layout (readWord .mis s) evD evF rx tx
      (finalises s.params.layout (readWord .mis s) rx))) u := by
  obtain ⟨hD, hF⟩ := h.burst_accesses
  rw [portAccesses_irqPorts _ _ _ _ hD hF]
  have hplatform := (afterRead_keepsOutside .mis s).platform.trans h.platform
  rwa [afterRead_params] at hplatform

theorem Serviced.words_from_read (hL : s.params.layout.legal = true) :
    if irqBit s.params.layout (readWord .mis s) .txdone = true ∧ 0 < s.eng.txLen then
      s.blk.fillWords s.params.layout (min s.eng.txLen 32) u.blk
    else s.blk.sameWords u.blk := by
  have hwords := h.words (by rw [afterRead_params]; exact hL)
  have hread := afterRead_sameWords .mis s
  rw [afterRead_params, afterRead_eng] at hwords
  split at hwords
  next hfill => rw [if_pos hfill]; exact hread.fillWords hwords
  next hno => rw [if_neg hno]; exact hread.trans hwords

/-- While the host is still a service writes the sink addresses only. -/
theorem Serviced.mem_read_other (hstill : s.hostStill) (x : Nat)
    (hx : ∀ a, s.eng.rxBuf = some a → ∀ k, k < d.length → x ≠ advance s.params.addrW k a) :
    u.mem.read x = s.mem.read x := by
  have hread := hostStill_platform hstill (afterRead_keepsOutside .mis s).platform
  obtain ⟨-, -, -, -, hmem, -⟩ := afterRead_keepsOutside .mis s
  rw [h.memStill hread, afterRead_params, afterRead_eng,
    storeAll_read_other _ _ _ _ _ hx, hmem, ticks_mem_of_still _ hstill]

/-- With no other agent acting a service moves the bytes of its bursts and clears the latches it saw. -/
theorem Serviced.quiet_from_read (hL : s.params.layout.legal = true) (hq : s.env = []) (hroom : s.blk.txq.length ≤ 32) :
    u.blk.txq = s.blk.txq ++ b ∧ u.blk.rxq = s.blk.rxq.drop d.length ∧ u.blk.wire = s.blk.wire ∧
    u.blk.ris = s.blk.ris &&& ~~~((readWord .mis s).extractLsb' 0 4) := by
  have hread := afterRead_of_quiet .mis s hq (by decide)
  have hblk : (afterRead .mis s).blk = s.blk := by rw [hread, State.record_blk]
  have henv : (afterRead .mis s).env = [] := by rw [hread, State.record_env, hq]
  obtain ⟨htxq, hrxq, hwire, -, hris⟩ :=
    h.quiet henv (by rw [afterRead_params]; exact hL) (by rw [hblk]; exact hroom)
  rw [hblk] at htxq hrxq hwire hris
  rw [afterRead_params, ackedBits_eq hL] at hris
  exact ⟨htxq, hrxq, hwire, hris⟩

end

/-- Settles O31. -/
theorem serviceFollowsTheStatusRead : Obligations.ServiceFollowsTheStatusRead := by
  intro s t hL hlive h
  obtain ⟨d, b, evD, evF, u, hs, rfl⟩ := execIrq_serviced hL hlive h
  have hdrain := hs.drain
  have hfill := hs.fill
  have heng := hs.eng
  simp only [afterRead_params, afterRead_eng, afterRead_control] at hdrain hfill heng
  obtain ⟨-, hresult, hcall⟩ := hs.results
  have hkeep := afterRead_keepsResults .mis s
  refine ⟨readWord .mis s, d, b, evD, evF, finalises s.params.layout (readWord .mis s) (s.eng.rxLen - d.length),
    hs.ports_from_read hL, hdrain, hfill, finalises_iff _ _ _, heng, rfl, hresult.trans hkeep.1, hcall.trans hkeep.2.2,
    hs.platform_from_read _ _, ?_, hs.mem_read_other, fun hq hroom => ?_⟩
  · have hwords := hs.words_from_read hL
    split at hwords
    next hseen =>
      obtain ⟨henable, houtside⟩ := hwords.control_bits hL
      have hcount := fillWords_frameCount hL (Nat.min_le_right _ _) hwords
      obtain ⟨-, -, hframeSize, hclkGen, hssel⟩ := hwords
      exact (if_pos hseen).mpr ⟨hcount, henable, houtside, hframeSize, hclkGen, hssel⟩
    next hno => exact (if_neg hno).mpr hwords
  · refine ⟨fun k => ?_, hs.quiet_from_read hL hq hroom⟩
    have hbit := getLsbD_readWord_mis hL k
    rwa [tick_of_quiet hq] at hbit

/-! ### When a service answers (`20_memory.md` R53) -/

theorem execIrq_completes {s : State} (hlive : s.eng.live = .ready) (hholds : s.hostHolds)
    (hrx : s.mem.lends s.params.addrW s.eng.rxBuf (min s.eng.rxLen 32))
    (htx : s.mem.lends s.params.addrW s.eng.txBuf (min s.eng.txLen 32)) : ∃ t, execIrq s = .next t := by
  obtain ⟨hnone, hserve⟩ := execIrq_ready hlive
  by_cases hf : irqStatus s = 0#32
  · exact ⟨_, hnone hf⟩
  · have hread := afterRead_keepsOutside .mis s
    have hlends {buf : Option Nat} {n : Nat} (hlent : s.mem.lends s.params.addrW buf n) :
        (afterRead .mis s).mem.lends s.params.addrW buf n := by
      obtain ⟨-, -, -, -, hmem, -⟩ := hread
      rw [hmem]
      exact hlent.ticks 1 hholds
    obtain ⟨r, hr⟩ := serveTxDone_completes (irqStatus s) (afterRead .mis s) (hostHolds_platform hholds hread.platform)
      (by rw [afterRead_params, afterRead_eng]; exact hlends hrx) (by rw [afterRead_params, afterRead_eng]; exact hlends htx)
    rw [hserve hf, serviceBits, hr]
    exact ⟨_, rfl⟩

/-- Settles O32. -/
theorem serviceCompletesUnderTheHostsDuty : Obligations.ServiceCompletesUnderTheHostsDuty := by
  intro s hL hlive hholds hrx htx
  obtain ⟨t, h⟩ := execIrq_completes hlive hholds hrx htx
  obtain ⟨d, b, evD, evF, u, -, rfl⟩ := execIrq_serviced hL hlive h
  have hzero := low_eq_zero_iff hL (readWord .mis s)
  simp only [getLsbD_readWord_mis hL, Bool.eq_false_iff, ne_eq, Bool.and_eq_true] at hzero
  refine ⟨_, h, fun hnone => ?_, fun ⟨k, hk⟩ => ?_⟩
  · exact congrArg some (irqAnswer_of_zero (hzero.2 hnone))
  · exact congrArg some (irqAnswer_of_ne_zero fun h0 => hzero.1 h0 k hk)

/-! ### Counting what a service did (R143) -/

section
variable {rs ws : List Reg} {e : PortEvent}

theorem isRxRead_of_within (h : withinReach rs ws e) (hr : .rxData ∉ rs) : isRxRead e = false := by
  cases e with
  | regRead r v => exact beq_eq_false_iff_ne.2 fun he => hr (he ▸ h)
  | _ => rfl

theorem isTxWrite_of_within (h : withinReach rs ws e) (hw : .txData ∉ ws) : isTxWrite e = false := by
  cases e with
  | regWrite r v => exact beq_eq_false_iff_ne.2 fun he => hw (he ▸ h)
  | _ => rfl

theorem isIntClear_of_within (h : withinReach rs ws e) (hw : .intClear ∉ ws) : isIntClear e = false := by
  cases e with
  | regWrite r v => exact beq_eq_false_iff_ne.2 fun he => hw (he ▸ h)
  | _ => rfl

end

theorem countP_isRxRead_drainPorts (w : Nat) (buf : Option Nat) (xs : List (Word × Word)) :
    (drainPorts w buf xs).countP isRxRead = xs.length := by
  induction xs generalizing buf with
  | nil => cases buf <;> rfl
  | cons x xs ih => cases buf <;> simp [drainPorts, isRxRead, ih]

theorem countP_isTxWrite_fillPorts (w : Nat) (buf : Option Nat) (xs : List (Word × Byte)) :
    (fillPorts w buf xs).countP isTxWrite = xs.length := by
  induction xs generalizing buf with
  | nil => cases buf <;> rfl
  | cons x xs ih => cases buf <;> simp [fillPorts, isTxWrite, ih]

section
variable {p : Params} {c : Word} {n : Nat} {buf : Option Nat} {bs : List Byte} {ev : List PortEvent}

/-- A drain reads `STATUS` and `RX_DATA`, and writes no register (`20_memory.md` R61). -/
theorem isDrain_within (h : isDrain p n buf bs ev) : ∀ e ∈ ev, withinReach [.status, .rxData] [] e := by
  obtain ⟨xs, last, rfl, -, -, hend⟩ := h
  intro e he
  rcases List.mem_append.1 he with he | he
  · exact drainPorts_within (by decide) (by decide) _ _ _ e he
  · exact loopEnd_within (by decide) hend e he

/-- A fill reads `CONTROL` and `STATUS`, and writes `CONTROL`, `FRAMESUP` and `TX_DATA` (R61). -/
theorem isFill_within (h : isFill p c n buf bs ev) :
    ∀ e ∈ ev, withinReach [.control, .status] [.control, .framesup, .txData] e := by
  obtain ⟨xs, last, rfl, -, -, hend⟩ := h
  intro e he
  rcases List.mem_append.1 he with he | he
  · rcases List.mem_append.1 he with he | he
    · simp only [xferLenPorts, List.mem_cons, List.not_mem_nil, or_false] at he
      rcases he with rfl | rfl | rfl | rfl | rfl | rfl | rfl <;> simp [withinReach]
    · exact fillPorts_within (by decide) (by decide) _ _ _ e he
  · exact loopEnd_within (by decide) hend e he

theorem isDrain_counts (h : isDrain p n buf bs ev) :
    ev.countP isRxRead = bs.length ∧ ev.countP isTxWrite = 0 ∧ ev.filter isIntClear = [] := by
  have hwithin := isDrain_within h
  refine ⟨?_, ?_, ?_⟩
  · obtain ⟨xs, last, rfl, rfl, -, hend⟩ := h
    have hlast : last.countP isRxRead = 0 := by
      rcases hend with ⟨-, rfl⟩ | ⟨-, w, rfl, -⟩ <;> rfl
    rw [List.countP_append, countP_isRxRead_drainPorts, hlast, List.length_map, Nat.add_zero]
  · exact List.countP_eq_zero.2 fun e he => Bool.eq_false_iff.1 (isTxWrite_of_within (hwithin e he) (by decide))
  · exact List.filter_eq_nil_iff.2 fun e he => Bool.eq_false_iff.1 (isIntClear_of_within (hwithin e he) (by decide))

theorem isFill_counts (h : isFill p c n buf bs ev) :
    ev.countP isRxRead = 0 ∧ ev.countP isTxWrite = bs.length ∧ ev.filter isIntClear = [] := by
  have hwithin := isFill_within h
  refine ⟨?_, ?_, ?_⟩
  · exact List.countP_eq_zero.2 fun e he => Bool.eq_false_iff.1 (isRxRead_of_within (hwithin e he) (by decide))
  · obtain ⟨xs, last, rfl, rfl, -, hend⟩ := h
    have hlast : last.countP isTxWrite = 0 := by
      rcases hend with ⟨-, rfl⟩ | ⟨-, w, rfl, -⟩ <;> rfl
    rw [List.countP_append, List.countP_append, countP_isTxWrite_fillPorts, hlast, List.length_map, Nat.add_zero]
    exact Nat.zero_add _
  · exact List.filter_eq_nil_iff.2 fun e he => Bool.eq_false_iff.1 (isIntClear_of_within (hwithin e he) (by decide))

end

section
variable {s u : State} {w : Word} {d b : List Byte} {evD evF : List PortEvent}

theorem Serviced.burst_counts (h : Serviced s w d b evD evF u) :
    (evD ++ evF).countP isRxRead = d.length ∧ (evD ++ evF).countP isTxWrite = b.length ∧
    (evD ++ evF).filter isIntClear = [] := by
  have hD : evD.countP isRxRead = d.length ∧ evD.countP isTxWrite = 0 ∧ evD.filter isIntClear = [] := by
    have hdrain := h.drain
    split at hdrain
    · exact isDrain_counts hdrain
    · obtain ⟨rfl, rfl⟩ := hdrain; exact ⟨rfl, rfl, rfl⟩
  have hF : evF.countP isRxRead = 0 ∧ evF.countP isTxWrite = b.length ∧ evF.filter isIntClear = [] := by
    have hfill := h.fill
    split at hfill
    · exact isFill_counts hfill
    · obtain ⟨rfl, rfl⟩ := hfill; exact ⟨rfl, rfl, rfl⟩
  simp [hD, hF]

end

/-- Outside its bursts a service acknowledges, logs and completes: it moves no frame. -/
theorem countP_servicePorts (q : PortEvent → Bool) (hack : ∀ v, q (.regWrite .intClear v) = false)
    (herror : ∀ e, q (.emitError e) = false) (hfinished : q .emitFinished = false) (L : Layout) (w : Word)
    (ev fv : List PortEvent) (rx tx : Nat) :
    (servicePorts L w ev fv rx tx).countP q = if irqBit L w .txdone = true then (ev ++ fv).countP q else 0 := by
  simp [servicePorts, apply_ite (List.countP q), hack, herror, hfinished]

/-- The sources seen, in the order in which they are served (R140). -/
theorem map_filter_all {α : Type} (g : IntSrc → α) (seen : IntSrc → Bool) :
    (IntSrc.all.filter seen).map g =
      (if seen .txdone = true then [g .txdone] else []) ++ (if seen .rxrdy = true then [g .rxrdy] else []) ++
      (if seen .rxovf = true then [g .rxovf] else []) ++ (if seen .txunder = true then [g .txunder] else []) := by
  simp only [IntSrc.all, List.filter_cons, List.filter_nil, apply_ite (List.map g), List.map_cons, List.map_nil]
  split_ifs <;> rfl

section
variable {s u : State} {w : Word} {d b : List Byte} {evD evF : List PortEvent} (h : Serviced s w d b evD evF u)
include h

theorem Serviced.frame_counts (rx tx : Nat) :
    (servicePorts s.params.layout w evD evF rx tx).countP isRxRead = d.length ∧
    (servicePorts s.params.layout w evD evF rx tx).countP isTxWrite = b.length := by
  obtain ⟨hrx, htx, -⟩ := h.burst_counts
  rw [countP_servicePorts isRxRead (fun _ => rfl) (fun _ => rfl) rfl,
    countP_servicePorts isTxWrite (fun _ => rfl) (fun _ => rfl) rfl, hrx, htx]
  cases hseen : irqBit s.params.layout w .txdone with
  | true => exact ⟨rfl, rfl⟩
  | false =>
    have hdrain := h.drain
    have hfill := h.fill
    simp only [hseen, Bool.false_eq_true, if_false, false_and] at hdrain hfill
    rw [hdrain.1, hfill.1]
    exact ⟨rfl, rfl⟩

/-- The `INT_CLEAR` writes of a service are those of the bits it saw, one each, in order (R143 (a)). -/
theorem Serviced.acknowledgements (rx tx : Nat) :
    (servicePorts s.params.layout w evD evF rx tx).filter isIntClear =
      (IntSrc.all.filter (irqBit s.params.layout w)).map
        (fun k => .regWrite .intClear (bitMask (s.params.layout.intBit k))) := by
  obtain ⟨-, -, hbursts⟩ := h.burst_counts
  rw [List.filter_append, List.append_eq_nil_iff] at hbursts
  rw [map_filter_all]
  simp [servicePorts, apply_ite (List.filter isIntClear), isIntClear, hbursts]

/-- `Finished` is emitted exactly by a service that finalises: every event of its bursts is an access. -/
theorem Serviced.emitFinished_mem_iff (rx tx : Nat) :
    .emitFinished ∈ servicePorts s.params.layout w evD evF rx tx ↔ finalises s.params.layout w rx = true := by
  obtain ⟨hD, hF⟩ := h.burst_accesses
  have hnotD : .emitFinished ∉ evD := fun hmem => nomatch List.countP_eq_length.1 hD _ hmem
  have hnotF : .emitFinished ∉ evF := fun hmem => nomatch List.countP_eq_length.1 hF _ hmem
  simp [servicePorts, hnotD, hnotF]

end

section
variable {s u : State} {d b : List Byte} {evD evF : List PortEvent}
  (h : Serviced (afterRead .mis s) (readWord .mis s) d b evD evF u)
include h

theorem Serviced.cursors_from_read :
    u.eng.rxLen = s.eng.rxLen - d.length ∧ u.eng.txLen = s.eng.txLen - b.length ∧
    u.eng.pending = s.eng.pending - d.length + b.length := by
  rw [h.eng, afterRead_eng]
  exact ⟨rfl, rfl, rfl⟩

/-- A service that does not finalise leaves `state` and the count of completions alone (R142). -/
theorem Serviced.state_of_not_final
    (hfinal : finalises s.params.layout (readWord .mis s) (s.eng.rxLen - d.length) = false) :
    u.eng.state = s.eng.state ∧ u.eng.finished = s.eng.finished := by
  simp [h.eng, hfinal]

/-- A service that finalises completes the transfer and drops both pointers (R142, R143 (e)). -/
theorem Serviced.state_of_final
    (hfinal : finalises s.params.layout (readWord .mis s) (s.eng.rxLen - d.length) = true) :
    u.eng.state = .completing ∧ u.eng.finished = s.eng.finished + 1 ∧ u.eng.txBuf = none ∧ u.eng.rxBuf = none := by
  simp [h.eng, hfinal]

theorem Serviced.finished_le_and_iff :
    u.eng.finished ≤ s.eng.finished + 1 ∧ (u.eng.finished = s.eng.finished + 1 ↔
      finalises s.params.layout (readWord .mis s) (s.eng.rxLen - d.length) = true) := by
  cases hfinal : finalises s.params.layout (readWord .mis s) (s.eng.rxLen - d.length) <;> simp [h.eng, hfinal]

theorem Serviced.errlog_length_le : u.eng.errlog.length ≤ s.eng.errlog.length + 2 := by
  rw [h.eng, afterRead_eng]
  simp only [List.length_append]
  split <;> split <;> simp

end

/-- A service that answers `NONE` read `MIS` and did nothing else (R143 (b)). -/
theorem execIrq_of_none {s t : State} (hlive : s.eng.live = .ready) (h : execIrq s = .next t)
    (ht : t.irqResult = some .none) : t = respondIrq .none (afterRead .mis s) := by
  obtain ⟨hnone, hserve⟩ := execIrq_ready hlive
  by_cases hf : irqStatus s = 0#32
  · cases (hnone hf).symm.trans h
    rfl
  · obtain ⟨_, _, _, _, hs⟩ := serviceBits_serviced ((hserve hf).symm.trans h)
    cases ht.symm.trans hs.results.1

/-- Settles O34. -/
theorem serviceProperties : Obligations.ServiceProperties := by
  intro s t hL hlive h
  obtain ⟨d, b, evD, evF, u, hs, rfl⟩ := execIrq_serviced hL hlive h
  have hports := hs.ports_from_read hL
  have hacks := hs.acknowledgements (s.eng.rxLen - d.length) (s.eng.txLen - b.length)
  obtain ⟨hcountRx, hcountTx⟩ := hs.frame_counts (s.eng.rxLen - d.length) (s.eng.txLen - b.length)
  rw [afterRead_params] at hacks hcountRx hcountTx
  obtain ⟨hrx, htx, hpending⟩ := hs.cursors_from_read
  obtain ⟨hfinished, hfinal⟩ := hs.finished_le_and_iff
  refine ⟨readWord .mis s, servicePorts s.params.layout (readWord .mis s) evD evF _ _, hports, hacks, fun hnone => ?_,
    ?_, hfinished, hs.errlog_length_le, ?_, fun hfin => ?_, ?_⟩
  · have hend := execIrq_of_none hlive h hnone
    have hread := congrArg State.ports hend.symm
    rw [respondIrq_ports, respondIrq_ports, afterRead_ports, hports] at hread
    rw [hend]
    exact ⟨(List.cons_eq_cons.1 (List.append_cancel_left hread)).2.symm, afterRead_eng .mis s, rfl,
      afterRead_keepsOutside .mis s⟩
  · rw [respondIrq_irqResult, irqAnswer]
    split <;> simp
  · rw [respondIrq_eng, hfinal, finalises_iff, hrx, or_comm, or_assoc]
  · obtain ⟨hstate, -, hbufs⟩ := hs.state_of_final (hfinal.1 hfin)
    exact ⟨hstate, hbufs⟩
  · rw [hcountRx, hcountTx]
    exact ⟨hrx, htx, hpending⟩

/-! ### The transitions of `state` (R142) -/

section
variable {s t : State}

/-- The row of `XFER` with no transfer in flight: the transfer starts, or its clock cannot be achieved. -/
theorem execXfer_transition {len hz : Word} {tx rx : Option Nat} (hlive : s.eng.live = .ready)
    (hstate : s.eng.state ≠ .transferring) (h : execXfer len hz tx rx s = .next t) :
    ((calcDivider hz.toNat (tick s).clock.hz.toNat).isSome = true →
      t.eng.state = .transferring ∧ t.result = some .inProgress) ∧
    ((calcDivider hz.toNat (tick s).clock.hz.toNat).isSome = false →
      t.eng.state = .idle ∧ t.result = some .invalidFrequency) := by
  rw [execXfer_admitted len hz tx rx hlive hstate] at h
  split at h
  next hnone =>
    cases h
    simp [hnone, acceptFinished_eq, idle_of_not_transferring hstate]
  next m g hsome =>
    obtain ⟨u, -, hend⟩ := andThen_eq_next h
    cases hend
    simp [hsome, beginTransfer]

/-! During a transfer `XFER` and `PREPMSG` are refused (`45_host_operations.md` R164). -/

theorem execXfer_of_transferring (len hz : Word) (tx rx : Option Nat) (hstate : s.eng.state = .transferring) :
    execXfer len hz tx rx s = .next (respond .refused s) := by
  simp [execXfer, startAdmitted_of_transferring hstate]

theorem execPrepmsg_of_transferring (mode : BitVec 2) (hstate : s.eng.state = .transferring) :
    execPrepmsg mode s = .next (respond .refused s) := by
  simp [execPrepmsg, startAdmitted_of_transferring hstate]

theorem execPrepmsg_eng {mode : BitVec 2} (h : execPrepmsg mode s = .next t) : t.eng = s.eng := by
  unfold execPrepmsg at h
  split at h <;> cases h <;> simp

theorem execPrepmsg_result {mode : BitVec 2} (hlive : s.eng.live = .ready) (hstate : s.eng.state ≠ .transferring)
    (h : execPrepmsg mode s = .next t) : t.result = some .ok := by
  have hstart : startAdmitted s = true := by simp [startAdmitted, hlive, hstate]
  rw [execPrepmsg, if_pos hstart] at h
  cases h
  rfl

/-- With `live = READY` the engine answers `FINACK` with OK in every `state` (R163). -/
theorem execFinack_ready (hlive : s.eng.live = .ready) : execFinack s = .next (respond .ok (acceptFinished s)) :=
  if_pos hlive

theorem execSetcs_result {cs : BitVec 3} {disable : Bool} (hlive : s.eng.live = .ready) (hcs : cs.toNat < s.params.numCs)
    (h : execSetcs cs disable s = .next t) : t.result = some .ok := by
  rw [execSetcs, if_pos ⟨hlive, csAdmitted_eq_true hcs⟩] at h
  cases h
  rfl

theorem execSetup_result {cs : BitVec 3} {csHigh : Bool} (hlive : s.eng.live = .ready) (hcs : cs.toNat < s.params.numCs)
    (h : execSetup cs csHigh s = .next t) : t.result = some .ok := by
  rw [execSetup, if_pos ⟨hlive, csAdmitted_eq_true hcs⟩] at h
  cases h
  rfl

theorem execTeardown_result (hlive : s.eng.live = .ready) (h : execTeardown s = .next t) : t.result = some .ok := by
  rw [execTeardown, if_pos hlive] at h
  cases h
  rfl

/-- The rows of `IRQ`: what is answered, and whether the transfer is completed, by the word read from `MIS`. -/
theorem execIrq_transition (hL : s.params.layout.legal = true) (hlive : s.eng.live = .ready) (h : execIrq s = .next t) :
    ∃ (w : Word) (rest : List PortEvent), t.ports = s.ports ++ .regRead .mis w :: rest ∧
      t.irqResult = some (irqAnswer w) ∧
      (finalises s.params.layout w t.eng.rxLen = false →
        t.eng.state = s.eng.state ∧ t.eng.finished = s.eng.finished ∧ .emitFinished ∉ rest) ∧
      (finalises s.params.layout w t.eng.rxLen = true →
        t.eng.state = .completing ∧ t.eng.finished = s.eng.finished + 1 ∧ .emitFinished ∈ rest) := by
  obtain ⟨d, b, evD, evF, u, hs, rfl⟩ := execIrq_serviced hL hlive h
  have hemit := hs.emitFinished_mem_iff (s.eng.rxLen - d.length) (s.eng.txLen - b.length)
  rw [afterRead_params] at hemit
  obtain ⟨hrx, -⟩ := hs.cursors_from_read
  rw [respondIrq_eng, hrx]
  refine ⟨readWord .mis s, servicePorts s.params.layout (readWord .mis s) evD evF _ _, hs.ports_from_read hL, rfl,
    fun hfinal => ?_, fun hfinal => ?_⟩
  · obtain ⟨hstate, hfinished⟩ := hs.state_of_not_final hfinal
    exact ⟨hstate, hfinished, fun hmem => Bool.false_ne_true (hfinal.symm.trans (hemit.1 hmem))⟩
  · obtain ⟨hstate, hfinished, -⟩ := hs.state_of_final hfinal
    exact ⟨hstate, hfinished, hemit.2 hfinal⟩

/-- A micro-operation called on its own leaves `state` alone. -/
theorem exec_call_state {i : Instr} (hsource : i.source = .sequencer) (h : exec i s = .next t) :
    t.eng.state = s.eng.state := by
  cases i with
  | applyClk | disable | enable | setMode | setXferLen | enableInts | disableInts | ack => cases h; simp
  | calcClk target src =>
    simp only [exec, execCalcClk] at h
    split at h <;> cases h <;> rfl
  | setFramesize bits =>
    simp only [exec, execSetFramesize] at h
    split at h <;> cases h <;> simp
  | fill =>
    obtain ⟨b, ev, u, hb, rfl⟩ := execFill_filled h
    rw [respondCall_eng, hb.eng]
  | drain =>
    obtain ⟨d, ev, u, hd, rfl⟩ := execDrain_drained h
    rw [respondCall_eng, hd.eng]
  | _ => cases hsource

/-- The two ways out of a transfer (R142, last sentence). -/
theorem exec_leaves_transferring {i : Instr} (hL : s.params.layout.legal = true) (hlive : s.eng.live = .ready)
    (hstate : s.eng.state = .transferring) (h : exec i s = .next t) (hleft : t.eng.state ≠ .transferring) :
    i = .teardown ∨ (i = .irq ∧ t.eng.finished = s.eng.finished + 1) := by
  cases hi : i.source with
  | commandPort =>
    by_contra hno
    have heng := exec_hostCommand_eng_of_transferring hlive hstate hi (fun htd => hno (.inl htd)) h
    exact hleft (heng ▸ hstate)
  | dispatcher =>
    cases i <;> cases hi
    obtain ⟨w, rest, -, -, hkeep, hfinal⟩ := execIrq_transition hL hlive h
    cases hf : finalises s.params.layout w t.eng.rxLen with
    | false => exact absurd ((hkeep hf).1.trans hstate) hleft
    | true => exact .inr ⟨rfl, (hfinal hf).2.1⟩
  | sequencer => exact absurd ((exec_call_state hi h).trans hstate) hleft

end

/-- Settles O42, row by row. -/
theorem transitionTable : Obligations.TransitionTable := by
  intro s t i hL hlive h
  refine ⟨?_, ?_, ?_, ?_, ?_, ?_, ?_, ?_, fun hstate hleft => exec_leaves_transferring hL hlive hstate h hleft⟩
  · rintro len hz tx rx rfl hstate
    exact execXfer_transition hlive hstate h
  · rintro len hz tx rx rfl hstate
    cases (execXfer_of_transferring len hz tx rx hstate).symm.trans h
    rfl
  · rintro rfl hstate
    cases (execFinack_ready hlive).symm.trans h
    simp [acceptFinished, hstate]
  · rintro rfl hstate
    cases (execFinack_ready hlive).symm.trans h
    rw [acceptFinished, if_neg hstate]
    rfl
  · rintro rfl
    obtain ⟨w, rest, hports, hanswer, hkeep, hfinal⟩ := execIrq_transition hL hlive h
    have hiff := finalises_iff s.params.layout w t.eng.rxLen
    refine ⟨w, rest, hports, fun hzero => ?_, fun hne => ?_, fun hno => ?_, fun hyes => ?_⟩
    · have hunseen := (low_eq_zero_iff hL w).1 hzero
      rw [irqAnswer_of_zero hzero] at hanswer
      exact ⟨(hkeep (by simp [finalises, irqBit, hunseen])).1, hanswer⟩
    · rw [hanswer, irqAnswer_of_ne_zero hne]
    · exact hkeep (Bool.eq_false_iff.2 fun hyes => hno (hiff.1 hyes))
    · exact hfinal (hiff.2 hyes)
  · rintro cs f (rfl | rfl)
    · exact ⟨congrArg Engine.state (execSetcs_eng h), fun hcs => execSetcs_result hlive hcs h⟩
    · exact ⟨congrArg Engine.state (execSetup_eng h), fun hcs => execSetup_result hlive hcs h⟩
  · rintro mode rfl
    refine ⟨congrArg Engine.state (execPrepmsg_eng h), fun hstate => execPrepmsg_result hlive hstate h, fun hstate => ?_⟩
    cases (execPrepmsg_of_transferring mode hstate).symm.trans h
    rfl
  · rintro rfl
    have heng := execTeardown_eng hlive h
    exact ⟨congrArg Engine.state heng, congrArg Engine.live heng, execTeardown_result hlive h⟩

end Sys2Proof.Machine
end

/-! ## The lifecycle (`44_init_teardown.md`): `INIT` and `TEARDOWN` -/

section
namespace Sys2Proof.Machine

/-! ### The word of `CONTROL` after `INIT` (R150) -/

/-- The lowest bit of a field is part of what the field reads. -/
theorem Layout.getLsbD_pos_of_get_eq {L : Layout} {f : CtlField} {w v : Word} (h : L.get f w = L.get f v) :
    w.getLsbD (L.pos f) = v.getLsbD (L.pos f) := by
  have hlow (u : Word) : (L.get f u).getLsbD 0 = u.getLsbD (L.pos f) := by
    rw [Layout.get, getLsbD_getField, decide_eq_true f.width_pos]
    rfl
  rw [← hlow, h, hlow]

theorem CtlField.ne_inten_of_not_mem {f : CtlField}
    (h : f ∉ [CtlField.enable, .intenRxrdy, .intenTxdone, .intenRxovf, .intenTxunder]) (k : IntSrc) : f ≠ k.inten :=
  fun hk => h (hk ▸ k.inten_mem)

/-- What the steps of `INIT` leave in `CONTROL` where it held `c`. -/
def initControl (L : Layout) (c : Word) : Word := initWord4 L (initWord3 L (initWord2 L (initWord1 L c)))

section
variable {L : Layout} (hL : L.legal = true) (w : Word)
include hL

theorem initWord2_get {f : CtlField} (h : f ∉ [CtlField.enable, .sps, .bigfifo]) :
    L.get f (initWord2 L w) = L.get f w := by
  simp only [List.mem_cons, List.not_mem_nil, or_false, not_or] at h
  obtain ⟨henable, hsps, hbigfifo⟩ := h
  rw [initWord2, L.get_set_ne hL hbigfifo, L.get_set_ne hL hsps, L.get_set_ne hL henable]

theorem initWord3_get {f : CtlField}
    (h : f ∉ [CtlField.enable, .intenRxrdy, .intenTxdone, .intenRxovf, .intenTxunder]) :
    L.get f (initWord3 L w) = L.get f w := by
  have henable : f ≠ .enable := fun he => h (he ▸ List.mem_cons_self)
  rw [initWord3, L.get_set_ne hL henable, L.get_or_inten hL (CtlField.ne_inten_of_not_mem h), L.get_set_ne hL henable]

theorem initWord3_inten (k : IntSrc) : (initWord3 L w).getLsbD (L.pos k.inten) = true := by
  rw [initWord3, L.getLsbD_set_ne hL k.inten_ne_enable, BitVec.getLsbD_or, L.getLsbD_intenMask_pos hL, Bool.or_true]

theorem initWord4_get {f : CtlField} (henable : f ≠ .enable) (hreset : f ≠ .reset) :
    L.get f (initWord4 L w) = L.get f w := by
  rw [initWord4, L.get_set_ne hL henable, L.get_set_ne hL hreset]

theorem initControl_enable : (initControl L w).getLsbD L.enable = true := L.getLsbD_set_enable hL _

theorem initControl_reset : (initControl L w).getLsbD L.reset = false := by
  have hclear := L.getLsbD_set_same hL .reset (initWord3 L (initWord2 L (initWord1 L w))) false
  exact (L.getLsbD_set_ne hL (f := .reset) (g := .enable) (by decide) _ _).trans hclear

theorem initControl_inten (k : IntSrc) : (initControl L w).getLsbD (L.pos k.inten) = true := by
  have hreset : k.inten ≠ .reset := by cases k <;> decide
  rw [initControl, Layout.getLsbD_pos_of_get_eq (initWord4_get hL _ k.inten_ne_enable hreset), initWord3_inten hL]

/-- The later steps keep the fields of step 1. -/
theorem initControl_get_framing {f : CtlField} (h : f = .mode ∨ f = .master) :
    L.get f (initControl L w) = L.get f (initWord1 L w) := by
  rcases h with rfl | rfl <;>
  rw [initControl, initWord4_get hL _ (by decide) (by decide), initWord3_get hL _ (by decide),
    initWord2_get hL _ (by decide)]

theorem initControl_mode : L.get .mode (initControl L w) = 0#32 := by
  rw [initControl_get_framing hL w (.inl rfl), initWord1, L.get_set_ne hL (by decide), L.get_set_same hL,
    BitVec.zero_and]

theorem initControl_master : (initControl L w).getLsbD L.master = true :=
  (Layout.getLsbD_pos_of_get_eq (initControl_get_framing hL w (.inr rfl))).trans (L.getLsbD_set_same hL .master _ true)

/-- The later steps keep the fields of step 4. -/
theorem initControl_get_behaviour {f : CtlField} (h : f = .sps ∨ f = .bigfifo) :
    L.get f (initControl L w) = L.get f (initWord2 L (initWord1 L w)) := by
  rcases h with rfl | rfl <;>
  rw [initControl, initWord4_get hL _ (by decide) (by decide), initWord3_get hL _ (by decide)]

theorem initControl_sps : (initControl L w).getLsbD L.sps = true :=
  calc (initControl L w).getLsbD L.sps
      = (initWord2 L (initWord1 L w)).getLsbD L.sps :=
        Layout.getLsbD_pos_of_get_eq (f := .sps) (initControl_get_behaviour hL w (.inl rfl))
    _ = (L.set .sps (L.set .enable (initWord1 L w) 1#32) 1#32).getLsbD L.sps :=
        L.getLsbD_set_ne hL (f := .sps) (g := .bigfifo) (by decide) _ _
    _ = true := L.getLsbD_set_same hL .sps _ true

theorem initControl_bigfifo : (initControl L w).getLsbD L.bigfifo = true :=
  (Layout.getLsbD_pos_of_get_eq (f := .bigfifo) (initControl_get_behaviour hL w (.inr rfl))).trans
    (L.getLsbD_set_same hL .bigfifo _ true)

end

/-- The fields of `CONTROL` that the steps of `INIT` write. -/
def initFields : List CtlField :=
  [.enable, .master, .mode, .intenRxrdy, .intenTxdone, .intenRxovf, .intenTxunder, .sps, .bigfifo, .reset]

theorem initControl_sameOutside (L : Layout) (c : Word) : L.sameOutside initFields c (initControl L c) := by
  have hinten (k : IntSrc) : k.inten ∈ initFields := by cases k <;> decide
  have h1 : L.sameOutside initFields c (initWord1 L c) :=
    ((Layout.sameOutside.rfl' L _ c).set _ (by decide)).set _ (by decide)
  have h2 : L.sameOutside initFields c (initWord2 L (initWord1 L c)) :=
    ((h1.set _ (by decide)).set _ (by decide)).set _ (by decide)
  have h3 : L.sameOutside initFields c (initWord3 L (initWord2 L (initWord1 L c))) :=
    ((h2.set _ (by decide)).or_inten hinten).set _ (by decide)
  exact (h3.set _ (by decide)).set _ (by decide)

/-! ### The latches during `INIT` (`46_spi_core_agent.md` R171) -/

/-- A stage moves no latch by itself, unless the parameter `ZERO_LEN_TXDONE` makes an enable raise TX-done. -/
structure KeepsLatches (s t : State) : Prop where
  params : t.params = s.params
  env : s.env = [] → t.env = []
  ris : s.env = [] → s.params.zeroLenTxdone = false → t.blk.ris = s.blk.ris

theorem KeepsLatches.trans {s t u : State} (h : KeepsLatches s t) (k : KeepsLatches t u) : KeepsLatches s u where
  params := k.params.trans h.params
  env := fun hq => k.env (h.env hq)
  ris := fun hq hz => (k.ris (h.env hq) (by rw [h.params]; exact hz)).trans (h.ris hq hz)

section
variable (s : State)

theorem rmw_control_keepsLatches (f : Word → Word) : KeepsLatches s (rmw .control f s) where
  params := rmw_params .control f s
  env := fun hq => ((rmw_keepsOutside .control f s).quiet hq).2.2.2
  ris := fun hq hz => by rw [rmw_control_blk_of_quiet f hq, writeControl_ris _ _ _ hz]

theorem regWrite_keepsLatches {r : Reg} (v : Word) (hr : r = .frameSize ∨ r = .slaveSelect) :
    KeepsLatches s (regWrite r v s) where
  params := regWrite_params r v s
  env := fun hq => ((regWrite_keepsOutside r v s).quiet hq).2.2.2
  ris := fun hq _ => by
    rw [regWrite_blk_of_quiet r v hq]
    rcases hr with rfl | rfl
    · simp only [blockWrite]; split <;> rfl
    · rfl

theorem disableCtl_keepsLatches : KeepsLatches s (disableCtl s) := rmw_control_keepsLatches s _
theorem enableCtl_keepsLatches : KeepsLatches s (enableCtl s) := rmw_control_keepsLatches s _

theorem setFrameSize_keepsLatches (bits : Byte) : KeepsLatches s (setFrameSize bits s) :=
  ((disableCtl_keepsLatches s).trans (regWrite_keepsLatches _ _ (.inl rfl))).trans (enableCtl_keepsLatches _)

theorem enableInterrupts_keepsLatches : KeepsLatches s (enableInterrupts s) :=
  ((disableCtl_keepsLatches s).trans (rmw_control_keepsLatches _ _)).trans (enableCtl_keepsLatches _)

theorem initMaxSpeed_keepsLatches : KeepsLatches s (initMaxSpeed s) where
  params := afterClockRate_params s
  env := fun hq => ((afterClockRate_keepsOutside s).quiet hq).2.2.2
  ris := fun hq _ => by simp [initMaxSpeed, afterClockRate, tick_of_quiet hq]

theorem initRecord_keepsLatches : KeepsLatches s (initRecord s) := ⟨rfl, id, fun _ _ => rfl⟩

/-- Of the stages of `INIT` only those that set `ENABLE` could raise a latch. -/
theorem initialise_keepsLatches : KeepsLatches s (initialise s) := by
  have hspeed : KeepsLatches s (initMaxSpeed (setFrameSize Config.frameBits (initFraming s))) :=
    ((rmw_control_keepsLatches s _).trans (setFrameSize_keepsLatches _ _)).trans (initMaxSpeed_keepsLatches _)
  exact ((((hspeed.trans (rmw_control_keepsLatches _ _)).trans (enableInterrupts_keepsLatches _)).trans
    (regWrite_keepsLatches _ _ (.inr rfl))).trans (rmw_control_keepsLatches _ _)).trans (initRecord_keepsLatches _)

end

/-- Settles O35. -/
theorem initEstablishesTheReadyState : Obligations.InitEstablishesTheReadyState := by
  refine ⟨fun s hL hlive => ?_, fun s hlive => if_neg hlive⟩
  obtain ⟨hword, hframeSize, hssel, hclkGen, hframesup⟩ := initialise_words hL
  have hcontrol : (initialise s).blk.control = initControl s.params.layout s.blk.control := hword
  have hop := initialise_op s
  obtain ⟨-, hirqResult, hcallResult⟩ := hop.results
  refine ⟨respond .ok (initialise s), if_pos hlive, rfl, initialise_ports hL, initialise_eng s, ?_⟩
  rw [respond_blk, hcontrol]
  exact ⟨initControl_enable hL _, initControl_master hL _, initControl_mode hL _, initControl_inten hL _,
    initControl_sps hL _, initControl_bigfifo hL _, initControl_reset hL _, initControl_sameOutside _ _,
    hframeSize, fun hsize => hframeSize.trans (Layout.frameBits_and_sizeMask hL hsize), hssel, hclkGen, hframesup,
    hop.platform, hop.mem, hirqResult, hcallResult, hop.quiet, (initialise_keepsLatches s).ris⟩

/-! ### `TEARDOWN` (R151) -/

/-- What `TEARDOWN` leaves in `CONTROL` where it held `c`. -/
def teardownControl (L : Layout) (c : Word) : Word := L.set .enable (L.set .enable c 0#32 &&& ~~~L.intenMask) 0#32

theorem teardownControl_inten {L : Layout} (hL : L.legal = true) (c : Word) (k : IntSrc) :
    (teardownControl L c).getLsbD (L.pos k.inten) = false := by
  rw [teardownControl, L.getLsbD_set_ne hL k.inten_ne_enable, BitVec.getLsbD_and, BitVec.getLsbD_not,
    L.getLsbD_intenMask_pos hL, Bool.not_true, Bool.and_false, Bool.and_false]

theorem teardownControl_sameOutside (L : Layout) (c : Word) :
    L.sameOutside [.enable, .intenRxrdy, .intenTxdone, .intenRxovf, .intenTxunder] c (teardownControl L c) :=
  (((Layout.sameOutside.rfl' L _ c).set 0#32 (by decide)).and_inten IntSrc.inten_mem).set 0#32 (by decide)

theorem teardown_keepsResults (s : State) : s.keepsResults (disableCtl (clockRelease (disableInterrupts s))) :=
  ((disableInterrupts_configStep s).results.trans (clockRelease_keepsResults _)).trans (disableCtl_configStep _).results

/-! ### Requests after `TEARDOWN` -/

/-- After `TEARDOWN` a host command is not admitted, a service is answered `NONE` and a call is barred: each as a request
that is turned away. -/
theorem runRequest_of_removed {s : State} (hlive : s.eng.live = .removed) (r : Request) :
    runRequest r s = .next (rejectRequest r.source s) := by
  rcases runRequest_cases r s with ⟨i, -, hsource, hbarred, hrun⟩ | hrun
  · rw [hrun]
    cases hport : r.source with
    | commandPort =>
      have hi : i.source = .commandPort := hsource.trans hport
      refine exec_of_not_admitted hi ?_
      cases i with
      | init | setup | prepmsg | xfer | setcs | finack | teardown => simp [Instr.admitted, hlive]
      | _ => cases hi
    | dispatcher =>
      rw [hport] at hsource
      cases i <;> cases hsource
      exact execIrq_of_not_ready (by simp [hlive])
    | sequencer =>
      have hbar : callBarred r.source s = true := (callBarred_iff _ _).2 ⟨hport, .inr hlive⟩
      exact absurd hbar (Bool.eq_false_iff.1 hbarred)
  · exact hrun

/-- A request that is turned away changes nothing but an answer. -/
theorem rejectRequest_but_answers (src : Source) (s : State) :
    { rejectRequest src s with result := s.result, irqResult := s.irqResult, callResult := s.callResult } = s := by
  cases src <;> rfl

/-- Settles O36. -/
theorem teardownSilencesReleasesDisables : Obligations.TeardownSilencesReleasesDisables := by
  refine ⟨fun s hL hlive => ?_, fun s hlive => if_neg hlive, fun s r rest hlive hin => ?_⟩
  · obtain ⟨hword, hwords⟩ := teardown_words hL
    have hcontrol : (disableCtl (clockRelease (disableInterrupts s))).blk.control =
        teardownControl s.params.layout s.blk.control := hword
    obtain ⟨hparams, heng, hinputs, hmem, hother, henv⟩ := teardown_outside s
    obtain ⟨hheld, hhz⟩ := teardown_clock s
    obtain ⟨-, hirqResult, hcallResult⟩ := teardown_keepsResults s
    have hrecord := execTeardown_eng hlive (if_pos hlive)
    refine ⟨respond .ok (teardownRecord (disableCtl (clockRelease (disableInterrupts s)))), if_pos hlive, rfl,
      teardown_ports hL, hrecord, ?_⟩
    rw [respond_blk, teardownRecord_blk, hcontrol]
    refine ⟨Layout.getLsbD_clear_enable hL _, teardownControl_inten hL _, teardownControl_sameOutside _ _, hwords, hheld,
      hhz, hparams, hinputs, hmem, hother, henv, hirqResult, hcallResult, fun hq => ?_⟩
    obtain ⟨hread, -, -, htxq, hrxq, hwire, -⟩ := teardown_quiet hq
    exact ⟨hread, htxq, hrxq, hwire⟩
  · refine ⟨rejectRequest r.source { s with inputs := rest }, ?_, fun hport => ?_, rejectRequest_but_answers _ _⟩
    · simp only [step, hin, takeInput]
      exact runRequest_of_removed (s := { s with inputs := rest }) hlive r
    · rw [hport]
      rfl

end Sys2Proof.Machine
end

/-! ## The host's operations (`45_host_operations.md`): `SETUP`, `PREPMSG`, `XFER`, `FINACK` -/

section
namespace Sys2Proof.Machine

/-! ### `FINACK` (R163) -/

section
variable {s t : State}

/-- Outside `COMPLETING` there is no "finished" signal to accept. -/
theorem acceptFinished_of_not_completing (hstate : s.eng.state ≠ .completing) : acceptFinished s = s := if_neg hstate

theorem execFinack_of_not_ready (hlive : s.eng.live ≠ .ready) : execFinack s = .next (respond .refused s) := if_neg hlive

end

/-- Settles O38. -/
theorem finackAcceptsTheFinishedSignal : Obligations.FinackAcceptsTheFinishedSignal := by
  refine fun s => ⟨fun hlive => ?_, execFinack_of_not_ready⟩
  have hready := execFinack_ready hlive
  rw [acceptFinished_eq] at hready
  exact hready

/-! ### The table of admissibility (R164) -/

section
variable {s t : State}

theorem execInit_result (hlive : s.eng.live = .created) (h : execInit s = .next t) : t.result = some .ok := by
  rw [execInit, if_pos hlive] at h
  cases h
  rfl

/-- A host command that the table admits, with an index that is a chip select, answers something other than REFUSED: OK, or
the two answers of `XFER`. -/
theorem exec_answer_of_admitted {i : Instr} (hsource : i.source = .commandPort)
    (hadmitted : i.admitted s.eng.live s.eng.state = true)
    (hcs : ∀ cs f, i = .setup cs f ∨ i = .setcs cs f → cs.toNat < s.params.numCs) (h : exec i s = .next t) :
    t.result = some .ok ∨ t.result = some .inProgress ∨ t.result = some .invalidFrequency := by
  cases i with
  | init => exact .inl (execInit_result (beq_iff_eq.1 hadmitted) h)
  | setup cs f => exact .inl (execSetup_result (beq_iff_eq.1 hadmitted) (hcs cs f (.inl rfl)) h)
  | setcs cs f => exact .inl (execSetcs_result (beq_iff_eq.1 hadmitted) (hcs cs f (.inr rfl)) h)
  | prepmsg mode =>
    obtain ⟨hlive, hstate⟩ : s.eng.live = .ready ∧ s.eng.state ≠ .transferring := by
      simpa [Instr.admitted] using hadmitted
    exact .inl (execPrepmsg_result hlive hstate h)
  | xfer len hz tx rx =>
    obtain ⟨hlive, hstate⟩ : s.eng.live = .ready ∧ s.eng.state ≠ .transferring := by
      simpa [Instr.admitted] using hadmitted
    obtain ⟨hstarted, hfailed⟩ := execXfer_transition hlive hstate h
    cases hclock : (calcDivider hz.toNat (tick s).clock.hz.toNat).isSome with
    | true => exact .inr (.inl (hstarted hclock).2)
    | false => exact .inr (.inr (hfailed hclock).2)
  | finack =>
    cases (execFinack_ready (beq_iff_eq.1 hadmitted)).symm.trans h
    exact .inl rfl
  | teardown => exact .inl (execTeardown_result (beq_iff_eq.1 hadmitted) h)
  | _ => cases hsource

end

/-- Settles O8. -/
theorem admissibilityTable : Obligations.AdmissibilityTable := by
  refine ⟨fun s t i hsource h => ⟨fun hno => ?_, fun hadmitted hcs => ?_⟩, fun s i hsource hno => ?_,
    fun s hlive => execIrq_of_not_ready hlive, fun s t hL hlive h => ?_, fun s hlive hstate => ?_⟩
  · cases (exec_of_not_admitted hsource hno).symm.trans h
    rfl
  · rcases exec_answer_of_admitted hsource hadmitted hcs h with hr | hr | hr <;> simp [hr]
  · exact ⟨_, exec_of_not_admitted hsource hno⟩
  · obtain ⟨w, rest, hports, -⟩ := execIrq_transition hL hlive h
    exact ⟨w, rest, hports⟩
  · have hready := execFinack_ready hlive
    rw [acceptFinished_of_not_completing hstate] at hready
    exact hready

/-! ### `SETUP` (R160) -/

/-- Enabling a chip select sets its bit. -/
theorem withCs_enable (w : Word) (cs : BitVec 3) : withCs w cs false = w ||| csMask cs := by
  apply BitVec.eq_of_getLsbD_eq
  intro i _
  rw [getLsbD_withCs, BitVec.getLsbD_or, getLsbD_csMask]
  by_cases hi : i = cs.toNat <;> simp [hi]

/-- For an active-high device `SETUP` does what `SETCS` does to enable the chip select (`41_config.md` R118). -/
theorem execSetup_csHigh (cs : BitVec 3) (s : State) : execSetup cs true s = execSetcs cs false s := by
  simp [execSetup, execSetcs, withCs_enable]

/-- Settles O19: the active-high case is a case of O18, and of the two causes of refusal one is the index and the other the
table of R164. -/
theorem setupSetsTheSelectBit : Obligations.SetupSetsTheSelectBit := by
  refine ⟨fun s cs hlive hcs hssel => ?_, fun s cs hlive hcs => if_pos ⟨hlive, csAdmitted_eq_true hcs⟩,
    fun s cs csHigh hrefused => ?_⟩
  · obtain ⟨t, w, hexec, hresult, hread, hports, hrest⟩ := setCsWritesOneBit.1 s cs false hlive hcs hssel
    refine ⟨t, w, (execSetup_csHigh cs s).trans hexec, hresult, hread, ?_, hrest⟩
    rw [hports, ← withCs_eq, withCs_enable]
    rfl
  · rcases hrefused with hcs | hlive
    · exact execSetup_of_index csHigh hcs
    · refine exec_of_not_admitted (i := .setup cs csHigh) rfl ?_
      simp [Instr.admitted, hlive]

/-! ### `PREPMSG` (R161) -/

/-- The start of a message or a transfer is not admitted outside `READY` or during a transfer (R164). -/
theorem startAdmitted_eq_false {s : State} (h : s.eng.live ≠ .ready ∨ s.eng.state = .transferring) :
    startAdmitted s = false := by
  rcases h with hlive | hstate
  · simp [startAdmitted, hlive]
  · exact startAdmitted_of_transferring hstate

theorem startAdmitted_eq_true {s : State} (hlive : s.eng.live = .ready) (hstate : s.eng.state ≠ .transferring) :
    startAdmitted s = true := by
  simp [startAdmitted, hlive, hstate]

/-- The two operations of an admitted `PREPMSG`. -/
def programMessage (mode : BitVec 2) (s : State) : State := setSpiMode mode (setFrameSize Config.frameBits s)

theorem execPrepmsg_admitted {s : State} (mode : BitVec 2) (hlive : s.eng.live = .ready)
    (hstate : s.eng.state ≠ .transferring) : execPrepmsg mode s = .next (respond .ok (programMessage mode s)) :=
  if_pos (startAdmitted_eq_true hlive hstate)

theorem programMessage_configStep (mode : BitVec 2) (s : State) : ConfigStep s 11 (programMessage mode s) :=
  (setFrameSize_configStep _ s).trans (setSpiMode_configStep mode _)

section
variable {s : State} (hL : s.params.layout.legal = true) (mode : BitVec 2)
include hL

theorem programMessage_words :
    (programMessage mode s).blk.control = s.params.layout.set .enable
      (withMode s.params.layout (s.params.layout.set .enable s.blk.control 0#32) mode) 1#32 ∧
    (programMessage mode s).blk.frameSize = 8#32 &&& s.params.layout.sizeMask ∧
    (programMessage mode s).blk.clkGen = s.blk.clkGen ∧ (programMessage mode s).blk.ssel = s.blk.ssel ∧
    (programMessage mode s).blk.framesup = s.blk.framesup := by
  obtain ⟨fcontrol, fframeSize, fclkGen, fssel, fframesup⟩ := setFrameSize_words hL Config.frameBits
  obtain ⟨mcontrol, mframeSize, mclkGen, mssel, mframesup⟩ :=
    setSpiMode_words (s := setFrameSize Config.frameBits s) (by rw [setFrameSize_params]; exact hL) mode
  rw [setFrameSize_params, fcontrol, Layout.set_set_same] at mcontrol
  exact ⟨mcontrol, mframeSize.trans fframeSize, mclkGen.trans fclkGen, mssel.trans fssel, mframesup.trans fframesup⟩

/-- The fields of `CONTROL` after `PREPMSG`. -/
theorem programMessage_control :
    (programMessage mode s).blk.control.getLsbD (s.params.layout.pos .spo) = mode.getLsbD 1 ∧
    (programMessage mode s).blk.control.getLsbD (s.params.layout.pos .sph) = mode.getLsbD 0 ∧
    (programMessage mode s).blk.control.getLsbD s.params.layout.enable = true ∧
    s.params.layout.sameOutside [.enable, .spo, .sph] s.blk.control (programMessage mode s).blk.control := by
  obtain ⟨hcontrol, -⟩ := programMessage_words hL mode
  rw [hcontrol]
  refine ⟨?_, ?_, Layout.getLsbD_set_enable hL _, ?_⟩
  · rw [Layout.getLsbD_set_ne hL (by decide), withMode_spo hL]
  · rw [Layout.getLsbD_set_ne hL (by decide), withMode_sph hL]
  · exact ((((Layout.sameOutside.rfl' _ _ _).set _ (by decide)).set _ (by decide)).set _ (by decide)).set _ (by decide)

theorem programMessage_ports :
    (programMessage mode s).ports = s.ports ++ (frameSizePorts s.params.layout s.blk.control ++
      modePorts s.params.layout (s.params.layout.set .enable s.blk.control 1#32) mode) := by
  obtain ⟨hcontrol, -⟩ := setFrameSize_words hL Config.frameBits
  rw [programMessage, setSpiMode_ports (s := setFrameSize Config.frameBits s) (by rw [setFrameSize_params]; exact hL),
    setFrameSize_ports hL, setFrameSize_params, hcontrol, List.append_assoc]
  simp only [frameSizePorts, modePorts, Layout.set_set_same]
  rfl

end

/-- The register accesses by which a record grew are those of what was appended. -/
theorem State.accesses_of_ports {s t : State} {ev : List PortEvent} (h : t.ports = s.ports ++ ev) :
    s.accesses t = ev.countP isRegAccess := by
  rw [State.accesses, State.newPorts, h, List.drop_left]

/-- Settles O37. -/
theorem prepmsgProgramsFramingAndMode : Obligations.PrepmsgProgramsFramingAndMode := by
  refine ⟨fun s mode hL hlive hstate => ?_, fun s mode hrefused => ?_⟩
  · obtain ⟨-, hframeSize, hclkGen, hssel, hframesup⟩ := programMessage_words hL mode
    obtain ⟨hspo, hsph, henable, houtside⟩ := programMessage_control hL mode
    have hports := programMessage_ports hL mode
    have hstep := programMessage_configStep mode s
    obtain ⟨-, hirqResult, hcallResult⟩ := hstep.results
    exact ⟨_, execPrepmsg_admitted mode hlive hstate, rfl, hports, State.accesses_of_ports hports, hframeSize,
      fun hsize => hframeSize.trans (Layout.frameBits_and_sizeMask hL hsize), hspo, hsph, henable, houtside, hclkGen,
      hssel, hframesup, hstep.outside, hirqResult, hcallResult, hstep.quiet⟩
  · exact if_neg (Bool.eq_false_iff.1 (startAdmitted_eq_false hrefused))

/-! ### `XFER` (R162) -/

/-- A calculated divider value fits in 8 bits, whatever the mode (`10_state.md` R11). -/
theorem calcDivider_le {target src g : Nat} {m : Bool} (h : calcDivider target src = some (m, g)) : g ≤ 255 := by
  obtain ⟨hmode1, hmode0⟩ := calcDivider_range h
  cases m with
  | true => exact (hmode1 rfl).2
  | false => exact (hmode0 rfl).trans (by decide)

section
variable {s t : State} {len hz : Word} {tx rx : Option Nat}

/-- The clock query of an `XFER`: the engine has become idle, and only the other agents have acted (R162). -/
theorem afterClockRate_acceptFinished (hstate : s.eng.state ≠ .transferring) :
    afterClockRate (acceptFinished s) = { afterClockRate s with eng := { s.eng with state := .idle } } := by
  simp only [afterClockRate, clockAnswer, tick_acceptFinished]
  simp [acceptFinished_eq, idle_of_not_transferring hstate, State.record]

/-- An `XFER` whose clock cannot be achieved ends with the clock query (`60_exceptions.md` R191). -/
theorem execXfer_of_no_clock (hlive : s.eng.live = .ready) (hstate : s.eng.state ≠ .transferring)
    (hcalc : calcDivider hz.toNat (tick s).clock.hz.toNat = none) :
    execXfer len hz tx rx s =
      .next (respond .invalidFrequency { afterClockRate s with eng := { s.eng with state := .idle } }) := by
  rw [execXfer_admitted len hz tx rx hlive hstate, hcalc, ← afterClockRate_acceptFinished hstate]

/-- An `XFER` with an achievable clock is its preparation, then one `FILL` on whose answer it depends. -/
theorem execXfer_of_clock (len : Word) (tx rx : Option Nat) {m : Bool} {g : Nat}
    (hL : s.params.layout.legal = true) (hlive : s.eng.live = .ready) (hstate : s.eng.state ≠ .transferring)
    (hcalc : calcDivider hz.toNat (tick s).clock.hz.toNat = some (m, g)) :
    ∃ u, Prepared s len tx rx m g u ∧
      execXfer len hz tx rx s = andThen (fillBurst u) fun v => .next (respond .inProgress (beginTransfer v)) := by
  refine ⟨_, loadTransfer_prepared hL len tx rx m g hstate, ?_⟩
  rw [execXfer_admitted len hz tx rx hlive hstate, hcalc]

/-- What an `XFER` that started has done: its preparation, up to `u`, and the burst, up to `v`. -/
theorem execXfer_filled {m : Bool} {g : Nat} (hL : s.params.layout.legal = true) (hlive : s.eng.live = .ready)
    (hstate : s.eng.state ≠ .transferring) (hcalc : calcDivider hz.toNat (tick s).clock.hz.toNat = some (m, g))
    (h : execXfer len hz tx rx s = .next t) :
    ∃ u b ev v, Prepared s len tx rx m g u ∧ Filled u b ev v ∧ t = respond .inProgress (beginTransfer v) := by
  obtain ⟨u, hu, hexec⟩ := execXfer_of_clock len tx rx hL hlive hstate hcalc
  obtain ⟨v, hfill, hend⟩ := andThen_eq_next (hexec.symm.trans h)
  obtain ⟨b, ev, hb⟩ := fillBurst_filled hfill
  cases hend
  exact ⟨u, b, ev, v, hu, hb, rfl⟩

end

section
variable {s u v : State} {len : Word} {tx rx : Option Nat} {m : Bool} {g : Nat} {b : List Byte} {ev : List PortEvent}
  (hu : Prepared s len tx rx m g u) (hb : Filled u b ev v)

include hu in
theorem Prepared.params : u.params = s.params := hu.platform.1

include hu in
theorem Prepared.legal (hL : s.params.layout.legal = true) : u.params.layout.legal = true := by
  rw [hu.params]
  exact hL

include hu hb

/-- The engine's record when the transfer is in flight. -/
theorem Prepared.eng_after_fill :
    (beginTransfer v).eng = { s.eng with
      clkMode := m, clkGen := g, state := .transferring, txLen := len.toNat - b.length, rxLen := len.toNat,
      pending := b.length,
      txBuf := (tx.map (bufAddr s.params.addrW)).map (advance s.params.addrW b.length),
      rxBuf := rx.map (bufAddr s.params.addrW) } := by
  rw [beginTransfer_eng, hb.eng, hu.eng, hu.params]
  simp

theorem Prepared.burst_of_fill :
    isFill s.params (s.params.layout.set .enable (s.params.layout.set .clkmode
      (s.params.layout.set .enable s.blk.control 0#32) (bitWord m)) 1#32)
      len.toNat (tx.map (bufAddr s.params.addrW)) b ev := by
  have hburst := hb.burst
  rwa [hu.params, hu.control, hu.eng] at hburst

theorem Prepared.ports_after_fill (hL : s.params.layout.legal = true) :
    v.ports = s.ports ++ (.clockRate (tick s).clock.hz :: applyClkPorts s.params.layout s.blk.control m g ++ ev) := by
  rw [hb.ports (hu.legal hL), hu.ports, List.append_assoc]

/-- The words of the block: the burst writes over those the clock was applied to. -/
theorem Prepared.words_after_fill (hL : s.params.layout.legal = true) :
    u.blk.fillWords s.params.layout (min len.toNat 32) v.blk := by
  have hwords := hb.words (hu.legal hL)
  rwa [hu.params, hu.eng] at hwords

/-- The `CONTROL` word of the transfer: the burst keeps the clock mode that was applied. -/
theorem Prepared.control_after_fill (hL : s.params.layout.legal = true) :
    v.blk.control.getLsbD (s.params.layout.pos .clkmode) = m ∧ v.blk.control.getLsbD s.params.layout.enable = true ∧
    s.params.layout.sameOutside [.enable, .clkmode, .framecnt] s.blk.control v.blk.control := by
  obtain ⟨hcontrol, -⟩ := hu.words_after_fill hb hL
  rw [hcontrol, hu.control]
  refine ⟨?_, Layout.getLsbD_set_enable hL _, ?_⟩
  · rw [Layout.getLsbD_set_ne hL (by decide), Layout.getLsbD_set_ne hL (by decide),
      Layout.getLsbD_set_ne hL (by decide), Layout.getLsbD_set_ne hL (by decide), Layout.getLsbD_set_same hL]
  · have hclock : s.params.layout.sameOutside [.enable, .clkmode, .framecnt] s.blk.control
        (s.params.layout.set .enable (s.params.layout.set .clkmode (s.params.layout.set .enable s.blk.control 0#32)
          (bitWord m)) 1#32) :=
      (((Layout.sameOutside.rfl' _ _ _).set _ (by decide)).set _ (by decide)).set _ (by decide)
    exact ((hclock.set _ (by decide)).set _ (by decide)).set _ (by decide)

theorem Prepared.mem_after_fill : v.mem = (ticks (8 + ev.length) s).mem := mem_ticks_trans hu.platform hu.mem hb.mem

/-- With no other agent acting, the FIFOs and the wire after the first burst, and its size. -/
theorem Prepared.quiet_after_fill (hL : s.params.layout.legal = true) (hq : s.env = []) (hroom : s.blk.txq.length ≤ 32) :
    v.blk.txq = s.blk.txq ++ b ∧ v.blk.rxq = s.blk.rxq ∧ v.blk.wire = s.blk.wire ∧
    b.length = min (min len.toNat 32) (32 - s.blk.txq.length) := by
  obtain ⟨-, -, -, henv, htxq, hrxq, hwire, -⟩ := hu.quiet hq
  obtain ⟨vtxq, vrxq, vwire, -, -, -, hlength, -⟩ := hb.quiet henv (hu.legal hL) (by rw [htxq]; exact hroom)
  rw [htxq] at vtxq hlength
  rw [hu.eng] at hlength
  exact ⟨vtxq, vrxq.trans hrxq, vwire.trans hwire, hlength⟩

end

/-- Settles O40. -/
theorem xferStartsTheTransfer : Obligations.XferStartsTheTransfer := by
  refine ⟨fun s t len hz tx rx m g hL hlive hstate hcalc h => ?_, fun s len hz tx rx hlive hstate hcalc => ?_,
    fun s len hz tx rx hrefused => ?_⟩
  · obtain ⟨u, b, ev, v, hu, hb, rfl⟩ := execXfer_filled hL hlive hstate hcalc h
    have hwords := hu.words_after_fill hb hL
    have hcount := fillWords_frameCount hL (Nat.min_le_right _ _) hwords
    obtain ⟨hclkmode, henable, houtside⟩ := hu.control_after_fill hb hL
    obtain ⟨-, -, hframeSize, hclkGen, hssel⟩ := hwords
    have hdivider : v.blk.clkGen = BitVec.ofNat 32 g &&& s.params.layout.genMask := hclkGen.trans hu.clkGen
    have hdividerAtZero (hgen : s.params.layout.gen = 0) : v.blk.clkGen.toNat = g := by
      rw [hdivider, s.params.layout.divider_and_genMask hL hgen (calcDivider_le hcalc)]
    have hports := hu.ports_after_fill hb hL
    have hmem := hu.mem_after_fill hb
    have hquiet := hu.quiet_after_fill hb hL
    obtain ⟨-, hirqResult, hcallResult⟩ := hu.results.trans hb.results
    have hread (hstill : s.hostStill) (a : Nat) : v.mem.read a = s.mem.read a := by
      rw [hmem, ticks_mem_of_still _ hstill]
    exact ⟨b, ev, hu.burst_of_fill hb, rfl, hports, hu.eng_after_fill hb, hdivider, hdividerAtZero, hclkmode, henable,
      hcount, houtside, hframeSize.trans hu.frameSize, hssel.trans hu.ssel, hu.platform.trans hb.platform, hmem, hread,
      hirqResult, hcallResult, hquiet⟩
  · exact ⟨_, execXfer_of_no_clock hlive hstate hcalc, rfl, afterClockRate_ports s, rfl, rfl⟩
  · exact if_neg (Bool.eq_false_iff.1 (startAdmitted_eq_false hrefused))

/-- The host's duty for the first burst is enough for an `XFER` with an achievable clock to answer (`20_memory.md` R53). -/
theorem execXfer_completes {s : State} {len hz : Word} {tx : Option Nat} (rx : Option Nat) {m : Bool} {g : Nat}
    (hL : s.params.layout.legal = true) (hlive : s.eng.live = .ready) (hstate : s.eng.state ≠ .transferring)
    (hcalc : calcDivider hz.toNat (tick s).clock.hz.toNat = some (m, g)) (hholds : s.hostHolds)
    (hlent : s.mem.lends s.params.addrW (tx.map (bufAddr s.params.addrW)) (min len.toNat 32)) :
    ∃ t, execXfer len hz tx rx s = .next t := by
  obtain ⟨u, hu, hexec⟩ := execXfer_of_clock len tx rx hL hlive hstate hcalc
  have hlent' : u.mem.lends u.params.addrW u.eng.txBuf (burst u.eng.txLen) := by
    rw [hu.mem, hu.params, hu.eng]
    exact hlent.ticks 8 hholds
  obtain ⟨v, hv⟩ := fillBurst_completes u (hostHolds_platform hholds hu.platform) hlent'
  rw [hexec, hv]
  exact ⟨_, rfl⟩

/-- Settles O41. -/
theorem xferCompletesUnderTheHostsDuty : Obligations.XferCompletesUnderTheHostsDuty := by
  intro s len hz tx rx hL hlive hstate hclock hholds hlent
  obtain ⟨⟨m, g⟩, hcalc⟩ := Option.isSome_iff_exists.1 hclock
  obtain ⟨t, h⟩ := execXfer_completes rx hL hlive hstate hcalc hholds hlent
  obtain ⟨u, b, ev, v, hu, hb, rfl⟩ := execXfer_filled hL hlive hstate hcalc h
  have heng := hu.eng_after_fill hb
  refine ⟨_, h, rfl, rfl, congrArg Engine.rxLen heng, congrArg Engine.rxBuf heng, fun hq hroom => ?_⟩
  obtain ⟨-, -, -, hlength⟩ := hu.quiet_after_fill hb hL hq hroom
  rw [← hlength]
  exact congrArg Engine.txLen heng

end Sys2Proof.Machine
end

/-! ## The register block as an agent (`46_spi_core_agent.md` R172 to R177) -/

section
namespace Sys2Proof.Machine

/-! ### Latches -/

theorem Layout.intBit_inj {L : Layout} (hL : L.legal = true) {j k : IntSrc} : L.intBit j = L.intBit k ↔ j = k :=
  ⟨fun heq => of_not_not fun hne => L.intBit_ne hL hne heq, congrArg L.intBit⟩

section
variable {L : Layout} (hL : L.legal = true)
include hL

/-- The mask of a source is its one bit. -/
theorem getLsbD_intMask (k : IntSrc) (i : Nat) : (intMask L k).getLsbD i = decide (i = L.intBit k) := by
  have hlt := L.intBit_lt hL k
  by_cases hi : i = L.intBit k
  · subst hi
    simp [intMask, hlt]
  · have hsub : i < L.intBit k ∨ i - L.intBit k ≠ 0 := by omega
    rcases hsub with hbelow | hsub
    · simp [intMask, hi, hbelow]
    · simp [intMask, hi, hsub]

theorem getLsbD_ite_intMask (c : Prop) [Decidable c] (j k : IntSrc) :
    (if c then intMask L j else 0#4).getLsbD (L.intBit k) = (decide c && decide (k = j)) := by
  split
  · rename_i hc
    simp [getLsbD_intMask hL, Layout.intBit_inj hL, hc]
  · rename_i hc
    rw [BitVec.getLsbD_zero, decide_eq_false hc, Bool.false_and]

theorem getLsbD_ris_setLatch (b : Block) (k : IntSrc) (i : Nat) :
    (b.setLatch L k).ris.getLsbD i = (b.ris.getLsbD i || decide (i = L.intBit k)) := by
  rw [setLatch_ris, BitVec.getLsbD_or, getLsbD_intMask hL]

end

section
variable {L : Layout} {b : Block} (k : IntSrc)

theorem raiseLatch_of_enabled (h : b.enabled L = true) : raiseLatch L b k = b.setLatch L k := if_pos h

theorem raiseLatch_of_disabled (h : b.enabled L = false) : raiseLatch L b k = b := if_neg (Bool.eq_false_iff.1 h)

end

/-- Settles O51: while the controller is enabled both steps set the latch of their source. -/
theorem faultsRaiseOneLatch : Obligations.FaultsRaiseOneLatch := by
  intro s k hL henable
  have hraise : (applyEnv s (.latch k)).blk = s.blk.setLatch s.params.layout k := raiseLatch_of_enabled k henable
  refine ⟨⟨?_, fun i hi => ?_, ?_⟩, rfl, rfl⟩
  · rw [hraise, getLsbD_ris_setLatch hL, decide_eq_true rfl, Bool.or_true]
  · rw [hraise, getLsbD_ris_setLatch hL, decide_eq_false hi, Bool.or_false]
  · rw [hraise]
    rfl

/-! ### Frames -/

section
variable {L : Layout} {b : Block}

theorem canShift_iff : canShift L b = true ↔
    L.test .enable b.control = true ∧ L.test .reset b.control = false ∧ b.txq ≠ [] ∧
      b.framesSent < frameCount L b b.control := by
  simp [canShift, Block.enabled, and_assoc]

theorem coreShift_of_not_canShift (r : Byte) (h : canShift L b = false) : coreShift L b r = b :=
  if_neg (Bool.eq_false_iff.1 h)

theorem coreShift_of_disabled (r : Byte) (h : L.test .enable b.control = false) : coreShift L b r = b :=
  coreShift_of_not_canShift r (Bool.eq_false_iff.2 fun hcan => by simp [h, canShift_iff] at hcan)

end

/-- The latches one frame raises (R174): RX-overflow where the received byte is lost, RX-ready, and TX-done where the frame
count is reached. -/
def shiftLatches (L : Layout) (b : Block) : BitVec 4 :=
  (if 32 ≤ b.rxq.length then intMask L .rxovf else 0#4) ||| intMask L .rxrdy |||
    (if b.framesSent + 1 = frameCount L b b.control then intMask L .txdone else 0#4)

theorem getLsbD_shiftLatches {L : Layout} (hL : L.legal = true) (b : Block) (k : IntSrc) :
    (shiftLatches L b).getLsbD (L.intBit k) =
      match k with
      | .rxovf => decide (32 ≤ b.rxq.length)
      | .rxrdy => true
      | .txdone => decide (b.framesSent + 1 = frameCount L b b.control)
      | .txunder => false := by
  simp only [shiftLatches, BitVec.getLsbD_or, getLsbD_ite_intMask hL, getLsbD_intMask hL, Layout.intBit_inj hL]
  cases k <;> simp

theorem receiveFrame_eq (L : Layout) (b : Block) (r : Byte) :
    receiveFrame L b r = { b with
      rxq := if b.rxq.length < 32 then b.rxq ++ [r] else b.rxq
      ris := b.ris ||| (if 32 ≤ b.rxq.length then intMask L .rxovf else 0#4) } := by
  unfold receiveFrame
  by_cases hroom : b.rxq.length < 32
  · have hnot : ¬ 32 ≤ b.rxq.length := by omega
    simp [Config.fifoDepth, hroom, hnot]
  · have hfull : 32 ≤ b.rxq.length := by omega
    simp [Config.fifoDepth, hroom, hfull, Block.setLatch]

/-- One frame, where its guard holds (R174). -/
theorem coreShift_of_canShift {L : Layout} {b : Block} (r : Byte) (h : canShift L b = true) :
    coreShift L b r = { b with
      wire := b.wire ++ b.txq.take 1
      txq := b.txq.tail
      rxq := if b.rxq.length < 32 then b.rxq ++ [r] else b.rxq
      framesSent := b.framesSent + 1
      ris := b.ris ||| shiftLatches L b } := by
  rw [coreShift, if_pos h]
  simp only [receiveFrame_eq, Block.setLatch]
  by_cases hcount : b.framesSent + 1 = frameCount L b b.control
  · refine (if_pos hcount).trans ?_
    simp only [shiftLatches, if_pos hcount, BitVec.or_assoc]
  · refine (if_neg hcount).trans ?_
    simp only [shiftLatches, if_neg hcount, BitVec.or_assoc, BitVec.or_zero]

/-- A frame adds nothing to the TX FIFO, however full the RX FIFO is. -/
theorem coreShift_txq_length_le (L : Layout) (b : Block) (r : Byte) :
    (coreShift L b r).txq.length ≤ b.txq.length := by
  cases h : canShift L b with
  | false => rw [coreShift_of_not_canShift r h]
  | true =>
    rw [coreShift_of_canShift r h, List.length_tail]
    exact Nat.sub_le _ _

section
variable {L : Layout} {b : Block} {r : Byte} (h : canShift L b = true)
include h

theorem coreShift_rxq : (coreShift L b r).rxq = if b.rxq.length < 32 then b.rxq ++ [r] else b.rxq := by
  rw [coreShift_of_canShift r h]

theorem coreShift_framesSent : (coreShift L b r).framesSent = b.framesSent + 1 := by
  rw [coreShift_of_canShift r h]

theorem coreShift_openWord : (coreShift L b r).openWord = b.openWord := by
  rw [coreShift_of_canShift r h]

theorem coreShift_sends_oldest {x : Byte} {q : List Byte} (hq : b.txq = x :: q) :
    (coreShift L b r).txq = q ∧ (coreShift L b r).wire = b.wire ++ [x] := by
  rw [coreShift_of_canShift r h, hq]
  exact ⟨rfl, rfl⟩

theorem getLsbD_ris_coreShift (k : IntSrc) :
    (coreShift L b r).ris.getLsbD (L.intBit k) =
      (b.ris.getLsbD (L.intBit k) || (shiftLatches L b).getLsbD (L.intBit k)) := by
  rw [coreShift_of_canShift r h, BitVec.getLsbD_or]

end

/-- Settles O50. -/
theorem shiftExchangesOneFrame : Obligations.ShiftExchangesOneFrame := by
  intro s r x q hL L count t henable hreset htxq hcount
  have hcan : canShift L s.blk = true := canShift_iff.2 ⟨henable, hreset, htxq ▸ List.cons_ne_nil x q, hcount⟩
  obtain ⟨htx, hwire⟩ := coreShift_sends_oldest (r := r) hcan htxq
  have hris (k : IntSrc) := (getLsbD_ris_coreShift (r := r) hcan k).trans
    (congrArg (s.blk.ris.getLsbD (L.intBit k) || ·) (getLsbD_shiftLatches hL s.blk k))
  exact ⟨htx, hwire, coreShift_rxq hcan, coreShift_framesSent hcan, (hris .rxrdy).trans (Bool.or_true _), hris .rxovf,
    hris .txdone, (hris .txunder).trans (Bool.or_false _), coreShift_sameWords L s.blk r, coreShift_openWord hcan, rfl⟩

/-- Settles O52. -/
theorem stepsWithoutTheirGuardDoNothing : Obligations.StepsWithoutTheirGuardDoNothing := by
  intro s _
  refine ⟨fun r hfails => ?_, fun hdis => ⟨fun k => ?_, fun k => ?_⟩⟩
  · have hcan : canShift s.params.layout s.blk = false := by
      refine Bool.eq_false_iff.2 fun hcan => ?_
      obtain ⟨henable, hreset, htxq, hcount⟩ := canShift_iff.1 hcan
      rcases hfails with hdis | hinreset | hempty | hreached
      · exact Bool.eq_false_iff.1 hdis henable
      · exact Bool.eq_false_iff.1 hreset hinreset
      · exact htxq hempty
      · exact Nat.not_lt.2 hreached hcount
    rw [applyEnv, coreShift_of_not_canShift r hcan]
  · rw [applyEnv, raiseLatch_of_disabled k hdis]
  · rw [applyEnv, raiseLatch_of_disabled k.src hdis]

/-! ### `STATUS` -/

/-- A flag write leaves every other bit. -/
theorem Layout.getLsbD_stSet_of_ne (L : Layout) {f : StField} {i : Nat} (hi : i ≠ L.stPos f) (w : Word) (c : Bool) :
    (L.stSet f w c).getLsbD i = w.getLsbD i := by
  rw [Layout.stSet, getLsbD_setField, if_neg]
  omega

theorem getLsbD_statusWord_of_unnamed {L : Layout} {b : Block} {i : Nat} (hi : ∀ f : StField, i ≠ L.stPos f) :
    (statusWord L b).getLsbD i = b.openWord.getLsbD i := by
  simp only [statusWord, L.getLsbD_stSet_of_ne (hi _)]

section
variable {L : Layout} (hL : L.legal = true)
include hL

theorem Layout.stTest_stSet (f g : StField) (w : Word) (c : Bool) :
    L.stTest f (L.stSet g w c) = if f = g then c else L.stTest f w := by
  split
  · rename_i hfg
    rw [hfg, L.stTest_stSet_same hL]
  · rename_i hfg
    exact L.stTest_stSet_ne hL hfg w c

/-- Of the writes that put `STATUS` together, each flag keeps its own: the flags stand at different bits. -/
theorem stTest_statusWord (b : Block) (f : StField) :
    L.stTest f (statusWord L b) =
      match f with
      | .txfifoFull => decide (b.txq.length = 32)
      | .txfifoEmpty => decide (b.txq = [])
      | .rxfifoFull => decide (b.rxq.length = 32)
      | .rxfifoEmpty => decide (b.rxq = [])
      | .rxOverflow => b.ris.getLsbD L.intRxovf
      | .txUnderrun => b.ris.getLsbD L.intTxunder
      | .active => false := by
  simp only [statusWord, Layout.stTest_stSet hL]
  cases f with
  | txfifoFull | rxfifoFull | rxOverflow | txUnderrun | active => rfl
  | txfifoEmpty => simp
  | rxfifoEmpty => simp [Block.rxEmpty]

end

/-- Settles O48. -/
theorem statusShowsTheFifos : Obligations.StatusShowsTheFifos := by
  intro p b hL
  have hflag := stTest_statusWord hL b
  refine ⟨hflag .txfifoFull, hflag .txfifoEmpty, hflag .rxfifoFull, hflag .rxfifoEmpty, hflag .rxOverflow,
    hflag .txUnderrun, hflag .active, fun hopen i hi => ?_, rfl⟩
  exact (getLsbD_statusWord_of_unnamed hi).trans (by rw [hopen, BitVec.getLsbD_zero])

/-! ### `MIS` and the interrupt line -/

theorem getLsbD_misWord_high {L : Layout} {b : Block} (hopen : b.openWord = 0#32) {i : Nat} (hi : 4 ≤ i) :
    (misWord L b).getLsbD i = false := by
  simp [misWord, hopen, BitVec.getLsbD_setWidth, BitVec.getLsbD_of_ge _ i hi]

section
variable {L : Layout} (hL : L.legal = true)
include hL

/-- The block drives its line exactly while a source is latched and enabled (R176). -/
theorem coreIrqLine_iff (b : Block) : coreIrqLine L b = true ↔
    ∃ k : IntSrc, b.ris.getLsbD (L.intBit k) = true ∧ b.control.getLsbD (L.pos k.inten) = true := by
  rw [coreIrqLine, bne_iff_ne, ne_eq, misBits_eq_zero_iff hL]
  simp

theorem coreIrqLine_iff_misWord (b : Block) : coreIrqLine L b = true ↔ misWord L b &&& 0xF#32 ≠ 0#32 := by
  rw [coreIrqLine, bne_iff_ne, ne_eq, ne_eq, misBits_eq_zero_iff hL, low_eq_zero_iff hL]
  simp only [getLsbD_misWord hL]

end

/-- Settles O49. -/
theorem misShowsEnabledLatches : Obligations.MisShowsEnabledLatches := by
  intro p b hL
  exact ⟨getLsbD_misWord hL b, fun hopen _ hi => getLsbD_misWord_high hopen hi, coreIrqLine_iff_misWord hL b,
    coreIrqLine_iff hL b⟩

/-! ### `CONTROL` writes across `ENABLE` -/

section
variable {p : Params} {b : Block} (v : Word)

theorem test_enable_lockedControl {L : Layout} (hL : L.legal = true) (old : Word) :
    L.test .enable (lockedControl L old v) = L.test .enable v :=
  test_lockedControl_free hL (by decide) (by decide) (by decide) old v

/-- Without an edge from 0 to 1 a `CONTROL` write leaves the latches and the counter (R177). -/
theorem writeControl_keeps_latches (hL : p.layout.legal = true)
    (h : p.layout.test .enable b.control = true ∨ p.layout.test .enable v = false) :
    (writeControl p b v).ris = b.ris ∧ (writeControl p b v).framesSent = b.framesSent := by
  rw [← test_enable_lockedControl v hL b.control] at h
  rw [writeControl_of_not_rising p b v h]
  exact ⟨rfl, rfl⟩

/-- An edge from 0 to 1 raises TX-done for a frame count of 0, by the parameter, and no other latch (R171). -/
theorem writeControl_rising_ris (hold : p.layout.test .enable b.control = false) (hnew : p.layout.test .enable v = true) :
    (writeControl p b v).ris =
      if p.zeroLenTxdone = true ∧ frameCount p.layout b v = 0 then b.ris ||| intMask p.layout .txdone else b.ris := by
  simp only [writeControl, lockedControl_disabled v hold, Block.enabled, hold, hnew, Bool.not_false, Bool.and_self,
    if_true, Bool.and_eq_true, decide_eq_true_eq]
  split <;> rfl

end

/-- Settles O53, by the edge the write makes. -/
theorem enableTransitionsKeepTheFifos : Obligations.EnableTransitionsKeepTheFifos := by
  intro p b v hL b'
  obtain ⟨hcontrol, hwords, htxq, hrxq, hwire, -⟩ := writeControl_keeps p b v
  refine ⟨htxq, hrxq, hwire, hwords, fun hold hnew => ?_, fun hold hnew => ?_, fun hsame => ?_⟩
  · obtain ⟨hris, hsent⟩ := writeControl_keeps_latches v hL (.inl hold)
    have hdis : p.layout.test .enable b'.control = false :=
      (congrArg _ hcontrol).trans ((test_enable_lockedControl v hL _).trans hnew)
    exact ⟨hris, hsent, fun r => coreShift_of_disabled r hdis⟩
  · have hris := writeControl_rising_ris v hold hnew
    refine ⟨writeControl_rising_framesSent p b v hold hnew, writeControl_ris p b v, fun _ hcount => ?_,
      fun hzero hcount => ?_⟩
    · exact hris.trans (if_neg fun hraised => hcount hraised.2)
    · exact hris.trans (if_pos ⟨hzero, hcount⟩)
  · refine writeControl_keeps_latches v hL ?_
    cases hold : p.layout.test .enable b.control with
    | true => exact .inl rfl
    | false => exact .inr (hsame.symm.trans hold)

/-! ### What the other agents leave alone -/

/-- No step of another agent adds a frame to the TX FIFO. -/
theorem applyEnv_txq_length_le (s : State) (e : EnvEvent) : (applyEnv s e).blk.txq.length ≤ s.blk.txq.length := by
  cases e with
  | shift r => exact coreShift_txq_length_le _ _ r
  | fault k => exact (congrArg List.length (raiseLatch_keeps _ _ k.src).1).le
  | latch k => exact (congrArg List.length (raiseLatch_keeps _ _ k).1).le
  | openWord | clockHz | hostWrite | hostFree | otherIrq => exact Nat.le_refl _

/-- Every step of another agent keeps the RX FIFO within its capacity. -/
theorem applyEnv_rxq_length_le (s : State) (e : EnvEvent) (h : s.blk.rxq.length ≤ 32) :
    (applyEnv s e).blk.rxq.length ≤ 32 := by
  cases e with
  | shift r => exact (coreShift_lengths _ _ r h).2
  | fault k => exact (congrArg List.length (raiseLatch_keeps _ _ k.src).2.1).trans_le h
  | latch k => exact (congrArg List.length (raiseLatch_keeps _ _ k).2.1).trans_le h
  | openWord | clockHz | hostWrite | hostFree | otherIrq => exact h

/-- A property that popping the schedule and every step of another agent keep is kept before any number of accesses. -/
theorem ticks_induct (P : State → Prop) (h0 : ∀ s rest, P s → P { s with env := rest })
    (h : ∀ s e, P s → P (applyEnv s e)) (n : Nat) (s : State) (hs : P s) : P (ticks n s) := by
  induction n generalizing s with
  | zero => exact hs
  | succ n ih => exact ih _ (tick_induct P h0 h s hs)

section
variable (n : Nat) (s : State)

theorem ticks_sameWords : s.blk.sameWords (ticks n s).blk :=
  ticks_induct (fun t => s.blk.sameWords t.blk) (fun _ _ h => h) (fun t e h => h.trans (applyEnv_sameWords t e)) n s
    (Block.sameWords.rfl' _)

theorem ticks_eng : (ticks n s).eng = s.eng :=
  ticks_induct (fun t => t.eng = s.eng) (fun _ _ h => h) (fun t e h => (applyEnv_eng t e).trans h) n s rfl

theorem ticks_ports : (ticks n s).ports = s.ports :=
  ticks_induct (fun t => t.ports = s.ports) (fun _ _ h => h) (fun t e h => (applyEnv_ports t e).trans h) n s rfl

theorem ticks_keepsResults : s.keepsResults (ticks n s) :=
  ticks_induct (fun t => s.keepsResults t) (fun _ _ h => h)
    (fun t e h => h.trans ⟨applyEnv_result t e, applyEnv_irqResult t e, applyEnv_callResult t e⟩) n s
    (State.keepsResults.rfl' s)

theorem ticks_clock_held : (ticks n s).clock.held = s.clock.held :=
  ticks_induct (fun t => t.clock.held = s.clock.held) (fun _ _ h => h) (fun t e h => (applyEnv_clock_held t e).trans h)
    n s rfl

theorem ticks_txq_length_le : (ticks n s).blk.txq.length ≤ s.blk.txq.length :=
  ticks_induct (fun t => t.blk.txq.length ≤ s.blk.txq.length) (fun _ _ h => h)
    (fun t e h => (applyEnv_txq_length_le t e).trans h) n s (Nat.le_refl _)

theorem ticks_rxq_length_le (h : s.blk.rxq.length ≤ 32) : (ticks n s).blk.rxq.length ≤ 32 :=
  ticks_induct (fun t => t.blk.rxq.length ≤ 32) (fun _ _ h => h) applyEnv_rxq_length_le n s h

end

/-- Settles O55. -/
theorem otherAgentsWriteNoRegister : Obligations.OtherAgentsWriteNoRegister := fun n s =>
  ⟨ticks_sameWords n s, ticks_eng n s, ticks_params n s, ticks_ports n s, ticks_keepsResults n s, ticks_clock_held n s,
    fun _ => ticks_txq_length_le n s, ticks_rxq_length_le n s⟩

end Sys2Proof.Machine
end

/-! ## Exceptions (`60_exceptions.md`): the shared line, foreign interrupts, faults, and clocks out of reach -/

section
namespace Sys2Proof.Machine

/-! ### The dispatcher's own start (R196) -/

section
variable {s : State}

/-- The shared line is asserted by another device, or by a source of this block that is latched and enabled (R196). -/
theorem irqLine_iff (hL : s.params.layout.legal = true) : irqLine s = true ↔ s.otherIrq = true ∨
    ∃ k : IntSrc, s.blk.ris.getLsbD (s.params.layout.intBit k) = true ∧
      s.blk.control.getLsbD (s.params.layout.pos k.inten) = true := by
  rw [irqLine, Bool.or_eq_true, coreIrqLine_iff hL, or_comm]

theorem step_of_line_asserted (hin : s.inputs = []) (hline : irqLine s = true) : step s = exec .irq s := by
  rw [step, hin]
  exact if_pos hline

theorem step_of_line_released (hin : s.inputs = []) (hline : irqLine s ≠ true) : step s = .next s := by
  rw [step, hin]
  exact if_neg hline

end

/-- Settles O9: what the line does is said by its level, and what a start does by `live`. -/
theorem lineStartsTheIdleEngine : Obligations.LineStartsTheIdleEngine := by
  intro s hL hin
  rw [← irqLine_iff hL]
  refine ⟨fun hline => ⟨fun _ => step_of_line_asserted hin hline, fun hlive => ?_⟩, step_of_line_released hin⟩
  exact (step_of_line_asserted hin hline).trans (execIrq_of_not_ready hlive)

/-! ### No source of this block pending (R194) -/

/-- A service sees nothing exactly when no source is latched at its read and enabled (`46_spi_core_agent.md` R173). -/
theorem irqStatus_eq_zero_iff {s : State} (hL : s.params.layout.legal = true) : irqStatus s = 0#32 ↔
    ∀ k : IntSrc, ¬ ((tick s).blk.ris.getLsbD (s.params.layout.intBit k) = true ∧
      s.blk.control.getLsbD (s.params.layout.pos k.inten) = true) := by
  simp only [irqStatus, low_eq_zero_iff hL, getLsbD_readWord_mis hL, ← Bool.and_eq_true, Bool.not_eq_true]

/-- Settles O30. -/
theorem foreignInterruptIsReported : Obligations.ForeignInterruptIsReported := by
  intro s hL hlive hunseen
  have hzero := (irqStatus_eq_zero_iff hL).2 hunseen
  obtain ⟨hresult, -, hcallResult⟩ := afterRead_keepsResults .mis s
  exact ⟨_, readWord .mis s, (execIrq_ready hlive).1 hzero, hzero, rfl, afterRead_ports .mis s, rfl,
    afterRead_keepsOutside .mis s, hresult, hcallResult⟩

/-! ### A fault without TX-done (R192, R193) -/

section
variable {s : State} {f : Word}

/-- Only the TX-done part reaches buffer memory: without it a service answers, whatever the host lends. -/
theorem serviceBits_completes_of_no_txdone (hno : irqBit s.params.layout f .txdone = false) :
    ∃ t, serviceBits f s = .next t := by
  have htx : serveTxDone f s = .next (false, s) := if_neg (Bool.eq_false_iff.1 hno)
  rw [serviceBits, htx]
  exact ⟨_, rfl⟩

theorem execIrq_completes_of_no_txdone (hL : s.params.layout.legal = true) (hlive : s.eng.live = .ready)
    (hno : (readWord .mis s).getLsbD (s.params.layout.intBit .txdone) = false) : ∃ t, execIrq s = .next t := by
  obtain ⟨hnone, hserve⟩ := execIrq_ready hlive
  by_cases hf : irqStatus s = 0#32
  · exact ⟨_, hnone hf⟩
  · rw [hserve hf]
    refine serviceBits_completes_of_no_txdone ?_
    rw [afterRead_params, irqStatus, irqBit_low hL, hno]

/-- Without TX-done a service moves no frame. -/
theorem Serviced.no_bursts {u : State} {d b : List Byte} {evD evF : List PortEvent} (h : Serviced s f d b evD evF u)
    (hno : irqBit s.params.layout f .txdone = false) : (d = [] ∧ evD = []) ∧ b = [] ∧ evF = [] := by
  have hdrain := h.drain
  have hfill := h.fill
  rw [hno] at hdrain hfill
  exact ⟨hdrain, hfill⟩

/-- The engine's record after a service that completed the transfer by force: the cursors are kept (R192, R193). -/
theorem Serviced.eng_of_forced_completion {u : State}
    (h : Serviced (afterRead .mis s) (readWord .mis s) [] [] [] [] u)
    (hfinal : finalises s.params.layout (readWord .mis s) s.eng.rxLen = true) :
    u.eng = { s.eng with
      rxBuf := none, txBuf := none, state := .completing, finished := s.eng.finished + 1,
      errlog := s.eng.errlog ++
        (if (readWord .mis s).getLsbD (s.params.layout.intBit .rxovf) = true then
          [ErrEntry.mk .rxOverflow s.eng.rxLen s.eng.txLen] else []) ++
        (if (readWord .mis s).getLsbD (s.params.layout.intBit .txunder) = true then
          [ErrEntry.mk .txUnderrun s.eng.rxLen s.eng.txLen] else []) } := by
  rw [h.eng, afterRead_params, afterRead_eng]
  simp [hfinal, irqBit]

end

/-- Settles O33: a fault finalises whatever the cursors are, and with no burst nothing moves them. -/
theorem faultForcesCompletion : Obligations.FaultForcesCompletion := by
  intro s hL hlive seen hno hfault
  have hseen (k : IntSrc) : (readWord .mis s).getLsbD (s.params.layout.intBit k) = seen k := getLsbD_readWord_mis hL k
  have hno' : irqBit s.params.layout (readWord .mis s) .txdone = false := (hseen .txdone).trans hno
  have hfinal : finalises s.params.layout (readWord .mis s) s.eng.rxLen = true :=
    (finalises_iff _ _ _).2 (.inr (by rwa [hseen, hseen]))
  have hstatus : readWord .mis s &&& 0xF#32 ≠ 0#32 := fun hzero => by
    have hunseen := (low_eq_zero_iff hL _).1 hzero
    simp only [hseen] at hunseen
    simp [hunseen] at hfault
  obtain ⟨t, h⟩ := execIrq_completes_of_no_txdone hL hlive hno'
  obtain ⟨d, b, evD, evF, u, hs, rfl⟩ := execIrq_serviced hL hlive h
  obtain ⟨⟨rfl, rfl⟩, rfl, rfl⟩ := hs.no_bursts (by rwa [afterRead_params])
  have hports := hs.ports_from_read hL
  rw [List.length_nil, Nat.sub_zero, Nat.sub_zero, hfinal] at hports
  have heng := hs.eng_of_forced_completion hfinal
  rw [hseen, hseen] at heng
  have hwords := hs.words_from_read hL
  rw [hno'] at hwords
  obtain ⟨-, hresult, -⟩ := hs.results
  obtain ⟨hread, -⟩ := afterRead_keepsResults .mis s
  exact ⟨_, readWord .mis s, h, hseen, hports, heng, congrArg some (irqAnswer_of_ne_zero hstatus), hwords,
    hresult.trans hread, fun hstill a => hs.mem_read_other hstill a fun _ _ _ hk => absurd hk (Nat.not_lt_zero _)⟩

/-! ### A clock that cannot be achieved (R191) -/

/-- The causes of failure in the words of the two rates: a target of 0 is a clamped target of 0. -/
theorem calcDivider_eq_none_of_rates {hz src : Word}
    (h : src = 0#32 ∨ hz = 0#32 ∨ 65535 * min hz.toNat src.toNat < src.toNat) :
    calcDivider hz.toNat src.toNat = none := by
  rw [calcDivider_eq_none_iff]
  rcases h with rfl | rfl | hratio
  · exact .inl rfl
  · exact .inr (.inl (Nat.zero_min _))
  · exact .inr (.inr hratio)

/-- Settles O39. -/
theorem unachievableClockStopsXfer : Obligations.UnachievableClockStopsXfer := by
  intro s len hz tx rx hlive hstate hcause
  obtain ⟨-, hirqResult, hcallResult⟩ := afterClockRate_keepsResults s
  exact ⟨_, execXfer_of_no_clock hlive hstate (calcDivider_eq_none_of_rates hcause), rfl, afterClockRate_ports s, rfl, rfl,
    afterClockRate_sameWords s, (afterClockRate_keepsOutside s).platform, rfl, hirqResult, hcallResult⟩

end Sys2Proof.Machine
end

/-! ## Reset and the bounds on an operation's accesses (`70_reset_and_hazards.md`) -/

section
namespace Sys2Proof.Machine

/-! ### The way out of `REMOVED` (R220) -/

section
variable {s t : State}

/-- The dispatcher's own turn to a removed instance leaves the engine's record alone: the service is not started
(`45_host_operations.md` R164). -/
theorem idleStep_eng_of_removed (hlive : s.eng.live = .removed) (h : idleStep s = .next t) : t.eng = s.eng := by
  unfold idleStep at h
  split at h
  · have hnone : exec .irq s = .next (respondIrq .none s) := execIrq_of_not_ready (by simp [hlive])
    cases hnone.symm.trans h
    rfl
  · cases h
    rfl

/-- Of the four kinds of step the reset event alone moves the record of a removed instance (`44_init_teardown.md` R151). -/
theorem step_eng_of_removed (hlive : s.eng.live = .removed) (h : step s = .next t) :
    t.eng = s.eng ∨ ∃ b rest, s.inputs = .reset b :: rest := by
  rcases step_cases h with ⟨-, hidle⟩ | ⟨r, rest, -, hrun⟩ | ⟨e, rest, -, rfl⟩ | ⟨b, rest, hin, -⟩
  · exact .inl (idleStep_eng_of_removed hlive hidle)
  · cases (runRequest_of_removed (s := { s with inputs := rest }) hlive r).symm.trans hrun
    obtain ⟨-, heng, -⟩ := rejectRequest_keeps r.source { s with inputs := rest }
    exact .inl heng
  · exact .inl (applyEnv_eng _ e)
  · exact .inr ⟨b, rest, hin⟩

theorem step_of_reset {b : Block} {rest : List Input} (hin : s.inputs = .reset b :: rest) :
    step s = .next (resetEngine b { s with inputs := rest }) := by
  rw [step, hin]
  rfl

end

/-- Settles O1. -/
theorem resetEventSetsTheRecord : Obligations.ResetEventSetsTheRecord := by
  refine ⟨fun s b rest hin => ⟨_, step_of_reset hin, ?_⟩, fun s t hlive h hout => ?_⟩
  · simp [Engine.reset]
  · refine (step_eng_of_removed hlive h).resolve_left fun heng => hout ?_
    rw [heng, hlive]

/-! ### Counting register accesses (R231, R235) -/

section
variable {s t : State} {ev : List PortEvent} {n : Nat}

theorem State.accesses_le_of_ports (h : t.ports = s.ports ++ ev) (hev : ev.countP isRegAccess ≤ n) : s.accesses t ≤ n :=
  (State.accesses_of_ports h).trans_le hev

/-- A stage that adds nothing to the record makes no access. -/
theorem State.accesses_le_of_same_ports (h : t.ports = s.ports) : s.accesses t ≤ n :=
  State.accesses_le_of_ports (ev := []) (by rw [h, List.append_nil]) (Nat.zero_le n)

end

/-! The bursts (`42_fifo.md` R130, R131): an iteration makes two register accesses, and the read of `STATUS` that ends a
loop by its flag stands for an iteration that was left out. -/

theorem countP_isRegAccess_fillPorts (w : Nat) (buf : Option Nat) (xs : List (Word × Byte)) :
    (fillPorts w buf xs).countP isRegAccess = 2 * xs.length := by
  induction xs generalizing buf with
  | nil => cases buf <;> rfl
  | cons x xs ih => cases buf <;> simp [fillPorts, List.countP_cons, isRegAccess, ih, Nat.mul_succ]

theorem countP_isRegAccess_drainPorts (w : Nat) (buf : Option Nat) (xs : List (Word × Word)) :
    (drainPorts w buf xs).countP isRegAccess = 2 * xs.length := by
  induction xs generalizing buf with
  | nil => cases buf <;> rfl
  | cons x xs ih => cases buf <;> simp [drainPorts, List.countP_cons, isRegAccess, ih, Nat.mul_succ]

theorem loopEnd_regAccesses_le {L : Layout} {f : StField} {n i : Nat} {last : List PortEvent}
    (h : loopEnd L f n i last) : 2 * i + last.countP isRegAccess ≤ 2 * n := by
  rcases h with ⟨rfl, rfl⟩ | ⟨hlt, w, rfl, -⟩
  · exact le_rfl
  · have hone : [PortEvent.regRead .status w].countP isRegAccess = 1 := rfl
    omega

section
variable {p : Params} {c : Word} {n : Nat} {buf : Option Nat} {bs : List Byte} {ev : List PortEvent}

theorem isDrain_regAccesses_le (h : isDrain p n buf bs ev) : ev.countP isRegAccess ≤ 64 := by
  obtain ⟨xs, last, rfl, rfl, -, hend⟩ := h
  have hloop := loopEnd_regAccesses_le hend
  rw [List.length_map] at hloop
  rw [List.countP_append, countP_isRegAccess_drainPorts]
  omega

theorem isFill_regAccesses_le (h : isFill p c n buf bs ev) : ev.countP isRegAccess ≤ 71 := by
  obtain ⟨xs, last, rfl, rfl, -, hend⟩ := h
  have hloop := loopEnd_regAccesses_le hend
  have hlen (len : Word) : (xferLenPorts p.layout c len).countP isRegAccess = 7 := rfl
  rw [List.length_map] at hloop
  rw [List.countP_append, List.countP_append, countP_isRegAccess_fillPorts, hlen]
  omega

end

/-! The interrupt service (`43_interrupt.md` R140): the status read, the bursts, and four acknowledgements. -/

theorem Serviced.burst_regAccesses_le {s u : State} {w : Word} {d b : List Byte} {evD evF : List PortEvent}
    (h : Serviced s w d b evD evF u) : evD.countP isRegAccess ≤ 64 ∧ evF.countP isRegAccess ≤ 71 := by
  obtain ⟨hdrain, hfill, -⟩ := h
  constructor
  · split at hdrain
    · exact isDrain_regAccesses_le hdrain
    · rw [hdrain.2]; exact Nat.zero_le _
  · split at hfill
    · exact isFill_regAccesses_le hfill
    · rw [hfill.2]; exact Nat.zero_le _

theorem countP_isRegAccess_irqPorts_le (L : Layout) (w : Word) (evD evF : List PortEvent) (rx tx : Nat) (final : Bool) :
    (irqPorts L w evD evF rx tx final).countP isRegAccess ≤
      5 + evD.countP isRegAccess + evF.countP isRegAccess := by
  simp only [irqPorts, List.countP_cons, List.countP_append, apply_ite (List.countP isRegAccess), List.countP_nil,
    isRegAccess, if_true, Bool.false_eq_true, if_false]
  split_ifs <;> omega

/-! ### The instructions -/

section
variable {s t : State} (hL : s.params.layout.legal = true)

theorem execSetcs_accesses_le {cs : BitVec 3} {disable : Bool} (h : execSetcs cs disable s = .next t) :
    s.accesses t ≤ 2 := by
  unfold execSetcs at h
  split at h <;> cases h
  · exact State.accesses_le_of_ports (rmw_ports .slaveSelect (withCs · cs disable) s) le_rfl
  · exact State.accesses_le_of_same_ports rfl

theorem execSetup_accesses_le {cs : BitVec 3} {csHigh : Bool} (h : execSetup cs csHigh s = .next t) :
    s.accesses t ≤ 2 := by
  cases csHigh with
  | true => exact execSetcs_accesses_le ((execSetup_csHigh cs s).symm.trans h)
  | false =>
    unfold execSetup at h
    split at h <;> cases h <;> exact State.accesses_le_of_same_ports rfl

theorem execFinack_accesses_le (h : execFinack s = .next t) : s.accesses t ≤ 0 := by
  unfold execFinack at h
  split at h <;> cases h
  · exact State.accesses_le_of_same_ports (by rw [respond_ports, acceptFinished_eq])
  · exact State.accesses_le_of_same_ports rfl

theorem execCalcClk_accesses_le {target src : Word} (h : execCalcClk target src s = .next t) : s.accesses t ≤ 0 := by
  unfold execCalcClk at h
  split at h <;> cases h <;> exact State.accesses_le_of_same_ports rfl

theorem execDrain_accesses_le (h : execDrain s = .next t) : s.accesses t ≤ 64 := by
  obtain ⟨u, hburst, hend⟩ := andThen_eq_next h
  cases hend
  obtain ⟨d, ev, hd⟩ := drainBurst_drained hburst
  exact State.accesses_le_of_ports hd.ports (isDrain_regAccesses_le hd.burst)

include hL

theorem execInit_accesses_le (h : execInit s = .next t) : s.accesses t ≤ 18 := by
  unfold execInit at h
  split at h <;> cases h
  · exact State.accesses_le_of_ports (initialise_ports hL) le_rfl
  · exact State.accesses_le_of_same_ports rfl

theorem execTeardown_accesses_le (h : execTeardown s = .next t) : s.accesses t ≤ 8 := by
  unfold execTeardown at h
  split at h <;> cases h
  · exact State.accesses_le_of_ports (teardown_ports hL) le_rfl
  · exact State.accesses_le_of_same_ports rfl

theorem execPrepmsg_accesses_le {mode : BitVec 2} (h : execPrepmsg mode s = .next t) : s.accesses t ≤ 11 := by
  unfold execPrepmsg at h
  split at h <;> cases h
  · exact State.accesses_le_of_ports (programMessage_ports hL mode) le_rfl
  · exact State.accesses_le_of_same_ports rfl

theorem execSetFramesize_accesses_le {bits : Byte} (h : execSetFramesize bits s = .next t) : s.accesses t ≤ 5 := by
  unfold execSetFramesize at h
  split at h <;> cases h
  · exact State.accesses_le_of_ports (setFrameSize_ports hL bits) le_rfl
  · exact State.accesses_le_of_same_ports rfl

theorem execFill_accesses_le (h : execFill s = .next t) : s.accesses t ≤ 71 := by
  obtain ⟨u, hburst, hend⟩ := andThen_eq_next h
  cases hend
  obtain ⟨b, ev, hb⟩ := fillBurst_filled hburst
  exact State.accesses_le_of_ports (hb.ports hL) (isFill_regAccesses_le hb.burst)

/-- A transfer applies the clock in 7 accesses before its first burst; a refused one and one whose clock cannot be achieved
make none. -/
theorem execXfer_accesses_le {len hz : Word} {tx rx : Option Nat} (h : execXfer len hz tx rx s = .next t) :
    s.accesses t ≤ 78 := by
  by_cases hstart : s.eng.live = .ready ∧ s.eng.state ≠ .transferring
  · obtain ⟨hlive, hstate⟩ := hstart
    cases hcalc : calcDivider hz.toNat (tick s).clock.hz.toNat with
    | none =>
      cases (execXfer_of_no_clock hlive hstate hcalc).symm.trans h
      exact State.accesses_le_of_ports (afterClockRate_ports s) (Nat.zero_le _)
    | some mg =>
      obtain ⟨u, b, ev, v, hu, hb, rfl⟩ := execXfer_filled hL hlive hstate hcalc h
      have hports := hu.ports_after_fill hb hL
      refine State.accesses_le_of_ports hports ?_
      have hclock : (.clockRate (tick s).clock.hz ::
          applyClkPorts s.params.layout s.blk.control mg.1 mg.2).countP isRegAccess = 7 := rfl
      have hburst := isFill_regAccesses_le hb.burst
      rw [List.countP_append, hclock]
      omega
  · have hrefused : exec (.xfer len hz tx rx) s = .next (respond .refused s) :=
      exec_of_not_admitted rfl (by simpa [Instr.admitted] using hstart)
    cases hrefused.symm.trans h
    exact State.accesses_le_of_same_ports rfl

theorem execIrq_accesses_le (h : execIrq s = .next t) : s.accesses t ≤ 140 := by
  by_cases hlive : s.eng.live = .ready
  · obtain ⟨d, b, evD, evF, u, hs, rfl⟩ := execIrq_serviced hL hlive h
    obtain ⟨hD, hF⟩ := hs.burst_regAccesses_le
    refine State.accesses_le_of_ports (hs.ports_from_read hL) ((countP_isRegAccess_irqPorts_le _ _ _ _ _ _ _).trans ?_)
    omega
  · cases (execIrq_of_not_ready hlive).symm.trans h
    exact State.accesses_le_of_same_ports rfl

/-- Every operation that answers stays within its count (R235). -/
theorem exec_accesses_le {i : Instr} (h : exec i s = .next t) : s.accesses t ≤ i.maxAccesses := by
  cases i with
  | init => exact execInit_accesses_le hL h
  | setup cs csHigh => exact execSetup_accesses_le h
  | prepmsg mode => exact execPrepmsg_accesses_le hL h
  | xfer len hz tx rx => exact execXfer_accesses_le hL h
  | setcs cs disable => exact execSetcs_accesses_le h
  | finack => exact execFinack_accesses_le h
  | teardown => exact execTeardown_accesses_le hL h
  | irq => exact execIrq_accesses_le hL h
  | calcClk target src => exact execCalcClk_accesses_le h
  | applyClk => cases h; exact State.accesses_le_of_ports (applyClk_ports hL) le_rfl
  | disable => cases h; exact State.accesses_le_of_ports (disableCtl_ports s) le_rfl
  | enable => cases h; exact State.accesses_le_of_ports (enableCtl_ports s) le_rfl
  | setFramesize bits => exact execSetFramesize_accesses_le hL h
  | setMode mode => cases h; exact State.accesses_le_of_ports (setSpiMode_ports hL mode) le_rfl
  | setXferLen len => cases h; exact State.accesses_le_of_ports (setTransferLen_ports hL len) le_rfl
  | enableInts => cases h; exact State.accesses_le_of_ports (enableInterrupts_ports hL) le_rfl
  | disableInts => cases h; exact State.accesses_le_of_ports (disableInterrupts_ports hL) le_rfl
  | fill => exact execFill_accesses_le hL h
  | drain => exact execDrain_accesses_le h
  | ack bit => cases h; exact State.accesses_le_of_ports (regWrite_ports _ _ s) le_rfl

end

/-- Settles O57, by the count of each instruction. -/
theorem accessesAreBounded : Obligations.AccessesAreBounded := fun _ _ _ hL h => exec_accesses_le hL h

end Sys2Proof.Machine
end
